-- ==== Sys2Proof/Word.lean ====
section
/-! DEFINITION. The words of the lanes and highways, and the numbered table that every block's records
are kept in. Nothing here follows a rule of the spec beyond the widths it states. -/

namespace Sys2Proof

/-- One byte of a cell (12, R195). -/
abbrev Byte := BitVec 8
/-- One half-byte of a digit string (12, R196): 0..9 digits, 10 `*`, 11 `#`, 15 the filler. -/
abbrev Symbol := BitVec 4
/-- A digit string: a DN, a dialled string or an access code (00, Terms). -/
abbrev Digits := List Symbol
/-- An equipment number as a cell carries it, 0..1023 (12, R195). -/
abbrev Equip := BitVec 10
/-- A call reference, 0..65535 (00, Terms); 0 says that the cell concerns no call. -/
abbrev CallRef := BitVec 16
/-- A highway or prompt sample, 16-bit two's complement (00, Numbers and ranges). -/
abbrev Sample := BitVec 16

/-- A table whose entries carry the numbers `lo .. lo + n - 1`, as the manual numbers them
(stations 0..383, groups 1..32, zones 1..24, …). -/
structure Tab (lo n : Nat) (α : Type) where
  vec : Vector α n
deriving DecidableEq, Repr

/-- The entry numbered `i`; a number outside the table reads as the type's default value. -/
def Tab.get {lo n : Nat} {α : Type} [Inhabited α] (t : Tab lo n α) (i : Nat) : α :=
  if h : lo ≤ i ∧ i < lo + n then t.vec[i - lo]'(by omega) else default

/-- Replaces the entry numbered `i`; a number outside the table changes nothing. -/
def Tab.put {lo n : Nat} {α : Type} (t : Tab lo n α) (i : Nat) (a : α) : Tab lo n α :=
  if h : lo ≤ i ∧ i < lo + n then ⟨t.vec.set (i - lo) a (by omega)⟩ else t

/-- The same value under every number. -/
def Tab.all (lo n : Nat) {α : Type} (a : α) : Tab lo n α := ⟨Vector.replicate n a⟩

/-- Every entry changed in the same way. -/
def Tab.map {lo n : Nat} {α β : Type} (f : α → β) (t : Tab lo n α) : Tab lo n β := ⟨t.vec.map f⟩

end Sys2Proof
end

