-- ==== Sys2Proof/Syntax.lean ====
section
/-! DEFINITION. The commands the part takes, one constructor per row of spec/opcode_table.json, and the
cells they carry. The table gives a row no operand fields; the operands are those of the rule it names.
Spec sections are cited by file number and rule: (01, R5) is rule R5 of 01_control_lane_and_cell_path.md. -/

namespace Sys2Proof

/-- The two directions of the control lane (00, Terms). -/
inductive Dir where
  | down | up
deriving DecidableEq, Repr, Inhabited

/-- Caller class of an OFFER, in its wire order (12, R195). -/
inductive CallerClass where
  | internal | external | priority
deriving DecidableEq, Repr, Inhabited

/-- Cause of a WITHDRAW, in its wire order (12, R195). -/
inductive WithdrawCause where
  | noAnswer | taken | cancelled
deriving DecidableEq, Repr, Inhabited

/-- Cause of a REFUSED, in its wire order (12, R195). -/
inductive RefusedCause where
  | busy | unavailable | overflow
deriving DecidableEq, Repr, Inhabited

/-- Via of an ANSWERED, in its wire order (12, R195). -/
inductive Via where
  | direct | pickup | directed | orbit
deriving DecidableEq, Repr, Inhabited

/-- Feature of an ENGAGE, in its wire order (12, R195). -/
inductive EngageFeature where
  | page | logon | logoff | status | denied
deriving DecidableEq, Repr, Inhabited

/-- Outcome of a MAINT_REPLY, in its wire order (12, R195). -/
inductive ReplyOutcome where
  | done | refusedArgument | refusedState | unknownRequest
deriving DecidableEq, Repr, Inhabited

/-- What a cell of a known kind carries after its header (12, R195). -/
inductive Body where
  | offer (called caller : Digits) (cls : CallerClass) (group : Option Nat)
  | withdraw (cause : WithdrawCause)
  | callEnd
  | tone (kind : Byte)
  | display (group queued : Byte) (wait : BitVec 16) (available free : Byte)
  | maint (tag kind : Byte) (args : List Byte)
  | offHook
  | dialled (symbols : Digits)
  | ringStarted
  | answered (via : Via)
  | refused (cause : RefusedCause)
  | onHook
  | engage (feature : EngageFeature)
  | divert (dn : Digits)
  | maintReply (tag : Byte) (outcome : ReplyOutcome) (part count : Byte) (data : List Byte)
  | attention (flags unmasked : BitVec 16)
deriving DecidableEq, Repr, Inhabited

/-- A cell of a known kind: the header's equipment number and call reference, and the contents (12, R195). -/
structure Cell where
  eq : Equip
  call : CallRef
  body : Body
deriving DecidableEq, Repr, Inhabited

/-- A cell as its slot carries it: the bytes, and where in it a line-code violation stands, if one does: a damaged cell
(01, R2, R5). The place is counted in bits from the cell's first bit (notes/assumptions/32.md). -/
structure WireCell where
  bytes : List Byte
  violation : Option Nat
deriving DecidableEq, Repr, Inhabited

/-- A damaged cell: its bytes, and where in it its line-code violation stands (01, R5; notes/assumptions/32.md). -/
structure DamagedCell where
  bytes : List Byte
  violation : Nat
deriving DecidableEq, Repr, Inhabited

/-- A damaged cell as its slot carries it. -/
def DamagedCell.onWire (c : DamagedCell) : WireCell := ⟨c.bytes, some c.violation⟩

/-- One incoming slot while a reset bridges the part (01, R20): a cell slot of a lane, or one slot of HWY_F_IN. -/
inductive BridgeSlot where
  | lane (d : Dir) (content : Option WireCell)
  | highway (slot : BitVec 9) (sample : Sample)
deriving DecidableEq, Repr, Inhabited

/-- The commands: one constructor per row of spec/opcode_table.json, in the table's order. A request of the
maintenance family stands for a MAINT cell to the part's own number; it carries the request tag and the argument
bytes that follow the request kind (12, R197). -/
inductive Instr where
  | powerOn
  | powerOnResetEnd (straps : BitVec 4)
  | resetNAssert
  | resetNRelease (straps : BitVec 4)
  | outgoingSlot (d : Dir)
  | damagedCell (d : Dir) (cell : DamagedCell)
  | malformedCell (d : Dir) (bytes : List Byte)
  | unknownKindCell (d : Dir) (bytes : List Byte)
  | pilotArrival (call : CallRef) (called caller : Digits) (cls : CallerClass) (group : Option Nat)
  | offer (eq : Equip) (call : CallRef) (called caller : Digits) (cls : CallerClass) (group : Option Nat)
  | withdraw (eq : Equip) (call : CallRef) (cause : WithdrawCause)
  | abandonment (call : CallRef) (cause : WithdrawCause)
  | callEnd (eq : Equip) (call : CallRef)
  | tone (eq : Equip) (call : CallRef) (kind : Byte)
  | display (eq : Equip) (call : CallRef) (group queued : Byte) (wait : BitVec 16) (available free : Byte)
  | maintPass (eq : Equip) (call : CallRef) (tag kind : Byte) (args : List Byte)
  | offHook (eq : Equip) (call : CallRef)
  | onHook (eq : Equip) (call : CallRef)
  | ringStarted (eq : Equip) (call : CallRef)
  | dialled (eq : Equip) (call : CallRef) (symbols : Digits)
  | answered (eq : Equip) (call : CallRef) (via : Via)
  | refused (eq : Equip) (call : CallRef) (cause : RefusedCause)
  | engage (eq : Equip) (call : CallRef) (feature : EngageFeature)
  | divert (eq : Equip) (call : CallRef) (dn : Digits)
  | maintReply (eq : Equip) (call : CallRef) (tag : Byte) (outcome : ReplyOutcome) (part count : Byte) (data : List Byte)
  | attention (eq : Equip) (call : CallRef) (flags unmasked : BitVec 16)
  | readEntry (tag : Byte) (args : List Byte)
  | writeEntry (tag : Byte) (args : List Byte)
  | clearEntry (tag : Byte) (args : List Byte)
  | commit (tag : Byte) (args : List Byte)
  | cancelCommit (tag : Byte) (args : List Byte)
  | setModeTransparent (tag : Byte) (args : List Byte)
  | setModeEngaged (tag : Byte) (args : List Byte)
  | restart (tag : Byte) (args : List Byte)
  | stationAvailability (tag : Byte) (args : List Byte)
  | stationServiceOut (tag : Byte) (args : List Byte)
  | stationServiceIn (tag : Byte) (args : List Byte)
  | alarmStart (tag : Byte) (args : List Byte)
  | alarmClear (tag : Byte) (args : List Byte)
  | promptAddress (tag : Byte) (args : List Byte)
  | promptWrite (tag : Byte) (args : List Byte)
  | promptRead (tag : Byte) (args : List Byte)
  | readStatus (tag : Byte) (args : List Byte)
  | writeResetCause (tag : Byte) (args : List Byte)
  | readLive (tag : Byte) (args : List Byte)
  | readCounters (tag : Byte) (args : List Byte)
  | clearCounters (tag : Byte) (args : List Byte)
  | attentionRead (tag : Byte) (args : List Byte)
  | attentionClear (tag : Byte) (args : List Byte)
  | attentionMaskSet (tag : Byte) (args : List Byte)
  | attentionMaskClear (tag : Byte) (args : List Byte)
  | unknownRequest (tag kind : Byte) (args : List Byte)
  | alarmInActive
  | alarmInInactive
  | wrapUpExpiry (station : Nat)
  | noAnswerExpiry (call : CallRef)
  | maximumWaitExpiry (call : CallRef)
  | announcePointExpiry (call : CallRef)
  | chime (orbit : Nat)
  | sessionDeadline (session : Nat)
  | commitExpiry
  | memberAvailable (station : Nat)
  | headCheck (group : Nat)
  | frameFormation (tap shelf : List Sample)
  | noiseBlockEnd (zone : Nat) (sense : Sample)
  | toneCycleEnd (zone : Nat)
  | promptStepEnd (zone : Nat)
  | contentCompletion (zone : Nat)
  | loudChange (zone : Nat)
  | frameFormed
  | preannounceEnd (session : Nat)
  | resetBridgeSlot (slot : BridgeSlot)
  | beaconPhaseChange (zone : Nat)
deriving DecidableEq, Repr, Inhabited

end Sys2Proof
end

