-- ==== Sys2Proof/Decode.lean ====
section
/-! DEFINITION. The command that a word of the opcode table spells. Commands of this part are cells, slots and events; the
table gives no row any bits, so no word spells a command. Cells are read from their bytes by `parseCell`
(Machine/Wire.lean). -/

namespace Sys2Proof

/-- The command that `nbits` bits `w` spell by the table's encodings: none, since no row has one. -/
def decodeTableWord (_nbits _w : Nat) : Option Instr := none

end Sys2Proof
end

