-- ==== Sys2Proof/Config.lean ====
section
/-! DEFINITION. What the manual fixes for every part (00, Numbers used throughout) and what one part fixes for
itself (11, R188). -/

namespace Sys2Proof

/-- Cells an outgoing queue holds (01, R16, R18). -/
def Config.queueCells : Nat := 64
/-- Hunt records the call table holds (04, R65). -/
def Config.huntRecords : Nat := 64
/-- Call references the closed-call list holds (04, R66). -/
def Config.closedCalls : Nat := 64
/-- Tracked stations carry equipment numbers 0..383 (00). -/
def Config.stations : Nat := 384
/-- Claims a zone's list holds (07, R125). -/
def Config.claims : Nat := 4
/-- Samples of prompt memory (09, 9.3). -/
def Config.promptSamples : Nat := 32768
/-- Where every counter stops (11, R190). -/
def Config.counterMax : Nat := 65535
/-- The longest commit delay in seconds (03, R52). -/
def Config.commitDelayMax : Nat := 86400
/-- Bytes of reply data one MAINT_REPLY cell carries (12, R198). -/
def Config.replyBytes : Nat := 56
/-- Frames of a noise block (08, R151). -/
def Config.blockFrames : Nat := 64
/-- The family code of the status record (11, R188). -/
def Config.family : Nat := 4408

/-- The part's revision number, fixed in the part (11, R188): a free value, see notes/assumptions/7.md. -/
opaque Config.revision : Byte

end Sys2Proof
end

