-- ==== Sys2Proof/Machine/State.lean ====
section
/-! DEFINITION. Every piece of state the manual gives the CJ4408, block by block (00, Block overview), the reasons a
step could stop, and the state right after the power-on reset. INVENTORY.md lists each field with its rule. -/

namespace Sys2Proof.Machine

/-- Why a step would stop with a fault. It has no constructor: the manual names no condition in which the part stops
(bad cells are forwarded and counted, bad requests answered, full queues discard), so nobody raises one. -/
inductive Fault where
deriving DecidableEq, Repr

/-- Why a step would be refused. -/
inductive Refusal where
  /-- Raised by an arm of `exec` whose command has no meaning yet; no arm raises it. Safe: the run stops. -/
  | notModelled (mnemonic : String)
deriving DecidableEq, Repr

/-! ### Lane Interface (01) -/

/-- Whether a reset holds (01, R20; 11, R186). -/
inductive Phase where
  | inService | powerReset | pinReset
deriving DecidableEq, Repr, Inhabited

/-- A bridge from an input line to its output (01, R20, R21): off; holding during a reset; ending, from the release to
the end of the slot (or frame) in progress. -/
inductive Bridge where
  | off | holding | ending
deriving DecidableEq, Repr, Inhabited

/-- A cell in an outgoing queue: one whose kind and contents are known, or the bytes of a cell that passed unread
(01, R5, R6, R7). -/
inductive LaneCell where
  | known (c : Cell)
  | raw (w : WireCell)
deriving DecidableEq, Repr, Inhabited

/-- The four lane counters (01, R19). -/
structure LaneCounters where
  malformed : Nat
  discardedDown : Nat
  discardedUp : Nat
  unexpected : Nat
deriving DecidableEq, Repr, Inhabited

/-- The Lane Interface (01) with the lines it drives. -/
structure Lane where
  phase : Phase
  bridgeDown : Bridge
  bridgeUp : Bridge
  bridgeHighway : Bridge
  straps : BitVec 4
  own : Equip
  downQueue : List LaneCell
  upQueue : List LaneCell
  downOut : Option WireCell
  upOut : Option WireCell
  counters : LaneCounters
deriving DecidableEq, Repr, Inhabited

/-! ### Station Tracker and Code Matcher (02) -/

/-- Line states, in the order of 02, 2.1. -/
inductive LineState where
  | idle | seized | offered | ringing | talking | feature | outOfService
deriving DecidableEq, Repr, Inhabited

/-- Page authorities, lowest first (02, 2.1; 07, R131). -/
inductive Authority where
  | none | normal | urgent | emergency
deriving DecidableEq, Repr, Inhabited

/-- A station record (02, 2.1): six configuration fields, then the live fields. -/
structure Station where
  dn : Option Digits
  talkSlot : Option Nat
  homeZone : Option Nat
  pickupGroup : Option Nat
  authority : Authority
  ringAssist : Bool
  line : LineState
  call : Option CallRef
  deliveredBy : Option Nat
  available : Bool
  strikes : Nat
  wrapUp : Option Nat
  lastIdle : Nat
  source : Option Nat
deriving DecidableEq, Repr, Inhabited

/-- Features of access codes, in the order of 02, 2.4. -/
inductive CodeFeature where
  | groupPickup | directedPickup | page | orbitRetrieve | logon | logoff | groupStatus
deriving DecidableEq, Repr, Inhabited

/-- Page classes, lowest first (02, 2.4; 07, 7.5). -/
inductive PageClass where
  | normal | urgent | emergency
deriving DecidableEq, Repr, Inhabited

/-- A loaded entry of the access code table (02, 2.4). -/
structure AccessCode where
  code : Digits
  feature : CodeFeature
  cls : PageClass
deriving DecidableEq, Repr, Inhabited

/-! ### Hunt Controller (03, 04) -/

/-- Disciplines, in the order of 03, 3.1. -/
inductive Discipline where
  | linear | circular | longestIdle
deriving DecidableEq, Repr, Inhabited

/-- The fourteen fields of a group definition above the member list (03, 3.1). -/
structure GroupFields where
  pilot : Option Digits
  discipline : Discipline
  noAnswer : Nat
  capacity : Nat
  maxWait : Nat
  overflowDn : Option Digits
  alarmDn : Option Digits
  wrapUp : Nat
  threshold : Nat
  announceRepeat : Nat
  announcePrompt : Option Nat
  announceSet : Nat
  strikesThreshold : Nat
  membersOnly : Bool
deriving DecidableEq, Repr, Inhabited

/-- A hunt group definition of one bank: its fields and its ordered member list (03, 3.1). -/
structure Group where
  fields : GroupFields
  members : List Nat
deriving DecidableEq, Repr, Inhabited

/-- The seven counters of a group number (04, R89). -/
structure GroupCounters where
  offered : Nat
  answered : Nat
  picked : Nat
  retrieved : Nat
  abandoned : Nat
  diverted : Nat
  noAnswers : Nat
deriving DecidableEq, Repr, Inhabited

/-- Live state tied to a group number beside its queue (03, 3.2). -/
structure GroupLive where
  pointer : Option Nat
  counters : GroupCounters
deriving DecidableEq, Repr, Inhabited

/-- What an orphaned record does when its offer ends (03, R58). -/
inductive RetiredAction where
  | divert (dn : Digits)
  | refusedBusy
deriving DecidableEq, Repr, Inhabited

/-- The state of a hunt record with the fields that only this state has (04, 4.1). A record whose member has been
detached (04, 4.4) names none until its re-selection, in the same event, has placed it. -/
inductive HuntStatus where
  | queued (waitDeadline : Nat) (announcePoint : Option Nat) (orbit : Option Nat) (awaiting : Bool)
  | offered (member : Option Nat) (deadline : Nat) (retired : Option RetiredAction)
deriving DecidableEq, Repr, Inhabited

/-- A hunt record (04, 4.1). -/
structure HuntRecord where
  call : CallRef
  group : Nat
  arrival : Nat
  called : Digits
  caller : Digits
  cls : CallerClass
  tried : List Nat
  status : HuntStatus
deriving DecidableEq, Repr, Inhabited

/-- The Hunt Controller. `records` is the hunt call table; the QUEUED records of one group stand in it in their queue
order (04, R79). `headChecks` and `available` are the head checks (04, R83) and member-available events (02, R37)
raised and not yet taken, in ascending order. -/
structure Hunt where
  staged : Tab 1 32 Group
  active : Tab 1 32 Group
  live : Tab 1 32 GroupLive
  records : List HuntRecord
  closed : List CallRef
  countdown : Option Nat
  headChecks : List Nat
  available : List Nat
deriving DecidableEq, Repr

/-! ### Orbit Table (06) and Pickup Unit (05) -/

/-- An occupied orbit (06, 6.1). -/
structure Orbit where
  call : CallRef
  group : Nat
  assigned : Nat
  nextChime : Nat
deriving DecidableEq, Repr, Inhabited

/-- A ringing-set entry (05, 5.1). -/
structure Ringing where
  station : Nat
  call : CallRef
  start : Nat
  group : Option Nat
deriving DecidableEq, Repr, Inhabited

/-- The Pickup Unit: the ringing set, oldest first, the partner table and two counters (05). -/
structure Pickup where
  ringing : List Ringing
  partners : Tab 1 63 (List Nat)
  successes : Nat
  denials : Nat
deriving DecidableEq, Repr

/-! ### Paging Controller, Zone Arbiter, Zone Mixer (07, 08, 09) -/

/-- Status of a zone in a session's zone list (07, 7.5). -/
inductive HoldStatus where
  | held | lost
deriving DecidableEq, Repr, Inhabited

/-- Phase of a session (07, 7.5). -/
inductive SessionPhase where
  | preannounce | live
deriving DecidableEq, Repr, Inhabited

/-- A busy page session (07, 7.5). -/
structure Session where
  source : Nat
  cls : PageClass
  talkSlot : Nat
  zones : List (Nat × HoldStatus)
  phase : SessionPhase
  frames : Nat
  start : Nat
  deadline : Nat
deriving DecidableEq, Repr, Inhabited

/-- The paging parameters record (07, R124). -/
structure PagingParams where
  maxVoice : Nat
  preannounce : Option Nat
  alarmSet : Nat
  alarmTone : Nat
  autoExit : Bool
  assistTone : Nat
  beepTone : Nat
deriving DecidableEq, Repr, Inhabited

/-- The Paging Controller (07). `frameReport` is the frame-formed report not yet taken: the sessions that were in
PREANNOUNCE when the frame was formed and have stayed busy since (08, R142). -/
structure Paging where
  sessions : Tab 1 8 (Option Session)
  zoneSets : Tab 1 63 (Option (List Nat))
  params : PagingParams
  refused : Nat
  frameReport : Option (List Nat)
deriving DecidableEq, Repr

/-- Who holds a claim (07, 7.4). -/
inductive Claimant where
  | session (n : Nat)
  | orbit (n : Nat)
  | alarm
  | assist
deriving DecidableEq, Repr, Inhabited

/-- A step of a content (08, R144): a prompt of the directory, or a tone of a descriptor with its cycle limit, `none`
for a repeating one (09, 9.2). -/
inductive Step where
  | prompt (entry : Nat)
  | tone (descriptor : Nat) (limit : Option Nat)
deriving DecidableEq, Repr, Inhabited

/-- A claim (07, 7.4): its claimant, its class 0..5 and its content. Its arrival is its place among the claims of its
class in the list (07, R125). -/
structure Claim where
  claimant : Claimant
  cls : Nat
  content : List Step
deriving DecidableEq, Repr, Inhabited

/-- The part of a tone cycle in progress (09, R162). -/
inductive TonePart where
  | on | off | void
deriving DecidableEq, Repr, Inhabited

/-- How far the step in play has gone (09, R161, R169): not begun; a prompt with its copied start and length and the
samples played; a tone with its cycle number, the values read at the cycle start, the part in progress, the frames left
in it and the phase; a tone between two cycles, the next of which starts in the next frame formed. A tone with no frame
left has run its cycle out. -/
inductive Cursor where
  | fresh
  | prompt (start length played : Nat)
  | tone (cycle increment amplitude offFrames : Nat) (part : TonePart) (left phase : Nat)
  | cycleDue (ended : Nat)
deriving DecidableEq, Repr, Inhabited

/-- A zone's content player (08, R144): the steps from the one in play on, that step's number and its progress. -/
structure Player where
  number : Nat
  steps : List Step
  cursor : Cursor
deriving DecidableEq, Repr, Inhabited

/-- The fourteen configuration fields of a zone record (07, 7.1). -/
structure ZoneFields where
  enabled : Bool
  outputSlot : Nat
  senseSlot : Option Nat
  musicSlot : Option Nat
  pageGain : Nat
  toneGain : Nat
  musicBase : Nat
  musicDuck : Nat
  duckStep : Nat
  noiseFloor : Nat
  slope : Nat
  maxBoost : Nat
  loudOn : Nat
  loudOff : Nat
deriving DecidableEq, Repr, Inhabited

/-- A zone's audio state (08, R157). -/
structure Audio where
  noise : Nat
  blockSum : Nat
  blockCount : Nat
  boost : Nat
  loud : Bool
  musicGain : Nat
deriving DecidableEq, Repr, Inhabited

/-- Beacon patterns, in their wire order (12, R198; 07, R137). -/
inductive Pattern where
  | off | callFlash | alarmFlash
deriving DecidableEq, Repr, Inhabited

/-- A zone's beacon: pattern, the BEACON line, and the clock value at which the line's phase ends (07, R137). -/
structure Beacon where
  pattern : Pattern
  line : Bool
  boundary : Nat
deriving DecidableEq, Repr, Inhabited

/-- A zone record with its live fields (07, 7.1). `assist` is the assist count as last counted (07, R136). `completed` and `loudReport` are the zone's completion report and
loud change report not yet taken (08, R142). -/
structure Zone where
  fields : ZoneFields
  audio : Audio
  player : Player
  claims : List Claim
  beacon : Beacon
  assist : Nat
  preemptions : Nat
  saturations : Nat
  completed : Bool
  loudReport : Bool
deriving DecidableEq, Repr, Inhabited

/-! ### Prompt Store (09) -/

/-- A tone descriptor (09, 9.1). -/
structure Tone where
  increment : Nat
  amplitude : Nat
  onTime : Nat
  offTime : Nat
  cycles : Nat
deriving DecidableEq, Repr, Inhabited

/-- A prompt directory entry (09, 9.4). -/
structure PromptEntry where
  start : Nat
  length : Nat
deriving DecidableEq, Repr, Inhabited

/-- The Prompt Store (09). `memory` lists the samples that are not 0, by rising address. -/
structure Prompts where
  memory : List (Nat × Sample)
  address : Nat
  directory : Tab 0 32 (Option PromptEntry)
  tones : Tab 0 16 (Option Tone)
deriving DecidableEq, Repr

/-! ### Alarm Latch (10) and Maintenance Responder (11) -/

/-- What entered the alarm (10, 10.1). -/
inductive AlarmSource where
  | input | request
deriving DecidableEq, Repr, Inhabited

/-- The Alarm Latch (10, 10.1). The latch is ACTIVE exactly while it has a source. `line` is the level of ALARM_IN,
true for active. -/
structure Alarm where
  source : Option AlarmSource
  scope : Option (List Nat)
  claimed : List Nat
  line : Bool
deriving DecidableEq, Repr, Inhabited

/-- Modes, in their wire order (12, R197). -/
inductive Mode where
  | transparent | engaged
deriving DecidableEq, Repr, Inhabited

/-- Reset causes, in their wire order (12, R197). -/
inductive ResetCause where
  | power | pin | restart
deriving DecidableEq, Repr, Inhabited

/-- The Maintenance Responder (11). `flags` and `mask` are the fifteen attention flags and their mask bits in the
two-byte form of 12, R195: RESET in the most significant bit, the least significant bit unused and 0. A mask bit of 1
masks its flag. -/
structure Maint where
  mode : Mode
  cause : ResetCause
  flags : BitVec 16
  mask : BitVec 16
deriving DecidableEq, Repr, Inhabited

/-! ### The machine -/

/-- The state of the part. `highwayOut` gives the shelf-bound slots as they last left on HWY_F_OUT; `pending` is the
queue of commands waiting, first in, first out. -/
structure State where
  lane : Lane
  stations : Tab 0 384 Station
  codes : Tab 0 16 (Option AccessCode)
  hunt : Hunt
  orbits : Tab 1 9 (Option Orbit)
  pickup : Pickup
  paging : Paging
  zones : Tab 1 24 Zone
  prompts : Prompts
  alarm : Alarm
  maint : Maint
  clock : Nat
  highwayOut : List (Nat × Sample)
  pending : List Instr
deriving DecidableEq, Repr

/-! ### Reset values -/

/-- A station record after POWER and PIN (02, R24). -/
def Station.reset : Station :=
  { dn := none, talkSlot := none, homeZone := none, pickupGroup := none, authority := .none, ringAssist := false,
    line := .idle, call := none, deliveredBy := none, available := true, strikes := 0, wrapUp := none,
    lastIdle := 0, source := none }

/-- The defaults of a group definition's fields (03, 3.1). -/
def GroupFields.reset : GroupFields :=
  { pilot := none, discipline := .linear, noAnswer := 20, capacity := 0, maxWait := 120, overflowDn := none,
    alarmDn := none, wrapUp := 0, threshold := 0, announceRepeat := 30, announcePrompt := none, announceSet := 0,
    strikesThreshold := 0, membersOnly := false }

/-- A group definition after POWER and PIN: default fields, no member (03, R50). -/
def Group.reset : Group := { fields := GroupFields.reset, members := [] }

/-- Group counters at 0 (04, R89). -/
def GroupCounters.zero : GroupCounters :=
  { offered := 0, answered := 0, picked := 0, retrieved := 0, abandoned := 0, diverted := 0, noAnswers := 0 }

/-- A group's live state after POWER and PIN (03, R50). -/
def GroupLive.reset : GroupLive := { pointer := none, counters := GroupCounters.zero }

/-- The Hunt Controller after POWER and PIN (03, R50; 04, R65, R66). -/
def Hunt.reset : Hunt :=
  { staged := Tab.all 1 32 Group.reset, active := Tab.all 1 32 Group.reset, live := Tab.all 1 32 GroupLive.reset,
    records := [], closed := [], countdown := none, headChecks := [], available := [] }

/-- The Pickup Unit after POWER and PIN (05, R91, R94, R103). -/
def Pickup.reset : Pickup := { ringing := [], partners := Tab.all 1 63 [], successes := 0, denials := 0 }

/-- The defaults of the paging parameters (07, R124). -/
def PagingParams.reset : PagingParams :=
  { maxVoice := 60, preannounce := none, alarmSet := 0, alarmTone := 14, autoExit := false, assistTone := 13,
    beepTone := 12 }

/-- The Paging Controller after POWER and PIN (07, R122, R124, R130, R139). -/
def Paging.reset : Paging :=
  { sessions := Tab.all 1 8 none, zoneSets := Tab.all 1 63 none, params := PagingParams.reset, refused := 0,
    frameReport := none }

/-- The defaults of a zone's configuration (07, 7.1). -/
def ZoneFields.reset : ZoneFields :=
  { enabled := false, outputSlot := 0, senseSlot := none, musicSlot := none, pageGain := 1024, toneGain := 1024,
    musicBase := 0, musicDuck := 0, duckStep := 16, noiseFloor := 0, slope := 0, maxBoost := 1024, loudOn := 32768,
    loudOff := 0 }

/-- A zone's audio state after POWER and PIN, an enable or a disable (08, R157). -/
def Audio.reset : Audio := { noise := 0, blockSum := 0, blockCount := 0, boost := 1024, loud := false, musicGain := 0 }

/-- An empty content player (08, R144). -/
def Player.empty : Player := { number := 0, steps := [], cursor := .fresh }

/-- A beacon that is OFF, its line inactive (07, R137). -/
def Beacon.off : Beacon := { pattern := .off, line := false, boundary := 0 }

/-- A zone after POWER and PIN (07, R119; 08, R157). -/
def Zone.reset : Zone :=
  { fields := ZoneFields.reset, audio := Audio.reset, player := Player.empty, claims := [], beacon := Beacon.off,
    assist := 0, preemptions := 0, saturations := 0, completed := false, loudReport := false }

/-- The Prompt Store after POWER (09, R165). -/
def Prompts.reset : Prompts :=
  { memory := [], address := 0, directory := Tab.all 0 32 none, tones := Tab.all 0 16 none }

/-- Lane counters at 0 (01, R19). -/
def LaneCounters.zero : LaneCounters := { malformed := 0, discardedDown := 0, discardedUp := 0, unexpected := 0 }

/-- The part right after the power-on reset has ended (11, R186): every block at its POWER values, RESET set and alone
unmasked, its ATTENTION cell the first in the up queue (01, R21), and the bridges kept to the end of the slot and frame
in progress. DESIGN CHOICE: the straps read 0 (notes/assumptions/4.md), ALARM_IN is inactive (5.md), and the output
lines carry nothing yet (23.md). -/
def State.reset : State :=
  { lane :=
      { phase := .inService, bridgeDown := .ending, bridgeUp := .ending, bridgeHighway := .ending, straps := 0#4,
        own := 1008#10, downQueue := [],
        upQueue := [.known ⟨1008#10, 0#16, .attention 0x8000#16 0x8000#16⟩], downOut := none, upOut := none,
        counters := LaneCounters.zero }
    stations := Tab.all 0 384 Station.reset
    codes := Tab.all 0 16 none
    hunt := Hunt.reset
    orbits := Tab.all 1 9 none
    pickup := Pickup.reset
    paging := Paging.reset
    zones := Tab.all 1 24 Zone.reset
    prompts := Prompts.reset
    alarm := { source := none, scope := none, claimed := [], line := false }
    maint := { mode := .transparent, cause := .power, flags := 0x8000#16, mask := 0x7FFE#16 }
    clock := 0
    highwayOut := []
    pending := [] }

end Sys2Proof.Machine
end

