-- ==== Sys2Proof/Machine/Wire.lean ====
section
/-! DEFINITION. The layout of cells: header, kind codes, digit strings, lengths (12, R195, R196), and the form
check of known kinds (01, R7). -/

namespace Sys2Proof.Machine

/-! ### Numbers, most significant byte first (12, R195) -/

/-- The low `8 * k` bits of `n` in `k` bytes, most significant first (12, R195). -/
def natBytes : Nat → Nat → List Byte
  | 0, _ => []
  | k + 1, n => BitVec.ofNat 8 (n / 256 ^ k) :: natBytes k n

/-- The number that bytes spell, most significant first (12, R195). -/
def bytesNat (bs : List Byte) : Nat := bs.foldl (fun a b => a * 256 + b.toNat) 0

/-! ### Digit strings (12, R196) -/

/-- The half-byte that fills an odd digit string (12, R196). -/
def fillerSymbol : Symbol := 15#4

/-- One of the decimal digits 0..9. -/
def isDigit (x : Symbol) : Bool := x.toNat ≤ 9

/-- One of the symbols 0..9, `*`, `#`: the codes 0..11 (12, R196). -/
def isSymbol (x : Symbol) : Bool := x.toNat ≤ 11

/-- Symbols packed two to a byte, the first in the upper half, an odd one padded with the filler (12, R196). -/
def packSymbols : Digits → List Byte
  | [] => []
  | [a] => [(a ++ fillerSymbol : BitVec 8)]
  | a :: b :: rest => (a ++ b : BitVec 8) :: packSymbols rest

/-- A digit string on the lane: the count byte, then the packed symbols (12, R196). -/
def digitBytes (ds : Digits) : List Byte := BitVec.ofNat 8 ds.length :: packSymbols ds

/-- The half-bytes of some bytes, upper half first. -/
def halves : List Byte → List Symbol
  | [] => []
  | b :: rest => b.extractLsb' 4 4 :: b.extractLsb' 0 4 :: halves rest

/-- A digit string read from the front of some bytes: its symbols, whether its padding half-byte (if any) is the
filler, and the bytes that follow; `none` when too few bytes follow the count (12, R196). -/
def takeDigits : List Byte → Option (Digits × Bool × List Byte)
  | [] => none
  | c :: rest =>
    let n := c.toNat
    let k := (n + 1) / 2
    if rest.length < k then none
    else
      let hs := halves (rest.take k)
      some (hs.take n, (hs.drop n).all (· == fillerSymbol), rest.drop k)

/-- A DN in a cell: 1..8 decimal digits (01, R7). -/
def isDn (ds : Digits) : Bool := 1 ≤ ds.length && ds.length ≤ 8 && ds.all isDigit

/-! ### Enumerations of cells, numbered in their wire order (12, R195) -/

/-- Caller class code (12, R195). -/
def callerClassCode : CallerClass → Nat
  | .internal => 0 | .external => 1 | .priority => 2

/-- Caller class from its code; other codes make the cell malformed (01, R7). -/
def callerClassOf : Nat → Option CallerClass
  | 0 => some .internal | 1 => some .external | 2 => some .priority | _ => none

/-- WITHDRAW cause code (12, R195). -/
def withdrawCauseCode : WithdrawCause → Nat
  | .noAnswer => 0 | .taken => 1 | .cancelled => 2

/-- WITHDRAW cause from its code (12, R195). -/
def withdrawCauseOf : Nat → Option WithdrawCause
  | 0 => some .noAnswer | 1 => some .taken | 2 => some .cancelled | _ => none

/-- REFUSED cause code (12, R195). -/
def refusedCauseCode : RefusedCause → Nat
  | .busy => 0 | .unavailable => 1 | .overflow => 2

/-- REFUSED cause from its code (12, R195). -/
def refusedCauseOf : Nat → Option RefusedCause
  | 0 => some .busy | 1 => some .unavailable | 2 => some .overflow | _ => none

/-- Via code (12, R195). -/
def viaCode : Via → Nat
  | .direct => 0 | .pickup => 1 | .directed => 2 | .orbit => 3

/-- Via from its code (12, R195). -/
def viaOf : Nat → Option Via
  | 0 => some .direct | 1 => some .pickup | 2 => some .directed | 3 => some .orbit | _ => none

/-- ENGAGE feature code (12, R195). -/
def engageFeatureCode : EngageFeature → Nat
  | .page => 0 | .logon => 1 | .logoff => 2 | .status => 3 | .denied => 4

/-- ENGAGE feature from its code (12, R195). -/
def engageFeatureOf : Nat → Option EngageFeature
  | 0 => some .page | 1 => some .logon | 2 => some .logoff | 3 => some .status | 4 => some .denied | _ => none

/-- MAINT_REPLY outcome code (12, R195). -/
def replyOutcomeCode : ReplyOutcome → Nat
  | .done => 0 | .refusedArgument => 1 | .refusedState => 2 | .unknownRequest => 3

/-- MAINT_REPLY outcome from its code (12, R195). -/
def replyOutcomeOf : Nat → Option ReplyOutcome
  | 0 => some .done | 1 => some .refusedArgument | 2 => some .refusedState | 3 => some .unknownRequest | _ => none

/-! ### Cells as bytes (12, R195) -/

/-- The kind code of a cell (12, R195). -/
def bodyCode : Body → Nat
  | .offer .. => 1 | .withdraw .. => 2 | .callEnd => 3 | .tone .. => 4 | .display .. => 5 | .maint .. => 6
  | .offHook => 17 | .dialled .. => 18 | .ringStarted => 19 | .answered .. => 20 | .refused .. => 21
  | .onHook => 22 | .engage .. => 23 | .divert .. => 24 | .maintReply .. => 25 | .attention .. => 26

/-- The direction on which a kind is known (12, R195; 01, R6). -/
def bodyDir : Body → Dir
  | .offer .. | .withdraw .. | .callEnd | .tone .. | .display .. | .maint .. => .down
  | _ => .up

/-- The contents after the header, in order (12, R195). -/
def bodyBytes : Body → List Byte
  | .offer called caller cls group =>
      digitBytes called ++ digitBytes caller ++ natBytes 1 (callerClassCode cls) ++ natBytes 1 (group.getD 255)
  | .withdraw cause => natBytes 1 (withdrawCauseCode cause)
  | .callEnd => []
  | .tone kind => [kind]
  | .display group queued wait available free => [group, queued] ++ natBytes 2 wait.toNat ++ [available, free]
  | .maint tag kind args => tag :: kind :: args
  | .offHook => []
  | .dialled symbols => digitBytes symbols
  | .ringStarted => []
  | .answered via => natBytes 1 (viaCode via)
  | .refused cause => natBytes 1 (refusedCauseCode cause)
  | .onHook => []
  | .engage feature => natBytes 1 (engageFeatureCode feature)
  | .divert dn => digitBytes dn
  | .maintReply tag outcome part count data => [tag] ++ natBytes 1 (replyOutcomeCode outcome) ++ [part, count] ++ data
  | .attention flags unmasked => natBytes 2 flags.toNat ++ natBytes 2 unmasked.toNat

/-- A cell's bytes: kind code and equipment number in two bytes, the call reference in two, then the contents
(12, R195). -/
def cellBytes (c : Cell) : List Byte :=
  natBytes 2 (bodyCode c.body * 1024 + c.eq.toNat) ++ natBytes 2 c.call.toNat ++ bodyBytes c.body

/-! ### The form check (01, R7) -/

/-- Whether the contents of a known kind keep that kind's form (01, R7); `call` is the header's call reference. -/
def bodyOk (call : CallRef) : Body → Bool
  | .offer called caller _ group =>
      call != 0#16 && isDn called && caller.length ≤ 8 && caller.all isDigit &&
        (match group with | none => true | some g => 1 ≤ g && g ≤ 32)
  | .withdraw _ | .callEnd | .ringStarted | .answered _ | .refused _ => call != 0#16
  | .divert dn => call != 0#16 && isDn dn
  | .dialled symbols => 1 ≤ symbols.length && symbols.length ≤ 16 && symbols.all isSymbol
  | .maintReply _ _ _ _ data => data.length ≤ 56
  | .tone _ | .display .. | .maint .. | .offHook | .onHook | .engage _ | .attention .. => true

/-- Whether a cell of a known kind passes every check of 01, R7. -/
def cellOk (c : Cell) : Bool := bodyOk c.call c.body

/-- What the classifier makes of an undamaged cell's bytes (01, R6, R7). -/
inductive Parsed where
  | unknown
  | malformed
  | ok (c : Cell)
deriving DecidableEq, Repr

/-- The contents of an OFFER (12, R195): two digit strings, the caller class and the presented group. -/
def parseOffer (bs : List Byte) : Option Body :=
  match takeDigits bs with
  | some (called, true, rest) =>
    match takeDigits rest with
    | some (caller, true, [cls, grp]) =>
      match callerClassOf cls.toNat with
      | some k => some (.offer called caller k (if grp.toNat = 255 then none else some grp.toNat))
      | none => none
    | _ => none
  | _ => none

/-- A single digit string filling the contents (DIALLED, DIVERT; 12, R195). -/
def parseDigits (mk : Digits → Body) (bs : List Byte) : Option Body :=
  match takeDigits bs with
  | some (ds, true, []) => some (mk ds)
  | _ => none

/-- Whether a kind code is known on a direction (01, R6; 12, R195). -/
def codeKnown (d : Dir) (code : Nat) : Bool :=
  match d with
  | .down => 1 ≤ code && code ≤ 6
  | .up => 17 ≤ code && code ≤ 26

/-- The contents of a known kind from the bytes after the header; `none` where the length or a coded value breaks
the kind's layout (01, R7; 12, R195). -/
def parseBody (code : Nat) (bs : List Byte) : Option Body :=
  match code, bs with
  | 1, bs => parseOffer bs
  | 2, [c] => (withdrawCauseOf c.toNat).map .withdraw
  | 3, [] => some .callEnd
  | 4, [k] => some (.tone k)
  | 5, [g, q, w1, w2, a, f] => some (.display g q (w1 ++ w2 : BitVec 16) a f)
  | 6, tag :: kind :: args => some (.maint tag kind args)
  | 17, [] => some .offHook
  | 18, bs => parseDigits .dialled bs
  | 19, [] => some .ringStarted
  | 20, [v] => (viaOf v.toNat).map .answered
  | 21, [c] => (refusedCauseOf c.toNat).map .refused
  | 22, [] => some .onHook
  | 23, [f] => (engageFeatureOf f.toNat).map .engage
  | 24, bs => parseDigits .divert bs
  | 25, tag :: o :: part :: count :: data => (replyOutcomeOf o.toNat).map (fun o => .maintReply tag o part count data)
  | 26, [f1, f2, u1, u2] => some (.attention (f1 ++ f2 : BitVec 16) (u1 ++ u2 : BitVec 16))
  | _, _ => none

/-- An undamaged cell's bytes judged on their direction: unknown kind (R6), malformed (R7), or a cell (12, R195). A
cell too short for its header is malformed where its first byte gives a known kind code. -/
def parseCell (d : Dir) (bytes : List Byte) : Parsed :=
  match bytes with
  | [] => .unknown
  | b0 :: rest =>
    let code := b0.toNat / 4
    if codeKnown d code then
      match rest with
      | b1 :: b2 :: b3 :: contents =>
        match parseBody code contents with
        | some body =>
          let c : Cell := ⟨(b0 ++ b1 : BitVec 16).extractLsb' 0 10, (b2 ++ b3 : BitVec 16), body⟩
          if cellOk c then .ok c else .malformed
        | none => .malformed
      | _ => .malformed
    else .unknown

end Sys2Proof.Machine
end

