-- ==== Sys2Proof/Machine/Ops.lean ====
section
/-! DEFINITION. The named operations on State that every block's rules are written over: one update per block or
record, saturating counters, sorted sets, and the prompt memory's read and write. -/

namespace Sys2Proof.Machine

/-! ### Numbers -/

/-- A counter adds one and stops at 65535 (11, R190). -/
def satInc (n : Nat) : Nat := min (n + 1) Config.counterMax

/-- A ranged value stored at the nearest end of its range (00, Clamping and refusal). -/
def clamp (lo hi n : Nat) : Nat := min (max n lo) hi

/-- `n` joins an ascending list without repeats. -/
def insertSorted (n : Nat) : List Nat → List Nat
  | [] => [n]
  | m :: rest => if n < m then n :: m :: rest else if n = m then m :: rest else m :: insertSorted n rest

/-! ### Updates of one block or one record -/

/-- Changes the Lane Interface. -/
def State.modLane (f : Lane → Lane) (s : State) : State := { s with lane := f s.lane }
/-- Changes the Hunt Controller. -/
def State.modHunt (f : Hunt → Hunt) (s : State) : State := { s with hunt := f s.hunt }
/-- Changes the Pickup Unit. -/
def State.modPickup (f : Pickup → Pickup) (s : State) : State := { s with pickup := f s.pickup }
/-- Changes the Paging Controller. -/
def State.modPaging (f : Paging → Paging) (s : State) : State := { s with paging := f s.paging }
/-- Changes the Prompt Store. -/
def State.modPrompts (f : Prompts → Prompts) (s : State) : State := { s with prompts := f s.prompts }
/-- Changes the Alarm Latch. -/
def State.modAlarm (f : Alarm → Alarm) (s : State) : State := { s with alarm := f s.alarm }
/-- Changes the Maintenance Responder. -/
def State.modMaint (f : Maint → Maint) (s : State) : State := { s with maint := f s.maint }
/-- Changes one station record. -/
def State.modStation (n : Nat) (f : Station → Station) (s : State) : State :=
  { s with stations := s.stations.put n (f (s.stations.get n)) }
/-- Changes one zone. -/
def State.modZone (z : Nat) (f : Zone → Zone) (s : State) : State :=
  { s with zones := s.zones.put z (f (s.zones.get z)) }
/-- Sets one orbit. -/
def State.setOrbit (n : Nat) (o : Option Orbit) (s : State) : State := { s with orbits := s.orbits.put n o }
/-- Sets one access code entry. -/
def State.setCode (n : Nat) (e : Option AccessCode) (s : State) : State := { s with codes := s.codes.put n e }
/-- Sets one page session. -/
def State.setSession (i : Nat) (x : Option Session) (s : State) : State :=
  s.modPaging fun p => { p with sessions := p.sessions.put i x }
/-- Changes the counters of one group number. -/
def State.modGroupCounters (g : Nat) (f : GroupCounters → GroupCounters) (s : State) : State :=
  s.modHunt fun h => { h with live := h.live.put g { h.live.get g with counters := f (h.live.get g).counters } }
/-- Sets the circular pointer of one group number. -/
def State.setPointer (g : Nat) (p : Option Nat) (s : State) : State :=
  s.modHunt fun h => { h with live := h.live.put g { h.live.get g with pointer := p } }
/-- Changes the lane counters. -/
def State.modLaneCounters (f : LaneCounters → LaneCounters) (s : State) : State :=
  s.modLane fun l => { l with counters := f l.counters }

/-- A block reports a cell it cannot apply (01, R19). -/
def State.unexpected (s : State) : State :=
  s.modLaneCounters fun c => { c with unexpected := satInc c.unexpected }

/-- Whether an equipment number is a tracked station's (00: 0..383). -/
def tracked (eq : Equip) : Bool := eq.toNat < Config.stations

/-- The equipment number of a station (02, 2.1: the record number is the equipment number). -/
def stationEquip (n : Nat) : Equip := BitVec.ofNat 10 n

/-- The active definition of a group number (03, 3.1). -/
def State.activeGroup (s : State) (g : Nat) : Group := s.hunt.active.get g

/-- The group numbers, ascending. -/
def groupNumbers : List Nat := List.range' 1 32
/-- The zone numbers, ascending. -/
def zoneNumbers : List Nat := List.range' 1 24
/-- The session numbers, ascending. -/
def sessionNumbers : List Nat := List.range' 1 8
/-- The orbit numbers, ascending. -/
def orbitNumbers : List Nat := List.range' 1 9
/-- The station numbers, ascending. -/
def stationNumbers : List Nat := List.range 384

/-! ### Prompt memory (09, 9.3) -/

/-- What an address nothing has written holds: after POWER every sample is 0 (09, R165). -/
def blankSample : Sample := 0#16

/-- The sample at an address. -/
def memRead : List (Nat × Sample) → Nat → Sample
  | [], _ => blankSample
  | (b, x) :: rest, a => if a = b then x else memRead rest a

/-- Puts a sample at an address, keeping addresses rising and listing no blank sample. -/
def memWrite : List (Nat × Sample) → Nat → Sample → List (Nat × Sample)
  | [], a, v => if v = blankSample then [] else [(a, v)]
  | (b, x) :: rest, a, v =>
    if a < b then (if v = blankSample then (b, x) :: rest else (a, v) :: (b, x) :: rest)
    else if a = b then (if v = blankSample then rest else (a, v) :: rest)
    else (b, x) :: memWrite rest a v

/-- Whether a memory keeps its one form above a given bound: addresses at or above it, rising, each below 32768, no
sample listed that is blank. -/
def memWfFrom : Nat → List (Nat × Sample) → Bool
  | _, [] => true
  | lo, (b, x) :: rest => lo ≤ b && b < Config.promptSamples && x != blankSample && memWfFrom (b + 1) rest

/-- Whether a memory keeps its one form. -/
def memWf (m : List (Nat × Sample)) : Bool := memWfFrom 0 m

end Sys2Proof.Machine
end

