-- ==== Sys2Proof/Machine/Flags.lean ====
section
/-! DEFINITION. The attention flags, the cells they raise, and how a cell joins an outgoing queue (11, R192, R193;
01, R15 to R18). -/

namespace Sys2Proof.Machine

/-- The fifteen attention flags, in the order of 11, R192. -/
inductive Flag where
  | reset | commitDone | commitFailed | queueOverflow | queueTimeout | autoLogoff | huntTableFull | orbitFull
  | alarmEntered | alarmCleared | zoneSaturation | promptOverrun | laneOverflow | malformedCell | sessionRefused
deriving DecidableEq, Repr, Inhabited

/-- The bit of a flag in a flag set: RESET in the most significant, the others following down (12, R195). -/
def flagIndex : Flag → Nat
  | .reset => 15 | .commitDone => 14 | .commitFailed => 13 | .queueOverflow => 12 | .queueTimeout => 11
  | .autoLogoff => 10 | .huntTableFull => 9 | .orbitFull => 8 | .alarmEntered => 7 | .alarmCleared => 6
  | .zoneSaturation => 5 | .promptOverrun => 4 | .laneOverflow => 3 | .malformedCell => 2 | .sessionRefused => 1

/-- The flag set that holds one flag. -/
def flagMask (f : Flag) : BitVec 16 := 1#16 <<< flagIndex f

/-- Every flag the part has; the least significant bit names none (12, R195). -/
def allFlags : BitVec 16 := 0xFFFE#16

/-- Whether a flag set holds a flag. -/
def hasFlag (set : BitVec 16) (f : Flag) : Bool := set.getLsbD (flagIndex f)

/-- The ATTENTION cell that shows the flags as they stand: the current set, and the set flags whose mask bits are
clear (11, R193). -/
def attentionCell (s : State) : Cell :=
  ⟨s.lane.own, 0#16, .attention s.maint.flags (s.maint.flags &&& ~~~ s.maint.mask)⟩

/-! ### Outgoing queues (01, 1.4) -/

/-- The outgoing queue of a direction. -/
def Lane.queue (l : Lane) : Dir → List LaneCell
  | .down => l.downQueue
  | .up => l.upQueue

/-- Sets the outgoing queue of a direction. -/
def Lane.setQueue (l : Lane) (d : Dir) (q : List LaneCell) : Lane :=
  match d with
  | .down => { l with downQueue := q }
  | .up => { l with upQueue := q }

/-- Whether a direction's queue has a free place (01, R18). -/
def State.queueFree (s : State) (d : Dir) : Bool := (s.lane.queue d).length < Config.queueCells

/-- A cell joins the tail of a queue (01, R16). -/
def State.push (d : Dir) (c : LaneCell) (s : State) : State :=
  s.modLane fun l => l.setQueue d (l.queue d ++ [c])

/-- A discarded cell adds one to its direction's counter (01, R18). -/
def State.countDiscard (d : Dir) (s : State) : State :=
  s.modLaneCounters fun c =>
    match d with
    | .down => { c with discardedDown := satInc c.discardedDown }
    | .up => { c with discardedUp := satInc c.discardedUp }

/-- A discard sets LANE_OVERFLOW. Where that raises an ATTENTION cell and the up queue is full, the cell is itself
discarded and counted, and raises no further one (01, R18). -/
def State.noteOverflow (s : State) : State :=
  if hasFlag s.maint.flags .laneOverflow then s
  else
    let s1 := s.modMaint fun m => { m with flags := m.flags ||| flagMask .laneOverflow }
    if hasFlag s1.maint.mask .laneOverflow then s1
    else if s1.queueFree .up then s1.push .up (.known (attentionCell s1))
    else s1.countDiscard .up

/-- A cell is produced: it joins the tail of its direction's queue, or is discarded at a full one (01, R16, R18). -/
def State.join (d : Dir) (c : LaneCell) (s : State) : State :=
  if s.queueFree d then s.push d c else (s.countDiscard d).noteOverflow

/-- A cause sets its flag; going from clear to set while unmasked raises one ATTENTION cell (11, R192, R193). -/
def State.setFlag (f : Flag) (s : State) : State :=
  if hasFlag s.maint.flags f then s
  else
    let s1 := s.modMaint fun m => { m with flags := m.flags ||| flagMask f }
    if hasFlag s1.maint.mask f then s1 else s1.join .up (.known (attentionCell s1))

/-- The end of a reset: RESET's mask bit is cleared and the flag set; one cell is raised when the flag was clear, or was
set and masked (11, R193). -/
def State.setResetFlag (s : State) : State :=
  let quiet := hasFlag s.maint.flags .reset && !hasFlag s.maint.mask .reset
  let s1 := s.modMaint fun m =>
    { m with flags := m.flags ||| flagMask .reset, mask := m.mask &&& ~~~ flagMask .reset }
  if quiet then s1 else s1.join .up (.known (attentionCell s1))

/-! ### Cells the part composes for itself (01, R15) -/

/-- Tone kinds the part sends (12, R195). -/
inductive ToneKind where
  | confirm | denied | noResource | ended
deriving DecidableEq, Repr, Inhabited

/-- Tone kind code (12, R195). -/
def toneKindCode : ToneKind → Nat
  | .confirm => 1 | .denied => 2 | .noResource => 3 | .ended => 4

/-- TONE down to a station, call reference 0 (01, R15). It changes no station field (02, R33). -/
def State.sendTone (station : Nat) (k : ToneKind) (s : State) : State :=
  s.join .down (.known ⟨stationEquip station, 0#16, .tone (BitVec.ofNat 8 (toneKindCode k))⟩)

/-- A cell with the part's own equipment number, up (01, R15). -/
def State.sendOwn (call : CallRef) (body : Body) (s : State) : State :=
  s.join .up (.known ⟨s.lane.own, call, body⟩)

end Sys2Proof.Machine
end

