-- ==== Sys2Proof/Machine/Arbiter.lean ====
section
/-! DEFINITION. The Zone Arbiter: claim lists, head changes, assist claims, beacons, and what a lost zone does to its
session (07, R123, R125 to R129, R134 to R137). -/

namespace Sys2Proof.Machine

/-! ### Zones and zone sets -/

/-- Whether a zone is enabled. -/
def State.zoneEnabled (s : State) (z : Nat) : Bool := (s.zones.get z).fields.enabled

/-- The enabled zones, ascending (07, R122). -/
def State.enabledZones (s : State) : List Nat := zoneNumbers.filter s.zoneEnabled

/-- Resolving a zone set: set 0 gives the enabled zones, a loaded set its enabled zones in its order, another nothing
(07, R123). -/
def State.resolveSet (s : State) (n : Nat) : List Nat :=
  if n = 0 then s.enabledZones
  else
    match s.paging.zoneSets.get n with
    | some zs => zs.filter s.zoneEnabled
    | none => []

/-! ### Beacons (07, R137) -/

/-- The pattern a zone's beacon shows: ALARM_FLASH while the zone stands in the claimed list, else CALL_FLASH while it
is loud and has a head, else OFF; OFF for a disabled zone (07, R137). -/
def State.beaconPattern (s : State) (z : Nat) : Pattern :=
  let zn := s.zones.get z
  if !zn.fields.enabled then .off
  else if s.alarm.claimed.contains z then .alarmFlash
  else if zn.audio.loud && !zn.claims.isEmpty then .callFlash
  else .off

/-- Length in milliseconds of a pattern's on-phase and off-phase (07, R137). -/
def patternTimes : Pattern → Nat × Nat
  | .off => (0, 0)
  | .callFlash => (200, 800)
  | .alarmFlash => (500, 500)

/-- Chooses a zone's beacon pattern again; a changed pattern begins with its on-phase now (07, R137). -/
def State.chooseBeacon (z : Nat) (s : State) : State :=
  let p := s.beaconPattern z
  if (s.zones.get z).beacon.pattern = p then s
  else
    s.modZone z fun zn =>
      { zn with beacon := if p = .off then Beacon.off
                          else { pattern := p, line := true, boundary := s.clock + (patternTimes p).1 } }

/-! ### Claim lists (07, R125 to R128) -/

/-- Voice claims are those of classes 0, 2 and 3 (07, 7.4). -/
def Claim.isVoice (c : Claim) : Bool := c.cls == 0 || c.cls == 2 || c.cls == 3

/-- The claim class of a page class (07, R132). -/
def pageClaimClass : PageClass → Nat
  | .emergency => 0 | .urgent => 2 | .normal => 3

/-- Whether a claimant holds a claim in a list. -/
def holdsClaim (l : List Claim) (who : Claimant) : Bool := l.any fun c => c.claimant = who

/-- A new claim at its place by rank: behind every claim of its class or a lower class number, since those outrank it
(07, R125). -/
def rankInsert (c : Claim) (l : List Claim) : List Claim :=
  l.takeWhile (fun d => d.cls ≤ c.cls) ++ c :: l.dropWhile (fun d => d.cls ≤ c.cls)

/-- What granting a claim does to a list (07, R126, R127). -/
structure Grant where
  /-- the list after the grant -/
  claims : List Claim
  /-- whether the new claim is the head -/
  first : Bool
  /-- the displaced voice head, removed -/
  lost : Option Claim
  /-- the evicted fifth claim -/
  evicted : Option Claim
deriving DecidableEq, Repr

/-- The list of a new head, with the former head removed when it is a voice claim (07, R126). -/
def overHead (c : Claim) (l : List Claim) : List Claim × Option Claim :=
  match l with
  | [] => ([c], none)
  | h :: rest => if h.isVoice then (c :: rest, some h) else (c :: h :: rest, none)

/-- A list of more than four claims loses its lowest-ranked one (07, R126, R127). -/
def evictFifth (l : List Claim) : List Claim × Option Claim :=
  if l.length > Config.claims then (l.dropLast, l.getLast?) else (l, none)

/-- A voice request on a list: granted onto an empty list or over an outranked head, else nothing (07, R126). -/
def placeVoice (c : Claim) (l : List Claim) : Option Grant :=
  let outranks := match l with | [] => true | h :: _ => c.cls < h.cls
  if outranks then
    let (l1, lost) := overHead c l
    let (l2, evicted) := evictFifth l1
    some { claims := l2, first := true, lost := lost, evicted := evicted }
  else none

/-- A resumable request on a list: placed by rank; `none` when it would be the fifth and lowest (07, R127). -/
def placeResumable (c : Claim) (l : List Claim) : Option Grant :=
  if (l.takeWhile fun d => d.cls ≤ c.cls).isEmpty then
    let (l1, lost) := overHead c l
    let (l2, evicted) := evictFifth l1
    some { claims := l2, first := true, lost := lost, evicted := evicted }
  else if l.length ≥ Config.claims && l.all (fun d => d.cls ≤ c.cls) then none
  else
    let (l2, evicted) := evictFifth (rankInsert c l)
    some { claims := l2, first := false, lost := none, evicted := evicted }

/-- The content player loaded with a content from its first step (08, R144). -/
def playerFor (content : List Step) : Player :=
  if content.isEmpty then Player.empty else { number := 1, steps := content, cursor := .fresh }

/-- A zone has a new head, or none: its content starts from the beginning, and the beacon is chosen again (07, R128;
08, R144). A completion report for what played before is no longer for the head (08, R142). -/
def State.headChange (z : Nat) (s : State) : State :=
  (s.modZone z fun zn =>
    { zn with
      player := match zn.claims with | [] => Player.empty | c :: _ => playerFor c.content
      completed := false }).chooseBeacon z

/-- A granted list takes effect at its zone; displacing a head counts a preemption (07, R128). -/
def State.applyGrant (z : Nat) (g : Grant) (s : State) : State :=
  let hadHead := !(s.zones.get z).claims.isEmpty
  let s1 := s.modZone z fun zn =>
    { zn with claims := g.claims
              preemptions := if g.first && hadHead then satInc zn.preemptions else zn.preemptions }
  if g.first then s1.headChange z else s1

/-! ### Losses (07, R129, R134, R135) -/

/-- A session is freed, and its source station's source session becomes absent (07, R135). -/
def State.freeSession (i : Nat) (s : State) : State :=
  match s.paging.sessions.get i with
  | none => s
  | some x =>
    ((s.modStation x.source fun st => { st with source := none }).setSession i none).modPaging fun p =>
      { p with frameReport := p.frameReport.map (·.filter (· ≠ i)) }

/-- A session's claim on a zone is lost: the zone becomes LOST, and the session ends as PREEMPTED when no zone is still
HELD, with TONE(ENDED) to its source (07, R134, R135). -/
def State.sessionLost (i z : Nat) (s : State) : State :=
  match s.paging.sessions.get i with
  | none => s
  | some x =>
    let x1 := { x with zones := x.zones.map fun e => if e.1 = z then (z, HoldStatus.lost) else e }
    let s1 := s.setSession i (some x1)
    if x1.zones.any (fun e => e.2 = HoldStatus.held) then s1
    else (s1.sendTone x.source .ended).freeSession i

/-- The report of a lost claim to its claimant: a session marks the zone; an orbit waits for its next chime; the alarm
drops the zone from its claimed list; the assist logic is re-evaluated by the caller (07, R121, R129; 10, R175). -/
def State.reportLoss (z : Nat) (c : Claim) (s : State) : State :=
  match c.claimant with
  | .session i => s.sessionLost i z
  | .orbit _ => s
  | .alarm => s.modAlarm fun a => { a with claimed := a.claimed.filter (· ≠ z) }
  | .assist => s

/-- A claimant's claim leaves a zone's list; the removal of a head changes the head (07, R128, R129). -/
def State.removeClaim (z : Nat) (who : Claimant) (s : State) : State :=
  let l := (s.zones.get z).claims
  if holdsClaim l who then
    let wasHead := match l with | [] => false | h :: _ => h.claimant = who
    let s1 := s.modZone z fun zn => { zn with claims := zn.claims.filter fun c => c.claimant ≠ who }
    if wasHead then s1.headChange z else s1
  else s

/-! ### Ring assist (07, R136) -/

/-- A zone's assist count, counted afresh: the ringing stations that have ring assist and this home zone, read now (07, R136). -/
def State.assistCount (s : State) (z : Nat) : Nat :=
  (s.pickup.ringing.filter fun e =>
    let st := s.stations.get e.station
    st.ringAssist && st.homeZone == some z).length

/-- Whether a zone's assist claim is wanted (07, R136). -/
def State.assistWanted (s : State) (z : Nat) : Bool :=
  s.maint.mode == .engaged && s.zoneEnabled z && 0 < s.assistCount z && (s.zones.get z).audio.loud

/-- The assist claim: class 5, the ring-assist descriptor as named now, repeating (07, R136; 09, 9.2). -/
def State.assistClaim (s : State) : Claim :=
  { claimant := .assist, cls := 5, content := [.tone s.paging.params.assistTone none] }

/-- Counts a zone's assist count afresh and keeps it until the next re-evaluation (02, R23; 07, R136). -/
def State.countAssist (z : Nat) (s : State) : State := s.modZone z fun zn => { zn with assist := s.assistCount z }

/-- Re-evaluates a zone's assist claim by a fresh count: requested when wanted and absent, withdrawn when present and not
wanted (07, R136). A refused request leaves it absent. -/
def State.reevaluateAssist (z : Nat) (s0 : State) : State :=
  let s := s0.countAssist z
  let l := (s.zones.get z).claims
  let present := holdsClaim l .assist
  if s.assistWanted z then
    if present then s
    else
      match placeResumable s.assistClaim l with
      | none => s
      | some g => s.applyGrant z g
  else if present then s.removeClaim z .assist
  else s

/-- Re-evaluates every enabled zone's assist claim (05, R92, R93; 07, R136). -/
def State.reevaluateAll (s : State) : State :=
  s.enabledZones.foldl (fun t z => t.reevaluateAssist z) s

/-! ### Requests and withdrawals, each whole (07, R125) -/

/-- A claimant withdraws its claim; a withdrawal that names no standing claim is passed over. The removal is followed
by a re-evaluation of the zone's assist claim (07, R125, R129). -/
def State.withdrawClaim (z : Nat) (who : Claimant) (s : State) : State :=
  if holdsClaim (s.zones.get z).claims who then (s.removeClaim z who).reevaluateAssist z else s

/-- What a grant took from the list is reported, and the zone's assist claim re-evaluated where anything left (07,
R126, R127, R129). -/
def State.settleGrant (z : Nat) (g : Grant) (s : State) : State :=
  let s1 := match g.lost with | some c => s.reportLoss z c | none => s
  let s2 := match g.evicted with | some c => s1.reportLoss z c | none => s1
  if g.lost.isSome || g.evicted.isSome then s2.reevaluateAssist z else s2

/-- A claim request at a zone: refused for a disabled zone, passed over where the claimant already stands, otherwise
placed as a voice or a resumable request. Answers whether it was granted (07, R125 to R127). -/
def State.requestClaim (z : Nat) (c : Claim) (s : State) : State × Bool :=
  let l := (s.zones.get z).claims
  if !s.zoneEnabled z || holdsClaim l c.claimant then (s, false)
  else
    match (if c.isVoice then placeVoice c l else placeResumable c l) with
    | none => (s, false)
    | some g => ((s.applyGrant z g).settleGrant z g, true)

/-! ### The content a session's LIVE phase drops (08, R145) -/

/-- A session becomes LIVE: on each zone it holds, a prompt step still in the player is dropped (07, R133; 08, R145). -/
def State.goLive (i : Nat) (s : State) : State :=
  match s.paging.sessions.get i with
  | none => s
  | some x =>
    let s1 := s.setSession i (some { x with phase := .live, frames := 0 })
    (x.zones.filter fun e => e.2 = HoldStatus.held).foldl
      (fun t e => t.modZone e.1 fun zn => { zn with player := Player.empty }) s1

end Sys2Proof.Machine
end

