-- ==== Sys2Proof/Machine/Tracker.lean ====
section
/-! DEFINITION. The Station Tracker's own part: hunt candidacy and its event, availability, the ringing set's entries,
and what OFFER and WITHDRAW do to a line, with the cells the Hunt Controller and Pickup Unit insert (02, R25 to R37;
05, R91 to R93; 01, R15). -/

namespace Sys2Proof.Machine

/-- A hunt candidate: IDLE, AVAILABLE, no wrap-up deadline (02, R37). -/
def Station.candidate (st : Station) : Bool := st.line = .idle && st.available && st.wrapUp.isNone

/-- Whether a station number's station is a hunt candidate; a number outside the table is none. -/
def State.candidate (s : State) (n : Nat) : Bool := n < Config.stations && (s.stations.get n).candidate

/-- A member-available event is raised; raised events are taken in ascending station number (02, R37). -/
def State.raiseAvailable (n : Nat) (s : State) : State :=
  s.modHunt fun h => { h with available := insertSorted n h.available }

/-- A change to a station record, raising a member-available event when it makes the station a candidate (02, R37). -/
def State.changeStation (n : Nat) (f : Station → Station) (s : State) : State :=
  let was := s.candidate n
  let s1 := s.modStation n f
  if !was && s1.candidate n then s1.raiseAvailable n else s1

/-- Availability becomes AVAILABLE with strikes 0 (02, R35). -/
def State.setAvailable (n : Nat) (s : State) : State :=
  s.changeStation n fun st => { st with available := true, strikes := 0 }

/-- Availability becomes UNAVAILABLE, strikes as they are (02, R35). -/
def State.setUnavailable (n : Nat) (s : State) : State :=
  s.changeStation n fun st => { st with available := false }

/-! ### The ringing set (05, R91 to R93) -/

/-- The hunt record of a call, if there is one (04, R65). -/
def State.record (s : State) (c : CallRef) : Option HuntRecord := s.hunt.records.find? fun r => r.call = c

/-- Entry to RINGING: an entry at the tail of the ringing set, with the group of the call's hunt record; every enabled
zone's assist claim is re-evaluated (05, R92; 04, R72). -/
def State.ringingAdd (n : Nat) (c : CallRef) (s : State) : State :=
  (s.modPickup fun p =>
    { p with ringing := p.ringing ++ [{ station := n, call := c, start := s.clock,
                                        group := (s.record c).map (·.group) }] }).reevaluateAll

/-- Departure from RINGING: the station's entry is removed, and every enabled zone's assist claim re-evaluated (05,
R93). -/
def State.ringingRemove (n : Nat) (s : State) : State :=
  if s.pickup.ringing.any fun e => e.station = n then
    (s.modPickup fun p => { p with ringing := p.ringing.filter fun e => e.station ≠ n }).reevaluateAll
  else s

/-! ### OFFER and WITHDRAW at a line (02, R27, R30) -/

/-- Whether a station is OFFERED or RINGING with this call as its current call. -/
def Station.onOffer (st : Station) (c : CallRef) : Bool :=
  (st.line = .offered || st.line = .ringing) && st.call == some c

/-- An OFFER makes an IDLE station OFFERED on the call; any other station stays as it was (02, R27). -/
def State.trackOffer (n : Nat) (c : CallRef) (s : State) : State :=
  if (s.stations.get n).line = .idle then
    s.changeStation n fun st => { st with line := .offered, call := some c }
  else s

/-- A REFUSED or a WITHDRAW of the current call makes an OFFERED or RINGING station IDLE and removes its ringing-set
entry (02, R30). Answers whether it did, the offer-ended report. -/
def State.trackOfferGone (n : Nat) (c : CallRef) (s : State) : State × Bool :=
  if (s.stations.get n).onOffer c then
    ((s.changeStation n fun st => { st with line := .idle, call := none }).ringingRemove n, true)
  else (s, false)

/-! ### Cells inserted for stations (01, R15): the tracker applies each as it is produced, then it joins its queue -/

/-- OFFER down to a member (04, R71). -/
def State.sendOffer (n : Nat) (c : CallRef) (called caller : Digits) (cls : CallerClass) (g : Nat) (s : State) : State :=
  (s.trackOffer n c).join .down (.known ⟨stationEquip n, c, .offer called caller cls (some g)⟩)

/-- WITHDRAW down to a station. The offer-ended report of a WITHDRAW the part inserts finds no record, since its
station was detached first (04, 4.4, R77). -/
def State.sendWithdraw (n : Nat) (c : CallRef) (cause : WithdrawCause) (s : State) : State :=
  (s.trackOfferGone n c).1.join .down (.known ⟨stationEquip n, c, .withdraw cause⟩)

/-- ENGAGE up for a station makes it FEATURE from SEIZED (02, R33). -/
def State.sendEngage (n : Nat) (f : EngageFeature) (s : State) : State :=
  (if (s.stations.get n).line = .seized then s.changeStation n fun st => { st with line := .feature } else s).join .up
    (.known ⟨stationEquip n, 0#16, .engage f⟩)

end Sys2Proof.Machine
end

