-- ==== Sys2Proof/Machine/Orbits.lean ====
section
/-! DEFINITION. The Orbit Table: assignment, the awaiting order, chimes and release (06, R105 to R111). Retrieval, which
asks the Hunt Controller for a removal, is in Pickups.lean. -/

namespace Sys2Proof.Machine

/-- Changes the hunt record of a call. -/
def State.modRecord (c : CallRef) (f : HuntRecord → HuntRecord) (s : State) : State :=
  s.modHunt fun h => { h with records := h.records.map fun r => if r.call = c then f r else r }

/-- Whether a record is QUEUED. -/
def HuntRecord.isQueued (r : HuntRecord) : Bool := match r.status with | .queued .. => true | .offered .. => false

/-- The orbit a QUEUED record holds (04, 4.1). -/
def HuntRecord.orbit (r : HuntRecord) : Option Nat := match r.status with | .queued _ _ o _ => o | .offered .. => none

/-- Whether a record is marked awaiting-orbit (04, 4.1). -/
def HuntRecord.awaiting (r : HuntRecord) : Bool := match r.status with | .queued _ _ _ a => a | .offered .. => false

/-- A queued record that holds an orbit keeps neither announce point nor awaiting-orbit mark (06, R106). -/
def HuntRecord.withOrbit (n : Nat) (r : HuntRecord) : HuntRecord :=
  match r.status with
  | .queued w _ _ _ => { r with status := .queued w none (some n) false }
  | .offered .. => r

/-- A queued record marked awaiting-orbit (06, R106). -/
def HuntRecord.markAwaiting (r : HuntRecord) : HuntRecord :=
  match r.status with
  | .queued w p o _ => { r with status := .queued w p o true }
  | .offered .. => r

/-- The group's queue, oldest first: its QUEUED records in table order (04, R79). -/
def State.queue (s : State) (g : Nat) : List HuntRecord :=
  s.hunt.records.filter fun r => r.group = g && r.isQueued

/-- Whether one awaiting record stands before another: earlier arrival, then lower group number (06, R107). -/
def awaitsBefore (a b : HuntRecord) : Bool :=
  a.arrival < b.arrival || (a.arrival = b.arrival && a.group < b.group)

/-- The first record of the awaiting order; within one group the earlier in the queue (06, R107). -/
def State.firstAwaiting (s : State) : Option HuntRecord :=
  (s.hunt.records.filter (·.awaiting)).foldl
    (fun best r => match best with
      | none => some r
      | some b => if awaitsBefore r b then some r else some b) none

/-- The content of a chime of orbit `n`: the group's announce prompt if it names one, then the orbit beep with the
orbit number as its cycle limit (06, R108). -/
def chimeContent (f : GroupFields) (beep n : Nat) : List Step :=
  (match f.announcePrompt with | some p => [Step.prompt p] | none => []) ++ [.tone beep (some n)]

/-- A chime of orbit `n`: its zones are resolved, each is asked for an ANNOUNCE claim unless one stands there, and the
next chime is set, all from the active definition as it stands; claims are placed in ENGAGED mode only (06, R108). -/
def State.chimeOrbit (n : Nat) (s : State) : State :=
  match s.orbits.get n with
  | none => s
  | some o =>
    let f := (s.activeGroup o.group).fields
    let c : Claim := { claimant := .orbit n, cls := 4, content := chimeContent f s.paging.params.beepTone n }
    let zones := if s.maint.mode = .engaged then s.resolveSet f.announceSet else []
    (zones.foldl (fun t z => (t.requestClaim z c).1) s).setOrbit n
      (some { o with nextChime := s.clock + 1000 * f.announceRepeat })

/-- A queued record is given orbit `n`, which chimes at once (06, R106). -/
def State.assignOrbit (n : Nat) (r : HuntRecord) (s : State) : State :=
  ((s.setOrbit n (some { call := r.call, group := r.group, assigned := s.clock, nextChime := s.clock })).modRecord
    r.call (HuntRecord.withOrbit n)).chimeOrbit n

/-- The lowest-numbered free orbit. -/
def State.freeOrbit (s : State) : Option Nat := orbitNumbers.find? fun n => (s.orbits.get n).isNone

/-- A record asks for an orbit: it is given the lowest free one, or is marked awaiting-orbit, each new mark setting
ORBIT_FULL. A request from a record not QUEUED or already in an orbit is passed over (06, R106). -/
def State.requestOrbit (c : CallRef) (s : State) : State :=
  match s.record c with
  | none => s
  | some r =>
    if !r.isQueued || r.orbit.isSome then s
    else
      match s.freeOrbit with
      | some n => s.assignOrbit n r
      | none => if r.awaiting then s else (s.modRecord c HuntRecord.markAwaiting).setFlag .orbitFull

/-- Orbit `n` is released: its claims are withdrawn, it becomes free, and it passes to the first awaiting record unless
the release is part of a teardown (06, R110). The record that held it has left its queue already. -/
def State.releaseOrbit (n : Nat) (handOn : Bool) (s : State) : State :=
  let s1 := (zoneNumbers.foldl (fun t z => t.withdrawClaim z (.orbit n)) s).setOrbit n none
  if handOn then
    match s1.firstAwaiting with
    | some r => s1.assignOrbit n r
    | none => s1
  else s1

end Sys2Proof.Machine
end

