-- ==== Sys2Proof/Machine/Hunting.lean ====
section
/-! DEFINITION. Hunt Call Distribution: selection, offers, queues, overflow, how an offer ends, head checks,
member-available events, removal and teardown (04). -/

namespace Sys2Proof.Machine

/-! ### Records and queues -/

/-- The call of the record at the head of a group's queue. -/
def State.headCall (s : State) (g : Nat) : Option CallRef := (s.queue g).head?.map (·.call)

/-- A group's queue has a new head: a head check is raised, taken in ascending group number (04, R83). -/
def State.raiseHeadCheck (g : Nat) (s : State) : State :=
  s.modHunt fun h => { h with headChecks := insertSorted g h.headChecks }

/-- A call reference joins the tail of the closed-call list; one that stands there moves to the tail, and a full list
pushes out its oldest (04, R66). -/
def closeCall (c : CallRef) (l : List CallRef) : List CallRef :=
  let l1 := l.filter (· ≠ c) ++ [c]
  if l1.length > Config.closedCalls then l1.drop 1 else l1

/-- A call joins the closed-call list (04, R66). -/
def State.closeCall (c : CallRef) (s : State) : State :=
  s.modHunt fun h => { h with closed := Machine.closeCall c h.closed }

/-- The hunt record of a call is removed: it leaves its queue; its orbit is freed and handed on; its call joins the
closed-call list; a head that left raises a head check (04, R81). At a teardown nothing is handed on or closed (04,
R88; 06, R110). -/
def State.removeRecord (c : CallRef) (teardown : Bool) (s : State) : State :=
  match s.record c with
  | none => s
  | some r =>
    let wasHead := s.headCall r.group == some c
    let s1 := s.modHunt fun h => { h with records := h.records.filter fun q => q.call ≠ c }
    let s2 := match r.orbit with | some n => s1.releaseOrbit n (!teardown) | none => s1
    let s3 := if teardown then s2 else s2.closeCall c
    if wasHead then s3.raiseHeadCheck r.group else s3

/-! ### Overflow (04, R69) -/

/-- The cell of an overflow or retired action: DIVERT to the DN, or REFUSED(BUSY) (04, R69). -/
def overflowBody : Option Digits → Body
  | some dn => .divert dn
  | none => .refused .busy

/-- A call is sent away: its cell goes up, its record (if it has one) is removed, QUEUE_OVERFLOW is set and the group's
diverted counter adds one (04, R69). -/
def State.sendAway (c : CallRef) (g : Nat) (body : Body) (s : State) : State :=
  (((s.sendOwn c body).removeRecord c false).setFlag .queueOverflow).modGroupCounters g fun k =>
    { k with diverted := satInc k.diverted }

/-- The overflow action of a call of group `g`, by the active definition (04, R69). -/
def State.overflow (c : CallRef) (g : Nat) (s : State) : State :=
  s.sendAway c g (overflowBody (s.activeGroup g).fields.overflowDn)

/-- The cell of a retired action (03, R58). -/
def retiredBody : RetiredAction → Body
  | .divert dn => .divert dn
  | .refusedBusy => .refused .busy

/-! ### Selection (04, R70) -/

/-- The members of a list from behind the pointer's station round to it; the whole list in order when the pointer is
absent or not in it (04, R70, CIRCULAR). -/
def rotateAfter (pointer : Option Nat) (members : List Nat) : List Nat :=
  match pointer with
  | none => members
  | some p =>
    if members.contains p then members.drop (members.idxOf p + 1) ++ members.take (members.idxOf p + 1) else members

/-- The first station of a list whose last-idle time is smallest (04, R70, LONGEST_IDLE). -/
def State.longestIdle (s : State) : List Nat → Option Nat
  | [] => none
  | n :: rest =>
    match s.longestIdle rest with
    | none => some n
    | some m => if (s.stations.get m).lastIdle < (s.stations.get n).lastIdle then some m else some n

/-- The discipline's choice among the members that are eligible (04, R70). -/
def State.choose (s : State) (g : Nat) (eligible : Nat → Bool) : Option Nat :=
  let grp := s.activeGroup g
  match grp.fields.discipline with
  | .linear => grp.members.find? eligible
  | .circular => (rotateAfter (s.hunt.live.get g).pointer grp.members).find? eligible
  | .longestIdle => s.longestIdle (grp.members.filter eligible)

/-- Selection for a record of group `g` with this tried list: the chosen station, and whether the pass was complete, so
that the tried list is emptied (04, R70). -/
def State.select (s : State) (g : Nat) (tried : List Nat) : Option (Nat × Bool) :=
  match s.choose g (fun n => s.candidate n && !tried.contains n) with
  | some n => some (n, false)
  | none => (s.choose g (fun n => s.candidate n)).map fun n => (n, true)

/-! ### Offer (04, R71) -/

/-- A call is offered to a station: the record becomes OFFERED and leaves its queue and orbit, the pointer moves, the
offered counter adds one, and the OFFER goes down with the group as presented group (04, R71). -/
def State.offerTo (c : CallRef) (n : Nat) (clearTried : Bool) (s : State) : State :=
  match s.record c with
  | none => s
  | some r =>
    let wasHead := s.headCall r.group == some c
    let deadline := s.clock + 1000 * (s.activeGroup r.group).fields.noAnswer
    let s1 := s.modRecord c fun r =>
      { r with status := .offered (some n) deadline none, tried := if clearTried then [] else r.tried }
    let s2 := match r.orbit with | some o => s1.releaseOrbit o true | none => s1
    let s3 := if wasHead then s2.raiseHeadCheck r.group else s2
    let s4 := (s3.setPointer r.group (some n)).modGroupCounters r.group fun k =>
      { k with offered := satInc k.offered }
    s4.sendOffer n c r.called r.caller r.cls r.group

/-! ### Queues (04, R79) -/

/-- A record placed in the table before the first record of its group's queue that arrived later, else at the end (04,
R79). -/
def placeRecord (r : HuntRecord) : List HuntRecord → List HuntRecord
  | [] => [r]
  | q :: rest =>
    if q.group = r.group && q.isQueued && r.arrival < q.arrival then r :: q :: rest else q :: placeRecord r rest

/-- A record as it enters its group's queue: wait deadline and announce point from the active definition (04, R79). -/
def State.queuedForm (s : State) (r : HuntRecord) : HuntRecord :=
  let f := (s.activeGroup r.group).fields
  let point := if f.threshold = 0 then none else some (r.arrival + 1000 * f.threshold)
  { r with status := .queued (r.arrival + 1000 * f.maxWait) point none false }

/-- A record enters its group's queue; entering at the front changes the head (04, R79, R83). -/
def State.enterQueue (r : HuntRecord) (s : State) : State :=
  let s1 := s.modHunt fun h =>
    { h with records := placeRecord (s.queuedForm r) (h.records.filter fun q => q.call ≠ r.call) }
  if s1.headCall r.group == some r.call then s1.raiseHeadCheck r.group else s1

/-- The announce point of a queued record. -/
def HuntRecord.announcePoint (r : HuntRecord) : Option Nat :=
  match r.status with | .queued _ p _ _ => p | .offered .. => none

/-- The wait deadline of a queued record. -/
def HuntRecord.waitDeadline (r : HuntRecord) : Option Nat :=
  match r.status with | .queued w _ _ _ => some w | .offered .. => none

/-- A deadline that is now or already past. -/
def duePast (now : Nat) (d : Option Nat) : Bool := match d with | some t => t ≤ now | none => false

/-- A queued record whose announce point is now or past asks for an orbit (04, R79). -/
def State.askIfDue (c : CallRef) (s : State) : State :=
  match s.record c with
  | some r => if duePast s.clock r.announcePoint then s.requestOrbit c else s
  | none => s

/-- The maximum-wait action: the overflow action, then QUEUE_TIMEOUT as well (04, R80). -/
def State.maximumWait (c : CallRef) (s : State) : State :=
  match s.record c with
  | none => s
  | some r => (s.overflow c r.group).setFlag .queueTimeout

/-! ### How an offer ends (04, 4.4) -/

/-- The member of an OFFERED record. -/
def HuntRecord.member (r : HuntRecord) : Option Nat := match r.status with | .offered m _ _ => m | .queued .. => none

/-- The retired action of an orphaned record (03, R59). -/
def HuntRecord.retired (r : HuntRecord) : Option RetiredAction :=
  match r.status with | .offered _ _ a => a | .queued .. => none

/-- A record that no longer names its member (04, 4.4). -/
def HuntRecord.detached (r : HuntRecord) : HuntRecord :=
  match r.status with | .offered _ d a => { r with status := .offered none d a } | .queued .. => r

/-- Whether a station is an active member of a group. -/
def State.activeMember (s : State) (g n : Nat) : Bool := (s.activeGroup g).members.contains n

/-- The member is detached and joins the tail of the tried list when it is an active member not already there (04,
R74). -/
def State.detachTried (c : CallRef) (n : Nat) (s : State) : State :=
  s.modRecord c fun r =>
    let r1 := r.detached
    if s.activeMember r.group n && !r.tried.contains n then { r1 with tried := r1.tried ++ [n] } else r1

/-- A record re-enters its queue: RING_STARTED goes up, then in this order the last of an overfull queue overflows, a
past wait deadline takes the maximum-wait action, and a past announce point asks for an orbit (04, R78). -/
def State.requeue (r : HuntRecord) (s : State) : State :=
  let s1 := (s.enterQueue r).sendOwn r.call .ringStarted
  let q := s1.queue r.group
  let s2 := if q.length > (s1.activeGroup r.group).fields.capacity then
      match q.getLast? with | some last => s1.overflow last.call r.group | none => s1
    else s1
  let s3 := match s2.record r.call with
    | some x => if duePast s2.clock x.waitDeadline then s2.maximumWait r.call else s2
    | none => s2
  s3.askIfDue r.call

/-- Re-selection of a record whose offer has just ended: an orphaned record takes its retired action, and one whose
group is not in use is sent away; else the call is offered anew or re-enters the queue (04, R78; 03, R59). -/
def State.reselect (c : CallRef) (s : State) : State :=
  match s.record c with
  | none => s
  | some r =>
    match r.retired with
    | some a => s.sendAway c r.group (retiredBody a)
    | none =>
      if (s.activeGroup r.group).fields.pilot.isNone then s.overflow c r.group
      else
        match s.select r.group r.tried with
        | some (n, clear) => s.offerTo c n clear
        | none => s.requeue r

/-- The offer of call `c` to station `n` has ended without an answer: if a record of the call names the station, it is
detached, tried without a strike, and the call re-selected (04, R74, R77). -/
def State.offerLost (n : Nat) (c : CallRef) (s : State) : State :=
  match s.record c with
  | none => s
  | some r => if r.member == some n then (s.detachTried c n).reselect c else s

/-- A strike, up to 7, and the auto-logoff test against the group's active threshold (04, R75, R76). -/
def State.strike (n g : Nat) (s : State) : State :=
  let s1 := s.changeStation n fun st => { st with strikes := min (st.strikes + 1) 7 }
  let t := (s1.activeGroup g).fields.strikesThreshold
  if 0 < t && t ≤ (s1.stations.get n).strikes then
    (s1.changeStation n fun st => { st with available := false, strikes := 0 }).setFlag .autoLogoff
  else s1

/-- An offer deadline expires: the member is detached and tried, takes a strike and the logoff test, and is withdrawn
with NO_ANSWER; the no-answers counter adds one, and the call is re-selected or takes its retired action (04, R75). -/
def State.noAnswer (c : CallRef) (n : Nat) (g : Nat) (s : State) : State :=
  ((((s.detachTried c n).strike n g).sendWithdraw n c .noAnswer).modGroupCounters g fun k =>
    { k with noAnswers := satInc k.noAnswers }).reselect c

/-- A member other than the taker is detached, with no strike and no tried entry, and withdrawn with TAKEN (04, R85; 05,
R98). -/
def State.withdrawMember (c : CallRef) (m : Nat) (s : State) : State :=
  (s.modRecord c HuntRecord.detached).sendWithdraw m c .taken

/-- Abandonment by the caller: a member is detached, the record is removed wherever it stands, and the abandoned counter
adds one (04, R82). -/
def State.abandon (c : CallRef) (s : State) : State :=
  match s.record c with
  | none => s
  | some r => ((s.modRecord c HuntRecord.detached).removeRecord c false).modGroupCounters r.group fun k =>
      { k with abandoned := satInc k.abandoned }

/-! ### Pilot arrival (04, R67, R68) -/

/-- The group in use whose active pilot DN equals the called DN (04, R67). -/
def State.pilotGroup (s : State) (called : Digits) : Option Nat :=
  groupNumbers.find? fun g => (s.activeGroup g).fields.pilot == some called

/-- A pilot arrival is taken: refused, ignored, diverted, overflowed, offered or queued (04, R67 to R69). -/
def State.pilotArrival (c : CallRef) (called caller : Digits) (cls : CallerClass) (s0 : State) : State :=
  let s := s0.modHunt fun h => { h with closed := h.closed.filter (· ≠ c) }
  if s.maint.mode = .transparent then s.sendOwn c (.refused .unavailable)
  else
    match s.pilotGroup called with
    | none => s.sendOwn c (.refused .unavailable)
    | some g =>
      let f := (s.activeGroup g).fields
      if (s.record c).isSome then s.unexpected
      else
        match s.alarm.source, f.alarmDn with
        | some _, some dn =>
          (s.sendOwn c (.divert dn)).modGroupCounters g fun k => { k with diverted := satInc k.diverted }
        | _, _ =>
          if s.hunt.records.length ≥ Config.huntRecords then (s.overflow c g).setFlag .huntTableFull
          else
            let r : HuntRecord :=
              { call := c, group := g, arrival := s.clock, called := called, caller := caller, cls := cls, tried := [],
                status := .offered none 0 none }
            match (if (s.queue g).isEmpty then s.select g [] else none) with
            | some (n, clear) => (s.modHunt fun h => { h with records := h.records ++ [r] }).offerTo c n clear
            | none =>
              if (s.queue g).length + 1 > f.capacity then s.overflow c g
              else ((s.enterQueue r).sendOwn c .ringStarted).askIfDue c

/-! ### Head checks and member-available events (04, R83, R84) -/

/-- Offers the head of a group's queue while selection finds a member, at most `fuel` times (04, R83). -/
def State.offerHeads (g : Nat) : Nat → State → State
  | 0, s => s
  | fuel + 1, s =>
    match (s.queue g).head? with
    | none => s
    | some r =>
      match s.select g r.tried with
      | none => s
      | some (n, clear) => State.offerHeads g fuel (s.offerTo r.call n clear)

/-- A head check of a group. The checks that its own offers would raise for the group are part of it (04, R83). -/
def State.headCheck (g : Nat) (s : State) : State :=
  (State.offerHeads g (s.queue g).length s).modHunt fun h => { h with headChecks := h.headChecks.filter (· ≠ g) }

/-- The arrival time of a queue's head. -/
def State.headArrival (s : State) (g : Nat) : Nat := match (s.queue g).head? with | some r => r.arrival | none => 0

/-- A group at its place among groups ordered by head arrival, then group number (04, R84). -/
def State.insertByHead (s : State) (g : Nat) : List Nat → List Nat
  | [] => [g]
  | h :: rest =>
    if s.headArrival g < s.headArrival h || (s.headArrival g = s.headArrival h && g ≤ h) then g :: h :: rest
    else h :: s.insertByHead g rest

/-- The groups of which a station is an active member and whose queues are not empty, oldest head first, then lower
group number; at most 4 (04, R84). -/
def State.groupsWaiting (s : State) (n : Nat) : List Nat :=
  ((groupNumbers.filter fun g => s.activeMember g n && !(s.queue g).isEmpty).foldr s.insertByHead []).take 4

/-- Whether a group's head may be offered to a station that came free, and with its pass complete (04, R84). -/
def State.headTakes (s : State) (g n : Nat) : Option (CallRef × Bool) :=
  match (s.queue g).head? with
  | none => none
  | some r =>
    if !r.tried.contains n then some (r.call, false)
    else if ((s.activeGroup g).members.filter s.candidate).all r.tried.contains then some (r.call, true)
    else none

/-- A member-available event for a station is taken: the first head that it may take is offered to it (04, R84). -/
def State.memberAvailable (n : Nat) (s0 : State) : State :=
  let s := s0.modHunt fun h => { h with available := h.available.filter (· ≠ n) }
  if s.candidate n then
    match (s.groupsWaiting n).findSome? fun g => s.headTakes g n with
    | some (c, clear) => s.offerTo c n clear
    | none => s
  else s

/-! ### What work has raised, taken once it is over (01, R4; 02, R37; 04, R83) -/

/-- The head checks raised are taken, in ascending group number (04, R83). -/
def State.takeChecks (s : State) : State := s.hunt.headChecks.foldl (fun t g => t.headCheck g) s

/-- What finished work has raised is taken: its head checks, then its member-available events in ascending station
number, each with the head checks it raises in turn (02, R37; 04, R83). The next piece of work begins here
(notes/assumptions/2.md). -/
def State.settle (s : State) : State :=
  s.takeChecks.hunt.available.foldl (fun t n => (t.memberAvailable n).takeChecks) s.takeChecks

/-! ### Teardown (04, R88) -/

/-- A group's part of the teardown: its queued records overflow oldest first (04, R88). Nothing is handed on or closed
(06, R110; 04, R66). -/
def State.teardownGroup (g : Nat) (s : State) : State :=
  let s1 := (s.queue g).foldl
    (fun t r =>
      (((t.sendOwn r.call (overflowBody (t.activeGroup g).fields.overflowDn)).removeRecord r.call true).setFlag
        .queueOverflow).modGroupCounters g fun k => { k with diverted := satInc k.diverted }) s
  s1.modHunt fun h => { h with records := h.records.filter fun r => r.group ≠ g }

/-- The Hunt Controller's teardown: every group in ascending order, then the closed-call list is emptied (04, R88). -/
def State.teardownHunt (s : State) : State :=
  (groupNumbers.foldl (fun t g => t.teardownGroup g) s).modHunt fun h => { h with closed := [] }

end Sys2Proof.Machine
end

