-- ==== Sys2Proof/Machine/Paging.lean ====
section
/-! DEFINITION. The Paging Controller: PAGE requests, the start and the end of a session, the frame-formed report (07,
R130 to R135; 08, R142, R145). -/

namespace Sys2Proof.Machine

/-! ### The end of a session (07, R134, R135) -/

/-- A session ends: its claim is withdrawn from every HELD zone in its order, TONE(ENDED) goes to its source unless the
cause forbids it (`quiet`: ON_HOOK, ANSWERED), and it is freed (07, R135). -/
def State.endSession (i : Nat) (quiet : Bool) (s : State) : State :=
  match s.paging.sessions.get i with
  | none => s
  | some x =>
    let s1 := (x.zones.filter fun e => e.2 = HoldStatus.held).foldl (fun t e => t.withdrawClaim e.1 (.session i)) s
    (if quiet then s1 else s1.sendTone x.source .ended).freeSession i

/-- A source-departed report ends the session of a station; a station with no session, or a session that is free or
another station's, is passed over (02, R33; 07, R134). -/
def State.sourceDeparted (n : Nat) (quiet : Bool) (s : State) : State :=
  match (s.stations.get n).source with
  | none => s
  | some i =>
    match s.paging.sessions.get i with
    | none => s
    | some x => if x.source = n then s.endSession i quiet else s

/-- Every busy session ends with cause TEARDOWN, in ascending session number (07, R138). -/
def State.teardownSessions (s : State) : State :=
  sessionNumbers.foldl (fun t i => t.endSession i false) s

/-! ### PAGE requests (07, R131 to R133) -/

/-- Place of a page authority in its order (07, R131). -/
def authorityRank : Authority → Nat
  | .none => 0 | .normal => 1 | .urgent => 2 | .emergency => 3

/-- Place of a page class in the order of authorities (07, R131). -/
def pageClassRank : PageClass → Nat
  | .normal => 1 | .urgent => 2 | .emergency => 3

/-- The pre-announce prompt of a page started now with its length, where one is named and has samples (07, R133). -/
def State.preannounce (s : State) : Option (Nat × Nat) :=
  match s.paging.params.preannounce with
  | none => none
  | some p =>
    match s.prompts.directory.get p with
    | none => none
    | some e => if e.length = 0 then none else some (p, e.length)

/-- The lowest-numbered free session (07, R132). -/
def State.freeSessionNumber (s : State) : Option Nat :=
  sessionNumbers.find? fun i => (s.paging.sessions.get i).isNone

/-- Whether a zone set number names a set that a page may name: 0, or a loaded set (07, R131, condition 3). -/
def State.setLoaded (s : State) (set : Nat) : Bool :=
  set = 0 || (set ≤ 63 && (s.paging.zoneSets.get set).isSome)

/-- The first of the checks 1 to 5 that refuses a page, with its tone (07, R131). -/
def State.pageRefusal (s : State) (n set : Nat) (cls : PageClass) : Option ToneKind :=
  let st := s.stations.get n
  if authorityRank st.authority < pageClassRank cls then some .denied
  else if st.talkSlot.isNone then some .denied
  else if !s.setLoaded set then some .denied
  else if (s.resolveSet set).isEmpty then some .denied
  else if s.freeSessionNumber.isNone then some .noResource
  else none

/-- A page is refused: ENGAGE(DENIED), the tone, the sessions refused counter, and SESSION_REFUSED for NO_RESOURCE (07,
R131). -/
def State.refusePage (n : Nat) (k : ToneKind) (s : State) : State :=
  let s1 := ((s.sendEngage n .denied).sendTone n k).modPaging fun p => { p with refused := satInc p.refused }
  if k = .noResource then s1.setFlag .sessionRefused else s1

/-- One claim is asked for on each zone of a list in turn; answers the zones granted, in order (07, R132). -/
def State.requestZones (c : Claim) : List Nat → State → State × List Nat
  | [], s => (s, [])
  | z :: rest, s =>
    let (s1, granted) := s.requestClaim z c
    let (s2, held) := State.requestZones c rest s1
    (s2, if granted then z :: held else held)

/-- Session `i` starts on the zones it was granted: ENGAGE(PAGE), the source session, TONE(CONFIRM) (07, R132, R133). -/
def State.startSession (i n : Nat) (cls : PageClass) (held : List Nat) (s : State) : State :=
  let x : Session :=
    { source := n, cls := cls, talkSlot := ((s.stations.get n).talkSlot).getD 0,
      zones := held.map fun z => (z, HoldStatus.held),
      phase := if s.preannounce.isSome then .preannounce else .live,
      frames := match s.preannounce with | some (_, l) => l | none => 0,
      start := s.clock, deadline := s.clock + 1000 * s.paging.params.maxVoice }
  ((((s.setSession i (some x)).sendEngage n .page).modStation n fun st => { st with source := some i })).sendTone n
    .confirm

/-- A PAGE request from a station (07, R131, R132). -/
def State.page (n set : Nat) (cls : PageClass) (s : State) : State :=
  match s.pageRefusal n set cls, s.freeSessionNumber with
  | some k, _ => s.refusePage n k
  | none, none => s.refusePage n .noResource
  | none, some i =>
    let content := match s.preannounce with | some (p, _) => [Step.prompt p] | none => []
    let (s1, held) := s.requestZones { claimant := .session i, cls := pageClaimClass cls, content := content }
      (s.resolveSet set)
    if held.isEmpty then s.refusePage n .noResource else s1.startSession i n cls held

/-! ### Deadlines and frames (07, R133, R134; 08, R142) -/

/-- A session's deadline expires (07, R134). An event that is not due does nothing (notes/assumptions/3.md). -/
def State.sessionDeadline (i : Nat) (s : State) : State :=
  match s.paging.sessions.get i with
  | some x => if x.deadline ≤ s.clock then s.endSession i false else s
  | none => s

/-- The frame-formed report at one session: a session still in PREANNOUNCE has its count lowered, and becomes LIVE when
the count reaches 0 (07, R133; 08, R142). -/
def State.lowerCount (i : Nat) (s : State) : State :=
  match s.paging.sessions.get i with
  | some x =>
    if x.phase = .preannounce then
      if x.frames ≤ 1 then s.goLive i else s.setSession i (some { x with frames := x.frames - 1 })
    else s
  | none => s

/-- The frame-formed report is taken, for the sessions it names (08, R142). -/
def State.frameFormed (s : State) : State :=
  match s.paging.frameReport with
  | none => s
  | some l => (l.foldl (fun t i => t.lowerCount i) s).modPaging fun p => { p with frameReport := none }

/-- A session's pre-announce count reaches 0: its count stands at 0, or at 1 with the frame-formed report outstanding,
which is then spent for this session (07, R133). -/
def State.preannounceEnd (i : Nat) (s : State) : State :=
  match s.paging.sessions.get i with
  | some x =>
    let reported := (s.paging.frameReport.getD []).contains i
    if x.phase = .preannounce && (x.frames = 0 || (x.frames = 1 && reported)) then
      (s.goLive i).modPaging fun p => { p with frameReport := p.frameReport.map (·.filter (· ≠ i)) }
    else s
  | none => s

end Sys2Proof.Machine
end

