-- ==== Sys2Proof/Machine/Alarm.lean ====
section
/-! DEFINITION. The Alarm Latch: entry, claims, exit, and what zones and modes do to it (10, R171 to R179). -/

namespace Sys2Proof.Machine

/-- The alarm's claim: class 1, the alarm tone descriptor as named now, repeating (10, R174; 07, 7.4). -/
def State.alarmClaim (s : State) : Claim :=
  { claimant := .alarm, cls := 1, content := [.tone s.paging.params.alarmTone none] }

/-- The alarm claim is asked for on one zone, which joins the tail of the claimed list when it is granted, its beacon
turning to ALARM_FLASH (10, R174). -/
def State.claimAlarm (c : Claim) (z : Nat) (s : State) : State :=
  let (s1, granted) := s.requestClaim z c
  if granted then (s1.modAlarm fun a => { a with claimed := a.claimed ++ [z] }).chooseBeacon z else s1

/-- The scope that the alarm zone set gives now: all zone numbers for set 0, a loaded set's list, else nothing (10,
R174). -/
def State.alarmScope (s : State) : List Nat :=
  if s.paging.params.alarmSet = 0 then zoneNumbers else (s.paging.zoneSets.get s.paging.params.alarmSet).getD []

/-- The latch places its claims: a fresh scope, an empty claimed list, then a claim on each enabled zone of the scope in
its order (10, R174). -/
def State.placeAlarm (s : State) : State :=
  let scope := s.alarmScope
  (scope.filter s.zoneEnabled).foldl (fun t z => t.claimAlarm s.alarmClaim z)
    (s.modAlarm fun a => { a with scope := some scope, claimed := [] })

/-- The latch enters the alarm: ALARM_ENTERED is set, and in ENGAGED mode the claims are placed (10, R172, R173). -/
def State.enterAlarm (src : AlarmSource) (s : State) : State :=
  let s1 := (s.modAlarm fun a => { a with source := some src }).setFlag .alarmEntered
  if s1.maint.mode = .engaged then s1.placeAlarm else s1

/-- The alarm's claims are withdrawn in claimed-list order, the claimed list is emptied, the scope becomes absent and
the beacons are chosen again (10, R178, R179). -/
def State.withdrawAlarm (s : State) : State :=
  let zs := s.alarm.claimed
  zs.foldl (fun t z => t.chooseBeacon z)
    ((zs.foldl (fun t z => t.withdrawClaim z .alarm) s).modAlarm fun a => { a with claimed := [], scope := none })

/-- The exit of an ACTIVE latch (10, R178). -/
def State.exitAlarm (s : State) : State :=
  ((s.withdrawAlarm).modAlarm fun a => { a with source := none }).setFlag .alarmCleared

/-- ALARM_IN becomes active: an IDLE latch enters with source INPUT (10, R172). A level that the line has already is no
change (notes/assumptions/3.md); while a reset holds only the level is followed (10, 10.1). -/
def State.alarmInActive (s : State) : State :=
  if s.alarm.line then s
  else
    let s1 := s.modAlarm fun a => { a with line := true }
    if s.lane.phase = .inService && s.alarm.source.isNone then s1.enterAlarm .input else s1

/-- ALARM_IN becomes inactive: an INPUT alarm with auto-exit yes exits (10, R176). -/
def State.alarmInInactive (s : State) : State :=
  if !s.alarm.line then s
  else
    let s1 := s.modAlarm fun a => { a with line := false }
    if s.lane.phase = .inService && s.alarm.source == some .input && s.paging.params.autoExit then s1.exitAlarm else s1

/-- The latch reads ALARM_IN after a reset (10, R171). -/
def State.readAlarmLine (s : State) : State := if s.alarm.line then s.enterAlarm .input else s

/-- A zone enabled in an ACTIVE, ENGAGED alarm's scope receives its claim at once (10, R175). -/
def State.alarmReaches (z : Nat) (s : State) : State :=
  if s.alarm.source.isSome && s.maint.mode = .engaged && (s.alarm.scope.getD []).contains z &&
      !s.alarm.claimed.contains z then s.claimAlarm s.alarmClaim z
  else s

end Sys2Proof.Machine
end

