-- ==== Sys2Proof/Machine/Pickups.lean ====
section
/-! DEFINITION. ANSWERED at a line, the Pickup Unit's requests and the Orbit Table's retrieval (02, R29; 05, R95 to R99;
06, R112 to R114). -/

namespace Sys2Proof.Machine

/-! ### A passed or inserted ANSWERED (02, R29) -/

/-- An OFFERED or RINGING station's current call, when it is not the given call: the offer that an answer on another
call supersedes (02, R29). -/
def Station.superseded (st : Station) (c : CallRef) : Option CallRef :=
  match st.call with
  | some k => if (st.line = .offered || st.line = .ringing) && k ≠ c then some k else none
  | none => none

/-- A passed ANSWERED makes the station TALKING on the call from any state but OUT_OF_SERVICE, its delivered-by group
absent. Leaving RINGING removes its ringing-set entry; another offered call is lost (SUPERSEDED); leaving FEATURE as a
page source ends the session without a tone (02, R29, R33; 07, R135). DESIGN CHOICE: an ANSWERED at a station that is
TALKING already makes its delivered-by group absent as an entry to TALKING does (02, R29; notes/assumptions/36.md). -/
def State.applyAnswered (n : Nat) (c : CallRef) (s : State) : State :=
  let st := s.stations.get n
  if st.line = .outOfService then s
  else
    let s1 := s.changeStation n fun st => { st with line := .talking, call := some c, deliveredBy := none }
    let s2 := if st.line = .ringing then s1.ringingRemove n else s1
    let s3 := match st.superseded c with | some k => s2.offerLost n k | none => s2
    if st.line = .feature then s3.sourceDeparted n true else s3

/-- ANSWERED up, inserted for a picker or a retriever (01, R15). -/
def State.sendAnswered (n : Nat) (c : CallRef) (via : Via) (s : State) : State :=
  (s.applyAnswered n c).join .up (.known ⟨stationEquip n, c, .answered via⟩)

/-- A station that took a call of a group of which it is an active member is treated as delivered by it (05, R99; 06,
R114). -/
def State.creditMember (n : Nat) (g : Option Nat) (s : State) : State :=
  match g with
  | some g => if s.activeMember g n then s.modStation n fun st => { st with deliveredBy := some g } else s
  | none => s

/-! ### Pickup (05) -/

/-- The entry a group pickup takes: the oldest of the picker's own group, else of its partners in list order (05,
R96). -/
def State.groupTarget (s : State) (picker g : Nat) : Option Ringing :=
  (g :: s.pickup.partners.get g).findSome? fun h =>
    s.pickup.ringing.find? fun e => e.station != picker && (s.stations.get e.station).pickupGroup == some h

/-- The lowest-numbered station that carries a DN, digit for digit (05, R97). -/
def State.stationOfDn (s : State) (d : Digits) : Option Nat :=
  stationNumbers.find? fun n => (s.stations.get n).dn == some d

/-- The entry a directed pickup takes: that of the DN's station, when it rings in the picker's group or a partner of it
(05, R97). -/
def State.directedTarget (s : State) (g : Nat) (d : Digits) : Option Ringing :=
  match s.stationOfDn d with
  | none => none
  | some n =>
    let st := s.stations.get n
    match st.pickupGroup with
    | none => none
    | some h =>
      if st.line = .ringing && (h = g || (s.pickup.partners.get g).contains h) then
        s.pickup.ringing.find? fun e => e.station = n
      else none

/-- A pickup request is denied: TONE(DENIED), the denials counter, then the matcher's ENGAGE(DENIED) (05, R95; 02,
R43). -/
def State.denyPickup (p : Nat) (s : State) : State :=
  ((s.sendTone p .denied).modPickup fun u => { u with denials := satInc u.denials }).sendEngage p .denied

/-- The removal request of a pickup of call `c` ringing at `r`: the record, if there is one, leaves its member (another
member is withdrawn with TAKEN), is removed and counted as picked. Answers its group (05, R98). -/
def State.pickRecord (c : CallRef) (r : Nat) (s : State) : State × Option Nat :=
  match s.record c with
  | none => (s, none)
  | some h =>
    let s1 := match h.member with
      | none => s
      | some m => if m = r then s.modRecord c HuntRecord.detached else s.withdrawMember c m
    ((s1.removeRecord c false).modGroupCounters h.group fun k => { k with picked := satInc k.picked }, some h.group)

/-- A pickup succeeds (05, R98, R99). -/
def State.takePickup (p : Nat) (e : Ringing) (via : Via) (s : State) : State :=
  let (s1, g) := s.pickRecord e.call e.station
  let s2 := (s1.sendWithdraw e.station e.call .taken).sendAnswered p e.call via
  ((s2.creditMember p g).closeCall e.call).modPickup fun u => { u with successes := satInc u.successes }

/-- A GROUP_PICKUP request (05, R95, R96). -/
def State.groupPickup (p : Nat) (s : State) : State :=
  match (s.stations.get p).pickupGroup with
  | none => s.denyPickup p
  | some g =>
    match s.groupTarget p g with
    | none => s.denyPickup p
    | some e => s.takePickup p e .pickup

/-- A DIRECTED_PICKUP request (05, R95, R97). -/
def State.directedPickup (p : Nat) (d : Digits) (s : State) : State :=
  match (s.stations.get p).pickupGroup with
  | none => s.denyPickup p
  | some g =>
    match s.directedTarget g d with
    | none => s.denyPickup p
    | some e => s.takePickup p e .directed

/-! ### Orbit retrieval (06, R112 to R114) -/

/-- The removal request of a retrieval: the record, if there is one, is removed and counted as retrieved (06, R113). -/
def State.retrieveRecord (c : CallRef) (s : State) : State :=
  match s.record c with
  | none => s
  | some h => (s.removeRecord c false).modGroupCounters h.group fun k => { k with retrieved := satInc k.retrieved }

/-- Whether a station may retrieve a call of a group (06, R112). -/
def State.mayRetrieve (s : State) (g p : Nat) : Bool := !(s.activeGroup g).fields.membersOnly || s.activeMember g p

/-- A retrieval is denied: TONE(DENIED), then the matcher's ENGAGE(DENIED) (06, R112; 02, R43). -/
def State.denyRetrieve (p : Nat) (s : State) : State := (s.sendTone p .denied).sendEngage p .denied

/-- An ORBIT_RETRIEVE request (06, R112 to R114). -/
def State.retrieve (p n : Nat) (s : State) : State :=
  match s.orbits.get n with
  | none => s.denyRetrieve p
  | some o =>
    if s.mayRetrieve o.group p then
      ((s.retrieveRecord o.call).sendAnswered p o.call .orbit).creditMember p (some o.group)
    else s.denyRetrieve p

end Sys2Proof.Machine
end

