-- ==== Sys2Proof/Machine/Calls.lean ====
section
/-! DEFINITION. What tracked cells do at the Station Tracker and the Hunt Controller before they pass or are consumed
(02, R26 to R32; 04, R72 to R77, R82, R85 to R87), and STATION_SERVICE (02, R34). -/

namespace Sys2Proof.Machine

/-- What the owning blocks decide about a cell (01, 1.2). -/
inductive Decision where
  | pass | consume
deriving DecidableEq, Repr, Inhabited

/-- A through cell that its block cannot apply is counted; an inserted one is not (02, R25). -/
def State.unlessApplied (r : State × Bool) : State := if r.2 then r.1 else r.1.unexpected

/-! ### OFF_HOOK (02, R26) -/

/-- An OFF_HOOK makes an IDLE station SEIZED, and an OFFERED one as well, whose offer is lost to GLARE. Answers whether
the line state accepted it (02, R26; 04, R77). -/
def State.trackOffHook (n : Nat) (s : State) : State × Bool :=
  let st := s.stations.get n
  match st.line with
  | .idle => (s.changeStation n fun st => { st with line := .seized }, true)
  | .offered =>
    let s1 := s.changeStation n fun st => { st with line := .seized, call := none }
    (match st.call with | some c => s1.offerLost n c | none => s1, true)
  | _ => (s, false)

/-- An up OFF_HOOK from a tracked station (01, R11). -/
def State.offHook (n : Nat) (s : State) : State := State.unlessApplied (s.trackOffHook n)

/-- OFF_HOOK up with call reference 0, inserted after a late answer (04, R86). -/
def State.sendOffHook (n : Nat) (s : State) : State :=
  (s.trackOffHook n).1.join .up (.known ⟨stationEquip n, 0#16, .offHook⟩)

/-! ### RING_STARTED (02, R28; 04, R72) -/

/-- A RING_STARTED makes an IDLE station, or one OFFERED the call, RINGING with an entry in the ringing set; one RINGING
with the call already stays as it was. Answers whether the line state accepted it. -/
def State.trackRingStarted (n : Nat) (c : CallRef) (s : State) : State × Bool :=
  let st := s.stations.get n
  let ring := (s.changeStation n fun st => { st with line := .ringing, call := some c }).ringingAdd n c
  match st.line with
  | .idle => (ring, true)
  | .offered => if st.call == some c then (ring, true) else (s, false)
  | .ringing => (s, st.call == some c)
  | _ => (s, false)

/-- An up RING_STARTED from a tracked station (01, R11). -/
def State.ringStarted (n : Nat) (c : CallRef) (s : State) : State := State.unlessApplied (s.trackRingStarted n c)

/-! ### ON_HOOK (02, R32) -/

/-- Whether an ON_HOOK from this station ends a call: it leaves TALKING, or SEIZED or FEATURE with a delivered-by group
(02, R32). -/
def Station.endsCall (st : Station) : Bool :=
  st.line = .talking || ((st.line = .seized || st.line = .feature) && st.deliveredBy.isSome)

/-- The wrap-up deadline an ON_HOOK leaves: a new one where the ended call's group has a wrap-up time, else the old one
(02, R32). -/
def State.wrapUpAfter (s : State) (st : Station) : Option Nat :=
  match st.deliveredBy with
  | some g =>
    let w := (s.activeGroup g).fields.wrapUp
    if st.endsCall && 0 < w then some (s.clock + 1000 * w) else st.wrapUp
  | none => st.wrapUp

/-- An ON_HOOK makes a station IDLE with no call and no delivered-by group; it ends a ring, an offer and a page session,
and starts the wrap-up. Answers whether the line state accepted it (02, R32, R33; 04, R77). -/
def State.trackOnHook (n : Nat) (s : State) : State × Bool :=
  let st := s.stations.get n
  match st.line with
  | .idle | .outOfService => (s, false)
  | l =>
    let s1 := s.changeStation n fun st =>
      { st with line := .idle, call := none, deliveredBy := none, wrapUp := s.wrapUpAfter st
                lastIdle := if st.endsCall then s.clock else st.lastIdle }
    let s2 := if l = .ringing then s1.ringingRemove n else s1
    let s3 := if l = .offered || l = .ringing then
        match st.call with | some c => s2.offerLost n c | none => s2
      else s2
    (if l = .feature then s3.sourceDeparted n true else s3, true)

/-- An up ON_HOOK from a tracked station (01, R11). -/
def State.onHook (n : Nat) (s : State) : State := State.unlessApplied (s.trackOnHook n)

/-! ### ANSWERED (02, R29; 04, R73, R85, R86) -/

/-- After a delivered answer: strikes 0, and the group as delivered-by when the station is TALKING (04, R73, R85). -/
def State.deliver (n g : Nat) (s : State) : State :=
  s.modStation n fun st =>
    { st with strikes := 0, deliveredBy := if st.line = .talking then some g else st.deliveredBy }

/-- An ANSWERED for a call with a record: by its member, or a late answer that wins. Another member is withdrawn with
TAKEN, the record is removed and counted as answered, the station is TALKING and credited (04, R73, R85). -/
def State.answerRecord (n : Nat) (r : HuntRecord) (s : State) : State :=
  let s1 := match r.member with
    | some m => if m = n then s else s.withdrawMember r.call m
    | none => s
  (((s1.removeRecord r.call false).modGroupCounters r.group fun k =>
    { k with answered := satInc k.answered }).applyAnswered n r.call).deliver n r.group

/-- An ANSWERED consumed: WITHDRAW(TAKEN) down to the station, OFF_HOOK up for it (04, R86). -/
def State.answerTooLate (n : Nat) (c : CallRef) (s : State) : State := (s.sendWithdraw n c .taken).sendOffHook n

/-- An up ANSWERED from a tracked station (01, R13; 02, R29; 04, R73, R85, R86). -/
def State.answered (n : Nat) (c : CallRef) (s : State) : State × Decision :=
  match s.record c with
  | some r => (s.answerRecord n r, .pass)
  | none =>
    if !(s.stations.get n).onOffer c && s.hunt.closed.contains c then (s.answerTooLate n c, .consume)
    else (s.applyAnswered n c, .pass)

/-! ### REFUSED and WITHDRAW (02, R30; 04, R74, R82, R87) -/

/-- Whether a station is the member of an OFFERED record of a call. -/
def State.isMember (s : State) (n : Nat) (c : CallRef) : Bool :=
  match s.record c with | some r => r.member == some n | none => false

/-- An up REFUSED from a tracked station: a member's refusal re-selects the call, a late one does nothing; both are
consumed, any other passes (01, R13; 02, R30; 04, R74, R87). -/
def State.refused (n : Nat) (c : CallRef) (s : State) : State × Decision :=
  let s1 := (s.trackOfferGone n c).1
  if s1.isMember n c then (s1.offerLost n c, .consume)
  else if (s1.record c).isSome || s1.hunt.closed.contains c then (s1, .consume)
  else (s1, .pass)

/-- A down WITHDRAW to a tracked station; one that reaches the member of its call's record is treated as that member's
refusal (01, R9; 02, R30; 04, R74). -/
def State.withdrawn (n : Nat) (c : CallRef) (s : State) : State := (s.trackOfferGone n c).1.offerLost n c

/-- A WITHDRAW to the part's own number: the caller's abandonment. A member is withdrawn with CANCELLED; with no record
the cell is unexpected (01, R9; 04, R82). An orphaned record is abandoned in the same way (04, R82): none of the cells
carries the part's own equipment number. DEDUCED: that is what 03, R59 says of it, "no cell of the part's own"
(notes/assumptions/38.md). -/
def State.abandonment (c : CallRef) (s : State) : State :=
  match s.record c with
  | none => s.unexpected
  | some r =>
    let s1 := s.abandon c
    match r.member with
    | some m => s1.sendWithdraw m c .cancelled
    | none => s1

/-! ### CALL_END (02, R31; 04, R82) -/

/-- A CALL_END at one station whose current call it names: OFFERED or RINGING becomes IDLE with its ringing-set entry
removed, TALKING becomes SEIZED keeping its delivered-by group (02, R31). -/
def State.callEndAt (n : Nat) (s : State) : State :=
  let st := s.stations.get n
  match st.line with
  | .offered | .ringing => (s.changeStation n fun st => { st with line := .idle, call := none }).ringingRemove n
  | .talking => s.changeStation n fun st => { st with line := .seized, call := none }
  | _ => s

/-- The stations whose current call is this call, ascending. -/
def State.stationsOn (s : State) (c : CallRef) : List Nat :=
  stationNumbers.filter fun n => (s.stations.get n).call == some c

/-- A down CALL_END: every station on the call, then the caller's abandonment of any record (01, R9; 02, R31; 04,
R82). -/
def State.callEnd (c : CallRef) (s : State) : State :=
  ((s.stationsOn c).foldl (fun t n => t.callEndAt n) s).abandon c

/-! ### STATION_SERVICE and wrap-up (02, R34, R38) -/

/-- STATION_SERVICE(out), its effects in their order (02, R34). -/
def State.serviceOut (n : Nat) (s : State) : State :=
  let st := s.stations.get n
  if st.line = .outOfService then s
  else
    let s1 := s.changeStation n fun st => { st with line := .outOfService }
    let s2 := if st.line = .ringing then s1.ringingRemove n else s1
    let s3 := if st.line = .offered || st.line = .ringing then
        match st.call with | some c => s2.offerLost n c | none => s2
      else s2
    (s3.sourceDeparted n false).modStation n fun st => { st with call := none, deliveredBy := none, wrapUp := none }

/-- STATION_SERVICE(in): IDLE, last-idle time now (02, R34). -/
def State.serviceIn (n : Nat) (s : State) : State :=
  if (s.stations.get n).line = .outOfService then
    s.changeStation n fun st => { st with line := .idle, lastIdle := s.clock }
  else s

/-- A wrap-up deadline expires (02, R38). An event that is not due does nothing (notes/assumptions/3.md). -/
def State.wrapUpExpiry (n : Nat) (s : State) : State :=
  if duePast s.clock (s.stations.get n).wrapUp then s.changeStation n fun st => { st with wrapUp := none } else s

end Sys2Proof.Machine
end

