-- ==== Sys2Proof/Machine/Matcher.lean ====
section
/-! DEFINITION. The Code Matcher: matching, argument forms, LOGON, LOGOFF, GROUP_STATUS and the dispatch of the other
features (02, R41 to R45; 01, R12). -/

namespace Sys2Proof.Machine

/-- The longest loaded code that begins a dialled string, with the symbols behind it (02, R41). -/
def State.matchCode (s : State) (dialled : Digits) : Option (AccessCode × Digits) :=
  let best := (List.range 16).foldl
    (fun best i =>
      match s.codes.get i with
      | none => best
      | some e =>
        if e.code.isPrefixOf dialled then
          match best with
          | none => some e
          | some (b : AccessCode) => if b.code.length < e.code.length then some e else best
        else best) none
  best.map fun e => (e, dialled.drop e.code.length)

/-- The number a string of decimal digits spells (02, R42). -/
def digitsNat (ds : Digits) : Nat := ds.foldl (fun a d => 10 * a + d.toNat) 0

/-- One or two decimal digits. -/
def isShortNumber (ds : Digits) : Bool := 1 ≤ ds.length && ds.length ≤ 2 && ds.all isDigit

/-- Whether an argument has the form its feature asks for (02, R42). -/
def argumentOk : CodeFeature → Digits → Bool
  | .groupPickup, ds | .logon, ds | .logoff, ds => ds.isEmpty
  | .directedPickup, ds => isDn ds
  | .page, ds => isShortNumber ds
  | .orbitRetrieve, ds => ds.length = 1 && ds.all isDigit && 1 ≤ digitsNat ds
  | .groupStatus, ds => isShortNumber ds && 1 ≤ digitsNat ds && digitsNat ds ≤ 32

/-- The matcher's denial: ENGAGE(DENIED) up, TONE(DENIED) down (02, R42, R45). -/
def State.denyFeature (n : Nat) (s : State) : State := (s.sendEngage n .denied).sendTone n .denied

/-- The longest wait of a queue in seconds: that of its oldest record, 0 when it is empty (02, R45). -/
def State.longestWait (s : State) (g : Nat) : Nat :=
  match (s.queue g).head? with | some r => (s.clock - r.arrival) / 1000 | none => 0

/-- The DISPLAY of a group's live state (02, R45). -/
def State.statusBody (s : State) (g : Nat) : Body :=
  let q := (s.queue g).length
  .display (BitVec.ofNat 8 g) (BitVec.ofNat 8 q) (BitVec.ofNat 16 (s.longestWait g))
    (BitVec.ofNat 8 ((s.activeGroup g).members.filter s.candidate).length)
    (BitVec.ofNat 8 ((s.activeGroup g).fields.capacity - q))

/-- GROUP_STATUS: ENGAGE(STATUS), then DISPLAY and TONE(CONFIRM); a denial for a group not in use (02, R45). -/
def State.groupStatus (n g : Nat) (s : State) : State :=
  if (s.activeGroup g).fields.pilot.isNone then s.denyFeature n
  else
    ((s.sendEngage n .status).join .down (.known ⟨stationEquip n, 0#16, s.statusBody g⟩)).sendTone n .confirm

/-- A matched feature with an argument of correct form (02, R42 to R45). -/
def State.dispatchFeature (n : Nat) (e : AccessCode) (arg : Digits) (s : State) : State :=
  match e.feature with
  | .groupPickup => s.groupPickup n
  | .directedPickup => s.directedPickup n arg
  | .page => s.page n (digitsNat arg) e.cls
  | .orbitRetrieve => s.retrieve n (digitsNat arg)
  | .logon => ((s.setAvailable n).sendEngage n .logon).sendTone n .confirm
  | .logoff => ((s.setUnavailable n).sendEngage n .logoff).sendTone n .confirm
  | .groupStatus => s.groupStatus n (digitsNat arg)

/-- An up DIALLED from a tracked station: examined in ENGAGED mode from a SEIZED line; a match is consumed whatever
follows, anything else passes (01, R12; 02, R41, R42). -/
def State.dialled (n : Nat) (ds : Digits) (s : State) : State × Decision :=
  if s.maint.mode = .engaged && (s.stations.get n).line = .seized then
    match s.matchCode ds with
    | none => (s, .pass)
    | some (e, arg) =>
      (if argumentOk e.feature arg then s.dispatchFeature n e arg else s.denyFeature n, .consume)
  else (s, .pass)

end Sys2Proof.Machine
end

