-- ==== Sys2Proof/Machine/Commit.lean ====
section
/-! DEFINITION. Validation of the staged bank, the commit countdown, and the commit with its in-flight rules (03, R51 to
R63). -/

namespace Sys2Proof.Machine

/-! ### Validation (03, R51) -/

/-- The conditions of a valid bank, in the order they are checked (03, 3.3). -/
inductive Condition where
  | duplicateMember | memberRange | stationLimit | sharedPilot | emptyPiloted
deriving DecidableEq, Repr, Inhabited

/-- A failure report: the condition broken, the group, and the station or the second group (03, R51). -/
structure FailureReport where
  condition : Condition
  group : Option Nat
  other : Option Nat
deriving DecidableEq, Repr, Inhabited

/-- The first station of a list that stands in it before. -/
def firstRepeat : List Nat → List Nat → Option Nat
  | _, [] => none
  | seen, n :: rest => if seen.contains n then some n else firstRepeat (seen ++ [n]) rest

/-- The lowest group below `g` whose pilot DN equals that of `g`. -/
def sharedWith (bank : Tab 1 32 Group) (g : Nat) : Option Nat :=
  match (bank.get g).fields.pilot with
  | none => none
  | some p => groupNumbers.find? fun h => h < g && (bank.get h).fields.pilot == some p

/-- Groups of a bank whose member lists name a station, with and without a pilot (03, 3.3). -/
def groupsOf (bank : Tab 1 32 Group) (n : Nat) : Nat :=
  (groupNumbers.filter fun g => (bank.get g).members.contains n).length

/-- The stations that stand in some member list of a bank, ascending, without repeats. -/
def listedStations (bank : Tab 1 32 Group) : List Nat :=
  groupNumbers.foldl (fun acc g => (bank.get g).members.foldl (fun a n => insertSorted n a) acc) []

/-- How a group breaks one of the conditions that are examined group by group. -/
def breaks (bank : Tab 1 32 Group) (k : Condition) (g : Nat) : Option FailureReport :=
  let grp := bank.get g
  match k with
  | .duplicateMember => (firstRepeat [] grp.members).map fun n => ⟨k, some g, some n⟩
  | .memberRange => (grp.members.find? fun n => Config.stations ≤ n).map fun n => ⟨k, some g, some n⟩
  | .stationLimit => none
  | .sharedPilot => (sharedWith bank g).map fun h => ⟨k, some g, some h⟩
  | .emptyPiloted => if grp.fields.pilot.isSome && grp.members.isEmpty then some ⟨k, some g, none⟩ else none

/-- How a bank breaks one condition: the groups ascending, or for STATION_LIMIT the stations ascending (03, R51). -/
def breaksBank (bank : Tab 1 32 Group) : Condition → Option FailureReport
  | .stationLimit =>
    ((listedStations bank).find? fun n => 4 < groupsOf bank n).map fun n => ⟨.stationLimit, none, some n⟩
  | k => groupNumbers.findSome? (breaks bank k)

/-- Validation of a bank: the first condition broken, or none (03, R51). -/
def validate (bank : Tab 1 32 Group) : Option FailureReport :=
  [Condition.duplicateMember, .memberRange, .stationLimit, .sharedPilot, .emptyPiloted].findSome? (breaksBank bank)

/-! ### The countdown (03, R52, R53) -/

/-- Remaining seconds of the countdown, rounded up; 0 when none runs (03, 3.4). -/
def State.commitRemaining (s : State) : Nat :=
  match s.hunt.countdown with
  | some d => (d - s.clock + 999) / 1000
  | none => 0

/-! ### A commit's stages (03, R57 to R63) -/

/-- The retired action fixed at a commit (03, R58). -/
def retiredOf : Option Digits → RetiredAction
  | some dn => .divert dn
  | none => .refusedBusy

/-- A retiring group's offered records become orphaned; one orphaned earlier keeps its action (03, R58, R59). -/
def HuntRecord.orphan (a : RetiredAction) (r : HuntRecord) : HuntRecord :=
  match r.status with
  | .offered m d none => { r with status := .offered m d (some a) }
  | _ => r

/-- A retiring group: its queued records take the old overflow action, oldest first, and its offered records are
orphaned (03, R58). -/
def State.retireGroup (g : Nat) (old : Group) (s : State) : State :=
  ((s.queue g).foldl (fun t r => t.sendAway r.call g (overflowBody old.fields.overflowDn)) s).modHunt fun h =>
    { h with records := h.records.map fun r =>
        if r.group = g then r.orphan (retiredOf old.fields.overflowDn) else r }

/-- A continuing group's tried lists lose the stations that are no longer members (03, R60). -/
def State.pruneTried (g : Nat) (s : State) : State :=
  s.modHunt fun h =>
    { h with records := h.records.map fun r =>
        if r.group = g then { r with tried := r.tried.filter (s.activeMember g) } else r }

/-- While a queue holds more records than the capacity, the last takes the overflow action (03, R61). -/
def State.trimQueue (g : Nat) : Nat → State → State
  | 0, s => s
  | fuel + 1, s =>
    let q := s.queue g
    if q.length > (s.activeGroup g).fields.capacity then
      match q.getLast? with
      | some r => State.trimQueue g fuel (s.overflow r.call g)
      | none => s
    else s

/-- A queued record that holds no orbit has its announce point recomputed: none for threshold 0, with its mark ended;
else arrival plus threshold, a point still to come ending the mark (03, R62; 06, R107). -/
def HuntRecord.recompute (now threshold : Nat) (r : HuntRecord) : HuntRecord :=
  match r.status with
  | .queued w _ none a =>
    if threshold = 0 then { r with status := .queued w none none false }
    else
      let point := r.arrival + 1000 * threshold
      { r with status := .queued w (some point) none (a && point ≤ now) }
  | _ => r

/-- A continuing group's announce points are recomputed; records whose point is now or past ask for an orbit in queue
order (03, R62). -/
def State.recomputePoints (g : Nat) (s : State) : State :=
  let t := (s.activeGroup g).fields.threshold
  let s1 := s.modHunt fun h =>
    { h with records := h.records.map fun r => if r.group = g then r.recompute s.clock t else r }
  (s1.queue g).foldl (fun t r => t.askIfDue r.call) s1

/-- One group's treatment at a commit, by its old definition and its new one (03, R56, R57). -/
def State.commitGroup (old : Tab 1 32 Group) (g : Nat) (s : State) : State :=
  match (old.get g).fields.pilot, (s.activeGroup g).fields.pilot with
  | some _, none => s.retireGroup g (old.get g)
  | some _, some _ =>
    let s1 := s.pruneTried g
    (State.trimQueue g (s1.queue g).length s1).recomputePoints g
  | none, _ => s

/-- The stations a commit raises member-available events for: candidates that are active members of a group whose queue
is not empty (03, R63). -/
def State.commitAvailable (s : State) : List Nat :=
  let waiting := groupNumbers.filter fun g => !(s.queue g).isEmpty
  stationNumbers.filter fun n => s.candidate n && waiting.any fun g => s.activeMember g n

/-- A valid commit, in its stages (03, R57). -/
def State.commit (s : State) : State :=
  let old := s.hunt.active
  let s1 := s.modHunt fun h => { h with active := h.staged }
  let s2 := (groupNumbers.foldl (fun t g => t.commitGroup old g) s1).setFlag .commitDone
  s2.commitAvailable.foldl (fun t n => t.raiseAvailable n) s2

/-- The countdown expires: it ends, and the staged bank is validated again and committed, or COMMIT_FAILED is set (03,
R55). An event that is not due does nothing (notes/assumptions/3.md). -/
def State.commitExpiry (s : State) : State :=
  if duePast s.clock s.hunt.countdown then
    let s1 := s.modHunt fun h => { h with countdown := none }
    match validate s1.hunt.staged with
    | some _ => s1.setFlag .commitFailed
    | none => s1.commit
  else s

end Sys2Proof.Machine
end

