-- ==== Sys2Proof/Machine/Player.lean ====
section
/-! DEFINITION. The content player: one frame of a prompt step or of a tone step against the Prompt Store (08, R144; 09,
R161 to R164, R169), and the micro-steps that the end of a cycle and of a prompt step are. -/

namespace Sys2Proof.Machine

/-- The triangle value of a phase (09, R163). -/
def triangle (phase : Nat) : Int := if phase < 32768 then (phase : Int) - 16384 else 49151 - (phase : Int)

/-- A tone sample: the triangle scaled by the amplitude, rounded toward minus infinity (09, R163). -/
def toneSample (phase amplitude : Nat) : Int := (triangle phase * (amplitude : Int) + 8192) / 16384

/-- The round length of a repeating step: the descriptor's cycles field, or 255 when it is 0 or the descriptor is empty
(09, R161). -/
def roundLength (d : Option Tone) : Nat :=
  match d with
  | some t => if t.cycles = 0 then 255 else t.cycles
  | none => 255

/-- The number of the cycle that follows cycle `ended` (0 before the first), at a cycle start that reads `d` (09,
R161). -/
def nextCycle (limit : Option Nat) (ended : Nat) (d : Option Tone) : Nat :=
  if ended = 0 then 1
  else
    match limit with
    | some _ => ended + 1
    | none => if roundLength d ≤ ended then 1 else ended + 1

/-- A cycle start: the descriptor as it stands gives the cycle's values for the whole cycle; an empty one gives a void
cycle of one frame (09, R161, R162). DESIGN CHOICE: the phase is 0 from every cycle start, in a void cycle and with on
time 0 too (notes/assumptions/34.md). -/
def startCycle (cycle : Nat) : Option Tone → Cursor
  | none => .tone cycle 0 0 0 .void 1 0
  | some t =>
    if 0 < t.onTime then .tone cycle t.increment t.amplitude (8 * t.offTime) .on (8 * t.onTime) 0
    else .tone cycle t.increment t.amplitude 0 .off (8 * t.offTime) 0

/-- What a frame of a step gives: its sample, and the cursor behind it, or that the step has ended. -/
structure Played where
  sample : Int
  cursor : Option Cursor
deriving DecidableEq, Repr

/-- Whether a cycle is the last of a finite step (09, R161). -/
def lastCycle (limit : Option Nat) (cycle : Nat) : Bool := match limit with | some n => n ≤ cycle | none => false

/-- One frame of a tone cycle in progress (09, R162, R163). A cycle whose last frame this is leaves a cursor with no
frame left, or ends the step when it was the last cycle (09, R164). -/
def playCycle (limit : Option Nat) : Cursor → Played
  | .tone cycle inc amp offFrames part left phase =>
    let left1 := left - 1
    let sample := match part with | .on => toneSample phase amp | _ => 0
    let phase1 := match part with | .on => (phase + inc) % 65536 | _ => phase
    if 0 < left1 then ⟨sample, some (.tone cycle inc amp offFrames part left1 phase1)⟩
    else if part = .on && 0 < offFrames then ⟨sample, some (.tone cycle inc amp 0 .off offFrames phase1)⟩
    else if lastCycle limit cycle then ⟨sample, none⟩
    else ⟨sample, some (.tone cycle inc amp 0 part 0 phase1)⟩
  | c => ⟨0, some c⟩

/-- The number of the cycle behind which the next frame of a tone step is a cycle start (0 before the first cycle);
`none` while a cycle is in progress (09, R161). -/
def Cursor.ended : Cursor → Option Nat
  | .tone cycle _ _ _ _ left _ => if 0 < left then none else some cycle
  | .cycleDue cycle => some cycle
  | .fresh | .prompt .. => some 0

/-- The cycle that the next frame of a tone step starts behind cycle `ended`, by the descriptor as it stands when that
frame is formed (09, R161). -/
def Prompts.startNext (pr : Prompts) (descriptor : Nat) (limit : Option Nat) (ended : Nat) : Cursor :=
  let d := pr.tones.get descriptor
  startCycle (nextCycle limit ended d) d

/-- One frame of a tone step (09, R161 to R164). -/
def Prompts.playTone (pr : Prompts) (descriptor : Nat) (limit : Option Nat) (cur : Cursor) : Played :=
  match cur.ended with
  | none => playCycle limit cur
  | some e => playCycle limit (pr.startNext descriptor limit e)

/-- The stretch a prompt step copies in its first frame; `none` when the step is skipped (09, R169). -/
def Prompts.stretch (pr : Prompts) (entry : Nat) : Option PromptEntry :=
  match pr.directory.get entry with
  | some e => if e.length = 0 then none else some e
  | none => none

/-- One frame of a prompt step that plays the stretch `start`, `length` and has played `k` samples (09, R169). -/
def Prompts.playSample (pr : Prompts) (start length k : Nat) : Played :=
  ⟨(memRead pr.memory (start + k)).toInt, some (.prompt start length (k + 1))⟩

/-- A player's state after a frame: the sample, the player, and whether the content's last step ended in this frame. -/
structure Frame where
  sample : Int
  player : Player
  complete : Bool
deriving DecidableEq, Repr

/-- A player that goes on with its step, or behind its last frame is empty and complete (08, R144). -/
def afterFrame (number : Nat) (step : Step) (rest : List Step) (r : Played) : Frame :=
  match r.cursor with
  | none =>
    if rest.isEmpty then ⟨r.sample, Player.empty, true⟩ else ⟨r.sample, ⟨number + 1, rest, .fresh⟩, false⟩
  | some (.prompt s l k) =>
    if l ≤ k && rest.isEmpty then ⟨r.sample, Player.empty, true⟩
    else ⟨r.sample, ⟨number, step :: rest, .prompt s l k⟩, false⟩
  | some c => ⟨r.sample, ⟨number, step :: rest, c⟩, false⟩

/-- One frame of a content from step `number` on: a skipped or played-out prompt step gives way to the next step in the
same frame (08, R144; 09, R169). -/
def Prompts.playSteps (pr : Prompts) : List Step → Nat → Cursor → Frame
  | [], _, _ => ⟨0, Player.empty, false⟩
  | .tone d limit :: rest, number, cur => afterFrame number (.tone d limit) rest (pr.playTone d limit cur)
  | .prompt e :: rest, number, cur =>
    match cur with
    | .prompt s l k =>
      if k < l then afterFrame number (.prompt e) rest (pr.playSample s l k)
      else if rest.isEmpty then ⟨0, Player.empty, true⟩ else pr.playSteps rest (number + 1) .fresh
    | _ =>
      match pr.stretch e with
      | some x => afterFrame number (.prompt e) rest (pr.playSample x.start x.length 0)
      | none => if rest.isEmpty then ⟨0, Player.empty, true⟩ else pr.playSteps rest (number + 1) .fresh

/-- One frame of a player (08, R144). -/
def Prompts.play (pr : Prompts) (p : Player) : Frame := pr.playSteps p.steps p.number p.cursor

/-! ### What the next frame will act on (09, R170), and the micro-steps (09, R164, R169) -/

/-- A prompt step that has played out gives way to the step behind it. -/
def Player.passPrompt (p : Player) : Player :=
  match p.steps, p.cursor with
  | .prompt _ :: rest, .prompt _ l k =>
    if k < l then p else if rest.isEmpty then Player.empty else ⟨p.number + 1, rest, .fresh⟩
  | _, _ => p

/-- A tone cycle that has run out is over: the next one starts in the next frame formed, and reads the descriptor as it
stands when that frame is formed (09, R161, R164; notes/assumptions/9.md). -/
def Player.passCycle (p : Player) : Player :=
  match p.steps, p.cursor with
  | .tone .. :: _, .tone cycle _ _ _ _ 0 _ => { p with cursor := .cycleDue cycle }
  | _, _ => p

/-- A tone step whose next frame is a cycle start stands in the cycle which that frame falls in; step 1 since a head
change has begun no cycle (09, R170; notes/assumptions/21.md). -/
def Prompts.beginCycle (pr : Prompts) (p : Player) : Player :=
  match p.steps, p.cursor.ended with
  | .tone d limit :: _, some e =>
    if p.number ≤ 1 && p.cursor = .fresh then p else { p with cursor := pr.startNext d limit e }
  | _, _ => p

/-- The player as the next frame formed will act on it (09, R170). -/
def Prompts.ahead (pr : Prompts) (p : Player) : Player := pr.beginCycle p.passPrompt

/-- A tone cycle's frames have run out in a zone: the cycle ends, and the next cycle start is the next frame formed (09,
R161, R164). -/
def State.toneCycleEnd (z : Nat) (s : State) : State :=
  s.modZone z fun zn => { zn with player := zn.player.passCycle }

/-- A prompt step has played its last sample in a zone: the player moves to the next step (09, R169). -/
def State.promptStepEnd (z : Nat) (s : State) : State :=
  s.modZone z fun zn => { zn with player := zn.player.passPrompt }

end Sys2Proof.Machine
end

