-- ==== Sys2Proof/Machine/Mixer.lean ====
section
/-! DEFINITION. The Zone Mixer: inputs, gains, the output sample, music ducking, the noise estimator, and the formation
of a frame with its reports (08, R140 to R156). -/

namespace Sys2Proof.Machine

/-! ### Inputs (08, R143, R146) -/

/-- The sample of a frame's slot; a frame given with fewer slots reads 0 there (notes/assumptions/18.md). -/
def sampleAt (frame : List Sample) (slot : Nat) : Int := (frame.getD slot 0#16).toInt

/-- The sample of an optional slot, 0 where there is none. -/
def optionalSample (frame : List Sample) (slot : Option Nat) : Int :=
  match slot with | some k => sampleAt frame k | none => 0

/-- The voice slot of a zone: its head session's talk slot, while that session is LIVE (08, R143). -/
def State.voiceSlot (s : State) (zn : Zone) : Option Nat :=
  match zn.claims with
  | c :: _ =>
    match c.claimant with
    | .session i =>
      match s.paging.sessions.get i with
      | some x => if x.phase = .live then some x.talkSlot else none
      | none => none
    | _ => none
  | [] => none

/-! ### Gains and the output sample (08, R147 to R149) -/

/-- An effective gain: the configured gain times the boost, rounded, at most 4095 (08, R147). -/
def effectiveGain (gain boost : Nat) : Nat := min ((gain * boost + 512) / 1024) 4095

/-- The accumulation (08, R148). -/
def accumulation (v : Int) (pageGain : Nat) (t : Int) (toneGain : Nat) (m : Int) (musicGain : Nat) : Int :=
  v * pageGain + t * toneGain + m * musicGain

/-- The unclamped sample, rounded toward minus infinity (08, R148). -/
def unclamped (a : Int) : Int := (a + 512) / 1024

/-- The output sample (08, R149). -/
def clampSample (x : Int) : Int := max (-32768) (min x 32767)

/-- A zone's accumulation in a frame, by the gains in force before it (08, R147, R148). -/
def Zone.accumulate (zn : Zone) (v t m : Int) : Int :=
  accumulation v (effectiveGain zn.fields.pageGain zn.audio.boost) t
    (effectiveGain zn.fields.toneGain zn.audio.boost) m zn.audio.musicGain

/-! ### Music ducking (08, R150) -/

/-- One duck step toward a target, which is never passed (08, R150). -/
def rampStep (gain target step : Nat) : Nat :=
  if gain ≤ target then (if target - gain ≤ step then target else gain + step)
  else if gain - target ≤ step then target else gain - step

/-- The target of the music gain: the duck gain under a head, else the base gain (08, R150). -/
def Zone.musicTarget (zn : Zone) : Nat := if zn.claims.isEmpty then zn.fields.musicBase else zn.fields.musicDuck

/-! ### The noise estimator (08, R151 to R154) -/

/-- The boost that a noise level gives (08, R153). -/
def boostFor (f : ZoneFields) (level : Nat) : Nat :=
  min (if f.noiseFloor < level then 1024 + (level - f.noiseFloor) * f.slope / 64 else 1024) f.maxBoost

/-- The loud flag that a noise level leaves (08, R154). -/
def loudFor (f : ZoneFields) (level : Nat) (loud : Bool) : Bool :=
  if f.loudOn ≤ level then true else if level ≤ f.loudOff then false else loud

/-- The noise level after a block: one sixteenth of the way to the block's mean, truncated; 0 without a sense slot (08,
R152). -/
def levelAfter (f : ZoneFields) (level sum : Nat) : Nat :=
  if f.senseSlot.isNone then 0
  else ((level : Int) + Int.tdiv (((sum / 64 : Nat) : Int) - (level : Int)) 16).toNat

/-- A block end: the level, then the boost, then the loud flag; sum and count 0 (08, R152 to R154). -/
def blockEnd (f : ZoneFields) (a : Audio) : Audio :=
  let level := levelAfter f a.noise a.blockSum
  { a with noise := level, blockSum := 0, blockCount := 0, boost := boostFor f level, loud := loudFor f level a.loud }

/-- A quiet frame's sense sample enters the block; the 64th ends it (08, R151, R152). -/
def quietFrame (f : ZoneFields) (sense : Int) (a : Audio) : Audio :=
  let a1 := { a with blockSum := a.blockSum + (if f.senseSlot.isSome then sense.natAbs else 0)
                     blockCount := a.blockCount + 1 }
  if Config.blockFrames ≤ a1.blockCount then blockEnd f a1 else a1

/-- The estimator in one frame: a head discards the block, a quiet frame goes into it (08, R151). -/
def Zone.estimate (zn : Zone) (sense : Int) : Audio :=
  if zn.claims.isEmpty then quietFrame zn.fields sense zn.audio
  else { zn.audio with blockSum := 0, blockCount := 0 }

/-! ### One zone's frame (08, R141) -/

/-- What a frame makes of a zone: the zone, the sample where one is formed, and whether the clamp changed it. -/
structure ZoneFrame where
  zone : Zone
  out : Option Sample
  saturated : Bool
deriving DecidableEq, Repr

/-- Whether a zone's head claim is an ANNOUNCE claim, the one kind whose content completes (07, R129; 08, R142). -/
def Zone.announcing (zn : Zone) : Bool := match zn.claims with | c :: _ => c.cls == 4 | [] => false

/-- A zone through the four stages of a frame; the sample only when `engaged` (08, R141, R156). -/
def Zone.frame (zn : Zone) (pr : Prompts) (engaged : Bool) (v m sense : Int) : ZoneFrame :=
  let f := pr.play zn.player
  let x := unclamped (zn.accumulate v f.sample m)
  let clipped := engaged && clampSample x != x
  let music := rampStep zn.audio.musicGain zn.musicTarget zn.fields.duckStep
  let audio := { zn.estimate sense with musicGain := music }
  { zone :=
      { zn with player := f.player, audio := audio
                saturations := if clipped then satInc zn.saturations else zn.saturations
                completed := zn.completed || (f.complete && zn.announcing)
                loudReport := zn.loudReport || audio.loud != zn.audio.loud }
    out := if engaged then some (BitVec.ofInt 16 (clampSample x)) else none
    saturated := clipped }

/-- One enabled zone's frame from a tap frame, in the part (08, R140, R141): its slot and sample, where one is formed. -/
def State.zoneFrame (tap : List Sample) (z : Nat) (s : State) : State × Option (Nat × Sample) :=
  let zn := s.zones.get z
  let v := optionalSample tap (s.voiceSlot zn)
  let m := optionalSample tap zn.fields.musicSlot
  let sense := optionalSample tap zn.fields.senseSlot
  let r := zn.frame s.prompts (s.maint.mode == .engaged) v m sense
  let s1 := s.modZone z fun _ => r.zone
  (if r.saturated then s1.setFlag .zoneSaturation else s1, r.out.map fun x => (zn.fields.outputSlot, x))

/-- Every zone of a list through its frame; the samples formed, each with its output slot. -/
def State.formZones (tap : List Sample) : List Nat → State → State × List (Nat × Sample)
  | [], s => (s, [])
  | z :: rest, s =>
    let (s1, o) := s.zoneFrame tap z
    let (s2, os) := State.formZones tap rest s1
    (s2, match o with | some x => x :: os | none => os)

/-! ### The highway (08, R140; 01, R20) -/

/-- A frame of 512 slots from a list of samples, 0 where the list gives none (notes/assumptions/18.md). -/
def padFrame (frame : List Sample) : List Sample := (frame ++ List.replicate (512 - frame.length) 0#16).take 512

/-- The shelf-bound frame that leaves: a slot that a sample was formed for carries it, every other the slot that came
in (08, R140). -/
def outgoingFrame (formed : List (Nat × Sample)) (shelf : List Sample) : List (Nat × Sample) :=
  (padFrame shelf).zipIdx.map fun e =>
    match formed.find? fun o => o.1 = e.2 with
    | some o => (e.2, o.2)
    | none => (e.2, e.1)

/-! ### Reports (08, R142) -/

/-- A completion report is taken: the head claim, whose content completed, is removed and the zone changes head (08,
R142; 07, R128, R129). The report stands only while that claim is head (`headChange` drops it). -/
def State.contentCompletion (z : Nat) (s : State) : State :=
  let zn := s.zones.get z
  if zn.completed then
    let s1 := s.modZone z fun zn => { zn with completed := false }
    match zn.claims with
    | c :: _ => s1.withdrawClaim z c.claimant
    | [] => s1
  else s

/-- A loud change report is taken: the assist claim is re-evaluated and the beacon chosen again (08, R142; 07, R136,
R137). -/
def State.loudChange (z : Nat) (s : State) : State :=
  if (s.zones.get z).loudReport then
    ((s.modZone z fun zn => { zn with loudReport := false }).reevaluateAssist z).chooseBeacon z
  else s

/-- Every report outstanding is taken, since its effects act first on the next frame formed (08, R142;
notes/assumptions/10.md). -/
def State.takeReports (s : State) : State :=
  let s1 := zoneNumbers.foldl (fun t z => t.contentCompletion z) s
  (zoneNumbers.foldl (fun t z => t.loudChange z) s1).frameFormed

/-- The sessions that are in PREANNOUNCE, ascending. -/
def State.preannouncing (s : State) : List Nat :=
  sessionNumbers.filter fun i =>
    match s.paging.sessions.get i with | some x => x.phase == .preannounce | none => false

/-! ### The formation of a frame (08, R140 to R142, R156, R157) -/

/-- A frame in service (08, R140). The highway's bridge after a reset ends with the frame in progress (01, R21). -/
def State.formFrame (tap shelf : List Sample) (s : State) : State :=
  let s1 := s.takeReports
  let (s2, formed) := s1.formZones tap s1.enabledZones
  let s3 := s2.modPaging fun p => { p with frameReport := some s1.preannouncing }
  { s3 with highwayOut := outgoingFrame formed shelf, lane := { s3.lane with bridgeHighway := .off } }

/-- FRAME_FORMATION: in service a frame is formed; while a reset holds none is, and HWY_F_IN passes (08, R157; 01,
R20). -/
def State.frameFormation (tap shelf : List Sample) (s : State) : State :=
  if s.lane.phase = .inService then s.formFrame tap shelf
  else { s with highwayOut := outgoingFrame [] shelf }

/-- The end of a noise block taken by itself: the estimator's stage of the frame that is a block's 64th (08, R151 to
R154). A zone that is disabled, has a head, or stands elsewhere in its block has no block end. -/
def State.noiseBlockEnd (z : Nat) (sense : Sample) (s : State) : State :=
  let zn := s.zones.get z
  if zn.fields.enabled && zn.claims.isEmpty && Config.blockFrames ≤ zn.audio.blockCount + 1 then
    let a := quietFrame zn.fields sense.toInt zn.audio
    s.modZone z fun zn => { zn with audio := a, loudReport := zn.loudReport || a.loud != zn.audio.loud }
  else s

/-- A beacon's line reaches its phase boundary: it switches, and the next boundary is one phase later (07, R137). -/
def State.beaconPhaseChange (z : Nat) (s : State) : State :=
  let b := (s.zones.get z).beacon
  if b.pattern ≠ .off && b.boundary ≤ s.clock then
    let times := patternTimes b.pattern
    s.modZone z fun zn =>
      { zn with beacon := { b with line := !b.line, boundary := b.boundary + (if b.line then times.2 else times.1) } }
  else s

end Sys2Proof.Machine
end

