-- ==== Sys2Proof/Machine/Zones.lean ====
section
/-! DEFINITION. What a configuration write does to a zone: enable, disable, and the rest (07, R118, R120, R121; 08, R153,
R155, R157; 10, R175). -/

namespace Sys2Proof.Machine

/-- A zone's record with new configuration and its live part as an enable or a disable leaves it; its counters and its
assist count stay (07, R120, R121; 08, R157; notes/assumptions/33.md). DESIGN CHOICE: a loud change report still
outstanding is dropped with the content and the audio state, where 08, R142, drops only a completion report whose claim
left the head and 07, R120 and R121, say nothing of one (notes/assumptions/42.md). -/
def Zone.restarted (f : ZoneFields) (zn : Zone) : Zone :=
  { Zone.reset with fields := f, assist := zn.assist, preemptions := zn.preemptions, saturations := zn.saturations }

/-- A zone is enabled with the given configuration; an ACTIVE alarm reaches it when it lies in the scope (07, R120; 10,
R175). -/
def State.enableZone (z : Nat) (f : ZoneFields) (s : State) : State :=
  (s.modZone z (Zone.restarted f)).alarmReaches z

/-- A zone is disabled with the given configuration: every claim leaves its list, head first, each reported to its
claimant as a loss, and where one left the assist claim, which no disabled zone wants, is re-evaluated (07, R121, R129,
R136). -/
def State.disableZone (z : Nat) (f : ZoneFields) (s : State) : State :=
  let s1 := (s.zones.get z).claims.foldl (fun t c => t.reportLoss z c) (s.modZone z (Zone.restarted f))
  if (s.zones.get z).claims.isEmpty then s1 else s1.reevaluateAssist z

/-- A zone stays enabled or disabled: its configuration is replaced, and a boost above a lowered maximum is brought down
to it (08, R153, R155). -/
def State.adjustZone (z : Nat) (f : ZoneFields) (s : State) : State :=
  s.modZone z fun zn => { zn with fields := f, audio := { zn.audio with boost := min zn.audio.boost f.maxBoost } }

/-- A zone takes a new configuration (07, R118, R119). -/
def State.configureZone (z : Nat) (f : ZoneFields) (s : State) : State :=
  match s.zoneEnabled z, f.enabled with
  | false, true => s.enableZone z f
  | true, false => s.disableZone z f
  | _, _ => s.adjustZone z f

/-- Whether a configuration would leave the zone enabled on the output slot of another enabled zone (07, R118). -/
def State.slotTaken (s : State) (z : Nat) (f : ZoneFields) : Bool :=
  f.enabled && s.enabledZones.any fun y => y != z && (s.zones.get y).fields.outputSlot == f.outputSlot

end Sys2Proof.Machine
end

