-- ==== Sys2Proof/Machine/Operands.lean ====
section
/-! DEFINITION. The operand forms of maintenance requests and the coding of reply fields (12, R197, R198): fixed numbers,
entries of marked fields, lists, and each field type's values. -/

namespace Sys2Proof.Machine

/-! ### Arguments (12, R197) -/

/-- Numbers of fixed widths that fill the arguments exactly; `none` where they are too few or too many. -/
def fixedArgs : List Nat → List Byte → Option (List Nat)
  | [], [] => some []
  | [], _ :: _ => none
  | k :: ks, bs => if bs.length < k then none else (fixedArgs ks (bs.drop k)).map (bytesNat (bs.take k) :: ·)

/-- The layout of one field of an entry (12, R197): a number of some bytes, or a digit string. -/
inductive FieldForm where
  | num (width : Nat)
  | text
deriving DecidableEq, Repr, Inhabited

/-- A field's value as it arrives: a number; or a digit string, absent for the count 255, with whether its padding
half-byte is the filler (12, R196). -/
inductive FieldValue where
  | num (n : Nat)
  | text (symbols : Option Digits) (padded : Bool)
deriving DecidableEq, Repr, Inhabited

/-- One field read from the front of some bytes. DESIGN CHOICE: the count 255 carries no symbol bytes in any digit string
field, the access code's, which is no optional DN, too (12, R196; notes/assumptions/35.md). -/
def readField : FieldForm → List Byte → Option (FieldValue × List Byte)
  | .num k, bs => if bs.length < k then none else some (.num (bytesNat (bs.take k)), bs.drop k)
  | .text, bs =>
    match bs with
    | [] => none
    | c :: rest =>
      if c.toNat = 255 then some (.text none true, rest)
      else (takeDigits bs).map fun r => (.text (some r.1) r.2.1, r.2.2)

/-- The fields of an entry, which fill the bytes exactly. -/
def readFields : List FieldForm → List Byte → Option (List FieldValue)
  | [], [] => some []
  | [], _ :: _ => none
  | f :: fs, bs =>
    match readField f bs with
    | some (v, rest) => (readFields fs rest).map (v :: ·)
    | none => none

/-- Items of one width that fill the bytes exactly, `n` of them. -/
def readItems (width : Nat) : Nat → List Byte → Option (List Nat)
  | 0, [] => some []
  | 0, _ :: _ => none
  | n + 1, bs =>
    if bs.length < width then none else (readItems width n (bs.drop width)).map (bytesNat (bs.take width) :: ·)

/-- A list: a count byte, then that many items (12, R197). -/
def readList (width : Nat) : List Byte → Option (List Nat)
  | [] => none
  | c :: rest => readItems width c.toNat rest

/-- Whether the field at a position (0 for the first) carries its update mark in a two-byte mark map (12, R197). -/
def isMarked (marks position : Nat) : Bool := marks.testBit (15 - position)

/-- Whether a mark map marks no position beyond the last of `n` fields (12, R197). -/
def marksFit (marks n : Nat) : Bool := marks % 2 ^ (16 - n) == 0

/-! ### Marked fields (11, R183) -/

/-- A field after a write: the old value where it carries no mark, else the new one; `none` where the marked value
refuses the write (11, R183). -/
def stored {α : Type} (marked : Bool) (old : α) (new : Option α) : Option α := if marked then new else some old

/-- A number that must lie in a range. -/
def inRange (lo hi : Nat) : FieldValue → Option Nat
  | .num n => if lo ≤ n && n ≤ hi then some n else none
  | .text _ _ => none

/-- A number clamped to a range (11, R182). -/
def clamped (lo hi : Nat) : FieldValue → Option Nat
  | .num n => some (clamp lo hi n)
  | .text _ _ => none

/-- An optional number in a range; all ones in its width is absent (12, R197). -/
def optionalIn (width lo hi : Nat) : FieldValue → Option (Option Nat)
  | .num n => if n + 1 = 256 ^ width then some none else if lo ≤ n && n ≤ hi then some (some n) else none
  | .text _ _ => none

/-- A yes/no value: 0 no, 1 yes, another refused (12, R197; notes/assumptions/12.md). -/
def yesNo : FieldValue → Option Bool
  | .num 0 => some false
  | .num 1 => some true
  | _ => none

/-- An optional DN: absent, or 1..8 digits with a correct padding (02, R23; 03, R47; notes/assumptions/13.md). -/
def optionalDn : FieldValue → Option (Option Digits)
  | .text none _ => some none
  | .text (some d) padded => if padded && isDn d then some (some d) else none
  | .num _ => none

/-- An access code: 1..4 symbols 0..9, `*`, `#` (02, R40). -/
def codeString : FieldValue → Option Digits
  | .text (some d) padded => if padded && 1 ≤ d.length && d.length ≤ 4 && d.all isSymbol then some d else none
  | _ => none

/-- A value of an enumeration (12, R197). -/
def oneOf {α : Type} (values : List α) : FieldValue → Option α
  | .num n => values[n]?
  | .text _ _ => none

/-! ### Enumerations of entries and views, in their wire order (12, R197) -/

/-- The code of a value in an enumeration's order. -/
def codeIn {α : Type} [DecidableEq α] (values : List α) (a : α) : Nat := values.idxOf a

/-- Page authorities (02, 2.1). -/
def authorities : List Authority := [.none, .normal, .urgent, .emergency]
/-- Line states (02, 2.1). -/
def lineStates : List LineState := [.idle, .seized, .offered, .ringing, .talking, .feature, .outOfService]
/-- Access code features (02, 2.4). -/
def codeFeatures : List CodeFeature :=
  [.groupPickup, .directedPickup, .page, .orbitRetrieve, .logon, .logoff, .groupStatus]
/-- Page classes (02, 2.4). -/
def pageClasses : List PageClass := [.normal, .urgent, .emergency]
/-- Disciplines (03, 3.1). -/
def disciplines : List Discipline := [.linear, .circular, .longestIdle]
/-- Modes (12, R197). -/
def modes : List Mode := [.transparent, .engaged]
/-- Reset causes (12, R197). -/
def resetCauses : List ResetCause := [.power, .pin, .restart]
/-- Alarm sources (10, 10.1). -/
def alarmSources : List AlarmSource := [.input, .request]
/-- Beacon patterns (12, R198). -/
def patterns : List Pattern := [.off, .callFlash, .alarmFlash]
/-- Session phases (07, 7.5). -/
def sessionPhases : List SessionPhase := [.preannounce, .live]
/-- Statuses of a session's zone (12, R198). -/
def holdStatuses : List HoldStatus := [.held, .lost]
/-- Parts of a tone cycle (12, R198). -/
def toneParts : List TonePart := [.on, .off, .void]
/-- Validation conditions (12, R198). -/
def conditions : List Condition := [.duplicateMember, .memberRange, .stationLimit, .sharedPilot, .emptyPiloted]

/-! ### Coding of reply fields (12, R197) -/

/-- A value of an enumeration in one byte. -/
def enumByte {α : Type} [DecidableEq α] (values : List α) (a : α) : List Byte := natBytes 1 (codeIn values a)

/-- A yes/no field: 0 no, 1 yes. -/
def flagByte (b : Bool) : List Byte := natBytes 1 b.toNat

/-- An optional number: all ones when absent. -/
def optBytes (width : Nat) (o : Option Nat) : List Byte := natBytes width (o.getD (256 ^ width - 1))

/-- A millisecond clock value: five bytes (12, R197; notes/assumptions/16.md). -/
def clockBytes (t : Nat) : List Byte := natBytes 5 t

/-- An optional DN: the count 255 when absent (12, R196). -/
def dnBytes : Option Digits → List Byte
  | none => natBytes 1 255
  | some d => digitBytes d

/-- An optional call reference: 0 when absent (12, R197). -/
def callBytes (c : Option CallRef) : List Byte := natBytes 2 (c.getD 0#16).toNat

/-- A list: its count, then its items (12, R197). -/
def listBytes {α : Type} (item : α → List Byte) (l : List α) : List Byte := natBytes 1 l.length ++ l.flatMap item

/-- An entry or slot that may be empty: 0, or 1 and its fields (12, R198). -/
def loadedBytes {α : Type} (fields : α → List Byte) : Option α → List Byte
  | none => natBytes 1 0
  | some a => natBytes 1 1 ++ fields a

/-- A sample in two's complement (12, R195). -/
def sampleBytes (x : Sample) : List Byte := natBytes 2 x.toNat

/-- Reply data cut into parts of 56 bytes; no data is one empty part (12, R198). -/
def replyPartsAux : Nat → List Byte → List (List Byte)
  | 0, bs => [bs]
  | fuel + 1, bs =>
    if bs.length ≤ Config.replyBytes then [bs]
    else bs.take Config.replyBytes :: replyPartsAux fuel (bs.drop Config.replyBytes)

/-- The parts of some reply data (12, R198). -/
def replyParts (bs : List Byte) : List (List Byte) := replyPartsAux bs.length bs

end Sys2Proof.Machine
end

