-- ==== Sys2Proof/Machine/Tables.lean ====
section
/-! DEFINITION. The twelve tables of READ_ENTRY, WRITE_ENTRY and CLEAR_ENTRY: their entries' layouts, what a write of
marked fields stores or refuses, and how an entry is shown (11, R183; 12, R197, R198; the owning chapters' rules). -/

namespace Sys2Proof.Machine

/-- The tables, by identifier from 1 (12, R197). -/
inductive Table where
  | station | zone | zoneSet | accessCode | pickupPartners | tone | promptDir | pagingParams
  | stagedGroup | stagedMembers | activeGroup | activeMembers
deriving DecidableEq, Repr, Inhabited

/-- The table an identifier names (12, R197). -/
def tableOf : Nat → Option Table
  | 1 => some .station | 2 => some .zone | 3 => some .zoneSet | 4 => some .accessCode | 5 => some .pickupPartners
  | 6 => some .tone | 7 => some .promptDir | 8 => some .pagingParams | 9 => some .stagedGroup
  | 10 => some .stagedMembers | 11 => some .activeGroup | 12 => some .activeMembers | _ => none

/-- Whether an index lies in a table's range (11, R183). -/
def Table.holds : Table → Nat → Bool
  | .station, i => i ≤ 383
  | .zone, i => 1 ≤ i && i ≤ 24
  | .zoneSet, i => i ≤ 63
  | .accessCode, i => i ≤ 15
  | .pickupPartners, i => 1 ≤ i && i ≤ 63
  | .tone, i => i ≤ 15
  | .promptDir, i => i ≤ 31
  | .pagingParams, i => i = 0
  | .stagedGroup, i | .stagedMembers, i | .activeGroup, i | .activeMembers, i => 1 ≤ i && i ≤ 32

/-- The tables no request writes (03, R49). -/
def Table.readOnly : Table → Bool
  | .activeGroup | .activeMembers => true
  | _ => false

/-! ### Layouts (12, R197) -/

/-- What a WRITE_ENTRY carries behind the index: a mark map with every field, or one list. -/
inductive EntryForm where
  | fields (forms : List FieldForm)
  | list (width : Nat)
deriving DecidableEq, Repr, Inhabited

/-- The layout of a table's entries (12, R197; the owning chapters' tables). DESIGN CHOICE: a WRITE_ENTRY to
ACTIVE_MEMBERS must fit the layout of STAGED_MEMBERS, a list of stations (notes/assumptions/39.md). -/
def Table.form : Table → EntryForm
  | .station => .fields [.text, .num 2, .num 1, .num 1, .num 1, .num 1, .num 1, .num 2, .num 1, .num 1, .num 1, .num 5,
      .num 5, .num 1]
  | .zone => .fields [.num 1, .num 2, .num 2, .num 2, .num 2, .num 2, .num 2, .num 2, .num 1, .num 2, .num 1, .num 2,
      .num 2, .num 2]
  | .zoneSet => .list 1
  | .accessCode => .fields [.text, .num 1, .num 1]
  | .pickupPartners => .list 1
  | .tone => .fields [.num 2, .num 2, .num 2, .num 2, .num 1]
  | .promptDir => .fields [.num 2, .num 2]
  | .pagingParams => .fields [.num 2, .num 1, .num 1, .num 1, .num 1, .num 1, .num 1]
  | .stagedGroup | .activeGroup => .fields [.text, .num 1, .num 1, .num 1, .num 2, .text, .text, .num 1, .num 2, .num 1,
      .num 1, .num 1, .num 1, .num 1]
  | .stagedMembers | .activeMembers => .list 2

/-- What a WRITE_ENTRY says about an entry. -/
inductive EntryWrite where
  | fields (marks : Nat) (values : List FieldValue)
  | list (items : List Nat)
deriving DecidableEq, Repr, Inhabited

/-- The entry part of a WRITE_ENTRY; `none` where it does not fit the table's layout (11, R182, case 1; 12, R197). -/
def Table.readWrite (t : Table) (bs : List Byte) : Option EntryWrite :=
  match t.form with
  | .list w => (readList w bs).map .list
  | .fields forms =>
    match bs with
    | m1 :: m2 :: rest =>
      let marks := bytesNat [m1, m2]
      if marksFit marks forms.length then (readFields forms rest).map (.fields marks) else none
    | _ => none

/-! ### Writes of marked fields: the entry after the write, or a refusal -/

/-- STATION (02, R23). A mark on a live field refuses the write. -/
def Station.write (m : Nat) (vs : List FieldValue) (old : Station) : Option Station :=
  match vs with
  | [dn, talk, home, pickup, authority, assist, _, _, _, _, _, _, _, _] =>
    if m % 2 ^ 10 ≠ 0 then none
    else do
      let dn ← stored (isMarked m 0) old.dn (optionalDn dn)
      let talk ← stored (isMarked m 1) old.talkSlot (optionalIn 2 0 511 talk)
      let home ← stored (isMarked m 2) old.homeZone (optionalIn 1 1 24 home)
      let pickup ← stored (isMarked m 3) old.pickupGroup (optionalIn 1 1 63 pickup)
      let authority ← stored (isMarked m 4) old.authority (oneOf authorities authority)
      let assist ← stored (isMarked m 5) old.ringAssist (yesNo assist)
      some { old with dn := dn, talkSlot := talk, homeZone := home, pickupGroup := pickup, authority := authority,
                      ringAssist := assist }
  | _ => none

/-- The loud-off level kept below the loud-on level (07, R118). -/
def adjustLoudOff (on off : Nat) : Nat := if on ≤ off then on - 1 else off

/-- ZONE (07, R118), but for the output slot's clash, which reads the other zones. -/
def ZoneFields.write (m : Nat) (vs : List FieldValue) (old : ZoneFields) : Option ZoneFields :=
  match vs with
  | [enabled, output, sense, music, page, tone, base, duck, step, floor, slope, boost, on, off] => do
    let enabled ← stored (isMarked m 0) old.enabled (yesNo enabled)
    let output ← stored (isMarked m 1) old.outputSlot (inRange 0 511 output)
    let sense ← stored (isMarked m 2) old.senseSlot (optionalIn 2 0 511 sense)
    let music ← stored (isMarked m 3) old.musicSlot (optionalIn 2 0 511 music)
    let page ← stored (isMarked m 4) old.pageGain (clamped 0 4095 page)
    let tone ← stored (isMarked m 5) old.toneGain (clamped 0 4095 tone)
    let base ← stored (isMarked m 6) old.musicBase (clamped 0 4095 base)
    let duck ← stored (isMarked m 7) old.musicDuck (clamped 0 4095 duck)
    let step ← stored (isMarked m 8) old.duckStep (clamped 1 64 step)
    let floor ← stored (isMarked m 9) old.noiseFloor (clamped 0 32768 floor)
    let slope ← stored (isMarked m 10) old.slope (clamped 0 255 slope)
    let boost ← stored (isMarked m 11) old.maxBoost (clamped 1024 4095 boost)
    let on ← stored (isMarked m 12) old.loudOn (clamped 0 32768 on)
    let off ← stored (isMarked m 13) old.loudOff (clamped 0 32768 off)
    some { enabled := enabled, outputSlot := output, senseSlot := sense, musicSlot := music, pageGain := page,
           toneGain := tone, musicBase := base, musicDuck := duck, duckStep := step, noiseFloor := floor,
           slope := slope, maxBoost := boost, loudOn := on, loudOff := adjustLoudOff on off }
  | _ => none

/-- ACCESS_CODE (02, R40), but for the clash with another entry's code. -/
def writeCode (m : Nat) (vs : List FieldValue) (old : Option AccessCode) : Option AccessCode :=
  match vs with
  | [code, feature, cls] => do
    let base := old.getD { code := [], feature := .groupPickup, cls := .normal }
    let code ← stored (isMarked m 0) base.code (codeString code)
    let feature ← stored (isMarked m 1) base.feature (oneOf codeFeatures feature)
    let cls ← stored (isMarked m 2) base.cls (oneOf pageClasses cls)
    if code.isEmpty then none else some { code := code, feature := feature, cls := cls }
  | _ => none

/-- TONE (09, R160): clamped, and refused where on time and off time would both be 0. -/
def writeTone (m : Nat) (vs : List FieldValue) (old : Option Tone) : Option Tone :=
  match vs with
  | [increment, amplitude, on, off, cycles] => do
    let base := old.getD { increment := 1, amplitude := 0, onTime := 0, offTime := 0, cycles := 0 }
    let increment ← stored (isMarked m 0) base.increment (clamped 1 32767 increment)
    let amplitude ← stored (isMarked m 1) base.amplitude (clamped 0 32767 amplitude)
    let on ← stored (isMarked m 2) base.onTime (clamped 0 10000 on)
    let off ← stored (isMarked m 3) base.offTime (clamped 0 10000 off)
    let cycles ← stored (isMarked m 4) base.cycles (clamped 0 255 cycles)
    if on = 0 && off = 0 then none
    else some { increment := increment, amplitude := amplitude, onTime := on, offTime := off, cycles := cycles }
  | _ => none

/-- A number as it stands, to be judged by the entry it makes. -/
def anyNumber : FieldValue → Option Nat
  | .num n => some n
  | .text _ _ => none

/-- PROMPT_DIR (09, R168). -/
def writePrompt (m : Nat) (vs : List FieldValue) (old : Option PromptEntry) : Option PromptEntry :=
  match vs with
  | [start, length] => do
    let base := old.getD { start := 0, length := 0 }
    let start ← stored (isMarked m 0) base.start (anyNumber start)
    let length ← stored (isMarked m 1) base.length (anyNumber length)
    if 32767 < start || 32768 < start + length then none else some { start := start, length := length }
  | _ => none

/-- PAGING_PARAMS (07, R124). -/
def PagingParams.write (m : Nat) (vs : List FieldValue) (old : PagingParams) : Option PagingParams :=
  match vs with
  | [maxVoice, preannounce, alarmSet, alarmTone, autoExit, assistTone, beepTone] => do
    let maxVoice ← stored (isMarked m 0) old.maxVoice (clamped 10 300 maxVoice)
    let preannounce ← stored (isMarked m 1) old.preannounce (optionalIn 1 0 31 preannounce)
    let alarmSet ← stored (isMarked m 2) old.alarmSet (inRange 0 63 alarmSet)
    let alarmTone ← stored (isMarked m 3) old.alarmTone (inRange 0 15 alarmTone)
    let autoExit ← stored (isMarked m 4) old.autoExit (yesNo autoExit)
    let assistTone ← stored (isMarked m 5) old.assistTone (inRange 0 15 assistTone)
    let beepTone ← stored (isMarked m 6) old.beepTone (inRange 0 15 beepTone)
    some { maxVoice := maxVoice, preannounce := preannounce, alarmSet := alarmSet, alarmTone := alarmTone,
           autoExit := autoExit, assistTone := assistTone, beepTone := beepTone }
  | _ => none

/-- An announce threshold as stored: 0, or clamped to 5..600 (03, R47). -/
def clampThreshold : FieldValue → Option Nat
  | .num n => some (if n = 0 then 0 else clamp 5 600 n)
  | .text _ _ => none

/-- STAGED_GROUP (03, R47). -/
def GroupFields.write (m : Nat) (vs : List FieldValue) (old : GroupFields) : Option GroupFields :=
  match vs with
  | [pilot, discipline, noAnswer, capacity, maxWait, overflowDn, alarmDn, wrapUp, threshold, announceRepeat, prompt, set,
      strikes, membersOnly] => do
    let pilot ← stored (isMarked m 0) old.pilot (optionalDn pilot)
    let discipline ← stored (isMarked m 1) old.discipline (oneOf disciplines discipline)
    let noAnswer ← stored (isMarked m 2) old.noAnswer (clamped 2 60 noAnswer)
    let capacity ← stored (isMarked m 3) old.capacity (clamped 0 16 capacity)
    let maxWait ← stored (isMarked m 4) old.maxWait (clamped 5 900 maxWait)
    let overflowDn ← stored (isMarked m 5) old.overflowDn (optionalDn overflowDn)
    let alarmDn ← stored (isMarked m 6) old.alarmDn (optionalDn alarmDn)
    let wrapUp ← stored (isMarked m 7) old.wrapUp (clamped 0 120 wrapUp)
    let threshold ← stored (isMarked m 8) old.threshold (clampThreshold threshold)
    let announceRepeat ← stored (isMarked m 9) old.announceRepeat (clamped 10 120 announceRepeat)
    let prompt ← stored (isMarked m 10) old.announcePrompt (optionalIn 1 0 31 prompt)
    let set ← stored (isMarked m 11) old.announceSet (inRange 0 63 set)
    let strikes ← stored (isMarked m 12) old.strikesThreshold (clamped 0 7 strikes)
    let membersOnly ← stored (isMarked m 13) old.membersOnly (yesNo membersOnly)
    some { pilot := pilot, discipline := discipline, noAnswer := noAnswer, capacity := capacity, maxWait := maxWait,
           overflowDn := overflowDn, alarmDn := alarmDn, wrapUp := wrapUp, threshold := threshold,
           announceRepeat := announceRepeat, announcePrompt := prompt, announceSet := set, strikesThreshold := strikes,
           membersOnly := membersOnly }
  | _ => none

/-- Whether a list holds no item twice. -/
def noRepeats (l : List Nat) : Bool := (firstRepeat [] l).isNone

/-- A member list that is accepted (03, R48). -/
def membersOk (l : List Nat) : Bool := l.length ≤ 24 && l.all (· ≤ 383) && noRepeats l

/-- A zone set's list that is accepted (07, R122). -/
def zoneListOk (l : List Nat) : Bool :=
  !l.isEmpty && l.length ≤ 24 && l.all (fun z => 1 ≤ z && z ≤ 24) && noRepeats l

/-- A pickup group's partner list that is accepted (05, R94). -/
def partnersOk (g : Nat) (l : List Nat) : Bool :=
  l.length ≤ 3 && l.all (fun h => 1 ≤ h && h ≤ 63 && h ≠ g) && noRepeats l

/-! ### Changes of one entry -/

/-- Sets a zone set. -/
def State.setZoneSet (i : Nat) (l : Option (List Nat)) (s : State) : State :=
  s.modPaging fun p => { p with zoneSets := p.zoneSets.put i l }
/-- Sets a pickup group's partner list. -/
def State.setPartners (i : Nat) (l : List Nat) (s : State) : State :=
  s.modPickup fun p => { p with partners := p.partners.put i l }
/-- Sets a tone descriptor. -/
def State.setTone (i : Nat) (t : Option Tone) (s : State) : State :=
  s.modPrompts fun p => { p with tones := p.tones.put i t }
/-- Sets a prompt directory entry. -/
def State.setPrompt (i : Nat) (e : Option PromptEntry) (s : State) : State :=
  s.modPrompts fun p => { p with directory := p.directory.put i e }
/-- Sets the paging parameters. -/
def State.setParams (x : PagingParams) (s : State) : State := s.modPaging fun p => { p with params := x }
/-- Sets a staged definition's fields. -/
def State.setStagedFields (g : Nat) (f : GroupFields) (s : State) : State :=
  s.modHunt fun h => { h with staged := h.staged.put g { h.staged.get g with fields := f } }
/-- Sets a staged member list. -/
def State.setStagedMembers (g : Nat) (l : List Nat) (s : State) : State :=
  s.modHunt fun h => { h with staged := h.staged.put g { h.staged.get g with members := l } }

/-- Whether a code stands in another entry of the access code table (02, R40). -/
def State.codeTaken (s : State) (i : Nat) (code : Digits) : Bool :=
  (List.range 16).any fun j => j != i && (match s.codes.get j with | some e => e.code == code | none => false)

/-- An accepted WRITE_ENTRY's effect; `none` where the index or a value refuses it (11, R182, case 3; R183). -/
def State.writeTable (t : Table) (i : Nat) (w : EntryWrite) (s : State) : Option State :=
  if !t.holds i then none
  else
    match t, w with
    | .station, .fields m vs => ((s.stations.get i).write m vs).map fun st => s.modStation i fun _ => st
    | .zone, .fields m vs =>
      match (s.zones.get i).fields.write m vs with
      | some f => if s.slotTaken i f then none else some (s.configureZone i f)
      | none => none
    | .zoneSet, .list l => if i ≠ 0 && zoneListOk l then some (s.setZoneSet i (some l)) else none
    | .accessCode, .fields m vs =>
      match writeCode m vs (s.codes.get i) with
      | some e => if s.codeTaken i e.code then none else some (s.setCode i (some e))
      | none => none
    | .pickupPartners, .list l => if partnersOk i l then some (s.setPartners i l) else none
    | .tone, .fields m vs => (writeTone m vs (s.prompts.tones.get i)).map fun x => s.setTone i (some x)
    | .promptDir, .fields m vs => (writePrompt m vs (s.prompts.directory.get i)).map fun x => s.setPrompt i (some x)
    | .pagingParams, .fields m vs => (s.paging.params.write m vs).map fun x => s.setParams x
    | .stagedGroup, .fields m vs => ((s.hunt.staged.get i).fields.write m vs).map fun f => s.setStagedFields i f
    | .stagedMembers, .list l => if membersOk l then some (s.setStagedMembers i l) else none
    | _, _ => none

/-- An accepted CLEAR_ENTRY's effect; `none` where the index refuses it (11, R183). -/
def State.clearTable (t : Table) (i : Nat) (s : State) : Option State :=
  if !t.holds i then none
  else
    match t with
    | .station => some (s.modStation i fun st =>
        { st with dn := none, talkSlot := none, homeZone := none, pickupGroup := none, authority := .none,
                  ringAssist := false })
    | .zone => some (s.configureZone i ZoneFields.reset)
    | .zoneSet => if i = 0 then none else some (s.setZoneSet i none)
    | .accessCode => some (s.setCode i none)
    | .pickupPartners => some (s.setPartners i [])
    | .tone => some (s.setTone i none)
    | .promptDir => some (s.setPrompt i none)
    | .pagingParams => some (s.setParams PagingParams.reset)
    | .stagedGroup => some (s.setStagedFields i GroupFields.reset)
    | .stagedMembers => some (s.setStagedMembers i [])
    | .activeGroup | .activeMembers => none

/-! ### Entries as they are shown (12, R198) -/

/-- A STATION entry: all fourteen fields (02, 2.1). -/
def stationBytes (st : Station) : List Byte :=
  dnBytes st.dn ++ optBytes 2 st.talkSlot ++ optBytes 1 st.homeZone ++ optBytes 1 st.pickupGroup ++
    enumByte authorities st.authority ++ flagByte st.ringAssist ++ enumByte lineStates st.line ++ callBytes st.call ++
    optBytes 1 st.deliveredBy ++ enumByte [true, false] st.available ++ natBytes 1 st.strikes ++ optBytes 5 st.wrapUp ++
    clockBytes st.lastIdle ++ optBytes 1 st.source

/-- A ZONE entry: the fourteen configuration fields (07, 7.1). -/
def zoneBytes (f : ZoneFields) : List Byte :=
  flagByte f.enabled ++ natBytes 2 f.outputSlot ++ optBytes 2 f.senseSlot ++ optBytes 2 f.musicSlot ++
    natBytes 2 f.pageGain ++ natBytes 2 f.toneGain ++ natBytes 2 f.musicBase ++ natBytes 2 f.musicDuck ++
    natBytes 1 f.duckStep ++ natBytes 2 f.noiseFloor ++ natBytes 1 f.slope ++ natBytes 2 f.maxBoost ++
    natBytes 2 f.loudOn ++ natBytes 2 f.loudOff

/-- An ACCESS_CODE entry (02, 2.4). -/
def codeBytes (e : AccessCode) : List Byte :=
  digitBytes e.code ++ enumByte codeFeatures e.feature ++ enumByte pageClasses e.cls

/-- A TONE entry (09, 9.1). -/
def toneBytes (t : Tone) : List Byte :=
  natBytes 2 t.increment ++ natBytes 2 t.amplitude ++ natBytes 2 t.onTime ++ natBytes 2 t.offTime ++ natBytes 1 t.cycles

/-- A PROMPT_DIR entry (09, 9.4). -/
def promptBytes (e : PromptEntry) : List Byte := natBytes 2 e.start ++ natBytes 2 e.length

/-- The PAGING_PARAMS entry (07, R124). -/
def paramsBytes (p : PagingParams) : List Byte :=
  natBytes 2 p.maxVoice ++ optBytes 1 p.preannounce ++ natBytes 1 p.alarmSet ++ natBytes 1 p.alarmTone ++
    flagByte p.autoExit ++ natBytes 1 p.assistTone ++ natBytes 1 p.beepTone

/-- A group definition's fields (03, 3.1). -/
def groupBytes (f : GroupFields) : List Byte :=
  dnBytes f.pilot ++ enumByte disciplines f.discipline ++ natBytes 1 f.noAnswer ++ natBytes 1 f.capacity ++
    natBytes 2 f.maxWait ++ dnBytes f.overflowDn ++ dnBytes f.alarmDn ++ natBytes 1 f.wrapUp ++ natBytes 2 f.threshold ++
    natBytes 1 f.announceRepeat ++ optBytes 1 f.announcePrompt ++ natBytes 1 f.announceSet ++
    natBytes 1 f.strikesThreshold ++ flagByte f.membersOnly

/-- A list of zone or group numbers, one byte each (12, R197). -/
def numbersBytes (l : List Nat) : List Byte := listBytes (natBytes 1) l

/-- A list of station numbers, two bytes each (12, R197). -/
def stationsBytes (l : List Nat) : List Byte := listBytes (natBytes 2) l

/-- An entry as it stands (11, R183; 12, R198). DESIGN CHOICE: zone set 0, fixed as the enabled zones (07, R122), is shown
as loaded, with count 0 while no zone is enabled (notes/assumptions/37.md). -/
def State.entryBytes (s : State) (t : Table) (i : Nat) : List Byte :=
  match t with
  | .station => stationBytes (s.stations.get i)
  | .zone => zoneBytes (s.zones.get i).fields
  | .zoneSet =>
    loadedBytes numbersBytes (if i = 0 then some s.enabledZones else s.paging.zoneSets.get i)
  | .accessCode => loadedBytes codeBytes (s.codes.get i)
  | .pickupPartners => numbersBytes (s.pickup.partners.get i)
  | .tone => loadedBytes toneBytes (s.prompts.tones.get i)
  | .promptDir => loadedBytes promptBytes (s.prompts.directory.get i)
  | .pagingParams => paramsBytes s.paging.params
  | .stagedGroup => groupBytes (s.hunt.staged.get i).fields
  | .stagedMembers => stationsBytes (s.hunt.staged.get i).members
  | .activeGroup => groupBytes (s.activeGroup i).fields
  | .activeMembers => stationsBytes (s.activeGroup i).members

end Sys2Proof.Machine
end

