-- ==== Sys2Proof/Machine/Live.lean ====
section
/-! DEFINITION. The status record, the live views and the counters as replies show them (11, R188 to R191; 12, R198; 05,
R104; 06, R116; 07, R139; 08, R159; 09, R170). -/

namespace Sys2Proof.Machine

/-! ### Status (11, R188) -/

/-- Entries of a table of slots that are in use. -/
def busyCount {lo n : Nat} {α : Type} (t : Tab lo n (Option α)) : Nat := (t.vec.toList.filter Option.isSome).length

/-- Latch state and source (12, R198). -/
def alarmBytes (a : Alarm) : List Byte :=
  natBytes 1 a.source.isSome.toNat ++ (match a.source with | some x => enumByte alarmSources x | none => natBytes 1 255)

/-- The part status record (11, R188; 12, R198). -/
def State.statusBytes (s : State) : List Byte :=
  let used := s.hunt.records.length
  let orbits := busyCount s.orbits
  let sessions := busyCount s.paging.sessions
  let down := s.lane.downQueue.length
  let up := s.lane.upQueue.length
  natBytes 2 Config.family ++ [Config.revision] ++ natBytes 2 s.lane.own.toNat ++ enumByte modes s.maint.mode ++
    enumByte resetCauses s.maint.cause ++ alarmBytes s.alarm ++ enumByte [true, false] s.alarm.line ++
    flagByte s.hunt.countdown.isSome ++ natBytes 3 s.commitRemaining ++ clockBytes s.clock ++
    natBytes 1 used ++ natBytes 1 (Config.huntRecords - used) ++ natBytes 1 orbits ++ natBytes 1 (9 - orbits) ++
    natBytes 1 sessions ++ natBytes 1 (8 - sessions) ++ natBytes 1 down ++ natBytes 1 (Config.queueCells - down) ++
    natBytes 1 up ++ natBytes 1 (Config.queueCells - up)

/-! ### Live views (11, R189) -/

/-- GROUP_QUEUE (11, R189). -/
def State.groupQueueBytes (s : State) (g : Nat) : List Byte :=
  let q := s.queue g
  natBytes 1 q.length ++ natBytes 1 (s.activeGroup g).fields.capacity ++ optBytes 2 (s.hunt.live.get g).pointer ++
    listBytes (fun r => natBytes 2 r.call.toNat) q

/-- The offer deadline of an OFFERED record. -/
def HuntRecord.offerDeadline (r : HuntRecord) : Option Nat :=
  match r.status with | .offered _ d _ => some d | .queued .. => none

/-- A retired action: 255 none, 0 and the DN for DIVERT, 1 for REFUSED(BUSY) (12, R198). -/
def retiredBytes : Option RetiredAction → List Byte
  | none => natBytes 1 255
  | some (.divert dn) => natBytes 1 0 ++ digitBytes dn
  | some .refusedBusy => natBytes 1 1

/-- A hunt record's fields in the order of 04, 4.1 (12, R198). -/
def recordBytes (r : HuntRecord) : List Byte :=
  natBytes 2 r.call.toNat ++ natBytes 1 r.group ++ enumByte [true, false] r.isQueued ++ clockBytes r.arrival ++
    digitBytes r.called ++ digitBytes r.caller ++ natBytes 1 (callerClassCode r.cls) ++ optBytes 2 r.member ++
    optBytes 5 r.offerDeadline ++ optBytes 5 r.waitDeadline ++ optBytes 5 r.announcePoint ++ stationsBytes r.tried ++
    optBytes 1 r.orbit ++ (if r.isQueued then flagByte r.awaiting else natBytes 1 255) ++ retiredBytes r.retired

/-- An occupied orbit (06, 6.1). -/
def orbitBytes (o : Orbit) : List Byte :=
  natBytes 2 o.call.toNat ++ natBytes 1 o.group ++ clockBytes o.assigned ++ clockBytes o.nextChime

/-- ORBITS (06, R116). -/
def State.orbitsBytes (s : State) : List Byte :=
  natBytes 1 (s.hunt.records.filter (·.awaiting)).length ++
    orbitNumbers.flatMap fun n => loadedBytes orbitBytes (s.orbits.get n)

/-- A ringing-set entry (05, 5.1). -/
def ringingBytes (e : Ringing) : List Byte :=
  natBytes 2 e.station ++ natBytes 2 e.call.toNat ++ clockBytes e.start ++ optBytes 1 e.group

/-- RINGING_SET from a position: the count, then up to 16 entries (05, R104). -/
def State.ringingSetBytes (s : State) (start : Nat) : List Byte :=
  natBytes 2 s.pickup.ringing.length ++ ((s.pickup.ringing.drop start).take 16).flatMap ringingBytes

/-- A busy session (07, R139; 12, R198). -/
def sessionBytes (x : Session) : List Byte :=
  natBytes 2 x.source ++ enumByte pageClasses x.cls ++ natBytes 2 x.talkSlot ++ enumByte sessionPhases x.phase ++
    natBytes 2 x.frames ++ clockBytes x.start ++ clockBytes x.deadline ++
    listBytes (fun e : Nat × HoldStatus => natBytes 1 e.1 ++ enumByte holdStatuses e.2) x.zones

/-- SESSIONS (07, R139). -/
def State.sessionsBytes (s : State) : List Byte :=
  sessionNumbers.flatMap fun i => loadedBytes sessionBytes (s.paging.sessions.get i)

/-- A claim in a zone's live view: claimant kind, claimant number, class (12, R198). -/
def claimBytes (c : Claim) : List Byte :=
  (match c.claimant with
    | .session n => natBytes 1 0 ++ natBytes 1 n
    | .orbit n => natBytes 1 1 ++ natBytes 1 n
    | .alarm => natBytes 1 2 ++ natBytes 1 0
    | .assist => natBytes 1 3 ++ natBytes 1 0) ++ natBytes 1 c.cls

/-- A player as the next frame will act on it (09, R170; 12, R198; notes/assumptions/21.md). -/
def playerBytes (p : Player) : List Byte :=
  match p.steps with
  | [] => natBytes 1 0 ++ natBytes 1 0
  | .prompt e :: _ =>
    natBytes 1 1 ++ natBytes 1 p.number ++ natBytes 1 e ++
      (match p.cursor with
        | .prompt start length played => natBytes 2 start ++ natBytes 2 length ++ natBytes 2 played
        | _ => natBytes 2 65535 ++ natBytes 2 65535 ++ natBytes 2 0)
  | .tone d limit :: _ =>
    natBytes 1 2 ++ natBytes 1 p.number ++ natBytes 1 d ++ natBytes 1 (limit.getD 0) ++
      (match p.cursor with
        | .tone cycle _ _ _ part left phase =>
          natBytes 1 cycle ++ enumByte toneParts part ++ natBytes 3 left ++ natBytes 2 phase
        | _ => natBytes 1 0 ++ natBytes 1 255 ++ natBytes 3 16777215 ++ natBytes 2 65535)

/-- ZONE_LIVE (07, R139; 08, R159). DESIGN CHOICE: from an enable, a disable or a change of mode on, the output indicator
shows what the next frame formed will do with the slot (notes/assumptions/40.md). -/
def State.zoneLiveBytes (s : State) (z : Nat) : List Byte :=
  let zn := s.zones.get z
  let a := zn.audio
  listBytes claimBytes zn.claims ++ enumByte patterns zn.beacon.pattern ++ natBytes 2 zn.assist ++
    natBytes 2 a.noise ++ natBytes 3 a.blockSum ++ natBytes 1 a.blockCount ++ natBytes 2 a.boost ++ flagByte a.loud ++
    natBytes 2 a.musicGain ++ natBytes 2 (effectiveGain zn.fields.pageGain a.boost) ++
    natBytes 2 (effectiveGain zn.fields.toneGain a.boost) ++
    flagByte (zn.fields.enabled && s.maint.mode == .engaged) ++ playerBytes (s.prompts.ahead zn.player)

/-- The live views (12, R197). -/
inductive View where
  | groupQueue (g : Nat)
  | huntRecord (call : Nat)
  | orbits
  | ringingSet (start : Nat)
  | sessions
  | zoneLive (z : Nat)
deriving DecidableEq, Repr, Inhabited

/-- The view a READ_LIVE asks for; `none` where its arguments do not fit the layout (12, R197). -/
def readView (args : List Byte) : Option View :=
  match args with
  | [] => none
  | v :: rest =>
    match v.toNat, fixedArgs [2] rest, fixedArgs [] rest with
    | 1, some [g], _ => some (.groupQueue g)
    | 2, some [c], _ => some (.huntRecord c)
    | 3, _, some [] => some .orbits
    | 4, some [p], _ => some (.ringingSet p)
    | 5, _, some [] => some .sessions
    | 6, some [z], _ => some (.zoneLive z)
    | _, _, _ => none

/-- Whether a view's argument is accepted (11, R189). -/
def View.accepted : View → Bool
  | .groupQueue g => 1 ≤ g && g ≤ 32
  | .huntRecord c => c ≠ 0
  | .ringingSet p => p ≤ 383
  | .zoneLive z => 1 ≤ z && z ≤ 24
  | .orbits | .sessions => true

/-- A view as it stands (11, R189). -/
def State.viewBytes (s : State) : View → List Byte
  | .groupQueue g => s.groupQueueBytes g
  | .huntRecord c => loadedBytes recordBytes (s.record (BitVec.ofNat 16 c))
  | .orbits => s.orbitsBytes
  | .ringingSet p => s.ringingSetBytes p
  | .sessions => s.sessionsBytes
  | .zoneLive z => s.zoneLiveBytes z

/-! ### Counters (11, R190, R191) -/

/-- The owners of counters (12, R197). -/
inductive Owner where
  | lane | group (g : Nat) | zone (z : Nat) | pickup | paging
deriving DecidableEq, Repr, Inhabited

/-- The owner that a code and an index name; `none` where there is none (11, R190; 12, R197). -/
def ownerOf : Nat → Nat → Option Owner
  | 1, 0 => some .lane
  | 2, g => if 1 ≤ g && g ≤ 32 then some (.group g) else none
  | 3, z => if 1 ≤ z && z ≤ 24 then some (.zone z) else none
  | 4, 0 => some .pickup
  | 5, 0 => some .paging
  | _, _ => none

/-- An owner's counters, in the order of its counter table (12, R198). -/
def State.counters (s : State) : Owner → List Nat
  | .lane =>
    let c := s.lane.counters
    [c.malformed, c.discardedDown, c.discardedUp, c.unexpected]
  | .group g =>
    let c := (s.hunt.live.get g).counters
    [c.offered, c.answered, c.picked, c.retrieved, c.abandoned, c.diverted, c.noAnswers]
  | .zone z => [(s.zones.get z).saturations, (s.zones.get z).preemptions]
  | .pickup => [s.pickup.successes, s.pickup.denials]
  | .paging => [s.paging.refused]

/-- Every counter of an owner set to 0 (11, R191). -/
def State.clearCounters (o : Owner) (s : State) : State :=
  match o with
  | .lane => s.modLaneCounters fun _ => LaneCounters.zero
  | .group g => s.modGroupCounters g fun _ => GroupCounters.zero
  | .zone z => s.modZone z fun zn => { zn with saturations := 0, preemptions := 0 }
  | .pickup => s.modPickup fun p => { p with successes := 0, denials := 0 }
  | .paging => s.modPaging fun p => { p with refused := 0 }

/-- Counters as reply data: two bytes each (12, R198). -/
def counterBytes (l : List Nat) : List Byte := l.flatMap (natBytes 2)

end Sys2Proof.Machine
end

