-- ==== Sys2Proof/Machine/Maint.lean ====
section
/-! DEFINITION. The Maintenance Responder: every request with its outcome and reply data, modes, RESTART, and the reply
(11, R181 to R194; 12, R197, R198). -/

namespace Sys2Proof.Machine

/-- What a request comes to: the part after it, the outcome and the reply data (11, R181). -/
structure Answer where
  state : State
  outcome : ReplyOutcome
  data : List Byte

/-- A request done. -/
def done (s : State) (data : List Byte) : Answer := ⟨s, .done, data⟩
/-- A request refused for its arguments; nothing changes (11, R182). -/
def refuseArgument (s : State) : Answer := ⟨s, .refusedArgument, []⟩
/-- A request refused for the part's condition; nothing changes (11, R182). -/
def refuseState (s : State) : Answer := ⟨s, .refusedState, []⟩

/-! ### Table entries (11, R183) -/

/-- READ_ENTRY (11, R183). -/
def State.readEntry (args : List Byte) (s : State) : Answer :=
  match fixedArgs [1, 2] args with
  | some [t, i] =>
    match tableOf t with
    | some t => if t.holds i then done s (s.entryBytes t i) else refuseArgument s
    | none => refuseArgument s
  | _ => refuseArgument s

/-- WRITE_ENTRY, judged in the order of 11, R182. -/
def State.writeEntry (args : List Byte) (s : State) : Answer :=
  match args with
  | t :: i1 :: i2 :: rest =>
    match tableOf t.toNat with
    | none => refuseArgument s
    | some t =>
      match t.readWrite rest with
      | none => refuseArgument s
      | some w =>
        if t.readOnly then refuseState s
        else
          match s.writeTable t (bytesNat [i1, i2]) w with
          | none => refuseArgument s
          | some s1 => done s1 (s1.entryBytes t (bytesNat [i1, i2]))
  | _ => refuseArgument s

/-- CLEAR_ENTRY, judged in the order of 11, R182. -/
def State.clearEntry (args : List Byte) (s : State) : Answer :=
  match fixedArgs [1, 2] args with
  | some [t, i] =>
    match tableOf t with
    | none => refuseArgument s
    | some t =>
      if t.readOnly then refuseState s
      else
        match s.clearTable t i with
        | none => refuseArgument s
        | some s1 => done s1 (s1.entryBytes t i)
  | _ => refuseArgument s

/-! ### Commit (03, R52, R53) -/

/-- A failure report as reply data (12, R198). -/
def failureBytes (f : FailureReport) : List Byte :=
  enumByte conditions f.condition ++ optBytes 1 f.group ++ optBytes 2 f.other

/-- COMMIT (03, R52). -/
def State.requestCommit (args : List Byte) (s : State) : Answer :=
  match fixedArgs [3] args with
  | some [delay] =>
    match validate s.hunt.staged with
    | some f => ⟨s, .refusedState, failureBytes f⟩
    | none =>
      let d := min delay Config.commitDelayMax
      done (s.modHunt fun h => { h with countdown := some (s.clock + 1000 * d) }) (natBytes 3 d)
  | _ => refuseArgument s

/-- CANCEL_COMMIT (03, R53). -/
def State.cancelCommit (args : List Byte) (s : State) : Answer :=
  match fixedArgs [] args with
  | some [] =>
    if s.hunt.countdown.isSome then
      done (s.modHunt fun h => { h with countdown := none }) (natBytes 3 s.commitRemaining)
    else refuseState s
  | _ => refuseArgument s

/-! ### Modes and RESTART (11, R184, R185) -/

/-- A zone when a teardown ends: no claim, no content and the beacon OFF (07, R125, R138). -/
def Zone.silent (zn : Zone) : Zone :=
  { zn with claims := [], player := Player.empty, completed := false, beacon := Beacon.off }

/-- What holds when a teardown ends, as the manual says it outright: every claim list is empty, every beacon OFF, and no
orbit occupied (07, R125, R138). In the states that the part reaches, the withdrawals of the teardown have left it so. -/
def State.tornDown (s : State) : State :=
  orbitNumbers.foldl (fun t n => t.setOrbit n none) (zoneNumbers.foldl (fun t z => t.modZone z Zone.silent) s)

/-- The teardown, taken with the mode already TRANSPARENT (11, R184; 04, R88; 07, R138; 10, R179). DESIGN CHOICE: the
assist claims go by a re-evaluation of every enabled zone, which so counts its assist count anew, also in a zone with no
ASSIST claim, where 07, R138, speaks of the claims alone (notes/assumptions/43.md). -/
def State.teardown (s : State) : State :=
  (((s.modMaint fun m =>
    { m with mode := .transparent }).teardownHunt).teardownSessions).withdrawAlarm.reevaluateAll.tornDown

/-- SET_MODE(TRANSPARENT) (11, R184). -/
def State.becomeTransparent (s : State) : State := if s.maint.mode = .engaged then s.teardown else s

/-- SET_MODE(ENGAGED): the alarm's claims if the latch is ACTIVE, then every enabled zone's assist claim (11, R184). -/
def State.becomeEngaged (s : State) : State :=
  if s.maint.mode = .engaged then s
  else
    let s1 := s.modMaint fun m => { m with mode := .engaged }
    (if s1.alarm.source.isSome then s1.placeAlarm else s1).reevaluateAll

/-- SET_MODE (11, R184; 12, R197). -/
def State.setMode (args : List Byte) (s : State) : Answer :=
  match fixedArgs [1] args with
  | some [0] => done s.becomeTransparent (enumByte modes s.becomeTransparent.maint.mode)
  | some [1] => done s.becomeEngaged (enumByte modes s.becomeEngaged.maint.mode)
  | _ => refuseArgument s

/-- A station record at a RESTART (02, R24). -/
def Station.restarted (st : Station) : Station :=
  { st with line := if st.line = .outOfService then .outOfService else .idle, call := none, deliveredBy := none,
            wrapUp := none, source := none }

/-- A zone at a RESTART: no claim, an empty player, the beacon OFF, and an assist count of 0 beside the ringing set that
is emptied with no report; a loud change report outstanding stays (05, R93; 07, R119, R137; 08, R157;
notes/assumptions/33.md, 42.md). -/
def Zone.emptied (zn : Zone) : Zone :=
  { zn.silent with assist := 0 }

/-- The blocks take their RESTART values (11, R185, stage 2; 02, R24; 03, R54; 04, R65, R66; 05, R91; 06, R105; 07, R130;
10, R171). -/
def State.restartBlocks (s : State) : State :=
  { s with
    stations := s.stations.map Station.restarted
    hunt := { s.hunt with records := [], closed := [], countdown := none, headChecks := [], available := [] }
    orbits := Tab.all 1 9 none
    pickup := { s.pickup with ringing := [] }
    paging := { s.paging with sessions := Tab.all 1 8 none, frameReport := none }
    zones := s.zones.map Zone.emptied
    alarm := { s.alarm with source := none, scope := none, claimed := [] } }

/-- RESTART, in the stages of 11, R185. -/
def State.restart (s : State) : State :=
  (((s.becomeTransparent.restartBlocks).modMaint fun m => { m with cause := .restart }).setResetFlag).readAlarmLine

/-- RESTART as a request (11, R185). -/
def State.requestRestart (args : List Byte) (s : State) : Answer :=
  match fixedArgs [] args with
  | some [] => done s.restart []
  | _ => refuseArgument s

/-! ### Stations and the alarm (02, R34, R35; 10, R173, R177) -/

/-- STATION_AVAILABILITY (02, R35). -/
def State.requestAvailability (args : List Byte) (s : State) : Answer :=
  match fixedArgs [2, 1] args with
  | some [n, v] =>
    if v ≤ 1 && n < Config.stations then
      let s1 := if v = 1 then s.setAvailable n else s.setUnavailable n
      let st := s1.stations.get n
      done s1 (enumByte [true, false] st.available ++ natBytes 1 st.strikes)
    else refuseArgument s
  | _ => refuseArgument s

/-- STATION_SERVICE (02, R34). -/
def State.requestService (args : List Byte) (s : State) : Answer :=
  match fixedArgs [2, 1] args with
  | some [n, v] =>
    if v ≤ 1 && n < Config.stations then
      let s1 := if v = 1 then s.serviceIn n else s.serviceOut n
      done s1 (enumByte lineStates (s1.stations.get n).line)
    else refuseArgument s
  | _ => refuseArgument s

/-- ALARM_START (10, R173). -/
def State.requestAlarmStart (args : List Byte) (s : State) : Answer :=
  match fixedArgs [] args with
  | some [] =>
    let s1 := if s.alarm.source.isNone then s.enterAlarm .request else s
    done s1 (alarmBytes s1.alarm)
  | _ => refuseArgument s

/-- ALARM_CLEAR (10, R177). -/
def State.requestAlarmClear (args : List Byte) (s : State) : Answer :=
  match fixedArgs [] args with
  | some [] =>
    if s.alarm.line then refuseState s
    else
      let s1 := if s.alarm.source.isSome then s.exitAlarm else s
      done s1 (alarmBytes s1.alarm)
  | _ => refuseArgument s

/-! ### Prompt memory (09, R166, R167) -/

/-- PROMPT_ADDRESS (09, R166). -/
def State.promptAddress (args : List Byte) (s : State) : Answer :=
  match fixedArgs [2] args with
  | some [a] =>
    if a < Config.promptSamples then done (s.modPrompts fun p => { p with address := a }) (natBytes 2 a)
    else refuseArgument s
  | _ => refuseArgument s

/-- Samples stored one after another at the write address, those that find it at the end discarded (09, R166). -/
def Prompts.store (p : Prompts) : List Sample → Prompts
  | [] => p
  | x :: rest =>
    if p.address < Config.promptSamples then
      { p with memory := memWrite p.memory p.address x, address := p.address + 1 }.store rest
    else p

/-- PROMPT_WRITE (09, R166): a count that differs from the samples carried does not fit the layout. -/
def State.promptWrite (args : List Byte) (s : State) : Answer :=
  match readList 2 args with
  | some xs =>
    if 1 ≤ xs.length && xs.length ≤ 24 then
      let s1 := s.modPrompts fun p => p.store (xs.map (BitVec.ofNat 16))
      let count := s1.prompts.address - s.prompts.address
      let s2 := if count < xs.length then s1.setFlag .promptOverrun else s1
      done s2 (natBytes 1 count ++ natBytes 2 s1.prompts.address)
    else refuseArgument s
  | none => refuseArgument s

/-- PROMPT_READ (09, R167). DESIGN CHOICE: the reply's samples stand behind the write address with no count byte
(notes/assumptions/41.md). -/
def State.promptRead (args : List Byte) (s : State) : Answer :=
  match fixedArgs [2, 1] args with
  | some [a, n] =>
    if 1 ≤ n && n ≤ 24 && a < Config.promptSamples && a + n ≤ Config.promptSamples then
      done s (natBytes 2 s.prompts.address ++
        (List.range' a n).flatMap fun b => sampleBytes (memRead s.prompts.memory b))
    else refuseArgument s
  | _ => refuseArgument s

/-! ### Status, views, counters (11, R187 to R191) -/

/-- READ_STATUS (11, R188). -/
def State.readStatus (args : List Byte) (s : State) : Answer :=
  match fixedArgs [] args with
  | some [] => done s s.statusBytes
  | _ => refuseArgument s

/-- WRITE_RESET_CAUSE (11, R187). -/
def State.writeResetCause (args : List Byte) (s : State) : Answer :=
  match fixedArgs [1] args with
  | some [v] =>
    match resetCauses[v]? with
    | some c => done (s.modMaint fun m => { m with cause := c }) (natBytes 1 v)
    | none => refuseArgument s
  | _ => refuseArgument s

/-- READ_LIVE (11, R189). -/
def State.readLive (args : List Byte) (s : State) : Answer :=
  match readView args with
  | some v => if v.accepted then done s (s.viewBytes v) else refuseArgument s
  | none => refuseArgument s

/-- READ_COUNTERS (11, R190). -/
def State.readCounters (args : List Byte) (s : State) : Answer :=
  match fixedArgs [1, 1] args with
  | some [o, i] =>
    match ownerOf o i with
    | some o => done s (counterBytes (s.counters o))
    | none => refuseArgument s
  | _ => refuseArgument s

/-- CLEAR_COUNTERS (11, R191). -/
def State.requestClearCounters (args : List Byte) (s : State) : Answer :=
  match fixedArgs [1, 1] args with
  | some [o, i] =>
    match ownerOf o i with
    | some o => done (s.clearCounters o) (counterBytes (s.counters o))
    | none => refuseArgument s
  | _ => refuseArgument s

/-! ### Attention (11, R193, R194) -/

/-- A flag set as reply data (12, R195). -/
def flagBytes (x : BitVec 16) : List Byte := natBytes 2 x.toNat

/-- A flag set argument; `none` where it does not fit, or names a flag the part does not have (11, R194; 12, R197). -/
def flagSet (args : List Byte) : Option (BitVec 16) :=
  match fixedArgs [2] args with
  | some [v] => if v % 2 = 0 then some (BitVec.ofNat 16 v) else none
  | _ => none

/-- ATTENTION_READ (11, R194). -/
def State.attentionRead (args : List Byte) (s : State) : Answer :=
  match fixedArgs [] args with
  | some [] => done s (flagBytes s.maint.flags ++ flagBytes s.maint.mask)
  | _ => refuseArgument s

/-- ATTENTION_CLEAR (11, R194). -/
def State.attentionClear (args : List Byte) (s : State) : Answer :=
  match flagSet args with
  | some x =>
    let s1 := s.modMaint fun m => { m with flags := m.flags &&& ~~~ x }
    done s1 (flagBytes s1.maint.flags)
  | none => refuseArgument s

/-- ATTENTION_MASK_SET (11, R194). -/
def State.attentionMaskSet (args : List Byte) (s : State) : Answer :=
  match flagSet args with
  | some x =>
    let s1 := s.modMaint fun m => { m with mask := m.mask ||| x }
    done s1 (flagBytes s1.maint.mask)
  | none => refuseArgument s

/-- ATTENTION_MASK_CLEAR: one cell when a set flag that was masked is unmasked (11, R193, R194). -/
def State.attentionMaskClear (args : List Byte) (s : State) : Answer :=
  match flagSet args with
  | some x =>
    let s1 := s.modMaint fun m => { m with mask := m.mask &&& ~~~ x }
    let s2 := if s.maint.flags &&& s.maint.mask &&& x = 0#16 then s1 else s1.join .up (.known (attentionCell s1))
    done s2 (flagBytes s1.maint.mask)
  | none => refuseArgument s

/-! ### Requests and replies (11, R181) -/

/-- A request by its kind code; a kind the part does not know is answered UNKNOWN_REQUEST (11, R181; 12, R197). -/
def State.request (kind : Nat) (args : List Byte) (s : State) : Answer :=
  match kind with
  | 1 => s.readEntry args
  | 2 => s.writeEntry args
  | 3 => s.clearEntry args
  | 4 => s.requestCommit args
  | 5 => s.cancelCommit args
  | 6 => s.setMode args
  | 7 => s.requestRestart args
  | 8 => s.requestAvailability args
  | 9 => s.requestService args
  | 10 => s.requestAlarmStart args
  | 11 => s.requestAlarmClear args
  | 12 => s.promptAddress args
  | 13 => s.promptWrite args
  | 14 => s.promptRead args
  | 15 => s.readStatus args
  | 16 => s.writeResetCause args
  | 17 => s.readLive args
  | 18 => s.readCounters args
  | 19 => s.requestClearCounters args
  | 20 => s.attentionRead args
  | 21 => s.attentionClear args
  | 22 => s.attentionMaskSet args
  | 23 => s.attentionMaskClear args
  | _ => ⟨s, .unknownRequest, []⟩

/-- The parts of a reply join the up queue in order, numbered from `part` (12, R198). -/
def State.sendParts (tag : Byte) (outcome : ReplyOutcome) (count : Nat) : Nat → List (List Byte) → State → State
  | _, [], s => s
  | part, p :: rest, s =>
    State.sendParts tag outcome count (part + 1) rest
      (s.sendOwn 0#16 (.maintReply tag outcome (BitVec.ofNat 8 part) (BitVec.ofNat 8 count) p))

/-- A reply joins the up queue, in as many cells as its data needs (11, R181; 12, R198). -/
def State.reply (tag : Byte) (a : Answer) : State :=
  State.sendParts tag a.outcome (replyParts a.data).length 1 (replyParts a.data) a.state

/-- A COMMIT accepted with a delay of 0 leaves its deadline now: the expiry is taken once the request is finished (03,
R52; notes/assumptions/2.md). With a delay above 0 the expiry is not due. -/
def State.commitNow (kind : Byte) (o : ReplyOutcome) (s : State) : State :=
  if kind = 4#8 ∧ o = .done then s.commitExpiry else s

/-- A MAINT cell to the part: the request in full, then its reply (11, R181), then the expiry of a COMMIT with no delay
(03, R52). -/
def State.maintain (tag kind : Byte) (args : List Byte) (s : State) : State :=
  let a := s.request kind.toNat args
  (State.reply tag a).commitNow kind a.outcome

end Sys2Proof.Machine
end

