-- ==== Sys2Proof/Machine/Lanes.lean ====
section
/-! DEFINITION. The Lane Interface: what the classifier makes of each cell, outgoing slots, and the bridge of a reset
(01, R2 to R14, R17, R20, R21). -/

namespace Sys2Proof.Machine

/-! ### Lines and bridges -/

/-- The bridge of a lane direction. -/
def Lane.bridge (l : Lane) : Dir → Bridge
  | .down => l.bridgeDown
  | .up => l.bridgeUp

/-- Sets the bridge of a lane direction. -/
def Lane.setBridge (l : Lane) (d : Dir) (b : Bridge) : Lane :=
  match d with
  | .down => { l with bridgeDown := b }
  | .up => { l with bridgeUp := b }

/-- What stands on a direction's outgoing lane in its slot. -/
def Lane.setOut (l : Lane) (d : Dir) (w : Option WireCell) : Lane :=
  match d with
  | .down => { l with downOut := w }
  | .up => { l with upOut := w }

/-- A queued cell as its slot carries it (01, R17; 12, R195). -/
def wireCell : LaneCell → WireCell
  | .known c => ⟨cellBytes c, none⟩
  | .raw w => w

/-- A direction's bridge is over: it ends with the slot in progress at the release (01, R21). -/
def State.endBridge (d : Dir) (s : State) : State := s.modLane fun l => l.setBridge d .off

/-- An incoming slot is copied to the outgoing lane of its direction (01, R20). -/
def State.copySlot (d : Dir) (w : Option WireCell) (s : State) : State := s.modLane fun l => l.setOut d w

/-! ### The classifier (01, R4 to R14) -/

/-- A through cell passes: it joins its direction's queue (01, R16). -/
def State.pass (d : Dir) (c : Cell) (s : State) : State := s.join d (.known c)

/-- The owning blocks' decision about an up cell is carried out (01, R13). -/
def State.decide (c : Cell) (r : State × Decision) : State :=
  match r.2 with
  | .pass => r.1.pass .up c
  | .consume => r.1

/-- A damaged or malformed cell: counted, MALFORMED_CELL set, forwarded unacted (01, R5, R7). -/
def State.forwardBad (d : Dir) (c : LaneCell) (s : State) : State :=
  ((s.modLaneCounters fun k => { k with malformed := satInc k.malformed }).setFlag .malformedCell).join d c

/-- A well-formed cell is classified by its kind and equipment number (01, R8 to R14, 1.7). -/
def State.classify (c : Cell) (s : State) : State :=
  let n := c.eq.toNat
  let own : Bool := c.eq = s.lane.own
  match c.body with
  | .offer called caller cls _ =>
    if own then s.pilotArrival c.call called caller cls
    else if tracked c.eq then (s.trackOffer n c.call).pass .down c
    else s.pass .down c
  | .withdraw _ =>
    if own then s.abandonment c.call
    else if tracked c.eq then (s.withdrawn n c.call).pass .down c
    else s.pass .down c
  | .callEnd => (s.callEnd c.call).pass .down c
  | .tone _ => s.pass .down c
  | .display .. => s.pass .down c
  | .maint tag kind args => if own then s.maintain tag kind args else s.pass .down c
  | .offHook => if tracked c.eq then (s.offHook n).pass .up c else s.pass .up c
  | .onHook => if tracked c.eq then (s.onHook n).pass .up c else s.pass .up c
  | .ringStarted => if tracked c.eq then (s.ringStarted n c.call).pass .up c else s.pass .up c
  | .dialled ds => if tracked c.eq then State.decide c (s.dialled n ds) else s.pass .up c
  | .answered _ => if tracked c.eq then State.decide c (s.answered n c.call) else s.pass .up c
  | .refused _ => if tracked c.eq then State.decide c (s.refused n c.call) else s.pass .up c
  | .engage _ => s.pass .up c
  | .divert _ => s.pass .up c
  | .maintReply .. => (if own then s.unexpected else s).pass .up c
  | .attention .. => (if own then s.unexpected else s).pass .up c

/-- A cell of a known kind arrives in a slot: bridged while a reset holds; else, once what earlier work raised has been
taken, checked against its kind's form and classified (01, R2, R4, R7, R20; notes/assumptions/2.md, 25.md). -/
def State.arrive (d : Dir) (c : Cell) (s : State) : State :=
  if s.lane.phase = .inService then
    let s1 := s.settle.endBridge d
    if cellOk c then s1.classify c else s1.forwardBad d (.known c)
  else s.copySlot d (some ⟨cellBytes c, none⟩)

/-- An undamaged cell arrives as bytes: of an unknown kind it passes unexamined, else it is judged as any cell (01, R4,
R6, R7; notes/assumptions/24.md). -/
def State.arriveBytes (d : Dir) (bytes : List Byte) (s : State) : State :=
  if s.lane.phase = .inService then
    let s1 := s.settle.endBridge d
    match parseCell d bytes with
    | .unknown => s1.join d (.raw ⟨bytes, none⟩)
    | .malformed => s1.forwardBad d (.raw ⟨bytes, none⟩)
    | .ok c => s1.classify c
  else s.copySlot d (some ⟨bytes, none⟩)

/-- A damaged cell arrives: it goes on with its bytes and its line-code violation in the same place (01, R4, R5). -/
def State.arriveDamaged (d : Dir) (bytes : List Byte) (violation : Nat) (s : State) : State :=
  if s.lane.phase = .inService then (s.settle.endBridge d).forwardBad d (.raw ⟨bytes, some violation⟩)
  else s.copySlot d (some ⟨bytes, some violation⟩)

/-! ### Outgoing slots and the bridge (01, R17, R20) -/

/-- An outgoing slot starts in service: the oldest cell of the queue is sent, or the slot is sent empty (01, R17). The
queues are idle while a reset holds (01, R20). -/
def State.outgoingSlot (d : Dir) (s : State) : State :=
  if s.lane.phase = .inService then
    let q := s.lane.queue d
    (s.endBridge d).modLane fun l => (l.setQueue d q.tail).setOut d (q.head?.map wireCell)
  else s

/-- A sample in its place among slots listed by rising number. -/
def putSlot (slot : Nat) (x : Sample) : List (Nat × Sample) → List (Nat × Sample)
  | [] => [(slot, x)]
  | (k, y) :: rest =>
    if slot < k then (slot, x) :: (k, y) :: rest
    else if slot = k then (slot, x) :: rest
    else (k, y) :: putSlot slot x rest

/-- An incoming slot while the bridge stands is copied to the output; at a bridge that is ending it is the slot in
progress (01, R20, R21). Where no bridge stands nothing is copied. -/
def State.bridgeSlot (b : BridgeSlot) (s : State) : State :=
  match b with
  | .lane d w =>
    match s.lane.bridge d with
    | .off => s
    | .holding => s.copySlot d w
    | .ending => (s.copySlot d w).endBridge d
  | .highway slot x =>
    match s.lane.bridgeHighway with
    | .off => s
    | _ => { s with highwayOut := putSlot slot.toNat x s.highwayOut }

end Sys2Proof.Machine
end

