-- ==== Sys2Proof/Machine/Resets.lean ====
section
/-! DEFINITION. The POWER and PIN resets (01, R3, R20, R21; 11, R186; every block's reset values). -/

namespace Sys2Proof.Machine

/-- A reset begins: the queues are emptied uncounted, the bridges hold, the beacon lines are inactive (01, R20; 07, R137;
notes/assumptions/28.md). -/
def State.holdReset (p : Phase) (s : State) : State :=
  { s with
    lane := { s.lane with phase := p, bridgeDown := .holding, bridgeUp := .holding, bridgeHighway := .holding
                          downQueue := [], upQueue := [] }
    zones := s.zones.map fun zn => { zn with beacon := { zn.beacon with line := false } } }

/-- Power-on starts the POWER reset (11, R186). -/
def State.powerOn (s : State) : State := s.holdReset .powerReset

/-- RESET_N is asserted in service: the PIN reset begins (01, R20). -/
def State.assertReset (s : State) : State := if s.lane.phase = .inService then s.holdReset .pinReset else s

/-- The part's own equipment number from the straps (01, R3). -/
def ownNumber (straps : BitVec 4) : Equip := BitVec.ofNat 10 (1008 + straps.toNat)

/-- Every block at its reset values before RESET is set: flags clear, every flag masked but RESET, the straps read, and
the bridges kept to the end of the slot and frame in progress (01, R3, R21; 11, R186). -/
def State.blocksReset (cause : ResetCause) (straps : BitVec 4) (prompts : Prompts) (s : State) : State :=
  { lane := { phase := .inService, bridgeDown := .ending, bridgeUp := .ending, bridgeHighway := .ending,
              straps := straps, own := ownNumber straps, downQueue := [], upQueue := [], downOut := s.lane.downOut,
              upOut := s.lane.upOut, counters := LaneCounters.zero }
    stations := Tab.all 0 384 Station.reset
    codes := Tab.all 0 16 none
    hunt := Hunt.reset
    orbits := Tab.all 1 9 none
    pickup := Pickup.reset
    paging := Paging.reset
    zones := Tab.all 1 24 Zone.reset
    prompts := prompts
    alarm := { source := none, scope := none, claimed := [], line := s.alarm.line }
    maint := { mode := .transparent, cause := cause, flags := 0#16, mask := 0x7FFE#16 }
    clock := 0
    highwayOut := s.highwayOut
    pending := s.pending }

/-- A reset ends: the blocks take their values, RESET is set, ALARM_IN is read (11, R186; 10, R171). -/
def State.endReset (cause : ResetCause) (straps : BitVec 4) (prompts : Prompts) (s : State) : State :=
  ((s.blocksReset cause straps prompts).setResetFlag).readAlarmLine

/-- The power-on reset ends (11, R186). -/
def State.powerOnEnd (straps : BitVec 4) (s : State) : State :=
  if s.lane.phase = .powerReset then s.endReset .power straps Prompts.reset else s

/-- What a PIN reset keeps of the Prompt Store: memory and directory (09, R165). -/
def Prompts.pinKept (p : Prompts) : Prompts := { Prompts.reset with memory := p.memory, directory := p.directory }

/-- RESET_N is released: the PIN reset ends (01, R21; 11, R186). -/
def State.releaseReset (straps : BitVec 4) (s : State) : State :=
  if s.lane.phase = .pinReset then s.endReset .pin straps s.prompts.pinKept else s

end Sys2Proof.Machine
end

