-- ==== Sys2Proof/Machine/Expiries.lean ====
section
/-! DEFINITION. When a deadline, a raised event or a report may be taken, and the choice of the next one while no command
waits (notes/assumptions/1.md, 3.md, 19.md). -/

namespace Sys2Proof.Machine

/-- Events of the part's own are taken in service only (01, R20; 08, R157; 10, 10.1). -/
def State.inService (f : State → State) (s : State) : State := if s.lane.phase = .inService then f s else s

/-- A piece of work of the part's own: in service, once what earlier work raised has been taken (02, R37; 04, R83). -/
def State.afterRaised (f : State → State) (s : State) : State := s.inService fun t => f t.settle

/-! ### Deadlines of hunt records and orbits -/

/-- Whether a record's offer deadline has come (04, R75). -/
def HuntRecord.noAnswerDue (now : Nat) (r : HuntRecord) : Bool := r.member.isSome && duePast now r.offerDeadline

/-- Whether a record's wait deadline has come (04, R80). -/
def HuntRecord.waitDue (now : Nat) (r : HuntRecord) : Bool := duePast now r.waitDeadline

/-- Whether a record's announce point has come and it has not asked yet (04, R79). -/
def HuntRecord.announceDue (now : Nat) (r : HuntRecord) : Bool :=
  duePast now r.announcePoint && !r.awaiting && r.orbit.isNone

/-- NO_ANSWER_EXPIRY of a call (04, R75). -/
def State.noAnswerExpiry (c : CallRef) (s : State) : State :=
  match s.record c with
  | none => s
  | some r =>
    match r.member with
    | some m => if r.noAnswerDue s.clock then s.noAnswer c m r.group else s
    | none => s

/-- MAXIMUM_WAIT_EXPIRY of a call (04, R80). -/
def State.maximumWaitExpiry (c : CallRef) (s : State) : State :=
  match s.record c with
  | some r => if r.waitDue s.clock then s.maximumWait c else s
  | none => s

/-- ANNOUNCE_POINT_EXPIRY of a call (04, R79). -/
def State.announcePointExpiry (c : CallRef) (s : State) : State :=
  match s.record c with
  | some r => if r.announceDue s.clock then s.requestOrbit c else s
  | none => s

/-- CHIME of an orbit whose next-chime deadline has come (06, R108). -/
def State.chimeExpiry (n : Nat) (s : State) : State :=
  match s.orbits.get n with
  | some o => if o.nextChime ≤ s.clock then s.chimeOrbit n else s
  | none => s

/-! ### Raised events -/

/-- The member-available event whose turn it is is taken: the lowest raised, once no head check stands (02, R37; 04, R83,
R84; notes/assumptions/3.md). -/
def State.takeAvailable (n : Nat) (s : State) : State :=
  if s.hunt.headChecks = [] ∧ s.hunt.available.head? = some n then s.memberAvailable n else s

/-- The head check whose turn it is is taken: the lowest raised (04, R83; notes/assumptions/3.md). -/
def State.takeHeadCheck (g : Nat) (s : State) : State :=
  if s.hunt.headChecks.head? = some g then s.headCheck g else s

/-! ### The next event while no command waits -/

/-- The events raised and the reports outstanding, in the order the model takes them (04, R83; 08, R142). -/
def State.nextRaised (s : State) : Option Instr :=
  ((s.hunt.headChecks.head?.map Instr.headCheck).or (s.hunt.available.head?.map Instr.memberAvailable)).or
    ((((zoneNumbers.find? fun z => (s.zones.get z).completed).map Instr.contentCompletion).or
      ((zoneNumbers.find? fun z => (s.zones.get z).loudReport).map Instr.loudChange)).or
      (if s.paging.frameReport.isSome then some .frameFormed else none))

/-- A deadline of the Hunt Controller or the Orbit Table that has come. -/
def State.nextHuntDeadline (s : State) : Option Instr :=
  (((s.hunt.records.find? fun r => r.noAnswerDue s.clock).map fun r => Instr.noAnswerExpiry r.call).or
    ((s.hunt.records.find? fun r => r.waitDue s.clock).map fun r => Instr.maximumWaitExpiry r.call)).or
    (((s.hunt.records.find? fun r => r.announceDue s.clock).map fun r => Instr.announcePointExpiry r.call).or
      ((orbitNumbers.find? fun n =>
        duePast s.clock ((s.orbits.get n).map (·.nextChime))).map Instr.chime))

/-- A deadline that has come. -/
def State.nextDeadline (s : State) : Option Instr :=
  ((if duePast s.clock s.hunt.countdown then some Instr.commitExpiry else none).or
    ((stationNumbers.find? fun n => duePast s.clock (s.stations.get n).wrapUp).map Instr.wrapUpExpiry)).or
    (s.nextHuntDeadline.or
      (((sessionNumbers.find? fun i =>
          duePast s.clock ((s.paging.sessions.get i).map (·.deadline))).map Instr.sessionDeadline).or
        ((zoneNumbers.find? fun z =>
          (s.zones.get z).beacon.pattern != .off && (s.zones.get z).beacon.boundary ≤ s.clock).map
            Instr.beaconPhaseChange)))

/-- The event of the part's own that is taken next while no command waits; none while a reset holds
(notes/assumptions/19.md). -/
def State.nextInternal (s : State) : Option Instr :=
  if s.lane.phase = .inService then s.nextRaised.or s.nextDeadline else none

/-- A millisecond passes (00, Millisecond clock). -/
def State.tick (s : State) : State := { s with clock := s.clock + 1 }

end Sys2Proof.Machine
end

