-- ==== Sys2Proof/Machine/CellCommands.lean ====
section
/-! DEFINITION. The meanings of the cell rows: every cell is taken whole by the classifier of its direction (01, R4). -/

namespace Sys2Proof.Machine

/-- What a command answers. -/
abbrev Result := Host.Outcome State Fault Refusal

/-! ### Cells as bytes -/

/-- DAMAGED_CELL (01, R5). -/
def execDamagedCell (d : Dir) (cell : DamagedCell) (s : State) : Result :=
  .next (s.arriveDamaged d cell.bytes cell.violation)

/-- MALFORMED_CELL (01, R7). -/
def execMalformedCell (d : Dir) (bytes : List Byte) (s : State) : Result := .next (s.arriveBytes d bytes)

/-- UNKNOWN_KIND_CELL (01, R6). -/
def execUnknownKindCell (d : Dir) (bytes : List Byte) (s : State) : Result := .next (s.arriveBytes d bytes)

/-! ### Down cells -/

/-- PILOT_ARRIVAL: a down OFFER to the part's own number (01, R8; 04, R67). -/
def execPilotArrival (call : CallRef) (called caller : Digits) (cls : CallerClass) (group : Option Nat) (s : State) :
    Result :=
  .next (s.arrive .down ⟨s.lane.own, call, .offer called caller cls group⟩)

/-- OFFER (01, R8; 02, R27). -/
def execOffer (eq : Equip) (call : CallRef) (called caller : Digits) (cls : CallerClass) (group : Option Nat)
    (s : State) : Result :=
  .next (s.arrive .down ⟨eq, call, .offer called caller cls group⟩)

/-- WITHDRAW (01, R9; 02, R30; 04, R74). -/
def execWithdraw (eq : Equip) (call : CallRef) (cause : WithdrawCause) (s : State) : Result :=
  .next (s.arrive .down ⟨eq, call, .withdraw cause⟩)

/-- ABANDONMENT: a down WITHDRAW to the part's own number (01, R9; 04, R82). -/
def execAbandonment (call : CallRef) (cause : WithdrawCause) (s : State) : Result :=
  .next (s.arrive .down ⟨s.lane.own, call, .withdraw cause⟩)

/-- CALL_END (01, R9; 02, R31; 04, R82). -/
def execCallEnd (eq : Equip) (call : CallRef) (s : State) : Result := .next (s.arrive .down ⟨eq, call, .callEnd⟩)

/-- TONE (01, R10). -/
def execTone (eq : Equip) (call : CallRef) (kind : Byte) (s : State) : Result :=
  .next (s.arrive .down ⟨eq, call, .tone kind⟩)

/-- DISPLAY (01, R10). -/
def execDisplay (eq : Equip) (call : CallRef) (group queued : Byte) (wait : BitVec 16) (available free : Byte)
    (s : State) : Result :=
  .next (s.arrive .down ⟨eq, call, .display group queued wait available free⟩)

/-- MAINT_PASS (01, R10). -/
def execMaintPass (eq : Equip) (call : CallRef) (tag kind : Byte) (args : List Byte) (s : State) : Result :=
  .next (s.arrive .down ⟨eq, call, .maint tag kind args⟩)

/-! ### Up cells -/

/-- OFF_HOOK (01, R11; 02, R26). -/
def execOffHook (eq : Equip) (call : CallRef) (s : State) : Result := .next (s.arrive .up ⟨eq, call, .offHook⟩)

/-- ON_HOOK (01, R11; 02, R32). -/
def execOnHook (eq : Equip) (call : CallRef) (s : State) : Result := .next (s.arrive .up ⟨eq, call, .onHook⟩)

/-- RING_STARTED (01, R11; 02, R28; 04, R72). -/
def execRingStarted (eq : Equip) (call : CallRef) (s : State) : Result := .next (s.arrive .up ⟨eq, call, .ringStarted⟩)

/-- DIALLED (01, R12; 02, R41 to R45). -/
def execDialled (eq : Equip) (call : CallRef) (symbols : Digits) (s : State) : Result :=
  .next (s.arrive .up ⟨eq, call, .dialled symbols⟩)

/-- ANSWERED (01, R13; 02, R29; 04, R73, R85, R86). -/
def execAnswered (eq : Equip) (call : CallRef) (via : Via) (s : State) : Result :=
  .next (s.arrive .up ⟨eq, call, .answered via⟩)

/-- REFUSED (01, R13; 02, R30; 04, R74, R87). -/
def execRefused (eq : Equip) (call : CallRef) (cause : RefusedCause) (s : State) : Result :=
  .next (s.arrive .up ⟨eq, call, .refused cause⟩)

/-- ENGAGE (01, R14). -/
def execEngage (eq : Equip) (call : CallRef) (feature : EngageFeature) (s : State) : Result :=
  .next (s.arrive .up ⟨eq, call, .engage feature⟩)

/-- DIVERT (01, R14). -/
def execDivert (eq : Equip) (call : CallRef) (dn : Digits) (s : State) : Result :=
  .next (s.arrive .up ⟨eq, call, .divert dn⟩)

/-- MAINT_REPLY (01, R14). -/
def execMaintReply (eq : Equip) (call : CallRef) (tag : Byte) (outcome : ReplyOutcome) (part count : Byte)
    (data : List Byte) (s : State) : Result :=
  .next (s.arrive .up ⟨eq, call, .maintReply tag outcome part count data⟩)

/-- ATTENTION (01, R14). -/
def execAttention (eq : Equip) (call : CallRef) (flags unmasked : BitVec 16) (s : State) : Result :=
  .next (s.arrive .up ⟨eq, call, .attention flags unmasked⟩)

end Sys2Proof.Machine
end

