-- ==== Sys2Proof/Machine/RequestCommands.lean ====
section
/-! DEFINITION. The meanings of the maintenance requests: each is a MAINT cell to the part's own number with the request
kind of its row (01, R10; 11, R181; 12, R197). -/

namespace Sys2Proof.Machine

/-- A MAINT cell to the part's own number, call reference 0 (notes/assumptions/11.md). -/
def State.arriveRequest (tag : Byte) (kind : Byte) (args : List Byte) (s : State) : State :=
  s.arrive .down ⟨s.lane.own, 0#16, .maint tag kind args⟩

/-- READ_ENTRY (11, R183). -/
def execReadEntry (tag : Byte) (args : List Byte) (s : State) : Result := .next (s.arriveRequest tag 1#8 args)

/-- WRITE_ENTRY (11, R183). -/
def execWriteEntry (tag : Byte) (args : List Byte) (s : State) : Result := .next (s.arriveRequest tag 2#8 args)

/-- CLEAR_ENTRY (11, R183). -/
def execClearEntry (tag : Byte) (args : List Byte) (s : State) : Result := .next (s.arriveRequest tag 3#8 args)

/-- COMMIT (03, R52). -/
def execCommit (tag : Byte) (args : List Byte) (s : State) : Result := .next (s.arriveRequest tag 4#8 args)

/-- CANCEL_COMMIT (03, R53). -/
def execCancelCommit (tag : Byte) (args : List Byte) (s : State) : Result := .next (s.arriveRequest tag 5#8 args)

/-- SET_MODE(TRANSPARENT) (11, R184). -/
def execSetModeTransparent (tag : Byte) (args : List Byte) (s : State) : Result := .next (s.arriveRequest tag 6#8 args)

/-- SET_MODE(ENGAGED) (11, R184). -/
def execSetModeEngaged (tag : Byte) (args : List Byte) (s : State) : Result := .next (s.arriveRequest tag 6#8 args)

/-- RESTART (11, R185). -/
def execRestart (tag : Byte) (args : List Byte) (s : State) : Result := .next (s.arriveRequest tag 7#8 args)

/-- STATION_AVAILABILITY (02, R35). -/
def execStationAvailability (tag : Byte) (args : List Byte) (s : State) : Result := .next (s.arriveRequest tag 8#8 args)

/-- STATION_SERVICE(out) (02, R34). -/
def execStationServiceOut (tag : Byte) (args : List Byte) (s : State) : Result := .next (s.arriveRequest tag 9#8 args)

/-- STATION_SERVICE(in) (02, R34). -/
def execStationServiceIn (tag : Byte) (args : List Byte) (s : State) : Result := .next (s.arriveRequest tag 9#8 args)

/-- ALARM_START (10, R173). -/
def execAlarmStart (tag : Byte) (args : List Byte) (s : State) : Result := .next (s.arriveRequest tag 10#8 args)

/-- ALARM_CLEAR (10, R177). -/
def execAlarmClear (tag : Byte) (args : List Byte) (s : State) : Result := .next (s.arriveRequest tag 11#8 args)

/-- PROMPT_ADDRESS (09, R166). -/
def execPromptAddress (tag : Byte) (args : List Byte) (s : State) : Result := .next (s.arriveRequest tag 12#8 args)

/-- PROMPT_WRITE (09, R166). -/
def execPromptWrite (tag : Byte) (args : List Byte) (s : State) : Result := .next (s.arriveRequest tag 13#8 args)

/-- PROMPT_READ (09, R167). -/
def execPromptRead (tag : Byte) (args : List Byte) (s : State) : Result := .next (s.arriveRequest tag 14#8 args)

/-- READ_STATUS (11, R188). -/
def execReadStatus (tag : Byte) (args : List Byte) (s : State) : Result := .next (s.arriveRequest tag 15#8 args)

/-- WRITE_RESET_CAUSE (11, R187). -/
def execWriteResetCause (tag : Byte) (args : List Byte) (s : State) : Result := .next (s.arriveRequest tag 16#8 args)

/-- READ_LIVE (11, R189). -/
def execReadLive (tag : Byte) (args : List Byte) (s : State) : Result := .next (s.arriveRequest tag 17#8 args)

/-- READ_COUNTERS (11, R190). -/
def execReadCounters (tag : Byte) (args : List Byte) (s : State) : Result := .next (s.arriveRequest tag 18#8 args)

/-- CLEAR_COUNTERS (11, R191). -/
def execClearCounters (tag : Byte) (args : List Byte) (s : State) : Result := .next (s.arriveRequest tag 19#8 args)

/-- ATTENTION_READ (11, R194). -/
def execAttentionRead (tag : Byte) (args : List Byte) (s : State) : Result := .next (s.arriveRequest tag 20#8 args)

/-- ATTENTION_CLEAR (11, R194). -/
def execAttentionClear (tag : Byte) (args : List Byte) (s : State) : Result := .next (s.arriveRequest tag 21#8 args)

/-- ATTENTION_MASK_SET (11, R194). -/
def execAttentionMaskSet (tag : Byte) (args : List Byte) (s : State) : Result := .next (s.arriveRequest tag 22#8 args)

/-- ATTENTION_MASK_CLEAR (11, R193, R194). -/
def execAttentionMaskClear (tag : Byte) (args : List Byte) (s : State) : Result := .next (s.arriveRequest tag 23#8 args)

/-- UNKNOWN_REQUEST (11, R181). -/
def execUnknownRequest (tag kind : Byte) (args : List Byte) (s : State) : Result := .next (s.arriveRequest tag kind args)

end Sys2Proof.Machine
end

