-- ==== Sys2Proof/Machine/EventCommands.lean ====
section
/-! DEFINITION. The meanings of the rows that are no cells: resets, slots and lines, deadlines, raised events, frames and
their reports. Work of the part's own begins once what earlier work raised has been taken (02, R37; 04, R83); an event
that is not due, whose turn it is not, or a report not outstanding is passed over (notes/assumptions/2.md, 3.md). -/

namespace Sys2Proof.Machine

/-! ### Resets, slots and lines -/

/-- POWER_ON (11, R186). -/
def execPowerOn (s : State) : Result := .next s.powerOn

/-- POWER_ON_RESET_END (11, R186). -/
def execPowerOnResetEnd (straps : BitVec 4) (s : State) : Result := .next (s.powerOnEnd straps)

/-- RESET_N_ASSERT (01, R20). -/
def execResetNAssert (s : State) : Result := .next s.assertReset

/-- RESET_N_RELEASE (01, R21). -/
def execResetNRelease (straps : BitVec 4) (s : State) : Result := .next (s.releaseReset straps)

/-- RESET_BRIDGE_SLOT (01, R20). -/
def execResetBridgeSlot (slot : BridgeSlot) (s : State) : Result := .next (s.bridgeSlot slot)

/-- OUTGOING_SLOT (01, R17). -/
def execOutgoingSlot (d : Dir) (s : State) : Result := .next (s.outgoingSlot d)

/-- ALARM_IN_ACTIVE (10, R172). -/
def execAlarmInActive (s : State) : Result := .next (s.inService State.settle).alarmInActive

/-- ALARM_IN_INACTIVE (10, R176). -/
def execAlarmInInactive (s : State) : Result := .next (s.inService State.settle).alarmInInactive

/-! ### Deadlines -/

/-- WRAP_UP_EXPIRY (02, R38). -/
def execWrapUpExpiry (station : Nat) (s : State) : Result := .next (s.afterRaised fun t => t.wrapUpExpiry station)

/-- NO_ANSWER_EXPIRY (04, R75). -/
def execNoAnswerExpiry (call : CallRef) (s : State) : Result := .next (s.afterRaised fun t => t.noAnswerExpiry call)

/-- MAXIMUM_WAIT_EXPIRY (04, R80). -/
def execMaximumWaitExpiry (call : CallRef) (s : State) : Result := .next (s.afterRaised fun t => t.maximumWaitExpiry call)

/-- ANNOUNCE_POINT_EXPIRY (04, R79; 06, R106). -/
def execAnnouncePointExpiry (call : CallRef) (s : State) : Result :=
  .next (s.afterRaised fun t => t.announcePointExpiry call)

/-- CHIME (06, R108). -/
def execChime (orbit : Nat) (s : State) : Result := .next (s.afterRaised fun t => t.chimeExpiry orbit)

/-- SESSION_DEADLINE (07, R134, R135). -/
def execSessionDeadline (session : Nat) (s : State) : Result := .next (s.afterRaised fun t => t.sessionDeadline session)

/-- COMMIT_EXPIRY (03, R55). -/
def execCommitExpiry (s : State) : Result := .next (s.afterRaised State.commitExpiry)

/-- BEACON_PHASE_CHANGE (07, R137). -/
def execBeaconPhaseChange (zone : Nat) (s : State) : Result := .next (s.afterRaised fun t => t.beaconPhaseChange zone)

/-! ### Raised events -/

/-- MEMBER_AVAILABLE (04, R84). -/
def execMemberAvailable (station : Nat) (s : State) : Result := .next (s.inService fun t => t.takeAvailable station)

/-- HEAD_CHECK (04, R83). -/
def execHeadCheck (group : Nat) (s : State) : Result := .next (s.inService fun t => t.takeHeadCheck group)

/-! ### Frames and their reports -/

/-- FRAME_FORMATION (08, R140). -/
def execFrameFormation (tap shelf : List Sample) (s : State) : Result := .next (s.frameFormation tap shelf)

/-- NOISE_BLOCK_END (08, R152). -/
def execNoiseBlockEnd (zone : Nat) (sense : Sample) (s : State) : Result :=
  .next (s.inService fun t => t.noiseBlockEnd zone sense)

/-- TONE_CYCLE_END (09, R164). -/
def execToneCycleEnd (zone : Nat) (s : State) : Result := .next (s.inService fun t => t.toneCycleEnd zone)

/-- PROMPT_STEP_END (09, R169). -/
def execPromptStepEnd (zone : Nat) (s : State) : Result := .next (s.inService fun t => t.promptStepEnd zone)

/-- CONTENT_COMPLETION (08, R142). -/
def execContentCompletion (zone : Nat) (s : State) : Result := .next (s.afterRaised fun t => t.contentCompletion zone)

/-- LOUD_CHANGE (08, R142). -/
def execLoudChange (zone : Nat) (s : State) : Result := .next (s.afterRaised fun t => t.loudChange zone)

/-- FRAME_FORMED (08, R142). -/
def execFrameFormed (s : State) : Result := .next (s.afterRaised State.frameFormed)

/-- PREANNOUNCE_END (07, R133). -/
def execPreannounceEnd (session : Nat) (s : State) : Result := .next (s.afterRaised fun t => t.preannounceEnd session)

end Sys2Proof.Machine
end

