-- ==== Sys2Proof/Machine/Dispatch.lean ====
section
/-! DEFINITION. One arm per command. -/

namespace Sys2Proof.Machine

/-- What a command does to everything but the queue of waiting commands. -/
def exec (i : Instr) (s : State) : Host.Outcome State Fault Refusal :=
  match i with
  | .powerOn => Sys2Proof.Machine.execPowerOn s
  | .powerOnResetEnd straps => Sys2Proof.Machine.execPowerOnResetEnd straps s
  | .resetNAssert => Sys2Proof.Machine.execResetNAssert s
  | .resetNRelease straps => Sys2Proof.Machine.execResetNRelease straps s
  | .outgoingSlot d => Sys2Proof.Machine.execOutgoingSlot d s
  | .damagedCell d cell => Sys2Proof.Machine.execDamagedCell d cell s
  | .malformedCell d bytes => Sys2Proof.Machine.execMalformedCell d bytes s
  | .unknownKindCell d bytes => Sys2Proof.Machine.execUnknownKindCell d bytes s
  | .pilotArrival call called caller cls group => Sys2Proof.Machine.execPilotArrival call called caller cls group s
  | .offer eq call called caller cls group => Sys2Proof.Machine.execOffer eq call called caller cls group s
  | .withdraw eq call cause => Sys2Proof.Machine.execWithdraw eq call cause s
  | .abandonment call cause => Sys2Proof.Machine.execAbandonment call cause s
  | .callEnd eq call => Sys2Proof.Machine.execCallEnd eq call s
  | .tone eq call kind => Sys2Proof.Machine.execTone eq call kind s
  | .display eq call group queued wait available free => Sys2Proof.Machine.execDisplay eq call group queued wait available free s
  | .maintPass eq call tag kind args => Sys2Proof.Machine.execMaintPass eq call tag kind args s
  | .offHook eq call => Sys2Proof.Machine.execOffHook eq call s
  | .onHook eq call => Sys2Proof.Machine.execOnHook eq call s
  | .ringStarted eq call => Sys2Proof.Machine.execRingStarted eq call s
  | .dialled eq call symbols => Sys2Proof.Machine.execDialled eq call symbols s
  | .answered eq call via => Sys2Proof.Machine.execAnswered eq call via s
  | .refused eq call cause => Sys2Proof.Machine.execRefused eq call cause s
  | .engage eq call feature => Sys2Proof.Machine.execEngage eq call feature s
  | .divert eq call dn => Sys2Proof.Machine.execDivert eq call dn s
  | .maintReply eq call tag outcome part count data => Sys2Proof.Machine.execMaintReply eq call tag outcome part count data s
  | .attention eq call flags unmasked => Sys2Proof.Machine.execAttention eq call flags unmasked s
  | .readEntry tag args => Sys2Proof.Machine.execReadEntry tag args s
  | .writeEntry tag args => Sys2Proof.Machine.execWriteEntry tag args s
  | .clearEntry tag args => Sys2Proof.Machine.execClearEntry tag args s
  | .commit tag args => Sys2Proof.Machine.execCommit tag args s
  | .cancelCommit tag args => Sys2Proof.Machine.execCancelCommit tag args s
  | .setModeTransparent tag args => Sys2Proof.Machine.execSetModeTransparent tag args s
  | .setModeEngaged tag args => Sys2Proof.Machine.execSetModeEngaged tag args s
  | .restart tag args => Sys2Proof.Machine.execRestart tag args s
  | .stationAvailability tag args => Sys2Proof.Machine.execStationAvailability tag args s
  | .stationServiceOut tag args => Sys2Proof.Machine.execStationServiceOut tag args s
  | .stationServiceIn tag args => Sys2Proof.Machine.execStationServiceIn tag args s
  | .alarmStart tag args => Sys2Proof.Machine.execAlarmStart tag args s
  | .alarmClear tag args => Sys2Proof.Machine.execAlarmClear tag args s
  | .promptAddress tag args => Sys2Proof.Machine.execPromptAddress tag args s
  | .promptWrite tag args => Sys2Proof.Machine.execPromptWrite tag args s
  | .promptRead tag args => Sys2Proof.Machine.execPromptRead tag args s
  | .readStatus tag args => Sys2Proof.Machine.execReadStatus tag args s
  | .writeResetCause tag args => Sys2Proof.Machine.execWriteResetCause tag args s
  | .readLive tag args => Sys2Proof.Machine.execReadLive tag args s
  | .readCounters tag args => Sys2Proof.Machine.execReadCounters tag args s
  | .clearCounters tag args => Sys2Proof.Machine.execClearCounters tag args s
  | .attentionRead tag args => Sys2Proof.Machine.execAttentionRead tag args s
  | .attentionClear tag args => Sys2Proof.Machine.execAttentionClear tag args s
  | .attentionMaskSet tag args => Sys2Proof.Machine.execAttentionMaskSet tag args s
  | .attentionMaskClear tag args => Sys2Proof.Machine.execAttentionMaskClear tag args s
  | .unknownRequest tag kind args => Sys2Proof.Machine.execUnknownRequest tag kind args s
  | .alarmInActive => Sys2Proof.Machine.execAlarmInActive s
  | .alarmInInactive => Sys2Proof.Machine.execAlarmInInactive s
  | .wrapUpExpiry station => Sys2Proof.Machine.execWrapUpExpiry station s
  | .noAnswerExpiry call => Sys2Proof.Machine.execNoAnswerExpiry call s
  | .maximumWaitExpiry call => Sys2Proof.Machine.execMaximumWaitExpiry call s
  | .announcePointExpiry call => Sys2Proof.Machine.execAnnouncePointExpiry call s
  | .chime orbit => Sys2Proof.Machine.execChime orbit s
  | .sessionDeadline session => Sys2Proof.Machine.execSessionDeadline session s
  | .commitExpiry => Sys2Proof.Machine.execCommitExpiry s
  | .memberAvailable station => Sys2Proof.Machine.execMemberAvailable station s
  | .headCheck group => Sys2Proof.Machine.execHeadCheck group s
  | .frameFormation tap shelf => Sys2Proof.Machine.execFrameFormation tap shelf s
  | .noiseBlockEnd zone sense => Sys2Proof.Machine.execNoiseBlockEnd zone sense s
  | .toneCycleEnd zone => Sys2Proof.Machine.execToneCycleEnd zone s
  | .promptStepEnd zone => Sys2Proof.Machine.execPromptStepEnd zone s
  | .contentCompletion zone => Sys2Proof.Machine.execContentCompletion zone s
  | .loudChange zone => Sys2Proof.Machine.execLoudChange zone s
  | .frameFormed => Sys2Proof.Machine.execFrameFormed s
  | .preannounceEnd session => Sys2Proof.Machine.execPreannounceEnd session s
  | .resetBridgeSlot slot => Sys2Proof.Machine.execResetBridgeSlot slot s
  | .beaconPhaseChange zone => Sys2Proof.Machine.execBeaconPhaseChange zone s

end Sys2Proof.Machine
end

