-- ==== Sys2Proof/Safety.lean ====
section
/-! DEFINITION. What a good state of the part is, in the terms the statements use: block by block (bounded tables and
queues, counters that stop, claim lists in their order, a canonical prompt memory), and what one block says of another
(orbits and their records, the ringing set and the lines, claimed zones and page sessions and their claims); and what
the statements say cells, flags, zones and writes to be. Each predicate cites the rule it is taken from. -/

namespace Sys2Proof.Machine

/-- A counter is 16 bits wide and stops at 65535 (11, R190). -/
def CounterFits (n : Nat) : Prop := n ≤ Config.counterMax

/-! ### Lane Interface -/

/-- The lane counters stop at 65535 (01, R19). -/
structure LaneCounters.Fits (c : LaneCounters) : Prop where
  malformed : CounterFits c.malformed
  down : CounterFits c.discardedDown
  up : CounterFits c.discardedUp
  unexpected : CounterFits c.unexpected

/-- Each outgoing queue holds at most 64 cells (01, R16, R18), the own number is 1008 plus the straps (01, R3), and the
counters stop. -/
structure Lane.Fits (l : Lane) : Prop where
  downQueue : l.downQueue.length ≤ Config.queueCells
  upQueue : l.upQueue.length ≤ Config.queueCells
  own : l.own = ownNumber l.straps
  counters : l.counters.Fits

/-! ### Maintenance Responder -/

/-- The bit that names no flag is 0 in the flags and in the mask (12, R195). -/
structure Maint.Fits (m : Maint) : Prop where
  flags : m.flags.getLsbD 0 = false
  mask : m.mask.getLsbD 0 = false

/-! ### Prompt Store -/

/-- Prompt memory has its one form, and the write address is 0..32768 (09, R165, R166). -/
structure Prompts.Fits (p : Prompts) : Prop where
  memory : memWf p.memory = true
  address : p.address ≤ Config.promptSamples

/-! ### Stations -/

/-- Strikes are 0..7 (02, 2.1, R36). -/
def Station.Fits (st : Station) : Prop := st.strikes ≤ 7

/-! ### Zones -/

/-- A claim's class belongs to its claimant (07, 7.4). -/
def Claim.classFits (c : Claim) : Prop :=
  match c.claimant with
  | .session _ => c.isVoice = true
  | .orbit _ => c.cls = 4
  | .alarm => c.cls = 1
  | .assist => c.cls = 5

/-- A claim list: at most four claims, at most one per claimant, ordered by class, a voice claim only as head (07,
R125). -/
structure ClaimsFit (l : List Claim) : Prop where
  short : l.length ≤ Config.claims
  distinct : (l.map Claim.claimant).Nodup
  ordered : l.Pairwise fun a b => a.cls ≤ b.cls
  voiceFirst : ∀ c ∈ l.tail, c.isVoice = false
  classes : ∀ c ∈ l, c.classFits

/-- A zone's ranged configuration fields lie in their ranges, the loud-off level below the loud-on level or both 0 (07,
7.1, R118). -/
structure ZoneFields.Fits (f : ZoneFields) : Prop where
  pageGain : f.pageGain ≤ 4095
  toneGain : f.toneGain ≤ 4095
  musicBase : f.musicBase ≤ 4095
  musicDuck : f.musicDuck ≤ 4095
  duckStep : 1 ≤ f.duckStep ∧ f.duckStep ≤ 64
  noiseFloor : f.noiseFloor ≤ 32768
  slope : f.slope ≤ 255
  maxBoost : 1024 ≤ f.maxBoost ∧ f.maxBoost ≤ 4095
  loudOn : f.loudOn ≤ 32768
  loudOff : f.loudOff < f.loudOn ∨ f.loudOff = 0 ∧ f.loudOn = 0

/-- A zone's claim list has its form, a completion report stands for an ANNOUNCE head only, and the zone's counters stop
(07, R125, R139; 08, R142, R158). -/
structure Zone.Fits (zn : Zone) : Prop where
  claims : ClaimsFit zn.claims
  completed : zn.completed = true → zn.announcing = true
  preemptions : CounterFits zn.preemptions
  saturations : CounterFits zn.saturations

/-! ### Hunt Controller -/

/-- The seven counters of a group stop at 65535 (04, R89). -/
structure GroupCounters.Fits (c : GroupCounters) : Prop where
  offered : CounterFits c.offered
  answered : CounterFits c.answered
  picked : CounterFits c.picked
  retrieved : CounterFits c.retrieved
  abandoned : CounterFits c.abandoned
  diverted : CounterFits c.diverted
  noAnswers : CounterFits c.noAnswers

/-- At most 64 hunt records, no two of one call (04, R65), none both awaiting an orbit and holding one (06, R106), at most
64 closed calls, each once (04, R66), and the raised events in the ascending order in which they are taken (02, R37; 04,
R83). -/
structure Hunt.Fits (h : Hunt) : Prop where
  records : h.records.length ≤ Config.huntRecords
  calls : (h.records.map HuntRecord.call).Nodup
  awaiting : ∀ r ∈ h.records, r.awaiting = true → r.orbit = none
  closed : h.closed.length ≤ Config.closedCalls
  closedOnce : h.closed.Nodup
  counters : ∀ g, (h.live.get g).counters.Fits
  raised : h.headChecks.Pairwise (· < ·) ∧ h.available.Pairwise (· < ·)

/-! ### Pickup Unit and Paging Controller -/

/-- The pickup counters stop at 65535 (05, R103). -/
structure Pickup.Fits (p : Pickup) : Prop where
  successes : CounterFits p.successes
  denials : CounterFits p.denials

/-- The sessions refused counter stops at 65535 (07, R139). -/
def Paging.Fits (p : Paging) : Prop := CounterFits p.refused

/-! ### The part -/

/-- The Lane Interface, the Maintenance Responder and the Prompt Store are in a good state. -/
structure State.PathFits (s : State) : Prop where
  lane : s.lane.Fits
  maint : s.maint.Fits
  prompts : s.prompts.Fits

/-- The stations, the hunt tables and the counters of the call blocks are in a good state. -/
structure State.CallsFit (s : State) : Prop where
  hunt : s.hunt.Fits
  stations : ∀ n, (s.stations.get n).Fits
  pickup : s.pickup.Fits
  paging : s.paging.Fits

/-- Every zone is in a good state. -/
def State.ZonesFit (s : State) : Prop := ∀ z, (s.zones.get z).Fits

/-- The ringing set has one entry for each station that is RINGING, with the station's current call, and no other (05,
R91). -/
structure State.RingingFits (s : State) : Prop where
  distinct : (s.pickup.ringing.map Ringing.station).Nodup
  entries : ∀ e ∈ s.pickup.ringing, e.station < Config.stations ∧
    (s.stations.get e.station).line = .ringing ∧ (s.stations.get e.station).call = some e.call
  entered : ∀ n, n < Config.stations → (s.stations.get n).line = .ringing → ∃ e ∈ s.pickup.ringing, e.station = n

/-- An occupied orbit names a QUEUED record, by its call and its group, that holds the orbit (04, R65; 06, R105). -/
def State.OrbitsFit (s : State) : Prop :=
  ∀ n o, s.orbits.get n = some o → ∃ r ∈ s.hunt.records, r.call = o.call ∧ r.group = o.group ∧ r.orbit = some n

/-- A claimant has its claim on a zone that is enabled. -/
def State.holds (s : State) (z : Nat) (who : Claimant) : Prop :=
  s.zoneEnabled z = true ∧ holdsClaim (s.zones.get z).claims who = true

/-- The Alarm Latch's claimed list names each zone once, and each of its zones has the alarm's claim (10, R174, R175); each
zone that a page session holds has the session's claim (07, R132, R134). -/
structure State.ClaimsHeld (s : State) : Prop where
  once : s.alarm.claimed.Nodup
  alarm : ∀ z ∈ s.alarm.claimed, s.holds z .alarm
  sessions : ∀ i x z, s.paging.sessions.get i = some x → (z, HoldStatus.held) ∈ x.zones → s.holds z (.session i)

/-- Every block is in a good state, and what one block says of another is so. -/
structure State.Fits (s : State) : Prop where
  path : s.PathFits
  calls : s.CallsFit
  zones : s.ZonesFit
  ringing : s.RingingFits
  orbits : s.OrbitsFit
  claims : s.ClaimsHeld

/-! ### Cells and flags, as statements speak of them -/

/-- The part with cells behind those of a direction's queue. -/
def State.queued (d : Dir) (cs : List LaneCell) (s : State) : State := s.modLane fun l => l.setQueue d (l.queue d ++ cs)

/-- A direction's queue has room for `k` more cells (01, R18). -/
def State.room (s : State) (d : Dir) (k : Nat) : Prop := (s.lane.queue d).length + k ≤ Config.queueCells

/-- The part with a flag set. -/
def State.flagged (f : Flag) (s : State) : State := s.modMaint fun m => { m with flags := m.flags ||| flagMask f }

/-- The ATTENTION cell that a flag raises as it is set: none where it is set already, or masked (11, R193). -/
def State.raised (s : State) (f : Flag) : List LaneCell :=
  if hasFlag s.maint.flags f || hasFlag s.maint.mask f then []
  else [.known ⟨s.lane.own, 0#16, .attention (s.maint.flags ||| flagMask f)
    ((s.maint.flags ||| flagMask f) &&& ~~~ s.maint.mask)⟩]

/-- The part with a cell of a direction discarded at its full queue: counted, and LANE_OVERFLOW set. The ATTENTION cell of
that flag joins the up queue, or is itself discarded and counted where that is full, with no further cell (01, R18). -/
def State.discarded (d : Dir) (s : State) : State :=
  let n := s.countDiscard d
  if hasFlag s.maint.flags .laneOverflow = true then n
  else if hasFlag s.maint.mask .laneOverflow = true then n.flagged .laneOverflow
  else if s.lane.upQueue.length < Config.queueCells then (n.flagged .laneOverflow).queued .up (s.raised .laneOverflow)
  else (n.flagged .laneOverflow).countDiscard .up

/-- The cell of a reply that fits one part (11, R181; 12, R198). -/
def replyCell (own : Equip) (tag : Byte) (o : ReplyOutcome) (data : List Byte) : LaneCell :=
  .known ⟨own, 0#16, .maintReply tag o 1#8 1#8 data⟩

/-- The cells of a reply in its parts, in part order (12, R198). -/
def replyCells (own : Equip) (tag : Byte) (o : ReplyOutcome) (data : List Byte) : List LaneCell :=
  (replyParts data).zipIdx.map fun e =>
    .known ⟨own, 0#16, .maintReply tag o (BitVec.ofNat 8 (e.2 + 1)) (BitVec.ofNat 8 (replyParts data).length) e.1⟩

/-- The Hunt Controller with a member-available event raised for a station, where the condition holds (02, R37). -/
def Hunt.raiseIf (c : Bool) (n : Nat) (h : Hunt) : Hunt :=
  if c then { h with available := insertSorted n h.available } else h

/-! ### Raised events (02, R37; 04, R83) -/

/-- Nothing that finished work has raised waits to be taken. -/
abbrev State.Calm (s : State) : Prop := s.hunt.headChecks = [] ∧ s.hunt.available = []

/-! ### Hunt records that go (04, R81; 06, R110) -/

/-- The part once the record of a queued call has gone: an orbit that it held is released and handed on, the call closed, a
head check raised for a head that left, and the group's counters changed (04, R66, R81, R83; 06, R110). -/
def State.recordGone (r : HuntRecord) (count : GroupCounters → GroupCounters) (s : State) : State :=
  let without : State := { s with hunt := { s.hunt with records := s.hunt.records.filter fun q => q.call ≠ r.call } }
  let freed := match r.orbit with | some o => without.releaseOrbit o true | none => without
  let live := freed.hunt.live.get r.group
  { freed with hunt :=
    { freed.hunt with
      closed := Machine.closeCall r.call freed.hunt.closed
      headChecks :=
        if s.headCall r.group = some r.call then insertSorted r.group freed.hunt.headChecks else freed.hunt.headChecks
      live := freed.hunt.live.put r.group { live with counters := count live.counters } } }

/-! ### Commands by their kind -/

/-- The commands that begin a piece of work of the call and zone blocks, before which every raised event is taken: cells,
requests, changes of ALARM_IN, deadlines and reports (01, R4; 02, R37; 04, R83; notes/assumptions/2.md). The others are the
resets, the slots, the frames with the ends they bring, and the raised events themselves. -/
def startsWork : Instr → Bool
  | .powerOn | .powerOnResetEnd _ | .resetNAssert | .resetNRelease _ | .outgoingSlot _ | .resetBridgeSlot _
  | .frameFormation .. | .noiseBlockEnd .. | .toneCycleEnd _ | .promptStepEnd _ | .memberAvailable _ | .headCheck _ => false
  | _ => true

/-- The request a row of the maintenance family brings: its tag, its kind and its arguments (12, R197). -/
def requestOf : Instr → Option (Byte × Byte × List Byte)
  | .readEntry tag args => some (tag, 1#8, args)
  | .writeEntry tag args => some (tag, 2#8, args)
  | .clearEntry tag args => some (tag, 3#8, args)
  | .commit tag args => some (tag, 4#8, args)
  | .cancelCommit tag args => some (tag, 5#8, args)
  | .setModeTransparent tag args => some (tag, 6#8, args)
  | .setModeEngaged tag args => some (tag, 6#8, args)
  | .restart tag args => some (tag, 7#8, args)
  | .stationAvailability tag args => some (tag, 8#8, args)
  | .stationServiceOut tag args => some (tag, 9#8, args)
  | .stationServiceIn tag args => some (tag, 9#8, args)
  | .alarmStart tag args => some (tag, 10#8, args)
  | .alarmClear tag args => some (tag, 11#8, args)
  | .promptAddress tag args => some (tag, 12#8, args)
  | .promptWrite tag args => some (tag, 13#8, args)
  | .promptRead tag args => some (tag, 14#8, args)
  | .readStatus tag args => some (tag, 15#8, args)
  | .writeResetCause tag args => some (tag, 16#8, args)
  | .readLive tag args => some (tag, 17#8, args)
  | .readCounters tag args => some (tag, 18#8, args)
  | .clearCounters tag args => some (tag, 19#8, args)
  | .attentionRead tag args => some (tag, 20#8, args)
  | .attentionClear tag args => some (tag, 21#8, args)
  | .attentionMaskSet tag args => some (tag, 22#8, args)
  | .attentionMaskClear tag args => some (tag, 23#8, args)
  | .unknownRequest tag kind args => some (tag, kind, args)
  | _ => none

/-- The cell of a known kind that a row brings, with its direction; `own` is the part's own equipment number. -/
def cellOf (own : Equip) : Instr → Option (Dir × Cell)
  | .pilotArrival call called caller cls group => some (.down, ⟨own, call, .offer called caller cls group⟩)
  | .offer eq call called caller cls group => some (.down, ⟨eq, call, .offer called caller cls group⟩)
  | .withdraw eq call cause => some (.down, ⟨eq, call, .withdraw cause⟩)
  | .abandonment call cause => some (.down, ⟨own, call, .withdraw cause⟩)
  | .callEnd eq call => some (.down, ⟨eq, call, .callEnd⟩)
  | .tone eq call kind => some (.down, ⟨eq, call, .tone kind⟩)
  | .display eq call group queued wait available free =>
      some (.down, ⟨eq, call, .display group queued wait available free⟩)
  | .maintPass eq call tag kind args => some (.down, ⟨eq, call, .maint tag kind args⟩)
  | .offHook eq call => some (.up, ⟨eq, call, .offHook⟩)
  | .onHook eq call => some (.up, ⟨eq, call, .onHook⟩)
  | .ringStarted eq call => some (.up, ⟨eq, call, .ringStarted⟩)
  | .dialled eq call symbols => some (.up, ⟨eq, call, .dialled symbols⟩)
  | .answered eq call via => some (.up, ⟨eq, call, .answered via⟩)
  | .refused eq call cause => some (.up, ⟨eq, call, .refused cause⟩)
  | .engage eq call feature => some (.up, ⟨eq, call, .engage feature⟩)
  | .divert eq call dn => some (.up, ⟨eq, call, .divert dn⟩)
  | .maintReply eq call tag outcome part count data => some (.up, ⟨eq, call, .maintReply tag outcome part count data⟩)
  | .attention eq call flags unmasked => some (.up, ⟨eq, call, .attention flags unmasked⟩)
  | i => (requestOf i).map fun r => (.down, ⟨own, 0#16, .maint r.1 r.2.1 r.2.2⟩)

/-- What a cell row brings, as its slot carries it. -/
def carriedBy (own : Equip) : Instr → Option (Dir × WireCell)
  | .damagedCell d cell => some (d, cell.onWire)
  | .malformedCell d bytes | .unknownKindCell d bytes => some (d, ⟨bytes, none⟩)
  | i => (cellOf own i).map fun e => (e.1, ⟨cellBytes e.2, none⟩)

/-- A cell that passes and changes nothing: it names neither the part nor a tracked station, or is of a kind that no
block follows (01, R8 to R14). -/
def untouched (own : Equip) (c : Cell) : Bool :=
  match c.body with
  | .tone _ | .display .. | .engage _ | .divert _ => true
  | .maint .. | .maintReply .. | .attention .. => c.eq ≠ own
  | .offer .. | .withdraw _ => c.eq ≠ own && !tracked c.eq
  | .offHook | .onHook | .ringStarted | .dialled _ | .answered _ | .refused _ => !tracked c.eq
  | .callEnd => false

/-- The events of the part's own, which wait for the end of a reset: outgoing slots, deadlines, raised events, the
player's and the estimator's ends, and reports. -/
def isEvent : Instr → Bool
  | .outgoingSlot _ | .wrapUpExpiry _ | .noAnswerExpiry _ | .maximumWaitExpiry _ | .announcePointExpiry _ | .chime _
  | .sessionDeadline _ | .commitExpiry | .memberAvailable _ | .headCheck _ | .noiseBlockEnd .. | .toneCycleEnd _
  | .promptStepEnd _ | .contentCompletion _ | .loudChange _ | .frameFormed | .preannounceEnd _
  | .beaconPhaseChange _ => true
  | _ => false

/-- What a shelf-bound slot last carried. -/
def slotSample (slot : Nat) (out : List (Nat × Sample)) : Option Sample :=
  (out.find? fun e => e.1 = slot).map Prod.snd

/-- The kind codes known on a direction (01, R6; 12, R195). -/
def knownCodes : Dir → List Nat
  | .down => [1, 2, 3, 4, 5, 6]
  | .up => [17, 18, 19, 20, 21, 22, 23, 24, 25, 26]

/-! ### Zones as claims come and go (07, R125 to R129, R135 to R137; 10, R178) -/

/-- The pattern that a zone with this record shows under a claimed list (07, R137). -/
def shownPattern (claimed : List Nat) (z : Nat) (x : Zone) : Pattern :=
  if x.fields.enabled = false then .off
  else if z ∈ claimed then .alarmFlash
  else if x.audio.loud = true ∧ x.claims ≠ [] then .callFlash else .off

/-- A zone record with its beacon chosen again: a changed pattern begins with its on-phase now (07, R137). -/
def State.shows (s : State) (claimed : List Nat) (z : Nat) (x : Zone) : Zone :=
  if x.beacon.pattern = shownPattern claimed z x then x
  else { x with beacon :=
    { pattern := shownPattern claimed z x
      line := shownPattern claimed z x != .off
      boundary := match shownPattern claimed z x with
        | .off => 0 | .callFlash => s.clock + 200 | .alarmFlash => s.clock + 500 } }

/-- A zone record that has a new head, or none left: the head's content starts from its beginning, no completion report
stands, and the beacon is chosen again (07, R128, R137). -/
def State.headed (s : State) (z : Nat) (x : Zone) : Zone :=
  s.shows s.alarm.claimed z
    { x with completed := false
             player := match x.claims with
               | [] => Player.empty
               | c :: _ => if c.content = [] then Player.empty else ⟨1, c.content, .fresh⟩ }

/-- A zone record whose assist claim has been re-evaluated: the ringing stations with ring assist and this home zone are
counted afresh; an assist claim that is wanted and absent joins as the lowest, and is refused by a list of four; one that
is present and not wanted goes (07, R127, R136). -/
def State.assisted (s : State) (z : Nat) (x : Zone) : Zone :=
  let count := (s.pickup.ringing.filter fun e =>
    (s.stations.get e.station).ringAssist && (s.stations.get e.station).homeZone == some z).length
  let tone : Claim := { claimant := .assist, cls := 5, content := [.tone s.paging.params.assistTone none] }
  let y := { x with assist := count }
  let others := x.claims.filter fun c => c.claimant ≠ .assist
  let wanted := s.maint.mode = .engaged ∧ x.fields.enabled = true ∧ 0 < count ∧ x.audio.loud = true
  if others.length < x.claims.length then
    if wanted then y
    else if others = [] then s.headed z { y with claims := [] } else { y with claims := others }
  else if wanted ∧ x.claims.length < 4 then
    if x.claims = [] then s.headed z { y with claims := [tone] } else { y with claims := x.claims ++ [tone] }
  else y

/-- A zone record with a granted list: a new head starts its content, and counts a preemption where it displaces one
(07, R126, R127, R128). -/
def State.granted (s : State) (z : Nat) (g : Grant) : Zone :=
  let zn := s.zones.get z
  if g.first = true then
    s.headed z
      { zn with claims := g.claims
                preemptions := if zn.claims = [] then zn.preemptions else min (zn.preemptions + 1) 65535 }
  else { zn with claims := g.claims }

/-- The zones that a session leaves behind: each that it holds loses the session's claim, which is its head; the other
claims stay in their order, the next is head, and the assist claim is re-evaluated. Every other zone is as it was (07,
R128, R135, R136). -/
def State.leftBySession (s : State) (i : Nat) (x : Session) (zs : Tab 1 24 Zone) : Prop :=
  ∀ z,
    let zn := s.zones.get z
    ((z, HoldStatus.held) ∉ x.zones → zs.get z = zn) ∧
    ((z, HoldStatus.held) ∈ x.zones → ClaimsFit zn.claims →
      (∀ c rest, zn.claims = c :: rest → c.claimant = .session i →
        zs.get z = s.assisted z (s.headed z { zn with claims := rest })) ∧
      ((∀ c ∈ zn.claims, c.claimant ≠ .session i) → zs.get z = zn))

/-- The part with a session free, its source's source session absent, and these zones (07, R135). -/
def State.freed (s : State) (i : Nat) (x : Session) (zs : Tab 1 24 Zone) : State :=
  { s with
    zones := zs
    stations := s.stations.put x.source { s.stations.get x.source with source := none }
    paging :=
      { s.paging with sessions := s.paging.sessions.put i none
                      frameReport := s.paging.frameReport.map fun l => l.filter (· ≠ i) } }

/-- The zones that the alarm leaves behind at its exit: each of the claimed list loses the alarm's claim, the other claims
stay in their order, a head behind it starts its content, the assist claim is re-evaluated, and the beacon is chosen again
with no claimed list. Every other zone is as it was (07, R128, R136, R137; 10, R178). -/
def State.leftByAlarm (s : State) (zs : Tab 1 24 Zone) : Prop :=
  ∀ z,
    let zn := s.zones.get z
    let left : Zone := { zn with claims := zn.claims.filter fun c => c.claimant ≠ .alarm }
    (z ∉ s.alarm.claimed → zs.get z = zn) ∧
    (z ∈ s.alarm.claimed → ClaimsFit zn.claims → (∃ c ∈ zn.claims, c.claimant = .alarm) →
      zs.get z = s.shows [] z (s.assisted z
        (if (zn.claims.head?.map Claim.claimant) = some .alarm then s.headed z left else left)) ∧
      (∀ c ∈ (zs.get z).claims, c.claimant ≠ .alarm) ∧
      (zs.get z).claims.filter (fun c => c.claimant ≠ .assist) = left.claims.filter fun c => c.claimant ≠ .assist)

/-! ### Selection (04, R70) -/

/-- The first of a list that may be chosen. -/
def firstOf (order : List Nat) (may : Nat → Bool) (n : Nat) : Prop :=
  ∃ pre post, order = pre ++ n :: post ∧ may n = true ∧ ∀ m ∈ pre, may m = false

/-- A discipline's choice among the members that may be chosen (04, R70). -/
def disciplineChooses (s : State) (g : Nat) (may : Nat → Bool) (n : Nat) : Prop :=
  let members := (s.activeGroup g).members
  match (s.activeGroup g).fields.discipline with
  | .linear => firstOf members may n
  | .circular =>
    (∀ p before after, (s.hunt.live.get g).pointer = some p → p ∉ before → members = before ++ p :: after →
      firstOf (after ++ before ++ [p]) may n) ∧
    ((∀ p, (s.hunt.live.get g).pointer = some p → p ∉ members) → firstOf members may n)
  | .longestIdle =>
    ∃ pre post, members = pre ++ n :: post ∧ may n = true ∧
      (∀ m ∈ pre, may m = true → (s.stations.get n).lastIdle < (s.stations.get m).lastIdle) ∧
      ∀ m ∈ post, may m = true → (s.stations.get n).lastIdle ≤ (s.stations.get m).lastIdle

/-! ### Writes of marked fields (11, R183; 12, R197) -/

/-- The field at a position (0 for the first) of an entry under a write with this mark map: the value the write takes for
it where its mark is set, else the old value (11, R183; 12, R197). -/
def stores {α : Type} (marks position : Nat) (takes : FieldValue → α → Prop) (v : FieldValue) (old new : α) : Prop :=
  if marks.testBit (15 - position) then takes v new else new = old

/-- A number that must lie in a range. -/
def takesIn (lo hi : Nat) (v : FieldValue) (x : Nat) : Prop := v = .num x ∧ lo ≤ x ∧ x ≤ hi

/-- A ranged number, stored at the nearest end of its range (00, Clamping and refusal). -/
def takesNear (lo hi : Nat) (v : FieldValue) (x : Nat) : Prop :=
  ∃ n, v = .num n ∧ x = if n < lo then lo else if hi < n then hi else n

/-- An optional number in a range, absent for all ones in its width. -/
def takesOptional (ones lo hi : Nat) (v : FieldValue) (x : Option Nat) : Prop :=
  v = .num ones ∧ x = none ∨ ∃ n, v = .num n ∧ n ≠ ones ∧ lo ≤ n ∧ n ≤ hi ∧ x = some n

/-- An optional DN: absent, or 1..8 digits with the padding half-byte right. -/
def takesDn (v : FieldValue) (x : Option Digits) : Prop :=
  (∃ p, v = .text none p) ∧ x = none ∨
  ∃ d, v = .text (some d) true ∧ 1 ≤ d.length ∧ d.length ≤ 8 ∧ (∀ y ∈ d, y.toNat ≤ 9) ∧ x = some d

/-- An access code: 1..4 symbols 0..9, `*`, `#`, with the padding half-byte right. -/
def takesCode (v : FieldValue) (x : Digits) : Prop :=
  v = .text (some x) true ∧ 1 ≤ x.length ∧ x.length ≤ 4 ∧ ∀ y ∈ x, y.toNat ≤ 11

/-- A value of an enumeration, numbered from 0. -/
def takesOne {α : Type} (values : List α) (v : FieldValue) (x : α) : Prop := ∃ n, v = .num n ∧ values[n]? = some x

/-- A yes/no value. -/
def takesFlag (v : FieldValue) (x : Bool) : Prop := v = .num 0 ∧ x = false ∨ v = .num 1 ∧ x = true

/-! ### The part right after a POWER or PIN reset -/

/-- The part at the end of a reset, ALARM_IN inactive: every block at its reset values, RESET set and alone unmasked, its
ATTENTION cell the first in the up queue, the bridges kept to the end of the slot and frame in progress (11, R186; 01,
R21). -/
def State.afterReset (cause : ResetCause) (straps : BitVec 4) (prompts : Prompts) (s : State) : State :=
  let own : Equip := BitVec.ofNat 10 (1008 + straps.toNat)
  { State.reset with
    lane := { State.reset.lane with straps := straps, own := own, downOut := s.lane.downOut, upOut := s.lane.upOut,
                                    upQueue := [.known ⟨own, 0#16, .attention 0x8000#16 0x8000#16⟩] }
    prompts := prompts
    alarm := { State.reset.alarm with line := s.alarm.line }
    maint := { State.reset.maint with cause := cause }
    highwayOut := s.highwayOut
    pending := s.pending }

end Sys2Proof.Machine
end

