-- ==== Sys2Proof/WellFormed.lean ====
section
/-! DEFINITION. When a command is one that a sender, a line or the part itself can give: a cell of its row's kind that
fits a slot (01, R1, R6, R7), a request of its row's kind (12, R197), numbers in the ranges the manual gives them. A
command that is not well formed still has a meaning. -/

namespace Sys2Proof

open Machine

/-- The longest cell a slot carries (01, R1). -/
def slotBytes : Nat := 64

/-- The argument bytes a MAINT cell has room for: header, tag and kind take 6 (01, R1; 12, R195). -/
def argumentBytes : Nat := 58

/-- Bytes that fit a slot. -/
def fitsSlot (bytes : List Byte) : Bool := bytes.length ≤ slotBytes

/-- A line-code violation stands within its cell (01, R5; notes/assumptions/32.md). -/
def violationFits (w : WireCell) : Bool := match w.violation with | some p => p < 8 * w.bytes.length | none => true

/-- A cell of a known kind that passes the form check and fits a slot (01, R1, R7). -/
def cellFits (c : Cell) : Bool := cellOk c && fitsSlot (cellBytes c)

/-- Arguments that fit a MAINT cell. -/
def argsFit (args : List Byte) : Bool := args.length ≤ argumentBytes

/-- A number in a range. -/
def within (lo hi n : Nat) : Bool := lo ≤ n && n ≤ hi

/-- A frame of the highway: 512 slots (00). -/
def isFrame (frame : List Sample) : Bool := frame.length = 512

/-- Whether a request kind is one the part knows (12, R197). -/
def requestKnown (kind : Byte) : Bool := within 1 23 kind.toNat

/-- Whether a bridged slot carries what a slot can carry (01, R1). -/
def BridgeSlot.fits : BridgeSlot → Bool
  | .lane _ (some w) => fitsSlot w.bytes && violationFits w
  | .lane _ none => true
  | .highway _ _ => true

/-- Whether a command is well formed. A SET_MODE or STATION_SERVICE row stands for every request of its kind but those
that select the other row. -/
def Instr.wf : Instr → Bool
  | .powerOn | .powerOnResetEnd _ | .resetNAssert | .resetNRelease _ | .outgoingSlot _ => true
  | .damagedCell _ cell => fitsSlot cell.bytes && violationFits cell.onWire
  | .malformedCell d bytes => fitsSlot bytes && parseCell d bytes == .malformed
  | .unknownKindCell d bytes => fitsSlot bytes && parseCell d bytes == .unknown
  | .pilotArrival call called caller cls group => cellFits ⟨0#10, call, .offer called caller cls group⟩
  | .offer eq call called caller cls group => cellFits ⟨eq, call, .offer called caller cls group⟩
  | .withdraw eq call cause => cellFits ⟨eq, call, .withdraw cause⟩
  | .abandonment call cause => cellFits ⟨0#10, call, .withdraw cause⟩
  | .callEnd eq call => cellFits ⟨eq, call, .callEnd⟩
  | .tone eq call kind => cellFits ⟨eq, call, .tone kind⟩
  | .display eq call group queued wait available free =>
      cellFits ⟨eq, call, .display group queued wait available free⟩
  | .maintPass eq call tag kind args => cellFits ⟨eq, call, .maint tag kind args⟩
  | .offHook eq call => cellFits ⟨eq, call, .offHook⟩
  | .onHook eq call => cellFits ⟨eq, call, .onHook⟩
  | .ringStarted eq call => cellFits ⟨eq, call, .ringStarted⟩
  | .dialled eq call symbols => cellFits ⟨eq, call, .dialled symbols⟩
  | .answered eq call via => cellFits ⟨eq, call, .answered via⟩
  | .refused eq call cause => cellFits ⟨eq, call, .refused cause⟩
  | .engage eq call feature => cellFits ⟨eq, call, .engage feature⟩
  | .divert eq call dn => cellFits ⟨eq, call, .divert dn⟩
  | .maintReply eq call tag outcome part count data =>
      cellFits ⟨eq, call, .maintReply tag outcome part count data⟩
  | .attention eq call flags unmasked => cellFits ⟨eq, call, .attention flags unmasked⟩
  | .readEntry _ args | .writeEntry _ args | .clearEntry _ args | .commit _ args | .cancelCommit _ args => argsFit args
  | .setModeTransparent _ args => argsFit args && args != [1#8]
  | .setModeEngaged _ args => argsFit args && args != [0#8]
  | .restart _ args | .stationAvailability _ args => argsFit args
  | .stationServiceOut _ args => argsFit args && args.drop 2 != [1#8]
  | .stationServiceIn _ args => argsFit args && args.drop 2 != [0#8]
  | .alarmStart _ args | .alarmClear _ args | .promptAddress _ args | .promptWrite _ args | .promptRead _ args
  | .readStatus _ args | .writeResetCause _ args | .readLive _ args | .readCounters _ args | .clearCounters _ args
  | .attentionRead _ args | .attentionClear _ args | .attentionMaskSet _ args | .attentionMaskClear _ args => argsFit args
  | .unknownRequest _ kind args => argsFit args && !requestKnown kind
  | .alarmInActive | .alarmInInactive | .commitExpiry | .frameFormed => true
  | .wrapUpExpiry station | .memberAvailable station => within 0 383 station
  | .noAnswerExpiry call | .maximumWaitExpiry call | .announcePointExpiry call => call != 0#16
  | .chime orbit => within 1 9 orbit
  | .sessionDeadline session | .preannounceEnd session => within 1 8 session
  | .headCheck group => within 1 32 group
  | .frameFormation tap shelf => isFrame tap && isFrame shelf
  | .noiseBlockEnd zone _ | .toneCycleEnd zone | .promptStepEnd zone | .contentCompletion zone | .loudChange zone
  | .beaconPhaseChange zone => within 1 24 zone
  | .resetBridgeSlot slot => slot.fits

end Sys2Proof
end

