-- ==== Sys2Proof/Certificates/Slice0/Obligations.lean ====
section
/-! DEFINITION. The statements about the part that the provers are given. Each docstring cites the rules it is taken
from; a statement of a command's result says at once that the command completes, and what it leaves unchanged. -/

open Sys2Proof Sys2Proof.Machine

/-! ### The queue of waiting commands -/

/-- The command at the front of the queue is executed with the queue's rest. -/
def Obligations.StepTakesFrontCommand : Prop :=
  ∀ (c : Instr) (rest : List Instr) (s : State), s.pending = c :: rest → step s = exec c { s with pending := rest }

/-- Every command is answered with a next state, and none touches the queue of waiting commands. On an empty queue the
part takes its next internal event, else a millisecond passes: the model's choice (notes/assumptions/1.md), 00,
Millisecond clock. A command that begins a piece of work finds taken all that earlier work raised: it acts as on the
part settled, with nothing raised. Settling takes the head checks in ascending group order, then the member-available
events in ascending station order, the head checks that one raises before the next (01, R4; 02, R37; 04, R83;
notes/assumptions/2.md). -/
def Obligations.EveryStepAnswers : Prop :=
  (∀ (c : Instr) (s : State), ∃ t, exec c s = .next t ∧ t.pending = s.pending) ∧
  (∀ s : State, s.pending = [] →
    (∀ c, s.nextInternal = some c → step s = exec c s) ∧
    (s.nextInternal = none → step s = .next { s with clock := s.clock + 1 })) ∧
  (∀ (c : Instr) (s : State), startsWork c = true → s.lane.phase = .inService → s.hunt.Fits →
    exec c s = exec c s.settle) ∧
  ∀ s : State, s.lane.phase = .inService → s.hunt.Fits →
    s.settle.Calm ∧ (s.Calm → s.settle = s) ∧
    (∀ g rest, s.hunt.headChecks = g :: rest →
      ∃ t, exec (.headCheck g) s = .next t ∧ t.hunt.headChecks = rest ∧ s.settle = t.settle) ∧
    (∀ n rest, s.hunt.headChecks = [] → s.hunt.available = n :: rest →
      ∃ t, exec (.memberAvailable n) s = .next t ∧ t.hunt.available = rest ∧ s.settle = t.settle)

/-! ### Resets (01, R20, R21; 11, R186) -/

/-- Power-on, and RESET_N asserted in service, hold the part: every bridge holds, both queues are emptied uncounted,
the beacon lines are inactive, and every other part of the state is as it was (notes/assumptions/28.md). -/
def Obligations.ResetHoldBegins : Prop :=
  ∀ s : State,
    let held (p : Phase) : State :=
      { s with
        lane := { s.lane with phase := p, bridgeDown := .holding, bridgeUp := .holding, bridgeHighway := .holding,
                              downQueue := [], upQueue := [] }
        zones := s.zones.map fun zn => { zn with beacon := { zn.beacon with line := false } } }
    exec .powerOn s = .next (held .powerReset) ∧
    (s.lane.phase = .inService → exec .resetNAssert s = .next (held .pinReset))

/-- The end of a reset leaves every block at its POWER or PIN values, RESET set and its ATTENTION cell first in the up
queue; ALARM_IN is then read, and an active line enters the alarm, masked (11, R186; 10, R171; 09, R165). -/
def Obligations.ResetEndSetsEveryBlock : Prop :=
  ∀ (straps : BitVec 4) (s : State),
    let alarmed (t : State) : State :=
      if s.alarm.line then
        { t with alarm := { t.alarm with source := some .input }, maint := { t.maint with flags := 0x8080#16 } }
      else t
    (s.lane.phase = .powerReset →
      exec (.powerOnResetEnd straps) s = .next (alarmed (s.afterReset .power straps Prompts.reset))) ∧
    (s.lane.phase = .pinReset →
      exec (.resetNRelease straps) s =
        .next (alarmed (s.afterReset .pin straps
          { memory := s.prompts.memory, address := 0, directory := s.prompts.directory, tones := Tab.all 0 16 none })))

/-- While a reset holds, a cell of any kind is copied to the outgoing lane of its direction and changes nothing else;
no outgoing slot sends from a queue and no event of the part's own is taken (01, R20; notes/assumptions/20.md). -/
def Obligations.ResetBridgesAndWaits : Prop :=
  ∀ (c : Instr) (s : State), s.lane.phase ≠ .inService →
    (∀ d w, carriedBy s.lane.own c = some (d, w) → exec c s = .next { s with lane := s.lane.setOut d (some w) }) ∧
    (isEvent c = true → exec c s = .next s)

/-- A bridged slot is copied to its output while the bridge stands; a bridge that is ending ends with the lane slot in
progress; with no bridge nothing is copied (01, R20, R21). -/
def Obligations.BridgeCopiesSlots : Prop :=
  ∀ s : State,
    (∀ w, exec (.resetBridgeSlot (.lane .down w)) s = .next (match s.lane.bridgeDown with
      | .off => s
      | .holding => { s with lane := { s.lane with downOut := w } }
      | .ending => { s with lane := { s.lane with downOut := w, bridgeDown := .off } })) ∧
    (∀ w, exec (.resetBridgeSlot (.lane .up w)) s = .next (match s.lane.bridgeUp with
      | .off => s
      | .holding => { s with lane := { s.lane with upOut := w } }
      | .ending => { s with lane := { s.lane with upOut := w, bridgeUp := .off } })) ∧
    (∀ slot x, s.lane.bridgeHighway = .off → exec (.resetBridgeSlot (.highway slot x)) s = .next s) ∧
    (∀ (slot : BitVec 9) x, s.lane.bridgeHighway ≠ .off →
      ∃ out, exec (.resetBridgeSlot (.highway slot x)) s = .next { s with highwayOut := out } ∧
        slotSample slot.toNat out = some x ∧
        ∀ k, k ≠ slot.toNat → slotSample k out = slotSample k s.highwayOut)

/-! ### Cells that no block follows, and the queues (01, R5 to R18) -/

/-- An outgoing slot sends the oldest cell of its queue, or is empty, and changes nothing else (01, R17). -/
def Obligations.OutgoingSlotSendsOldest : Prop :=
  ∀ s : State, s.lane.phase = .inService →
    exec (.outgoingSlot .down) s = .next
      { s with lane := { s.lane with downQueue := s.lane.downQueue.tail,
                                     downOut := s.lane.downQueue.head?.map wireCell, bridgeDown := .off } } ∧
    exec (.outgoingSlot .up) s = .next
      { s with lane := { s.lane with upQueue := s.lane.upQueue.tail,
                                     upOut := s.lane.upQueue.head?.map wireCell, bridgeUp := .off } }

/-- A damaged or malformed cell is counted and flagged, and joins its queue with its bytes, a damaged one with its
line-code violation at the same position, behind the ATTENTION cell of its flag; nothing else of the part changes. A
slot sends such a cell as it came (01, R5, R7; notes/assumptions/15.md, 31.md, 32.md). -/
def Obligations.BadCellsForwarded : Prop :=
  (∀ w : WireCell, wireCell (.raw w) = w) ∧
  ∀ (c : Instr) (d : Dir) (bytes : List Byte) (w : WireCell) (s : State),
    (∃ cell, c = .damagedCell d cell ∧ w = cell.onWire) ∨
      c = .malformedCell d bytes ∧ c.wf = true ∧ w = ⟨bytes, none⟩ →
    s.lane.phase = .inService → s.Calm → s.room .down 1 → s.room .up 2 →
    exec c s = .next (((((s.endBridge d).modLaneCounters fun k => { k with malformed := satInc k.malformed }).flagged
      .malformedCell).queued .up (s.raised .malformedCell)).queued d [.raw w])

/-- An undamaged cell whose kind code is none that its direction knows joins that direction's queue unchanged; it is
not counted, sets no flag and reaches no block (01, R6). -/
def Obligations.UnknownKindPasses : Prop :=
  ∀ (d : Dir) (b : Byte) (rest : List Byte) (s : State), b.toNat / 4 ∉ knownCodes d →
    s.lane.phase = .inService → s.Calm → s.room d 1 →
    exec (.unknownKindCell d (b :: rest)) s = .next ((s.endBridge d).queued d [.raw ⟨b :: rest, none⟩])

/-- A cell that names neither the part nor a tracked station, or whose kind no block follows (TONE, DISPLAY, ENGAGE,
DIVERT; MAINT, MAINT_REPLY and ATTENTION of other devices), joins the tail of its direction's queue and changes nothing
else. A MAINT_REPLY or an ATTENTION up with the part's own number passes too, and counts as unexpected (01, R8 to R14,
R16). -/
def Obligations.UntouchedCellsPass : Prop :=
  ∀ (i : Instr) (d : Dir) (c : Cell) (s : State), s.lane.phase = .inService → s.Calm →
    cellOf s.lane.own i = some (d, c) → cellOk c = true → s.room d 1 →
    (untouched s.lane.own c = true → exec i s = .next ((s.endBridge d).queued d [.known c])) ∧
    ((∃ tag o part count data, c = ⟨s.lane.own, c.call, .maintReply tag o part count data⟩) ∨
        (∃ flags unmasked, c = ⟨s.lane.own, c.call, .attention flags unmasked⟩) →
      exec i s = .next (((s.endBridge d).modLaneCounters fun k =>
        { k with unexpected := satInc k.unexpected }).queued d [.known c]))

/-- A cell that finds 64 cells in its direction's queue is discarded and counted, and LANE_OVERFLOW is set; the
ATTENTION cell that raises is itself discarded and counted at a full up queue, with no further cell. It holds of every
cell that joins a queue: cells that no block follows, MAINT_REPLY and ATTENTION with the part's own number, damaged and
malformed cells, cells of tracked stations, replies, and the cells the part inserts. All that the cell changed before
stands: the line state, the ringing set, the hunt record, the counters (01, R5, R7, R14, R15, R18, R19; 02, R26 to
R30). -/
def Obligations.FullQueueDiscards : Prop :=
  (∀ (d : Dir) (c : LaneCell) (s : State),
    (s.room d 1 → s.join d c = s.queued d [c]) ∧ (¬ s.room d 1 → s.join d c = s.discarded d)) ∧
  (∀ (i : Instr) (d : Dir) (c : Cell) (s : State), s.lane.phase = .inService → s.Calm →
    cellOf s.lane.own i = some (d, c) → cellOk c = true → ¬ s.room d 1 →
    (untouched s.lane.own c = true → exec i s = .next ((s.endBridge d).discarded d)) ∧
    ((∃ tag o part count data, c = ⟨s.lane.own, c.call, .maintReply tag o part count data⟩) ∨
        (∃ flags unmasked, c = ⟨s.lane.own, c.call, .attention flags unmasked⟩) →
      exec i s = .next (((s.endBridge d).modLaneCounters fun k =>
        { k with unexpected := satInc k.unexpected }).discarded d))) ∧
  (∀ (c : Instr) (d : Dir) (bytes : List Byte) (s : State),
    (∃ cell, c = .damagedCell d cell) ∨ c = .malformedCell d bytes ∧ c.wf = true →
    s.lane.phase = .inService → s.Calm → ¬ s.room d 1 →
    let t : State := ((s.endBridge d).modLaneCounters fun k => { k with malformed := satInc k.malformed }).flagged
      .malformedCell
    let told : State :=
      if s.raised .malformedCell = [] then t
      else if s.lane.upQueue.length < 64 then t.queued .up (s.raised .malformedCell) else t.discarded .up
    exec c s = .next (told.discarded d)) ∧
  (∀ (eq : Equip) (call : CallRef) (s : State), s.lane.phase = .inService → s.Calm → tracked eq = true →
    call ≠ 0#16 → ¬ s.room .up 1 →
    let n := eq.toNat
    let st := s.stations.get n
    let b := s.endBridge .up
    (st.line = .idle → exec (.offHook eq call) s =
      .next (State.discarded .up { b with stations := s.stations.put n { st with line := .seized } })) ∧
    (st.line = .idle ∨ st.line = .offered ∧ st.call = some call →
      exec (.ringStarted eq call) s = .next
        (({ b with
           stations := s.stations.put n { st with line := .ringing, call := some call }
           pickup := { s.pickup with ringing := s.pickup.ringing ++
             [{ station := n, call := call, start := s.clock, group := (s.record call).map (·.group) }] } } :
          State).reevaluateAll.discarded .up)) ∧
    (st.line = .idle ∨ st.line = .seized → s.record call = none → call ∉ s.hunt.closed → ∀ via,
      exec (.answered eq call via) s = .next (State.discarded .up
        { b with stations := s.stations.put n { st with line := .talking, call := some call, deliveredBy := none } })) ∧
    (st.line = .seized → st.deliveredBy = none → st.available = false → exec (.onHook eq call) s =
      .next (State.discarded .up { b with stations := s.stations.put n { st with line := .idle, call := none } })) ∧
    (st.onOffer call = false → s.record call = none → call ∉ s.hunt.closed → ∀ cause,
      exec (.refused eq call cause) s = .next (b.discarded .up))) ∧
  (∀ (eq : Equip) (call : CallRef) (s : State), s.lane.phase = .inService → s.Calm → tracked eq = true →
    eq ≠ s.lane.own → call ≠ 0#16 → ¬ s.room .down 1 →
    let n := eq.toNat
    let st := s.stations.get n
    let b := s.endBridge .down
    (∀ called caller cls group, (Instr.offer eq call called caller cls group).wf = true → st.line = .idle →
      exec (.offer eq call called caller cls group) s = .next (State.discarded .down
        { b with stations := s.stations.put n { st with line := .offered, call := some call } })) ∧
    (∀ cause, st.onOffer call = true → s.isMember n call = false →
      exec (.withdraw eq call cause) s = .next (State.discarded .down (State.ringingRemove n
        { b with
          stations := s.stations.put n { st with line := .idle, call := none }
          hunt := s.hunt.raiseIf (st.available && st.wrapUp.isNone) n }))) ∧
    ((∀ m, m < 384 → (s.stations.get m).call ≠ some call) → s.record call = none →
      exec (.callEnd eq call) s = .next (b.discarded .down))) ∧
  (∀ (i : Instr) (tag kind : Byte) (args : List Byte) (s : State), requestOf i = some (tag, kind, args) →
    s.lane.phase = .inService → s.Calm → ¬ s.room .up 1 →
    ((s.endBridge .down).request kind.toNat args).outcome ≠ .done →
    exec i s = .next ((s.endBridge .down).discarded .up)) ∧
  ∀ (call : CallRef) (called caller : Digits) (cls : CallerClass) (group : Option Nat) (g n : Nat) (clear : Bool)
      (s : State),
    (Instr.pilotArrival call called caller cls group).wf = true → s.lane.phase = .inService → s.Calm →
    let b : State := { s.endBridge .down with hunt := { s.hunt with closed := s.hunt.closed.filter (· ≠ call) } }
    let f := (s.activeGroup g).fields
    let live := s.hunt.live.get g
    (¬ s.room .up 1 → s.maint.mode = .transparent ∨ s.pilotGroup called = none →
      exec (.pilotArrival call called caller cls group) s = .next (b.discarded .up)) ∧
    (¬ s.room .down 1 → s.maint.mode = .engaged → s.pilotGroup called = some g → s.record call = none →
      s.alarm.source = none ∨ f.alarmDn = none → s.hunt.records.length < 64 → s.queue g = [] →
      s.select g [] = some (n, clear) →
      exec (.pilotArrival call called caller cls group) s = .next (State.discarded .down
        { b with
          stations := s.stations.put n { s.stations.get n with line := .offered, call := some call }
          hunt := { b.hunt with
            records := s.hunt.records ++
              [{ call := call, group := g, arrival := s.clock, called := called, caller := caller, cls := cls, tried := []
                 status := .offered (some n) (s.clock + 1000 * f.noAnswer) none }]
            live := s.hunt.live.put g
              { pointer := some n
                counters := { live.counters with offered := satInc live.counters.offered } } } }))

/-! ### Stations and their cells (02; 04, 4.4, 4.7) -/

/-- OFF_HOOK from a tracked station: an IDLE one is SEIZED; an OFFERED one is SEIZED and loses its offer to GLARE,
which a hunt call's member is re-selected for; from any other line it is unexpected. The cell passes (02, R26, R33; 04,
R77). -/
def Obligations.OffHookSeizes : Prop :=
  ∀ (eq : Equip) (call : CallRef) (s : State), s.lane.phase = .inService → s.Calm → tracked eq = true → s.room .up 1 →
    let n := eq.toNat
    let st := s.stations.get n
    let b := s.endBridge .up
    let cell : LaneCell := .known ⟨eq, call, .offHook⟩
    let glared : State := { b with stations := s.stations.put n { st with line := .seized, call := none } }
    (st.line = .idle →
      exec (.offHook eq call) s =
        .next ({ b with stations := s.stations.put n { st with line := .seized } }.queued .up [cell])) ∧
    (st.line = .offered → (∀ c, st.call = some c → s.isMember n c = false) →
      exec (.offHook eq call) s = .next (glared.queued .up [cell])) ∧
    (∀ c, st.line = .offered → st.call = some c → s.isMember n c = true →
      exec (.offHook eq call) s = .next (((glared.detachTried c n).reselect c).join .up cell)) ∧
    (st.line ≠ .idle → st.line ≠ .offered →
      exec (.offHook eq call) s =
        .next ((b.modLaneCounters fun k => { k with unexpected := satInc k.unexpected }).queued .up [cell]))

/-- RING_STARTED from a tracked station: an IDLE one, or one OFFERED that call, is RINGING with an entry at the tail of
the ringing set; one RINGING with that call stays as it is; else the cell is unexpected. It passes (02, R28; 05, R92;
04, R72). Zones change by the assist claims' re-evaluation alone (07, R136). -/
def Obligations.RingStartedRings : Prop :=
  ∀ (eq : Equip) (call : CallRef) (s : State), s.lane.phase = .inService → s.Calm → tracked eq = true → call ≠ 0#16 →
    s.room .up 1 →
    let n := eq.toNat
    let st := s.stations.get n
    let b := s.endBridge .up
    let cell : LaneCell := .known ⟨eq, call, .ringStarted⟩
    (st.line = .idle ∨ st.line = .offered ∧ st.call = some call →
      exec (.ringStarted eq call) s = .next
        (({ b with
           stations := s.stations.put n { st with line := .ringing, call := some call }
           pickup := { s.pickup with ringing := s.pickup.ringing ++
             [{ station := n, call := call, start := s.clock, group := (s.record call).map (·.group) }] } } :
          State).reevaluateAll.queued .up [cell])) ∧
    (st.line = .ringing → st.call = some call → exec (.ringStarted eq call) s = .next (b.queued .up [cell])) ∧
    (st.line ≠ .idle → ¬(st.line = .offered ∧ st.call = some call) → ¬(st.line = .ringing ∧ st.call = some call) →
      exec (.ringStarted eq call) s =
        .next ((b.modLaneCounters fun k => { k with unexpected := satInc k.unexpected }).queued .up [cell]))

/-- ON_HOOK from a tracked station: unexpected when IDLE or OUT_OF_SERVICE; else the station is IDLE with no call and
no delivered-by group, a hunt call's end starts its wrap-up and sets its last-idle time, and a station that is then a
candidate raises its event; an offer or a ring ends, a ringing one with its ringing-set entry and the re-evaluation of
the assist claims, a hunt call's member being detached, tried and re-selected; a page session's source ends it without
a tone: each zone it holds goes to the next claim of its list, the source session is absent and the session free. The
cell passes (02, R32, R33, R37; 04, R77; 05, R93; 07, R128, R134, R135, R136). -/
def Obligations.OnHookReleases : Prop :=
  ∀ (eq : Equip) (call : CallRef) (s : State), s.lane.phase = .inService → s.Calm → tracked eq = true → s.room .up 1 →
    let n := eq.toNat
    let st := s.stations.get n
    let b := s.endBridge .up
    let cell : LaneCell := .known ⟨eq, call, .onHook⟩
    let ends : Bool := st.line = .talking || st.deliveredBy.isSome
    let wrap := match st.deliveredBy with
      | some g =>
        if 0 < (s.activeGroup g).fields.wrapUp then some (s.clock + 1000 * (s.activeGroup g).fields.wrapUp) else st.wrapUp
      | none => st.wrapUp
    let idle : Station := { st with line := .idle, call := none, deliveredBy := none }
    let ended : State :=
      { b with
        stations := s.stations.put n { idle with wrapUp := wrap, lastIdle := if ends then s.clock else st.lastIdle }
        hunt := s.hunt.raiseIf (st.available && wrap.isNone) n }
    (st.line = .idle ∨ st.line = .outOfService →
      exec (.onHook eq call) s =
        .next ((b.modLaneCounters fun k => { k with unexpected := satInc k.unexpected }).queued .up [cell])) ∧
    (st.line = .seized ∨ st.line = .talking ∨ st.line = .feature ∧ st.source = none →
      exec (.onHook eq call) s = .next (ended.queued .up [cell])) ∧
    (∀ i x, st.line = .feature → st.source = some i → s.paging.sessions.get i = some x → x.source = n →
      ∃ zs, ended.leftBySession i x zs ∧ exec (.onHook eq call) s = .next ((ended.freed i x zs).queued .up [cell])) ∧
    (st.line = .offered ∨ st.line = .ringing →
      let gone : State :=
        { b with stations := s.stations.put n idle, hunt := s.hunt.raiseIf (st.available && st.wrapUp.isNone) n }
      let left : State := if st.line = LineState.ringing then gone.ringingRemove n else gone
      ((∀ c, st.call = some c → s.isMember n c = false) → exec (.onHook eq call) s = .next (left.queued .up [cell])) ∧
      ∀ c, st.call = some c → s.isMember n c = true →
        exec (.onHook eq call) s = .next (((left.detachTried c n).reselect c).join .up cell))

/-- OFFER to a tracked station: an IDLE one is OFFERED the call, any other stays as it was. WITHDRAW to one: OFFERED or
RINGING with that call it is IDLE, its ringing-set entry goes with the re-evaluation of the assist claims, and a
station that is then a candidate raises its event; else nothing changes. A hunt call's member loses its offer as if it
refused. The cells pass (01, R8, R9; 02, R27, R30; 04, R74; 05, R93). -/
def Obligations.OfferAndWithdrawTracked : Prop :=
  ∀ (eq : Equip) (call : CallRef) (s : State), s.lane.phase = .inService → s.Calm → tracked eq = true → eq ≠ s.lane.own →
    s.room .down 1 →
    let n := eq.toNat
    let st := s.stations.get n
    let b := s.endBridge .down
    (∀ called caller cls group, (Instr.offer eq call called caller cls group).wf = true →
      exec (.offer eq call called caller cls group) s = .next
        ((if st.line = .idle then
            { b with stations := s.stations.put n { st with line := .offered, call := some call } }
          else b).queued .down [.known ⟨eq, call, .offer called caller cls group⟩])) ∧
    (∀ cause, call ≠ 0#16 →
      let cell : LaneCell := .known ⟨eq, call, .withdraw cause⟩
      let ended : State := State.ringingRemove n
        { b with
          stations := s.stations.put n { st with line := .idle, call := none }
          hunt := s.hunt.raiseIf (st.available && st.wrapUp.isNone) n }
      (s.isMember n call = false →
        (st.onOffer call = false → exec (.withdraw eq call cause) s = .next (b.queued .down [cell])) ∧
        (st.onOffer call = true → exec (.withdraw eq call cause) s = .next (ended.queued .down [cell]))) ∧
      (s.isMember n call = true →
        let left : State := if st.onOffer call then ended else b
        exec (.withdraw eq call cause) s = .next (((left.detachTried call n).reselect call).join .down cell)))

/-- CALL_END, at the stations on the call in ascending order: each is IDLE from OFFERED or RINGING, with its
ringing-set entry gone and the assist claims re-evaluated, and SEIZED from TALKING, keeping its delivered-by group; no
other station changes. A hunt record of the call is then abandoned: it is removed, counted and closed, and an orbit that
it held is released and handed on. The cell passes (01, R9; 02, R31; 04, R66, R81, R82; 05, R93; 06, R110). -/
def Obligations.CallEndReleases : Prop :=
  ∀ (eq : Equip) (call : CallRef) (s : State), s.lane.phase = .inService → s.Calm → call ≠ 0#16 →
    let release (u : State) (n : Nat) : State :=
      let st := u.stations.get n
      match st.line with
      | .offered | .ringing => State.ringingRemove n
          { u with stations := u.stations.put n { st with line := .idle, call := none }
                   hunt := u.hunt.raiseIf (st.available && st.wrapUp.isNone) n }
      | .talking => { u with stations := u.stations.put n { st with line := .seized, call := none } }
      | _ => u
    ∃ sts rs zs av,
      let t : State :=
        { s.endBridge .down with
          stations := sts, zones := zs, pickup := { s.pickup with ringing := rs }, hunt := { s.hunt with available := av } }
      t = ((List.range 384).filter fun n => (s.stations.get n).call = some call).foldl release (s.endBridge .down) ∧
      exec (.callEnd eq call) s = .next ((t.abandon call).join .down (.known ⟨eq, call, .callEnd⟩)) ∧
      (∀ n, n < 384 → sts.get n =
        let st := s.stations.get n
        if st.call = some call then
          (match st.line with
            | .offered | .ringing => { st with line := .idle, call := none }
            | .talking => { st with line := .seized, call := none }
            | _ => st)
        else st) ∧
      rs = s.pickup.ringing.filter (fun e => !(e.station < 384 && (s.stations.get e.station).onOffer call)) ∧
      (s.record call = none → t.abandon call = t) ∧
      (∀ r, s.record call = some r → r.orbit = none →
        t.abandon call =
          { t with hunt :=
            { t.hunt with
              records := s.hunt.records.filter fun q => q.call ≠ call
              closed := closeCall call s.hunt.closed
              headChecks :=
                if s.headCall r.group = some call then insertSorted r.group s.hunt.headChecks else s.hunt.headChecks
              live := s.hunt.live.put r.group
                { s.hunt.live.get r.group with
                  counters := { (s.hunt.live.get r.group).counters with
                    abandoned := satInc (s.hunt.live.get r.group).counters.abandoned } } } }) ∧
      (∀ r o, s.record call = some r → r.orbit = some o →
        t.abandon call = t.recordGone r fun k => { k with abandoned := satInc k.abandoned })

/-- ANSWERED for a call with a hunt record passes and delivers the call: the record is removed, closed and counted as
answered, and the station is TALKING on the call with the record's group as delivered-by group and no strikes. It is
the member's answer, in order; or a late answer that wins, for a queued call, whose orbit, where it held one, is
released and handed on, or for one offered to another member, which gets WITHDRAW(TAKEN) and is IDLE with no strike. A
station that leaves RINGING leaves the ringing set, and the assist claims are re-evaluated. A winning answer from a
station with another call offered or ringing supersedes that offer, which a hunt call's member is re-selected for; one
from a page source ends its session with no tone; a station OUT_OF_SERVICE keeps its line and its delivered-by group,
and loses its strikes (02, R29, R33; 04, R66, R73, R77, R81, R83, R85; 05, R93; 06, R110; 07, R134, R135). -/
def Obligations.AnswerDelivers : Prop :=
  ∀ (eq : Equip) (call : CallRef) (via : Via) (r : HuntRecord) (s : State), s.lane.phase = .inService → s.Calm →
    tracked eq = true → call ≠ 0#16 → s.room .up 1 → s.room .down 1 → s.hunt.Fits → s.record call = some r →
    let n := eq.toNat
    let st := s.stations.get n
    let b := s.endBridge .up
    let cell : LaneCell := .known ⟨eq, call, .answered via⟩
    let talking : Station :=
      { st with line := .talking, call := some call, deliveredBy := some r.group, strikes := 0 }
    let live := s.hunt.live.get r.group
    let hunt : Hunt :=
      { s.hunt with
        records := s.hunt.records.filter fun q => q.call ≠ call
        closed := closeCall call s.hunt.closed
        live := s.hunt.live.put r.group
          { live with counters := { live.counters with answered := satInc live.counters.answered } } }
    (r.member = some n → st.onOffer call = true →
      let taken : State := { b with stations := s.stations.put n talking, hunt := hunt }
      exec (.answered eq call via) s =
        .next ((if st.line = LineState.ringing then taken.ringingRemove n else taken).queued .up [cell])) ∧
    (st.line = .idle ∨ st.line = .seized →
      (r.isQueued = true → r.orbit = none →
        exec (.answered eq call via) s = .next
          (({ b with
              stations := s.stations.put n talking
              hunt :=
                { hunt with
                  headChecks :=
                    if s.headCall r.group = some call then insertSorted r.group s.hunt.headChecks
                    else s.hunt.headChecks } } : State).queued .up [cell])) ∧
      (∀ m, r.member = some m → m ≠ n → m < 384 → (s.stations.get m).onOffer call = true →
        exec (.answered eq call via) s = .next
          (((State.ringingRemove m
             { b with
               stations := (s.stations.put m { s.stations.get m with line := .idle, call := none }).put n talking
               hunt := hunt.raiseIf ((s.stations.get m).available && (s.stations.get m).wrapUp.isNone) m }).queued .down
            [.known ⟨BitVec.ofNat 10 m, call, .withdraw .taken⟩]).queued .up [cell]))) ∧
    ∀ u : State,
      r.isQueued = true ∧ u = b.recordGone r (fun k => { k with answered := satInc k.answered }) ∨
        (∃ m, r.member = some m ∧ m ≠ n ∧ m < 384 ∧ (s.stations.get m).onOffer call = true ∧
          u = (State.ringingRemove m
            { b with
              stations := s.stations.put m { s.stations.get m with line := .idle, call := none }
              hunt := hunt.raiseIf ((s.stations.get m).available && (s.stations.get m).wrapUp.isNone) m }).queued .down
            [.known ⟨BitVec.ofNat 10 m, call, .withdraw .taken⟩]) →
      let spoken : State :=
        { u with stations :=
            u.stations.put n { u.stations.get n with line := .talking, call := some call, deliveredBy := none } }
      let credited (v : State) (g : Option Nat) : Host.Outcome State Fault Refusal :=
        .next (State.join .up cell
          { v with stations := v.stations.put n { v.stations.get n with strikes := 0, deliveredBy := g } })
      (st.line = .idle ∨ st.line = .seized ∨ st.line = .talking ∨
          st.line = .feature ∧ (u.stations.get n).source = none →
        exec (.answered eq call via) s = credited spoken (some r.group)) ∧
      (st.line = .outOfService → exec (.answered eq call via) s = credited u st.deliveredBy) ∧
      (∀ k, st.line = .offered ∨ st.line = .ringing → st.call = some k → k ≠ call →
        let left : State := if st.line = LineState.ringing then spoken.ringingRemove n else spoken
        (s.isMember n k = false → exec (.answered eq call via) s = credited left (some r.group)) ∧
        (s.isMember n k = true →
          exec (.answered eq call via) s = credited ((left.detachTried k n).reselect k) (some r.group))) ∧
      ∀ i x, st.line = .feature → (u.stations.get n).source = some i → u.paging.sessions.get i = some x → x.source = n →
        ∃ zs, spoken.leftBySession i x zs ∧
          exec (.answered eq call via) s = credited (spoken.freed i x zs) (some r.group)

/-- ANSWERED for a call with no hunt record: out of order and for a closed call it is consumed, with WITHDRAW(TAKEN)
down and OFF_HOOK with call reference 0 up for the station, which makes it SEIZED from IDLE, and from OFFERED by glare,
and leaves another line as it is; else it passes and the station is TALKING on the call with no delivered-by group,
OUT_OF_SERVICE apart; one that was RINGING leaves the ringing set and the assist claims are re-evaluated. An answer
from a station with another call offered or ringing supersedes that offer, and one from an OFFERED station by glare ends
it: a hunt call's member is detached, tried and re-selected. One from a page source ends its session with no tone: each
zone it holds goes to the next claim of its list, the source session is absent and the session free. That a station
TALKING already loses its delivered-by group too is the model's choice (notes/assumptions/36.md) (02, R26, R29, R33;
04, R77, R86; 05, R93; 07, R128, R134, R135, R136). -/
def Obligations.AnswerWithoutRecord : Prop :=
  ∀ (eq : Equip) (call : CallRef) (via : Via) (s : State), s.lane.phase = .inService → s.Calm →
    tracked eq = true → call ≠ 0#16 → s.room .up 1 → s.room .down 1 → s.record call = none →
    let n := eq.toNat
    let st := s.stations.get n
    let b := s.endBridge .up
    let passes (t : State) : Prop :=
      exec (.answered eq call via) s = .next (t.queued .up [.known ⟨eq, call, .answered via⟩])
    let talking : Station := { st with line := .talking, call := some call, deliveredBy := none }
    (st.onOffer call = false → call ∈ s.hunt.closed → st.line ≠ .offered →
      exec (.answered eq call via) s = .next
        (((if st.line = .idle then { b with stations := s.stations.put n { st with line := .seized } } else b).queued
          .down [.known ⟨eq, call, .withdraw .taken⟩]).queued .up [.known ⟨eq, 0#16, .offHook⟩])) ∧
    (∀ k, st.line = .offered → st.call = some k → k ≠ call → call ∈ s.hunt.closed →
      let glared : State :=
        State.queued .down [.known ⟨eq, call, .withdraw .taken⟩]
          { b with stations := s.stations.put n { st with line := .seized, call := none } }
      let lost : State := if s.isMember n k = true then (glared.detachTried k n).reselect k else glared
      exec (.answered eq call via) s = .next (lost.join .up (.known ⟨eq, 0#16, .offHook⟩))) ∧
    (st.onOffer call = true →
      let taken : State := { b with stations := s.stations.put n talking }
      passes (if st.line = LineState.ringing then taken.ringingRemove n else taken)) ∧
    (call ∉ s.hunt.closed →
      (st.line = .idle ∨ st.line = .seized ∨ st.line = .talking →
        passes { b with stations := s.stations.put n talking }) ∧
      (st.line = .outOfService → passes b) ∧
      (∀ k, st.line = .offered ∨ st.line = .ringing → st.call = some k → k ≠ call →
        let spoken : State := { b with stations := s.stations.put n talking }
        let left : State := if st.line = LineState.ringing then spoken.ringingRemove n else spoken
        (s.isMember n k = false → passes left) ∧
        (s.isMember n k = true → exec (.answered eq call via) s =
          .next (((left.detachTried k n).reselect k).join .up (.known ⟨eq, call, .answered via⟩)))) ∧
      (st.line = .feature → st.source = none → passes { b with stations := s.stations.put n talking }) ∧
      (∀ i x, st.line = .feature → st.source = some i → s.paging.sessions.get i = some x → x.source = n →
        let spoken : State := { b with stations := s.stations.put n talking }
        ∃ zs, spoken.leftBySession i x zs ∧ passes (spoken.freed i x zs)) ∧
      exec (.answered eq call via) s = .next ((b.applyAnswered n call).join .up (.known ⟨eq, call, .answered via⟩)))

/-- REFUSED from a tracked station. One that names neither a hunt record nor a closed call passes, and an offer of the
call at the station ends. One whose call has a record of another station, or is closed, is consumed and ends only such
an offer. An offer's end takes the ringing-set entry with it and re-evaluates the assist claims. A member's refusal is
consumed: the member is IDLE, detached and tried without a strike, and the call re-selected (01, R13; 02, R30; 04, R74,
R87; 05, R93). -/
def Obligations.RefusedDecided : Prop :=
  ∀ (eq : Equip) (call : CallRef) (cause : RefusedCause) (s : State), s.lane.phase = .inService → s.Calm →
    tracked eq = true → call ≠ 0#16 → s.room .up 1 →
    let n := eq.toNat
    let st := s.stations.get n
    let b := s.endBridge .up
    let cell : LaneCell := .known ⟨eq, call, .refused cause⟩
    let ended : State := State.ringingRemove n
      { b with
        stations := s.stations.put n { st with line := .idle, call := none }
        hunt := s.hunt.raiseIf (st.available && st.wrapUp.isNone) n }
    (s.record call = none → call ∉ s.hunt.closed →
      (st.onOffer call = false → exec (.refused eq call cause) s = .next (b.queued .up [cell])) ∧
      (st.onOffer call = true → exec (.refused eq call cause) s = .next (ended.queued .up [cell]))) ∧
    (s.isMember n call = false → s.record call ≠ none ∨ call ∈ s.hunt.closed →
      (st.onOffer call = false → exec (.refused eq call cause) s = .next b) ∧
      (st.onOffer call = true → exec (.refused eq call cause) s = .next ended)) ∧
    (s.isMember n call = true →
      let left : State := if st.onOffer call then ended else b
      exec (.refused eq call cause) s = .next ((left.detachTried call n).reselect call))

/-- DIALLED passes unread in TRANSPARENT mode, from a line that is not SEIZED, and where no loaded code begins the
string; where one does, the longest that does is matched, and the symbols behind it are the argument (01, R12; 02,
R41). -/
def Obligations.LongestCodeMatches : Prop :=
  (∀ (s : State) (ds : Digits) (e : AccessCode) (arg : Digits), s.matchCode ds = some (e, arg) →
    ds = e.code ++ arg ∧ (∃ i, i < 16 ∧ s.codes.get i = some e) ∧
    ∀ i f, i < 16 → s.codes.get i = some f → f.code <+: ds → f.code.length ≤ e.code.length) ∧
  (∀ (s : State) (ds : Digits) (i : Nat) (f : AccessCode), i < 16 → s.codes.get i = some f → f.code <+: ds →
    ∃ e, s.matchCode ds = some (e, ds.drop e.code.length)) ∧
  (∀ (eq : Equip) (call : CallRef) (ds : Digits) (s : State), (Instr.dialled eq call ds).wf = true →
    s.lane.phase = .inService → s.Calm → tracked eq = true → s.room .up 1 →
    s.maint.mode = .transparent ∨ (s.stations.get eq.toNat).line ≠ .seized ∨
      (∀ i e, i < 16 → s.codes.get i = some e → ¬ e.code <+: ds) →
    exec (.dialled eq call ds) s = .next ((s.endBridge .up).queued .up [.known ⟨eq, call, .dialled ds⟩]))

/-- A matched DIALLED is consumed. LOGON and LOGOFF change the availability and answer ENGAGE up and TONE(CONFIRM)
down; an argument of the wrong form is answered ENGAGE(DENIED) and TONE(DENIED). The station is FEATURE in every case
(02, R35, R42, R43, R44). -/
def Obligations.LogonLogoffDenied : Prop :=
  ∀ (eq : Equip) (call : CallRef) (ds : Digits) (e : AccessCode) (arg : Digits) (s : State),
    (Instr.dialled eq call ds).wf = true → s.lane.phase = .inService → s.Calm → tracked eq = true → s.room .up 1 →
    s.room .down 1 → s.maint.mode = .engaged → (s.stations.get eq.toNat).line = .seized →
    s.matchCode ds = some (e, arg) →
    let st := s.stations.get eq.toNat
    let answered (x : Station) (f : EngageFeature) (k : ToneKind) : State :=
      (({ s.endBridge .up with stations := s.stations.put eq.toNat { x with line := .feature } } : State).queued .up
        [.known ⟨eq, 0#16, .engage f⟩]).queued .down [.known ⟨eq, 0#16, .tone (BitVec.ofNat 8 (toneKindCode k))⟩]
    (argumentOk e.feature arg = false → exec (.dialled eq call ds) s = .next (answered st .denied .denied)) ∧
    (e.feature = .logon → arg = [] →
      exec (.dialled eq call ds) s = .next (answered { st with available := true, strikes := 0 } .logon .confirm)) ∧
    (e.feature = .logoff → arg = [] →
      exec (.dialled eq call ds) s = .next (answered { st with available := false } .logoff .confirm))

/-- GROUP_STATUS of a group in use: ENGAGE(STATUS) up, then DISPLAY and TONE(CONFIRM) down. DISPLAY carries the group,
its queued records, the longest wait in seconds, its members that are hunt candidates and its free queue places; a
group not in use is answered ENGAGE(DENIED) and TONE(DENIED) (02, R43, R45). -/
def Obligations.GroupStatusShown : Prop :=
  ∀ (eq : Equip) (call : CallRef) (ds : Digits) (e : AccessCode) (arg : Digits) (s : State),
    (Instr.dialled eq call ds).wf = true → s.lane.phase = .inService → s.Calm → tracked eq = true → s.room .up 1 →
    s.room .down 2 → s.maint.mode = .engaged → (s.stations.get eq.toNat).line = .seized →
    s.matchCode ds = some (e, arg) → e.feature = .groupStatus → argumentOk .groupStatus arg = true →
    let g := digitsNat arg
    let t : State := { s.endBridge .up with
      stations := s.stations.put eq.toNat { s.stations.get eq.toNat with line := .feature } }
    let tone (k : Nat) : LaneCell := .known ⟨eq, 0#16, .tone (BitVec.ofNat 8 k)⟩
    let wait := match (s.queue g).head? with | some r => (s.clock - r.arrival) / 1000 | none => 0
    ((s.activeGroup g).fields.pilot = none →
      exec (.dialled eq call ds) s =
        .next ((t.queued .up [.known ⟨eq, 0#16, .engage .denied⟩]).queued .down [tone 2])) ∧
    ((s.activeGroup g).fields.pilot ≠ none →
      exec (.dialled eq call ds) s =
        .next ((t.queued .up [.known ⟨eq, 0#16, .engage .status⟩]).queued .down
          [.known ⟨eq, 0#16, .display (BitVec.ofNat 8 g) (BitVec.ofNat 8 (s.queue g).length) (BitVec.ofNat 16 wait)
            (BitVec.ofNat 8 ((s.activeGroup g).members.filter s.candidate).length)
            (BitVec.ofNat 8 ((s.activeGroup g).fields.capacity - (s.queue g).length))⟩, tone 1]))

/-- GROUP_PICKUP takes the oldest entry of the ringing set whose station, another than the picker, is in the picker's
own pickup group, else in its partner groups in list order; DIRECTED_PICKUP the entry of the lowest-numbered station
with the DN dialled, where it rings in the picker's group or a partner of it. With none the request is denied:
TONE(DENIED) down, ENGAGE(DENIED) up, the denials counter, and the picker FEATURE. Else it succeeds: WITHDRAW(TAKEN)
down to the target, which is IDLE and out of the ringing set, ANSWERED up for the picker, which is TALKING on the call,
the call closed, and the successes counter. A hunt call's record is removed and counted as picked, and a picker that is
an active member of its group has the group as delivered-by group; else the picker has none. A record offered to another
member than the target has that member IDLE first, with WITHDRAW(TAKEN) down to it; a queued one that held an orbit has
the orbit released and handed on (04, R66, R81; 05, R95 to R99, R103; 06, R110). -/
def Obligations.GroupPickupDecided : Prop :=
  (∀ (s : State) (p g : Nat),
    let rings (h : Nat) (e : Ringing) : Prop := e.station ≠ p ∧ (s.stations.get e.station).pickupGroup = some h
    (∀ x, s.groupTarget p g = some x → ∃ before h after older newer,
      g :: s.pickup.partners.get g = before ++ h :: after ∧ s.pickup.ringing = older ++ x :: newer ∧ rings h x ∧
      (∀ e ∈ older, ¬ rings h e) ∧ ∀ k ∈ before, ∀ e ∈ s.pickup.ringing, ¬ rings k e) ∧
    (s.groupTarget p g = none → ∀ k ∈ g :: s.pickup.partners.get g, ∀ e ∈ s.pickup.ringing, ¬ rings k e)) ∧
  (∀ (s : State) (g : Nat) (dn : Digits) (x : Ringing), s.directedTarget g dn = some x ↔
    ∃ n older newer, n < 384 ∧ (s.stations.get n).dn = some dn ∧ (∀ m, m < n → (s.stations.get m).dn ≠ some dn) ∧
      (s.stations.get n).line = .ringing ∧
      (∃ h, (s.stations.get n).pickupGroup = some h ∧ (h = g ∨ h ∈ s.pickup.partners.get g)) ∧
      s.pickup.ringing = older ++ x :: newer ∧ x.station = n ∧ ∀ e ∈ older, e.station ≠ n) ∧
  ∀ (eq : Equip) (call : CallRef) (ds : Digits) (e : AccessCode) (arg : Digits) (via : Via) (s : State),
    (Instr.dialled eq call ds).wf = true → s.lane.phase = .inService → s.Calm → tracked eq = true → s.room .up 1 →
    s.room .down 1 → s.maint.mode = .engaged → (s.stations.get eq.toNat).line = .seized →
    s.matchCode ds = some (e, arg) → argumentOk e.feature arg = true →
    e.feature = .groupPickup ∧ via = .pickup ∨ e.feature = .directedPickup ∧ via = .directed →
    let p := eq.toNat
    let st := s.stations.get p
    let b := s.endBridge .up
    let target := match st.pickupGroup with
      | some g => if via = .pickup then s.groupTarget p g else s.directedTarget g arg
      | none => none
    (target = none →
      exec (.dialled eq call ds) s = .next
        ((({ b with
             stations := s.stations.put p { st with line := .feature }
             pickup := { s.pickup with denials := satInc s.pickup.denials } } : State).queued .up
          [.known ⟨eq, 0#16, .engage .denied⟩]).queued .down [.known ⟨eq, 0#16, .tone 2#8⟩])) ∧
    (∀ x, target = some x → x.station < 384 → x.station ≠ p →
      (s.stations.get x.station).line = .ringing → (s.stations.get x.station).call = some x.call →
      let sr := s.stations.get x.station
      let taken (delivered : Option Nat) (h : Hunt) : State :=
        ((State.ringingRemove x.station
          { b with
             stations := (s.stations.put x.station { sr with line := .idle, call := none }).put p
               { st with line := .talking, call := some x.call, deliveredBy := delivered }
             pickup := { s.pickup with successes := satInc s.pickup.successes }
             hunt := { (h.raiseIf (sr.available && sr.wrapUp.isNone) x.station) with
                       closed := closeCall x.call s.hunt.closed } }).queued .up
          [.known ⟨eq, x.call, .answered via⟩]).queued .down
          [.known ⟨BitVec.ofNat 10 x.station, x.call, .withdraw .taken⟩]
      (s.record x.call = none → exec (.dialled eq call ds) s = .next (taken none s.hunt)) ∧
      ∀ r, s.record x.call = some r → r.member = some x.station ∨ r.isQueued = true ∧ r.orbit = none → s.hunt.Fits →
        let live := s.hunt.live.get r.group
        exec (.dialled eq call ds) s = .next (taken (if p ∈ (s.activeGroup r.group).members then some r.group else none)
          { s.hunt with
            records := s.hunt.records.filter fun q => q.call ≠ x.call
            headChecks :=
              if s.headCall r.group = some x.call then insertSorted r.group s.hunt.headChecks else s.hunt.headChecks
            live := s.hunt.live.put r.group
              { live with counters := { live.counters with picked := satInc live.counters.picked } } })) ∧
    ∀ x r u, target = some x → x.station < 384 → x.station ≠ p →
      (s.stations.get x.station).line = .ringing → (s.stations.get x.station).call = some x.call →
      s.record x.call = some r →
      r.isQueued = true ∧ u = b.recordGone r (fun k => { k with picked := satInc k.picked }) ∨
        (∃ m, r.member = some m ∧ m ≠ x.station ∧ m < 384 ∧ (s.stations.get m).onOffer x.call = true ∧
          let sm := s.stations.get m
          u = ((State.ringingRemove m
            { b with
              stations := s.stations.put m { sm with line := .idle, call := none }
              hunt := s.hunt.raiseIf (sm.available && sm.wrapUp.isNone) m }).join .down
            (.known ⟨BitVec.ofNat 10 m, x.call, .withdraw .taken⟩)).recordGone r
              fun k => { k with picked := satInc k.picked }) →
      let sr := u.stations.get x.station
      let delivered := if p ∈ (s.activeGroup r.group).members then some r.group else none
      exec (.dialled eq call ds) s = .next (State.join .up (.known ⟨eq, x.call, .answered via⟩)
        (State.join .down (.known ⟨BitVec.ofNat 10 x.station, x.call, .withdraw .taken⟩)
          (State.ringingRemove x.station
            { u with
              stations := (u.stations.put x.station { sr with line := .idle, call := none }).put p
                { u.stations.get p with line := .talking, call := some x.call, deliveredBy := delivered }
              pickup := { u.pickup with successes := satInc u.pickup.successes }
              hunt := { u.hunt.raiseIf (sr.available && sr.wrapUp.isNone) x.station with
                        closed := closeCall x.call u.hunt.closed } })))

/-- The checks 1 to 5 of a PAGE, in their order: the authority below the class, no talk slot, a set not loaded, a set
that resolves to no enabled zone, and no free session, which alone gives NO_RESOURCE. A PAGE that fails one is refused:
ENGAGE(DENIED) up, TONE(DENIED) or TONE(NO_RESOURCE) down, the sessions refused counter, SESSION_REFUSED for
NO_RESOURCE, and the station FEATURE. A page that passes them asks for a voice claim of the lowest free session on each
enabled zone of the set, in the order of the resolution. Where every zone's head is of the page's class or outranks it,
none is granted: the page is refused with NO_RESOURCE and every claim list stays as it was, as does the rest of the part.
Else the zones granted, in that order, are the session's, each HELD: ENGAGE(PAGE) up, the station FEATURE with its
source session, TONE(CONFIRM) down. The session is PREANNOUNCE, with the length of the entry as its frames, where a
pre-announce prompt with samples is named, and its claims then play that prompt; else it is LIVE at once. The zones
granted are those with no claim, or with a head of a higher class number, which the page displaces: each has the page as
its head. A session that heads one of them has that zone LOST, and with no zone held any more it is free. No other zone
and no other session changes. A page on one zone with no claim changes nothing else at all (07, R126, R128, R131, R132,
R133, R134). -/
def Obligations.PageDecided : Prop :=
  (∀ (s : State) (n set : Nat) (cls : PageClass),
    let st := s.stations.get n
    let mayPage : Prop := match cls, st.authority with
      | _, .none => False
      | .normal, _ => True
      | .urgent, a => a = .urgent ∨ a = .emergency
      | .emergency, a => a = .emergency
    let listed : List Nat := if set = 0 then List.range' 1 24 else (s.paging.zoneSets.get set).getD []
    let refusedBy (k : Option ToneKind) : Prop := s.pageRefusal n set cls = k
    (¬ mayPage → refusedBy (some .denied)) ∧
    (mayPage → st.talkSlot = none → refusedBy (some .denied)) ∧
    (mayPage → st.talkSlot ≠ none → 63 < set ∨ set ≠ 0 ∧ s.paging.zoneSets.get set = none → refusedBy (some .denied)) ∧
    (mayPage → st.talkSlot ≠ none → set = 0 ∨ set ≤ 63 ∧ s.paging.zoneSets.get set ≠ none →
      ((∀ z ∈ listed, (s.zones.get z).fields.enabled = false) → refusedBy (some .denied)) ∧
      ((∃ z ∈ listed, (s.zones.get z).fields.enabled = true) →
        ((∀ i, 1 ≤ i → i ≤ 8 → s.paging.sessions.get i ≠ none) → refusedBy (some .noResource)) ∧
        ((∃ i, 1 ≤ i ∧ i ≤ 8 ∧ s.paging.sessions.get i = none) → refusedBy none)))) ∧
  ∀ (eq : Equip) (call : CallRef) (ds : Digits) (e : AccessCode) (arg : Digits) (s : State),
    (Instr.dialled eq call ds).wf = true → s.lane.phase = .inService → s.Calm → tracked eq = true → s.room .up 2 →
    s.room .down 1 → s.maint.mode = .engaged → (s.stations.get eq.toNat).line = .seized →
    s.matchCode ds = some (e, arg) → e.feature = .page → argumentOk .page arg = true →
    let n := eq.toNat
    let st := s.stations.get n
    let b := s.endBridge .up
    let set := digitsNat arg
    let tone (k : ToneKind) : LaneCell := .known ⟨eq, 0#16, .tone (BitVec.ofNat 8 (toneKindCode k))⟩
    (∀ k, s.pageRefusal n set e.cls = some k →
      let t : State := { b with stations := s.stations.put n { st with line := .feature }
                                paging := { s.paging with refused := satInc s.paging.refused } }
      let t1 := (t.queued .up [.known ⟨eq, 0#16, .engage .denied⟩]).queued .down [tone k]
      exec (.dialled eq call ds) s = .next
        (if k = .noResource then (t1.flagged .sessionRefused).queued .up (s.raised .sessionRefused) else t1)) ∧
    (∀ i z slot, s.pageRefusal n set e.cls = none → s.freeSessionNumber = some i → s.resolveSet set = [z] →
      (s.zones.get z).claims = [] → s.preannounce = none → st.talkSlot = some slot →
      ∃ zs, exec (.dialled eq call ds) s = .next
        ((({ b with
             stations := s.stations.put n { st with line := .feature, source := some i }
             paging := { s.paging with sessions := s.paging.sessions.put i (some
               { source := n, cls := e.cls, talkSlot := slot, zones := [(z, .held)], phase := .live, frames := 0,
                 start := s.clock, deadline := s.clock + 1000 * s.paging.params.maxVoice }) }
             zones := zs } : State).queued .up [.known ⟨eq, 0#16, .engage .page⟩]).queued .down [tone .confirm]) ∧
        (zs.get z).claims = [{ claimant := .session i, cls := pageClaimClass e.cls, content := [] }] ∧
        ∀ y, y ≠ z → zs.get y = s.zones.get y) ∧
    ∀ i slot, s.pageRefusal n set e.cls = none → 1 ≤ i → i ≤ 8 → s.paging.sessions.get i = none →
      (∀ j, 1 ≤ j → j < i → s.paging.sessions.get j ≠ none) → st.talkSlot = some slot →
      let zones := (if set = 0 then List.range' 1 24 else (s.paging.zoneSets.get set).getD []).filter fun z =>
        (s.zones.get z).fields.enabled
      let prompt := s.paging.params.preannounce.bind fun p =>
        (s.prompts.directory.get p).bind fun x => if x.length = 0 then none else some (p, x.length)
      let rank : Nat := match e.cls with | .emergency => 0 | .urgent => 2 | .normal => 3
      let claim : Claim :=
        { claimant := .session i, cls := rank, content := match prompt with | some (p, _) => [.prompt p] | none => [] }
      let ask (a : State × List Nat) (z : Nat) : State × List Nat :=
        let r := a.1.requestClaim z claim
        (r.1, if r.2 = true then a.2 ++ [z] else a.2)
      let asked := zones.foldl ask (b, [])
      let u := asked.1
      let yields (z : Nat) : Prop := ∀ c rest, (s.zones.get z).claims = c :: rest → rank < c.cls
      ((∀ z ∈ zones, ¬ yields z) →
        exec (.dialled eq call ds) s = .next
          ((((({ b with stations := s.stations.put n { st with line := .feature }
                        paging := { s.paging with refused := satInc s.paging.refused } } : State).queued .up
            [.known ⟨eq, 0#16, .engage .denied⟩]).queued .down [tone .noResource]).flagged .sessionRefused).queued .up
              (s.raised .sessionRefused))) ∧
      (asked.2 ≠ [] →
        exec (.dialled eq call ds) s = .next (State.join .down (tone .confirm)
          (State.join .up (.known ⟨eq, 0#16, .engage .page⟩)
            { u with
              stations := u.stations.put n { u.stations.get n with line := .feature, source := some i }
              paging := { u.paging with sessions := u.paging.sessions.put i (some
                { source := n, cls := e.cls, talkSlot := slot, zones := asked.2.map fun z => (z, .held)
                  phase := if prompt.isSome then .preannounce else .live
                  frames := match prompt with | some (_, l) => l | none => 0
                  start := s.clock, deadline := s.clock + 1000 * s.paging.params.maxVoice }) } }))) ∧
      (zones.Nodup →
        (∀ z ∈ zones, ClaimsFit (s.zones.get z).claims ∧ ∀ c ∈ (s.zones.get z).claims, c.claimant ≠ .session i) →
        (∀ z, z ∈ asked.2 ↔ z ∈ zones ∧ yields z) ∧ asked.2.Sublist zones ∧
        (∀ z, z ∉ asked.2 → u.zones.get z = s.zones.get z) ∧
        (∀ z g, z ∈ asked.2 → placeVoice claim (s.zones.get z).claims = some g →
          u.zones.get z =
            if g.lost = none ∧ g.evicted = none then s.granted z g else s.assisted z (s.granted z g)) ∧
        (∀ z ∈ asked.2, (u.zones.get z).claims.head? = some claim) ∧
        (∀ j x, s.paging.sessions.get j = some x →
          let loses (z : Nat) : Bool := z ∈ asked.2 && (s.zones.get z).claims.head?.map Claim.claimant == some (.session j)
          let left := x.zones.map fun a => if loses a.1 then (a.1, HoldStatus.lost) else a
          u.paging.sessions.get j =
            if ∃ z ∈ asked.2, loses z = true then
              (if (left.any fun a => a.2 = HoldStatus.held) = true then some { x with zones := left } else none)
            else some x) ∧
        (∀ j, s.paging.sessions.get j = none → u.paging.sessions.get j = none) ∧
        u.hunt = s.hunt ∧ u.orbits = s.orbits ∧ u.pickup = s.pickup ∧ u.alarm = s.alarm ∧ u.prompts = s.prompts ∧
        u.codes = s.codes ∧ u.paging.zoneSets = s.paging.zoneSets ∧ u.paging.params = s.paging.params ∧
        ∀ m, u.stations.get m = { s.stations.get m with source := (u.stations.get m).source })

/-! ### Pilot calls: arrival, selection, expiries (04) -/

/-- A pilot arrival that is not taken: refused in TRANSPARENT mode and for a DN that is no pilot, ignored and counted
for a call with a record, diverted to the alarm DN while the alarm is ACTIVE, sent away with HUNT_TABLE_FULL at a full
table, in this order. Its call leaves the closed-call list (04, R66, R67, R69; 10, R180; notes/assumptions/15.md). -/
def Obligations.PilotArrivalSentAway : Prop :=
  ∀ (call : CallRef) (called caller : Digits) (cls : CallerClass) (group : Option Nat) (s : State),
    (Instr.pilotArrival call called caller cls group).wf = true → s.lane.phase = .inService → s.Calm → s.room .up 1 →
    let i : Instr := .pilotArrival call called caller cls group
    let b : State := { s.endBridge .down with hunt := { s.hunt with closed := s.hunt.closed.filter (· ≠ call) } }
    let up (x : Body) : LaneCell := .known ⟨s.lane.own, call, x⟩
    (s.maint.mode = .transparent ∨ s.pilotGroup called = none →
      exec i s = .next (b.queued .up [up (.refused .unavailable)])) ∧
    (∀ g, s.maint.mode = .engaged → s.pilotGroup called = some g →
      let f := (s.activeGroup g).fields
      let live := s.hunt.live.get g
      let diverted : State := { b with hunt := { b.hunt with
        live := s.hunt.live.put g
          { live with counters := { live.counters with diverted := satInc live.counters.diverted } } } }
      (s.record call ≠ none →
        exec i s = .next (b.modLaneCounters fun k => { k with unexpected := satInc k.unexpected })) ∧
      (s.record call = none →
        (∀ dn, s.alarm.source ≠ none → f.alarmDn = some dn → exec i s = .next (diverted.queued .up [up (.divert dn)])) ∧
        (s.alarm.source = none ∨ f.alarmDn = none → 64 ≤ s.hunt.records.length →
          exec i s = .next (((diverted.queued .up
            [up (match f.overflowDn with | some dn => .divert dn | none => .refused .busy)]).setFlag
              .queueOverflow).setFlag .huntTableFull))))

/-- A pilot arrival that is taken: offered at once where its group's queue is empty and selection finds a member; else
queued with RING_STARTED up, at the queue's end where no record there arrived later; else sent away where the queue is
at its capacity (02, R27; 04, R68, R69, R71, R79). -/
def Obligations.PilotArrivalTaken : Prop :=
  ∀ (call : CallRef) (called caller : Digits) (cls : CallerClass) (group : Option Nat) (g : Nat) (s : State),
    (Instr.pilotArrival call called caller cls group).wf = true → s.lane.phase = .inService → s.Calm → s.room .up 1 →
    s.room .down 1 → s.maint.mode = .engaged → s.pilotGroup called = some g → s.record call = none →
    s.alarm.source = none ∨ (s.activeGroup g).fields.alarmDn = none → s.hunt.records.length < 64 →
    let i : Instr := .pilotArrival call called caller cls group
    let f := (s.activeGroup g).fields
    let live := s.hunt.live.get g
    let b : State := { s.endBridge .down with hunt := { s.hunt with closed := s.hunt.closed.filter (· ≠ call) } }
    let record (x : HuntStatus) : HuntRecord :=
      { call := call, group := g, arrival := s.clock, called := called, caller := caller, cls := cls, tried := [],
        status := x }
    let up (x : Body) : LaneCell := .known ⟨s.lane.own, call, x⟩
    (∀ n clear, s.queue g = [] → s.select g [] = some (n, clear) →
      exec i s = .next
        (({ b with
            stations := s.stations.put n { s.stations.get n with line := .offered, call := some call }
            hunt := { b.hunt with
              records := s.hunt.records ++ [record (.offered (some n) (s.clock + 1000 * f.noAnswer) none)]
              live := s.hunt.live.put g
                { pointer := some n
                  counters := { live.counters with offered := satInc live.counters.offered } } } } : State).queued .down
          [.known ⟨BitVec.ofNat 10 n, call, .offer called caller cls (some g)⟩])) ∧
    (s.queue g ≠ [] ∨ s.select g [] = none → (s.queue g).length < f.capacity →
      (∀ q ∈ s.queue g, q.arrival ≤ s.clock) →
      ∃ t : State, exec i s = .next (t.queued .up [up .ringStarted]) ∧
        t.queue g = s.queue g ++ [record (.queued (s.clock + 1000 * f.maxWait)
          (if f.threshold = 0 then none else some (s.clock + 1000 * f.threshold)) none false)] ∧
        (∀ h, h ≠ g → t.queue h = s.queue h) ∧
        t = { b with hunt := { b.hunt with
          records := t.hunt.records
          headChecks := if s.queue g = [] then insertSorted g s.hunt.headChecks else s.hunt.headChecks } }) ∧
    (s.queue g ≠ [] ∨ s.select g [] = none → f.capacity ≤ (s.queue g).length →
      exec i s = .next
        ((({ b with hunt := { b.hunt with
            live := s.hunt.live.put g
              { live with counters := { live.counters with diverted := satInc live.counters.diverted } } } } : State).queued
          .up [up (match f.overflowDn with | some dn => .divert dn | none => .refused .busy)]).setFlag .queueOverflow))

/-- Selection takes the discipline's choice among the active members that are hunt candidates and not tried; where
every candidate is tried the pass is complete and the choice is made over them all; with no candidate it finds none. A
record whose offer has ended is re-selected: an orphaned one takes its retired action; one of a group not in use is
sent away (notes/assumptions/26.md, the model's choice); else the call is offered to the member selection finds; with
none it re-enters its queue before the first later arrival, with its deadlines formed anew and RING_STARTED up, and
then in order the last record of an overfull queue overflows, a wait deadline now past takes the maximum-wait action,
and a past announce point asks for an orbit (02, R37; 03, R59; 04, R69, R70, R78, R79, R81). -/
def Obligations.SelectionRules : Prop :=
  (∀ (s : State) (g : Nat) (tried : List Nat),
    let members := (s.activeGroup g).members
    let untried (n : Nat) : Bool := s.candidate n && !tried.contains n
    ((∃ n ∈ members, untried n = true) →
      ∃ n, s.select g tried = some (n, false) ∧ disciplineChooses s g untried n) ∧
    ((∀ n ∈ members, untried n = false) → (∃ n ∈ members, s.candidate n = true) →
      ∃ n, s.select g tried = some (n, true) ∧ disciplineChooses s g s.candidate n) ∧
    ((∀ n ∈ members, s.candidate n = false) → s.select g tried = none)) ∧
  ∀ (call : CallRef) (r : HuntRecord) (m : Option Nat) (d : Nat) (a : Option RetiredAction) (s : State),
    s.record call = some r → r.status = .offered m d a → s.hunt.Fits → s.room .up 1 →
    let g := r.group
    let f := (s.activeGroup g).fields
    let live := s.hunt.live.get g
    let others := s.hunt.records.filter fun q => q.call ≠ call
    let sent (body : Body) : State :=
      (({ s with hunt :=
          { s.hunt with
            records := others
            closed := closeCall call s.hunt.closed
            live := s.hunt.live.put g
              { live with counters := { live.counters with diverted := satInc live.counters.diverted } } } } :
        State).queued .up [.known ⟨s.lane.own, call, body⟩]).setFlag .queueOverflow
    (∀ dn, a = some (.divert dn) → s.reselect call = sent (.divert dn)) ∧
    (a = some .refusedBusy → s.reselect call = sent (.refused .busy)) ∧
    (a = none → f.pilot = none →
      s.reselect call = sent (match f.overflowDn with | some dn => .divert dn | none => .refused .busy)) ∧
    (a = none → f.pilot ≠ none → ∀ n clear, s.select g r.tried = some (n, clear) →
      s.reselect call = s.offerTo call n clear) ∧
    (a = none → f.pilot ≠ none → s.select g r.tried = none →
      let wait := r.arrival + 1000 * f.maxWait
      let point := r.arrival + 1000 * f.threshold
      let q : HuntRecord :=
        { r with status := .queued wait (if f.threshold = 0 then none else some point) none false }
      ∃ ahead behind records, s.queue g = ahead ++ behind ∧ (∀ x ∈ ahead, x.arrival ≤ r.arrival) ∧
        (∀ x, behind.head? = some x → r.arrival < x.arrival) ∧
        let t : State :=
          { s with hunt :=
            { s.hunt with
              records := records
              headChecks := if ahead = [] then insertSorted g s.hunt.headChecks else s.hunt.headChecks } }
        t.queue g = ahead ++ q :: behind ∧ records.Perm (q :: others) ∧ (∀ h, h ≠ g → t.queue h = s.queue h) ∧
        let t0 := t.queued .up [.known ⟨s.lane.own, call, .ringStarted⟩]
        let t1 := if f.capacity < (s.queue g).length + 1 then
            t0.overflow (match behind.getLast? with | some x => x.call | none => call) g else t0
        let t2 := if (t1.record call).isSome ∧ wait ≤ s.clock then (t1.overflow call g).setFlag .queueTimeout else t1
        s.reselect call =
          if (t2.record call).isSome ∧ f.threshold ≠ 0 ∧ point ≤ s.clock then t2.requestOrbit call else t2)

/-- A WITHDRAW to the part's own number is consumed: with no record of its call it is unexpected; else the call is
abandoned, and a member gets WITHDRAW(CANCELLED) and is IDLE, out of the ringing set with the assist claims
re-evaluated; an orbit that a queued call held is released and handed on. That an orphaned record's member gets it too
is the model's reading of 03, R59 beside 04, R82 (notes/assumptions/38.md) (01, R9; 02, R30, R37; 04, R81, R82; 05,
R93; 06, R110). -/
def Obligations.AbandonmentCancels : Prop :=
  ∀ (call : CallRef) (cause : WithdrawCause) (s : State), s.lane.phase = .inService → s.Calm → call ≠ 0#16 → s.room .down 1 →
    let b := s.endBridge .down
    (s.record call = none →
      exec (.abandonment call cause) s =
        .next (b.modLaneCounters fun k => { k with unexpected := satInc k.unexpected })) ∧
    (∀ r, s.record call = some r →
      let live := s.hunt.live.get r.group
      let hunt : Hunt :=
        { s.hunt with
          records := s.hunt.records.filter fun q => q.call ≠ call
          closed := closeCall call s.hunt.closed
          headChecks :=
            if s.headCall r.group = some call then insertSorted r.group s.hunt.headChecks else s.hunt.headChecks
          live := s.hunt.live.put r.group
            { live with counters := { live.counters with abandoned := satInc live.counters.abandoned } } }
      (r.member = none → exec (.abandonment call cause) s = .next (b.abandon call)) ∧
      (r.member = none → r.orbit = none → b.abandon call = { b with hunt := hunt }) ∧
      (∀ o, r.orbit = some o →
        b.abandon call = b.recordGone r fun k => { k with abandoned := satInc k.abandoned }) ∧
      (∀ m, r.member = some m → m < 384 → (s.stations.get m).onOffer call = true →
        let st := s.stations.get m
        exec (.abandonment call cause) s = .next
          ((State.ringingRemove m
            { b with
              stations := s.stations.put m { st with line := .idle, call := none }
              hunt := hunt.raiseIf (st.available && st.wrapUp.isNone) m }).queued .down
            [.known ⟨BitVec.ofNat 10 m, call, .withdraw .cancelled⟩])))

/-- An offer deadline that has come: the member is detached and tried, takes a strike up to 7 and is logged off at its
group's strikes threshold with AUTO_LOGOFF, is IDLE with WITHDRAW(NO_ANSWER) down to it and out of the ringing set,
with the assist claims re-evaluated, and the no-answers counter adds one; then the call is re-selected. A deadline that
has not come does nothing (04, R74, R75, R76; 02, R30, R37; notes/assumptions/3.md). -/
def Obligations.NoAnswerEndsOffer : Prop :=
  ∀ (call : CallRef) (s : State), s.lane.phase = .inService → s.Calm →
    (∀ r m d a, s.record call = some r → r.status = .offered (some m) d a → d ≤ s.clock → m < 384 →
      (s.stations.get m).onOffer call = true → s.room .up 1 → s.room .down 1 →
      let st := s.stations.get m
      let strikes := min (st.strikes + 1) 7
      let threshold := (s.activeGroup r.group).fields.strikesThreshold
      let off : Bool := 0 < threshold && threshold ≤ strikes
      let live := s.hunt.live.get r.group
      let t : State := State.ringingRemove m
        { s with
          stations := s.stations.put m
            { st with line := .idle, call := none, strikes := if off then 0 else strikes
                      available := if off then false else st.available }
          hunt := (Hunt.raiseIf (!off && st.available && st.wrapUp.isNone) m
            { s.hunt with
              records := s.hunt.records.map fun q =>
                if q.call = call then
                  let q1 := q.detached
                  if s.activeMember q.group m && !q.tried.contains m then { q1 with tried := q.tried ++ [m] } else q1
                else q
              live := s.hunt.live.put r.group
                { live with counters := { live.counters with noAnswers := satInc live.counters.noAnswers } } }) }
      let t1 := if off then (t.flagged .autoLogoff).queued .up (s.raised .autoLogoff) else t
      exec (.noAnswerExpiry call) s = .next
        ((t1.queued .down [.known ⟨BitVec.ofNat 10 m, call, .withdraw .noAnswer⟩]).reselect call)) ∧
    ((∀ r m d a, s.record call = some r → r.status = .offered (some m) d a → s.clock < d) →
      exec (.noAnswerExpiry call) s = .next s)

/-- A wait deadline that has come: the record takes the overflow action, and QUEUE_TIMEOUT is set as well as
QUEUE_OVERFLOW. The action sends DIVERT to the overflow DN or REFUSED(BUSY) up, removes and closes the call, raises a
head check for a head that left, and counts the call as diverted; an orbit that the record held is released and handed
on once the record has gone (04, R66, R69, R80, R81, R83; 06, R110; notes/assumptions/3.md, 15.md). -/
def Obligations.MaximumWaitOverflows : Prop :=
  ∀ (call : CallRef) (s : State), s.lane.phase = .inService → s.Calm →
    (∀ r w p o a, s.record call = some r → r.status = .queued w p o a → w ≤ s.clock →
      exec (.maximumWaitExpiry call) s = .next ((s.overflow call r.group).setFlag .queueTimeout) ∧
      (o = none → s.room .up 1 →
        let live := s.hunt.live.get r.group
        s.overflow call r.group =
          (({ s with hunt :=
              { s.hunt with
                records := s.hunt.records.filter fun q => q.call ≠ call
                closed := closeCall call s.hunt.closed
                headChecks :=
                  if s.headCall r.group = some call then insertSorted r.group s.hunt.headChecks else s.hunt.headChecks
                live := s.hunt.live.put r.group
                  { live with counters := { live.counters with diverted := satInc live.counters.diverted } } } } :
            State).queued .up [.known ⟨s.lane.own, call, match (s.activeGroup r.group).fields.overflowDn with
              | some dn => .divert dn
              | none => .refused .busy⟩]).setFlag .queueOverflow) ∧
      (∀ n, o = some n → s.room .up 1 →
        let sent := s.queued .up [.known ⟨s.lane.own, call, match (s.activeGroup r.group).fields.overflowDn with
          | some dn => .divert dn
          | none => .refused .busy⟩]
        let freed := State.releaseOrbit n true
          { sent with hunt := { s.hunt with records := s.hunt.records.filter fun q => q.call ≠ call } }
        let live := freed.hunt.live.get r.group
        s.overflow call r.group =
          ({ freed with hunt :=
              { freed.hunt with
                closed := closeCall call freed.hunt.closed
                headChecks :=
                  if s.headCall r.group = some call then insertSorted r.group freed.hunt.headChecks
                  else freed.hunt.headChecks
                live := freed.hunt.live.put r.group
                  { live with counters := { live.counters with diverted := satInc live.counters.diverted } } } } :
            State).setFlag .queueOverflow)) ∧
    ((∀ r w p o a, s.record call = some r → r.status = .queued w p o a → s.clock < w) →
      exec (.maximumWaitExpiry call) s = .next s)

/-- An announce point that has come asks for an orbit: the lowest free one takes the call and chimes at once; with none
free the record is marked awaiting-orbit and ORBIT_FULL is set. A chime asks for an ANNOUNCE claim on each zone of the
announce set in turn, in ENGAGED mode, and the next chime follows after the announce repeat. A released orbit withdraws
its claims from every zone and is free, then passes to the first record awaiting one, by arrival, group number and
place in the queue, and chimes for it. ORBIT_RETRIEVE of a free orbit, or by a station that a members-only group does
not list, is denied: TONE(DENIED) down, ENGAGE(DENIED) up, the station FEATURE. Else the record is removed, its orbit
released, its call closed and counted as retrieved, and the retriever is TALKING with ANSWERED(ORBIT) up, the group
delivered-by where it is an active member (04, R66, R79, R81, R83; 06, R106, R107, R108, R110, R112, R113, R114;
notes/assumptions/3.md). -/
def Obligations.OrbitsAnnounce : Prop :=
  ∀ s : State, s.lane.phase = .inService → s.Calm →
    let chimed (n : Nat) (o : Orbit) (t : State) : State :=
      let f := (s.activeGroup o.group).fields
      let beep : List Step := [.tone s.paging.params.beepTone (some n)]
      let content := match f.announcePrompt with | some p => Step.prompt p :: beep | none => beep
      ((if s.maint.mode = .engaged then s.resolveSet f.announceSet else []).foldl
        (fun u z => (u.requestClaim z { claimant := .orbit n, cls := 4, content := content }).1) t).setOrbit n
          (some { o with nextChime := s.clock + 1000 * f.announceRepeat })
    (∀ n o, s.orbits.get n = some o → o.nextChime ≤ s.clock → exec (.chime n) s = .next (chimed n o s)) ∧
    (∀ call r w p, s.record call = some r → r.status = .queued w (some p) none false → p ≤ s.clock →
      (∀ n, 1 ≤ n → n ≤ 9 → s.orbits.get n = none → (∀ m, 1 ≤ m → m < n → s.orbits.get m ≠ none) →
        let o : Orbit := { call := call, group := r.group, assigned := s.clock, nextChime := s.clock }
        exec (.announcePointExpiry call) s = .next (chimed n o
          { s with
            orbits := s.orbits.put n (some o)
            hunt := { s.hunt with records := s.hunt.records.map fun q =>
              if q.call = call then q.withOrbit n else q } })) ∧
      ((∀ n, 1 ≤ n → n ≤ 9 → s.orbits.get n ≠ none) →
        exec (.announcePointExpiry call) s = .next
          (({ s with hunt := { s.hunt with records := s.hunt.records.map fun q =>
              if q.call = call then q.markAwaiting else q } } : State).setFlag .orbitFull))) ∧
    (∀ n, 1 ≤ n → n ≤ 9 →
      let freed := ((List.range' 1 24).foldl (fun t z => t.withdrawClaim z (.orbit n)) s).setOrbit n none
      let before (q r : HuntRecord) : Prop := q.arrival < r.arrival ∨ q.arrival = r.arrival ∧ q.group < r.group
      ((∀ r ∈ s.hunt.records, r.awaiting = false) → s.releaseOrbit n true = freed) ∧
      ∀ ahead r behind, s.hunt.records = ahead ++ r :: behind → r.awaiting = true →
        (∀ q ∈ ahead, q.awaiting = true → before r q) → (∀ q ∈ behind, q.awaiting = true → ¬ before q r) →
        let o : Orbit := { call := r.call, group := r.group, assigned := s.clock, nextChime := s.clock }
        s.releaseOrbit n true = chimed n o
          { freed with
            orbits := freed.orbits.put n (some o)
            hunt := { s.hunt with records := s.hunt.records.map fun q =>
              if q.call = r.call then q.withOrbit n else q } }) ∧
    ∀ (eq : Equip) (call : CallRef) (ds : Digits) (e : AccessCode) (arg : Digits),
      (Instr.dialled eq call ds).wf = true → tracked eq = true → s.maint.mode = .engaged →
      (s.stations.get eq.toNat).line = .seized → s.matchCode ds = some (e, arg) → e.feature = .orbitRetrieve →
      argumentOk .orbitRetrieve arg = true →
      let p := eq.toNat
      let n := digitsNat arg
      let b := s.endBridge .up
      let member (g : Nat) : Prop := p ∈ (s.activeGroup g).members
      (s.room .up 1 → s.room .down 1 →
        s.orbits.get n = none ∨ (∃ o, s.orbits.get n = some o ∧
          (s.activeGroup o.group).fields.membersOnly = true ∧ ¬ member o.group) →
        exec (.dialled eq call ds) s = .next
          ((({ b with stations := s.stations.put p { s.stations.get p with line := .feature } } : State).queued .up
            [.known ⟨eq, 0#16, .engage .denied⟩]).queued .down [.known ⟨eq, 0#16, .tone 2#8⟩])) ∧
      ∀ o r w x a, s.orbits.get n = some o → (s.activeGroup o.group).fields.membersOnly = false ∨ member o.group →
        s.record o.call = some r → r.group = o.group → r.status = .queued w x (some n) a →
        let freed := State.releaseOrbit n true
          { b with hunt := { s.hunt with records := s.hunt.records.filter fun q => q.call ≠ o.call } }
        let live := freed.hunt.live.get o.group
        exec (.dialled eq call ds) s = .next (State.join .up (.known ⟨eq, o.call, .answered .orbit⟩)
          { freed with
            stations := freed.stations.put p
              { freed.stations.get p with
                line := .talking, call := some o.call, deliveredBy := if member o.group then some o.group else none }
            hunt := { freed.hunt with
              closed := closeCall o.call freed.hunt.closed
              headChecks :=
                if s.headCall o.group = some o.call then insertSorted o.group freed.hunt.headChecks
                else freed.hunt.headChecks
              live := freed.hunt.live.put o.group
                { live with counters := { live.counters with retrieved := satInc live.counters.retrieved } } } })

/-- A head check acts in its turn, as the lowest raised. Where its queue is empty, or selection finds its head no
member, it changes nothing but that it is spent. Where selection finds one, the head is offered to that member, the
queue keeps its other calls in their order, and the check is repeated on the part so left; so it ends with the queue
empty or with no member for its head. One whose turn it is not does nothing. An offer leaves the record OFFERED with
its deadline, the member OFFERED the call, the pointer at it and the offered counter raised, and sends OFFER down with
the record's DNs, class and group; an orbit that the record held is released and handed on (04, R71, R83; 02, R27; 06,
R110; notes/assumptions/3.md). -/
def Obligations.HeadCheckOffersHeads : Prop :=
  (∀ (g : Nat) (s : State), s.lane.phase = .inService → s.hunt.Fits →
    (s.hunt.headChecks.head? = some g →
      (∃ t : State, exec (.headCheck g) s = .next t ∧
        (∀ r, (t.queue g).head? = some r → t.select g r.tried = none) ∧
        t.hunt.headChecks = s.hunt.headChecks.filter (· ≠ g)) ∧
      ((∀ r, (s.queue g).head? = some r → s.select g r.tried = none) →
        exec (.headCheck g) s =
          .next { s with hunt := { s.hunt with headChecks := s.hunt.headChecks.filter (· ≠ g) } }) ∧
      (∀ r n clear, (s.queue g).head? = some r → s.select g r.tried = some (n, clear) →
        exec (.headCheck g) s = exec (.headCheck g) (s.offerTo r.call n clear) ∧
        ((s.offerTo r.call n clear).queue g).map HuntRecord.call = (s.queue g).tail.map HuntRecord.call)) ∧
    (s.hunt.headChecks.head? ≠ some g → exec (.headCheck g) s = .next s)) ∧
  ∀ (call : CallRef) (r : HuntRecord) (n : Nat) (clear : Bool) (s : State), s.record call = some r →
    n < 384 → (s.stations.get n).line = .idle →
    let f := (s.activeGroup r.group).fields
    let cell : LaneCell := .known ⟨BitVec.ofNat 10 n, call, .offer r.called r.caller r.cls (some r.group)⟩
    let departed : State :=
      { s with hunt := { s.hunt with
        records := s.hunt.records.map fun q =>
          if q.call = call then
            { q with status := .offered (some n) (s.clock + 1000 * f.noAnswer) none
                     tried := if clear then [] else q.tried }
          else q } }
    let offered (u : State) : State :=
      let live := u.hunt.live.get r.group
      { u with
        stations := u.stations.put n { u.stations.get n with line := .offered, call := some call }
        hunt := { u.hunt with
          headChecks :=
            if s.headCall r.group = some call then insertSorted r.group u.hunt.headChecks else u.hunt.headChecks
          live := u.hunt.live.put r.group
            { pointer := some n, counters := { live.counters with offered := satInc live.counters.offered } } } }
    (r.orbit = none → s.room .down 1 → s.offerTo call n clear = (offered departed).queued .down [cell]) ∧
    ∀ o, r.orbit = some o → s.offerTo call n clear = (offered (departed.releaseOrbit o true)).join .down cell

/-- A member-available event acts in its turn: the lowest raised, once no head check stands. It is spent; a station
that is no candidate is offered nothing, nor is one that no waiting head takes. Else, among the at most four groups it
is an active member of, it is offered the head that it may take (not tried by it, or with every candidate tried, the
pass then complete) with the oldest arrival, then the lowest group number. One whose turn it is not does nothing (02,
R37; 04, R83, R84; notes/assumptions/3.md). -/
def Obligations.MemberAvailableTakesHead : Prop :=
  ∀ (n : Nat) (s : State), s.lane.phase = .inService →
    let t : State := { s with hunt := { s.hunt with available := s.hunt.available.filter (· ≠ n) } }
    let takes (g : Nat) (r : HuntRecord) (clear : Bool) : Prop :=
      1 ≤ g ∧ g ≤ 32 ∧ n ∈ (s.activeGroup g).members ∧ (s.queue g).head? = some r ∧
      (n ∉ r.tried ∧ clear = false ∨
        n ∈ r.tried ∧ clear = true ∧ ∀ m ∈ (s.activeGroup g).members, s.candidate m = true → m ∈ r.tried)
    (s.hunt.headChecks = [] → s.hunt.available.head? = some n →
      (s.candidate n = false ∨ (∀ g r clear, ¬ takes g r clear) → exec (.memberAvailable n) s = .next t) ∧
      (s.candidate n = true → groupsOf s.hunt.active n ≤ 4 →
        ∀ g r clear, takes g r clear →
          (∀ h q c, takes h q c → r.arrival < q.arrival ∨ r.arrival = q.arrival ∧ g ≤ h) →
          exec (.memberAvailable n) s = .next (t.offerTo r.call n clear))) ∧
    (s.hunt.headChecks ≠ [] ∨ s.hunt.available.head? ≠ some n → exec (.memberAvailable n) s = .next s)
/-! ### The commit of a shift bank (03) -/

/-- The countdown's expiry ends it and validates the staged bank again: an invalid one sets COMMIT_FAILED and changes
nothing else; a valid one becomes the active bank with COMMIT_DONE set, and with no hunt record nothing else changes.
The groups are treated in ascending order. One whose new definition has no pilot is retiring: its queued records take
the old overflow action, oldest first, and its offered ones are orphaned with it as their retired action. A continuing
one has its tried lists pruned to the new members, the last records beyond the new capacity overflow, and the announce
points of records with no orbit are formed anew, those now past asking for an orbit in queue order; offers and wait
deadlines stand. At the end the candidates that are members of a group with a queue raise their events. Before its
deadline, and with none pending, the expiry does nothing (03, R51, R55 to R63; notes/assumptions/3.md). -/
def Obligations.CommitExpiryReplacesBank : Prop :=
  ∀ s : State, s.lane.phase = .inService → s.Calm →
    let begun : State := { s with hunt := { s.hunt with active := s.hunt.staged, countdown := none } }
    let mapGroup (g : Nat) (f : HuntRecord → HuntRecord) (u : State) : State :=
      { u with hunt := { u.hunt with records := u.hunt.records.map fun r => if r.group = g then f r else r } }
    let retire (old : GroupFields) (g : Nat) (u : State) : State :=
      mapGroup g
        (fun r => match r.status with
          | .offered m d none => { r with status := .offered m d (some (match old.overflowDn with
              | some dn => .divert dn
              | none => .refusedBusy)) }
          | _ => r)
        ((u.queue g).foldl (fun v r => v.sendAway r.call g (match old.overflowDn with
          | some dn => .divert dn
          | none => .refused .busy)) u)
    let keep (new : Group) (g : Nat) (u : State) : State :=
      let pruned := mapGroup g (fun r => { r with tried := r.tried.filter (· ∈ new.members) }) u
      let trimmed := ((pruned.queue g).drop new.fields.capacity).reverse.foldl (fun v r => v.overflow r.call g) pruned
      let formed := mapGroup g
        (fun r => match r.status with
          | .queued w _ none a =>
            let point := r.arrival + 1000 * new.fields.threshold
            { r with status :=
                if new.fields.threshold = 0 then .queued w none none false
                else .queued w (some point) none (a && decide (point ≤ s.clock)) }
          | _ => r)
        trimmed
      (formed.queue g).foldl
        (fun v r => match (v.record r.call).bind HuntRecord.announcePoint with
          | some point => if point ≤ s.clock then v.requestOrbit r.call else v
          | none => v)
        formed
    let treat (u : State) (g : Nat) : State :=
      if (s.hunt.active.get g).fields.pilot = none then u
      else if (s.hunt.staged.get g).fields.pilot = none then retire (s.hunt.active.get g).fields g u
      else keep (s.hunt.staged.get g) g u
    (∀ d, s.hunt.countdown = some d → d ≤ s.clock →
      (∀ f, validate s.hunt.staged = some f →
        exec .commitExpiry s =
          .next (({ s with hunt := { s.hunt with countdown := none } } : State).setFlag .commitFailed)) ∧
      (validate s.hunt.staged = none →
        (∃ t : State, exec .commitExpiry s = .next t ∧ t.hunt.active = s.hunt.staged ∧ t.hunt.staged = s.hunt.staged ∧
          t.hunt.countdown = none ∧ hasFlag t.maint.flags .commitDone = true) ∧
        (s.hunt.records = [] →
          exec .commitExpiry s =
            .next (({ s with hunt := { s.hunt with active := s.hunt.staged, countdown := none } } : State).setFlag
              .commitDone)) ∧
        (s.hunt.Fits →
          let t := ((List.range' 1 32).foldl treat begun).setFlag .commitDone
          let raises (n : Nat) : Bool := t.candidate n && (List.range' 1 32).any fun g =>
            !(t.queue g).isEmpty && (s.hunt.staged.get g).members.contains n
          exec .commitExpiry s =
            .next { t with hunt := { t.hunt with available := (List.range 384).filter raises } }))) ∧
    ((∀ d, s.hunt.countdown = some d → s.clock < d) → exec .commitExpiry s = .next s)

/-- COMMIT of a valid staged bank stores the delay in seconds, at most 86,400, and sets the countdown's deadline; it
answers DONE with the stored delay; with a delay of 0 the expiry follows at once (notes/assumptions/2.md). For an
invalid bank it answers REFUSED_STATE with the failure report and changes nothing. A bank is valid when no member list
repeats a station or names one above 383, no station stands in more than four lists, no two pilots are equal, and every
group with a pilot has a member. CANCEL_COMMIT ends a pending countdown with no copy and answers DONE with the
remaining seconds, rounded up; with none pending it answers REFUSED_STATE; nothing else changes, neither the staged
bank nor a flag (03, R51, R52, R53). -/
def Obligations.CommitRequests : Prop :=
  (∀ (tag : Byte) (s : State), s.lane.phase = .inService → s.Calm → s.room .up 1 →
    let b := s.endBridge .down
    let answer (t : State) (o : ReplyOutcome) (data : List Byte) : Host.Outcome State Fault Refusal :=
      .next (t.queued .up [replyCell s.lane.own tag o data])
    (∀ d1 d2 d3 : Byte,
      let delay := min (bytesNat [d1, d2, d3]) 86400
      (validate s.hunt.staged = none →
        let t := ({ b with hunt := { s.hunt with countdown := some (s.clock + 1000 * delay) } } : State).queued .up
          [replyCell s.lane.own tag .done (natBytes 3 delay)]
        exec (.commit tag [d1, d2, d3]) s = if delay = 0 then exec .commitExpiry t else .next t) ∧
      ∀ f, validate s.hunt.staged = some f →
        exec (.commit tag [d1, d2, d3]) s = answer b .refusedState (failureBytes f)) ∧
    (∀ d, s.hunt.countdown = some d →
      exec (.cancelCommit tag []) s = answer
        { b with hunt := { s.hunt with countdown := none } } .done (natBytes 3 ((d - s.clock + 999) / 1000))) ∧
    (s.hunt.countdown = none → exec (.cancelCommit tag []) s = answer b .refusedState [])) ∧
  (∀ bank : Tab 1 32 Group, validate bank = none ↔
    (∀ g, 1 ≤ g → g ≤ 32 → (bank.get g).members.Nodup ∧ (∀ n ∈ (bank.get g).members, n ≤ 383) ∧
      ((bank.get g).fields.pilot ≠ none → (bank.get g).members ≠ [] ∧
        ∀ h, 1 ≤ h → h ≤ 32 → h ≠ g → (bank.get h).fields.pilot ≠ (bank.get g).fields.pilot)) ∧
    ∀ n, (groupNumbers.filter fun g => n ∈ (bank.get g).members).length ≤ 4)

/-! ### Maintenance requests (11; 12, R197, R198) -/

/-- A request that is refused or unknown changes nothing but the up queue, which its reply joins; only a refused COMMIT
carries data (11, R181, R182; 12, R198). -/
def Obligations.RefusedRequestChangesNothing : Prop :=
  ∀ (i : Instr) (tag kind : Byte) (args : List Byte) (s : State), requestOf i = some (tag, kind, args) →
    s.lane.phase = .inService → s.Calm → s.room .up 1 →
    let b := s.endBridge .down
    let a := b.request kind.toNat args
    a.outcome ≠ .done →
    exec i s = .next (b.queued .up [replyCell s.lane.own tag a.outcome a.data]) ∧
    (a.data ≠ [] → kind = 4#8 ∧ a.outcome = .refusedState)

/-- The requests that only read answer DONE with what they read, in as many cells as it takes, and change nothing else;
an unknown request answers UNKNOWN_REQUEST. Numbers are sent most significant byte first. The status record, the
counters of each owner, the entries of ZONE_SET, TONE, PROMPT_DIR, PAGING_PARAMS, ZONE and the member lists, and the
views GROUP_QUEUE, ORBITS, RINGING_SET and SESSIONS carry their fields in the manual's order and widths, an absent
number as all ones; the code of the ALARM_IN level is left open (notes/assumptions/14.md), the clock is sent in 40 bits
(notes/assumptions/16.md), and zone set 0 is shown as loaded (notes/assumptions/37.md) (03, R54; 05, R104; 06, R116;
07, R122, R139; 11, R181, R183, R188, R189, R190, R194; 12, R195, R197, R198). -/
def Obligations.ReadRequestsAnswer : Prop :=
  (∀ (tag : Byte) (s : State), s.lane.phase = .inService → s.Calm →
    let answers (i : Instr) (o : ReplyOutcome) (data : List Byte) : Prop :=
      s.room .up (replyParts data).length →
      exec i s = .next ((s.endBridge .down).queued .up (replyCells s.lane.own tag o data))
    (∀ t i1 i2 table, tableOf t.toNat = some table → table.holds (bytesNat [i1, i2]) = true →
      answers (.readEntry tag [t, i1, i2]) .done (s.entryBytes table (bytesNat [i1, i2]))) ∧
    answers (.readStatus tag []) .done s.statusBytes ∧
    (∀ args v, readView args = some v → v.accepted = true → answers (.readLive tag args) .done (s.viewBytes v)) ∧
    (∀ o i owner, ownerOf o.toNat i.toNat = some owner →
      answers (.readCounters tag [o, i]) .done (counterBytes (s.counters owner))) ∧
    answers (.attentionRead tag []) .done (natBytes 2 s.maint.flags.toNat ++ natBytes 2 s.maint.mask.toNat) ∧
    (∀ kind args, requestKnown kind = false → answers (.unknownRequest tag kind args) .unknownRequest [])) ∧
  ∀ s : State,
    let b1 (n : Nat) : List Byte := [BitVec.ofNat 8 n]
    let b2 (n : Nat) : List Byte := [BitVec.ofNat 8 (n / 256), BitVec.ofNat 8 n]
    let b3 (n : Nat) : List Byte := BitVec.ofNat 8 (n / 65536) :: b2 n
    let clock (n : Nat) : List Byte := b2 (n / 16777216) ++ b3 n
    let yes (b : Bool) : List Byte := if b = true then [1#8] else [0#8]
    let busy (f : Nat → Bool) (n : Nat) : Nat := ((List.range' 1 n).filter f).length
    let records := s.hunt.records.length
    let orbits := busy (fun n => (s.orbits.get n).isSome) 9
    let sessions := busy (fun i => (s.paging.sessions.get i).isSome) 8
    let numbers (l : List Nat) : List Byte := b1 l.length ++ l.flatMap b1
    let stations (l : List Nat) : List Byte := b1 l.length ++ l.flatMap b2
    (∀ n, natBytes 1 n = b1 n ∧ natBytes 2 n = b2 n ∧ natBytes 3 n = b3 n ∧ natBytes 5 n = clock n) ∧
    (∃ level : Byte, s.statusBytes =
      b2 4408 ++ [Config.revision] ++ b2 s.lane.own.toNat ++
        [match s.maint.mode with | .transparent => 0#8 | .engaged => 1#8,
         match s.maint.cause with | .power => 0#8 | .pin => 1#8 | .restart => 2#8,
         if s.alarm.source = none then 0#8 else 1#8,
         match s.alarm.source with | none => 255#8 | some .input => 0#8 | some .request => 1#8, level] ++
        yes s.hunt.countdown.isSome ++
        b3 (match s.hunt.countdown with | some d => (d - s.clock + 999) / 1000 | none => 0) ++ clock s.clock ++
        [records, 64 - records, orbits, 9 - orbits, sessions, 8 - sessions, s.lane.downQueue.length,
         64 - s.lane.downQueue.length, s.lane.upQueue.length, 64 - s.lane.upQueue.length].flatMap b1) ∧
    (∀ owner, counterBytes (s.counters owner) = List.flatMap b2 (match owner with
      | .lane =>
        [s.lane.counters.malformed, s.lane.counters.discardedDown, s.lane.counters.discardedUp,
         s.lane.counters.unexpected]
      | .group g =>
        let c := (s.hunt.live.get g).counters
        [c.offered, c.answered, c.picked, c.retrieved, c.abandoned, c.diverted, c.noAnswers]
      | .zone z => [(s.zones.get z).saturations, (s.zones.get z).preemptions]
      | .pickup => [s.pickup.successes, s.pickup.denials]
      | .paging => [s.paging.refused])) ∧
    s.entryBytes .zoneSet 0 = 1#8 :: numbers ((List.range' 1 24).filter fun z => (s.zones.get z).fields.enabled) ∧
    s.entryBytes .pagingParams 0 =
      (let p := s.paging.params
       b2 p.maxVoice ++ b1 (p.preannounce.getD 255) ++ b1 p.alarmSet ++ b1 p.alarmTone ++ yes p.autoExit ++
         b1 p.assistTone ++ b1 p.beepTone) ∧
    (∀ i,
      (1 ≤ i → s.entryBytes .zoneSet i = match s.paging.zoneSets.get i with
        | none => [0#8]
        | some l => 1#8 :: numbers l) ∧
      s.entryBytes .tone i = (match s.prompts.tones.get i with
        | none => [0#8]
        | some t => 1#8 :: (b2 t.increment ++ b2 t.amplitude ++ b2 t.onTime ++ b2 t.offTime ++ b1 t.cycles)) ∧
      s.entryBytes .promptDir i = (match s.prompts.directory.get i with
        | none => [0#8]
        | some e => 1#8 :: (b2 e.start ++ b2 e.length)) ∧
      s.entryBytes .zone i =
        (let f := (s.zones.get i).fields
         yes f.enabled ++ b2 f.outputSlot ++ b2 (f.senseSlot.getD 65535) ++ b2 (f.musicSlot.getD 65535) ++
           b2 f.pageGain ++ b2 f.toneGain ++ b2 f.musicBase ++ b2 f.musicDuck ++ b1 f.duckStep ++ b2 f.noiseFloor ++
           b1 f.slope ++ b2 f.maxBoost ++ b2 f.loudOn ++ b2 f.loudOff) ∧
      s.entryBytes .stagedMembers i = stations (s.hunt.staged.get i).members ∧
      s.entryBytes .activeMembers i = stations (s.hunt.active.get i).members) ∧
    (∀ g, s.viewBytes (.groupQueue g) =
      b1 (s.queue g).length ++ b1 (s.hunt.active.get g).fields.capacity ++
        b2 ((s.hunt.live.get g).pointer.getD 65535) ++ b1 (s.queue g).length ++
        (s.queue g).flatMap fun r => b2 r.call.toNat) ∧
    s.viewBytes .orbits =
      b1 (s.hunt.records.filter fun r => r.awaiting).length ++
        ((List.range' 1 9).flatMap fun n => match s.orbits.get n with
          | none => [0#8]
          | some o => 1#8 :: (b2 o.call.toNat ++ b1 o.group ++ clock o.assigned ++ clock o.nextChime)) ∧
    (∀ p, s.viewBytes (.ringingSet p) =
      b2 s.pickup.ringing.length ++ ((s.pickup.ringing.drop p).take 16).flatMap fun e =>
        b2 e.station ++ b2 e.call.toNat ++ clock e.start ++ b1 (e.group.getD 255)) ∧
    s.viewBytes .sessions = (List.range' 1 8).flatMap fun i => match s.paging.sessions.get i with
      | none => [0#8]
      | some x => 1#8 :: (b2 x.source ++
          [match x.cls with | .normal => 0#8 | .urgent => 1#8 | .emergency => 2#8] ++ b2 x.talkSlot ++
          [match x.phase with | .preannounce => 0#8 | .live => 1#8] ++ b2 x.frames ++ clock x.start ++
          clock x.deadline ++ b1 x.zones.length ++ x.zones.flatMap fun e =>
            b1 e.1 ++ [match e.2 with | .held => 0#8 | .lost => 1#8])

/-- PROMPT_ADDRESS sets the write address, refused above 32767. PROMPT_WRITE stores its 1..24 samples from the write
address on, up to address 32767, the address rising with each; samples beyond are discarded with PROMPT_OVERRUN. It
answers with the samples stored and the write address; a count outside 1..24 is refused. PROMPT_READ answers with the
write address and the samples at its addresses; a count outside 1..24, an address above 32767 or a stretch past 32768
is refused. That the samples read carry no count byte is the model's choice (notes/assumptions/41.md). No other address
and no other state changes (09, R166, R167). -/
def Obligations.PromptRequests : Prop :=
  ∀ (tag : Byte) (s : State), s.lane.phase = .inService → s.Calm → s.room .up 2 →
    let b := s.endBridge .down
    let refused : Host.Outcome State Fault Refusal :=
      .next (b.queued .up [replyCell s.lane.own tag .refusedArgument []])
    let carried (n : Byte) (xs : List Sample) : List Byte := n :: xs.flatMap fun x => natBytes 2 x.toNat
    (∀ a1 a2, exec (.promptAddress tag [a1, a2]) s =
      if bytesNat [a1, a2] ≤ 32767 then
        .next (({ b with prompts := { s.prompts with address := bytesNat [a1, a2] } } : State).queued .up
          [replyCell s.lane.own tag .done (natBytes 2 (bytesNat [a1, a2]))])
      else refused) ∧
    (∀ (n : Byte) (xs : List Sample), xs.length = n.toNat → xs = [] ∨ 24 < xs.length →
      exec (.promptWrite tag (carried n xs)) s = refused) ∧
    (∀ (n : Byte) (xs : List Sample), xs.length = n.toNat → xs ≠ [] → xs.length ≤ 24 → s.prompts.Fits →
      let first := s.prompts.address
      let stored := min xs.length (32768 - first)
      ∃ memory,
        let t : State := { b with prompts := { s.prompts with memory := memory, address := first + stored } }
        let t1 := if stored < xs.length then (t.flagged .promptOverrun).queued .up (s.raised .promptOverrun) else t
        exec (.promptWrite tag (carried n xs)) s = .next
          (t1.queued .up [replyCell s.lane.own tag .done (natBytes 1 stored ++ natBytes 2 (first + stored))]) ∧
        (∀ k, k < stored → memRead memory (first + k) = xs.getD k 0#16) ∧
        (∀ a, a < first ∨ first + stored ≤ a → memRead memory a = memRead s.prompts.memory a)) ∧
    (∀ a1 a2 n : Byte,
      let a := bytesNat [a1, a2]
      (n.toNat < 1 ∨ 24 < n.toNat ∨ 32767 < a ∨ 32768 < a + n.toNat →
        exec (.promptRead tag [a1, a2, n]) s = refused) ∧
      (1 ≤ n.toNat → n.toNat ≤ 24 → a ≤ 32767 → a + n.toNat ≤ 32768 →
        exec (.promptRead tag [a1, a2, n]) s = .next (b.queued .up [replyCell s.lane.own tag .done
          (natBytes 2 s.prompts.address ++
            (List.range n.toNat).flatMap fun k => natBytes 2 (memRead s.prompts.memory (a + k)).toNat)])))

/-- WRITE_ENTRY of a table that may be written, accepted, takes its effect and answers DONE with the entry as it then
stands; one that is not accepted answers REFUSED_ARGUMENT, and ACTIVE_GROUP and ACTIVE_MEMBERS answer REFUSED_STATE.
The list tables store a list in their form: 1..24 different zones in a zone set above 0, at most 3 different other
groups as partners, at most 24 different stations 0..383 as members. The tables of fields store each marked field's
value, ranged ones within their ranges, and keep the others; a value out of its form, a mark on a live field of a
station, an output slot of another enabled zone, a code of another entry, an empty code, a tone of no length and a
stretch beyond prompt memory refuse the write; the loud-off level stays below the loud-on level or both are 0. That a
marked yes/no byte neither 0 nor 1, a wrong padding half-byte and an access code of count 255 are values out of their
form is the model's choice (notes/assumptions/12.md, 13.md, 35.md); so is that a write to ACTIVE_MEMBERS which is no
list of stations does not get as far as its REFUSED_STATE (notes/assumptions/39.md). A zone enabled starts with no
claim, its audio as after a reset and the beacon OFF, but for the claim of an ACTIVE alarm whose scope holds it; one
disabled loses every claim, each claimant told, and its content; its counters and its assist count stay. That a zone
enabled or disabled also loses a loud change report still outstanding, and keeps its assist count, is the model's choice
(notes/assumptions/42.md, 33.md). A zone neither enabled nor disabled takes its fields, with a boost above the maximum
lowered to it (02, R23, R40; 03, R47, R48, R49; 05, R94; 07, R118, R120, R121, R122, R124, R134; 08, R153, R157; 09,
R160, R168; 10, R175; 11, R182, R183). -/
def Obligations.WriteEntryStores : Prop :=
  (∀ (tag t i1 i2 : Byte) (rest : List Byte) (table : Table) (w : EntryWrite) (s : State),
    s.lane.phase = .inService → s.Calm → s.room .up 1 → tableOf t.toNat = some table → table.readWrite rest = some w →
    let b := s.endBridge .down
    let i := bytesNat [i1, i2]
    (∀ s1, table.readOnly = false → b.writeTable table i w = some s1 →
      exec (.writeEntry tag (t :: i1 :: i2 :: rest)) s =
        .next (State.reply tag ⟨s1, .done, s1.entryBytes table i⟩)) ∧
    (table.readOnly = false → b.writeTable table i w = none →
      exec (.writeEntry tag (t :: i1 :: i2 :: rest)) s =
        .next (b.queued .up [replyCell s.lane.own tag .refusedArgument []])) ∧
    (table.readOnly = true →
      exec (.writeEntry tag (t :: i1 :: i2 :: rest)) s =
        .next (b.queued .up [replyCell s.lane.own tag .refusedState []]))) ∧
  (∀ (i : Nat) (l : List Nat) (s : State),
    let zonesOk : Prop := l ≠ [] ∧ l.length ≤ 24 ∧ l.Nodup ∧ ∀ z ∈ l, 1 ≤ z ∧ z ≤ 24
    let partnersOk : Prop := l.length ≤ 3 ∧ l.Nodup ∧ ∀ h ∈ l, 1 ≤ h ∧ h ≤ 63 ∧ h ≠ i
    let membersOk : Prop := l.length ≤ 24 ∧ l.Nodup ∧ ∀ n ∈ l, n ≤ 383
    (1 ≤ i → i ≤ 63 →
      (zonesOk → s.writeTable .zoneSet i (.list l) =
        some { s with paging := { s.paging with zoneSets := s.paging.zoneSets.put i (some l) } }) ∧
      (¬ zonesOk → s.writeTable .zoneSet i (.list l) = none) ∧
      (partnersOk → s.writeTable .pickupPartners i (.list l) =
        some { s with pickup := { s.pickup with partners := s.pickup.partners.put i l } }) ∧
      (¬ partnersOk → s.writeTable .pickupPartners i (.list l) = none)) ∧
    (1 ≤ i → i ≤ 32 →
      (membersOk → s.writeTable .stagedMembers i (.list l) =
        some { s with hunt :=
          { s.hunt with staged := s.hunt.staged.put i { s.hunt.staged.get i with members := l } } }) ∧
      (¬ membersOk → s.writeTable .stagedMembers i (.list l) = none))) ∧
  (∀ (m : Nat) (vs : List FieldValue) (old f : ZoneFields), old.Fits → old.write m vs = some f → f.Fits) ∧
  (∀ (i m : Nat) (s t : State) (dn talk home pickup authority assist : FieldValue) (live : List FieldValue),
    live.length = 8 →
    let old := s.stations.get i
    (s.writeTable .station i (.fields m ([dn, talk, home, pickup, authority, assist] ++ live)) = some t ↔
      i ≤ 383 ∧ m % 1024 = 0 ∧ ∃ new : Station,
        let stored : Station :=
          { old with dn := new.dn, talkSlot := new.talkSlot, homeZone := new.homeZone, pickupGroup := new.pickupGroup
                     authority := new.authority, ringAssist := new.ringAssist }
        t = { s with stations := s.stations.put i stored } ∧
        stores m 0 takesDn dn old.dn new.dn ∧
        stores m 1 (takesOptional 65535 0 511) talk old.talkSlot new.talkSlot ∧
        stores m 2 (takesOptional 255 1 24) home old.homeZone new.homeZone ∧
        stores m 3 (takesOptional 255 1 63) pickup old.pickupGroup new.pickupGroup ∧
        stores m 4 (takesOne [.none, .normal, .urgent, .emergency]) authority old.authority new.authority ∧
        stores m 5 takesFlag assist old.ringAssist new.ringAssist)) ∧
  (∀ (i m : Nat) (s t : State)
      (enabled output sense music page tone base duck step floor slope boost on off : FieldValue),
    let old := (s.zones.get i).fields
    (s.writeTable .zone i (.fields m
        [enabled, output, sense, music, page, tone, base, duck, step, floor, slope, boost, on, off]) = some t ↔
      1 ≤ i ∧ i ≤ 24 ∧ ∃ (new : ZoneFields) (level : Nat), t = s.configureZone i new ∧
        stores m 0 takesFlag enabled old.enabled new.enabled ∧
        stores m 1 (takesIn 0 511) output old.outputSlot new.outputSlot ∧
        stores m 2 (takesOptional 65535 0 511) sense old.senseSlot new.senseSlot ∧
        stores m 3 (takesOptional 65535 0 511) music old.musicSlot new.musicSlot ∧
        stores m 4 (takesNear 0 4095) page old.pageGain new.pageGain ∧
        stores m 5 (takesNear 0 4095) tone old.toneGain new.toneGain ∧
        stores m 6 (takesNear 0 4095) base old.musicBase new.musicBase ∧
        stores m 7 (takesNear 0 4095) duck old.musicDuck new.musicDuck ∧
        stores m 8 (takesNear 1 64) step old.duckStep new.duckStep ∧
        stores m 9 (takesNear 0 32768) floor old.noiseFloor new.noiseFloor ∧
        stores m 10 (takesNear 0 255) slope old.slope new.slope ∧
        stores m 11 (takesNear 1024 4095) boost old.maxBoost new.maxBoost ∧
        stores m 12 (takesNear 0 32768) on old.loudOn new.loudOn ∧
        stores m 13 (takesNear 0 32768) off old.loudOff level ∧
        new.loudOff = (if new.loudOn ≤ level then new.loudOn - 1 else level) ∧
        (new.enabled = true → ∀ y, 1 ≤ y → y ≤ 24 → y ≠ i → (s.zones.get y).fields.enabled = true →
          (s.zones.get y).fields.outputSlot ≠ new.outputSlot))) ∧
  (∀ (i m : Nat) (s t : State) (code feature cls : FieldValue),
    let old := (s.codes.get i).getD { code := [], feature := .groupPickup, cls := .normal }
    (s.writeTable .accessCode i (.fields m [code, feature, cls]) = some t ↔
      i ≤ 15 ∧ ∃ new : AccessCode, t = { s with codes := s.codes.put i (some new) } ∧
        stores m 0 takesCode code old.code new.code ∧
        stores m 1 (takesOne [.groupPickup, .directedPickup, .page, .orbitRetrieve, .logon, .logoff, .groupStatus]) feature
          old.feature new.feature ∧
        stores m 2 (takesOne [.normal, .urgent, .emergency]) cls old.cls new.cls ∧ new.code ≠ [] ∧
        ∀ j x, j ≤ 15 → j ≠ i → s.codes.get j = some x → x.code ≠ new.code)) ∧
  (∀ (i m : Nat) (s t : State) (increment amplitude on off cycles : FieldValue),
    let old := (s.prompts.tones.get i).getD { increment := 1, amplitude := 0, onTime := 0, offTime := 0, cycles := 0 }
    (s.writeTable .tone i (.fields m [increment, amplitude, on, off, cycles]) = some t ↔
      i ≤ 15 ∧ ∃ new : Tone, t = { s with prompts := { s.prompts with tones := s.prompts.tones.put i (some new) } } ∧
        stores m 0 (takesNear 1 32767) increment old.increment new.increment ∧
        stores m 1 (takesNear 0 32767) amplitude old.amplitude new.amplitude ∧
        stores m 2 (takesNear 0 10000) on old.onTime new.onTime ∧
        stores m 3 (takesNear 0 10000) off old.offTime new.offTime ∧
        stores m 4 (takesNear 0 255) cycles old.cycles new.cycles ∧ 0 < new.onTime + new.offTime)) ∧
  (∀ (i m : Nat) (s t : State) (start length : FieldValue),
    let old := (s.prompts.directory.get i).getD { start := 0, length := 0 }
    (s.writeTable .promptDir i (.fields m [start, length]) = some t ↔
      i ≤ 31 ∧ ∃ new : PromptEntry,
        t = { s with prompts := { s.prompts with directory := s.prompts.directory.put i (some new) } } ∧
        stores m 0 (fun v x => v = .num x) start old.start new.start ∧
        stores m 1 (fun v x => v = .num x) length old.length new.length ∧
        new.start ≤ 32767 ∧ new.start + new.length ≤ 32768)) ∧
  (∀ (i m : Nat) (s t : State) (maxVoice preannounce alarmSet alarmTone autoExit assistTone beepTone : FieldValue),
    let old := s.paging.params
    (s.writeTable .pagingParams i (.fields m
        [maxVoice, preannounce, alarmSet, alarmTone, autoExit, assistTone, beepTone]) = some t ↔
      i = 0 ∧ ∃ new : PagingParams, t = { s with paging := { s.paging with params := new } } ∧
        stores m 0 (takesNear 10 300) maxVoice old.maxVoice new.maxVoice ∧
        stores m 1 (takesOptional 255 0 31) preannounce old.preannounce new.preannounce ∧
        stores m 2 (takesIn 0 63) alarmSet old.alarmSet new.alarmSet ∧
        stores m 3 (takesIn 0 15) alarmTone old.alarmTone new.alarmTone ∧
        stores m 4 takesFlag autoExit old.autoExit new.autoExit ∧
        stores m 5 (takesIn 0 15) assistTone old.assistTone new.assistTone ∧
        stores m 6 (takesIn 0 15) beepTone old.beepTone new.beepTone)) ∧
  (∀ (i m : Nat) (s t : State) (pilot discipline noAnswer capacity maxWait overflowDn alarmDn wrapUp threshold
      announceRepeat prompt set strikes membersOnly : FieldValue),
    let old := (s.hunt.staged.get i).fields
    (s.writeTable .stagedGroup i (.fields m [pilot, discipline, noAnswer, capacity, maxWait, overflowDn, alarmDn, wrapUp,
        threshold, announceRepeat, prompt, set, strikes, membersOnly]) = some t ↔
      1 ≤ i ∧ i ≤ 32 ∧ ∃ new : GroupFields,
        t = { s with hunt :=
          { s.hunt with staged := s.hunt.staged.put i { s.hunt.staged.get i with fields := new } } } ∧
        stores m 0 takesDn pilot old.pilot new.pilot ∧
        stores m 1 (takesOne [.linear, .circular, .longestIdle]) discipline old.discipline new.discipline ∧
        stores m 2 (takesNear 2 60) noAnswer old.noAnswer new.noAnswer ∧
        stores m 3 (takesNear 0 16) capacity old.capacity new.capacity ∧
        stores m 4 (takesNear 5 900) maxWait old.maxWait new.maxWait ∧
        stores m 5 takesDn overflowDn old.overflowDn new.overflowDn ∧
        stores m 6 takesDn alarmDn old.alarmDn new.alarmDn ∧
        stores m 7 (takesNear 0 120) wrapUp old.wrapUp new.wrapUp ∧
        stores m 8 (fun v x => v = .num 0 ∧ x = 0 ∨ v ≠ .num 0 ∧ takesNear 5 600 v x) threshold old.threshold
          new.threshold ∧
        stores m 9 (takesNear 10 120) announceRepeat old.announceRepeat new.announceRepeat ∧
        stores m 10 (takesOptional 255 0 31) prompt old.announcePrompt new.announcePrompt ∧
        stores m 11 (takesIn 0 63) set old.announceSet new.announceSet ∧
        stores m 12 (takesNear 0 7) strikes old.strikesThreshold new.strikesThreshold ∧
        stores m 13 takesFlag membersOnly old.membersOnly new.membersOnly)) ∧
  (∀ (z : Nat) (f : ZoneFields) (s : State), 1 ≤ z → z ≤ 24 →
    let zn := s.zones.get z
    let fresh : Zone :=
      { fields := f, audio := Audio.reset, player := Player.empty, claims := [], beacon := Beacon.off, assist := zn.assist
        preemptions := zn.preemptions, saturations := zn.saturations, completed := false, loudReport := false }
    let put (x : Zone) : State := { s with zones := s.zones.put z x }
    let sound : List Step := [.tone s.paging.params.alarmTone none]
    (zn.fields.enabled = false → f.enabled = true →
      (s.alarm.source = none ∨ s.maint.mode = .transparent ∨ z ∉ s.alarm.scope.getD [] ∨ z ∈ s.alarm.claimed →
        s.configureZone z f = put fresh) ∧
      (s.alarm.source ≠ none → s.maint.mode = .engaged → z ∈ s.alarm.scope.getD [] → z ∉ s.alarm.claimed →
        s.configureZone z f =
          { put { fresh with claims := [{ claimant := .alarm, cls := 1, content := sound }], player := ⟨1, sound, .fresh⟩
                             beacon := { pattern := .alarmFlash, line := true, boundary := s.clock + 500 } } with
            alarm := { s.alarm with claimed := s.alarm.claimed ++ [z] } })) ∧
    (zn.fields.enabled = true → f.enabled = false →
      (zn.claims = [] → s.configureZone z f = put fresh) ∧
      (zn.claims ≠ [] → ClaimsFit zn.claims →
        let t := s.configureZone z f
        let claimed : Prop := ∃ c ∈ zn.claims, c.claimant = .alarm
        t.zones = (put { fresh with assist := s.assistCount z }).zones ∧
        (claimed → t.alarm = { s.alarm with claimed := s.alarm.claimed.filter (· ≠ z) }) ∧
        (¬ claimed → t.alarm = s.alarm) ∧ t.hunt = s.hunt ∧ t.orbits = s.orbits ∧ t.pickup = s.pickup ∧
        ∀ i,
          ((∀ c ∈ zn.claims, c.claimant ≠ .session i) → t.paging.sessions.get i = s.paging.sessions.get i) ∧
          ∀ x, (∃ c ∈ zn.claims, c.claimant = .session i) → s.paging.sessions.get i = some x →
            let left := x.zones.map fun e => if e.1 = z then (z, HoldStatus.lost) else e
            t.paging.sessions.get i =
              if (left.any fun e => e.2 = HoldStatus.held) = true then some { x with zones := left } else none)) ∧
    (zn.fields.enabled = f.enabled → s.configureZone z f =
      put { zn with fields := f, audio := { zn.audio with boost := min zn.audio.boost f.maxBoost } }))

/-- CLEAR_ENTRY takes an entry's values away and answers DONE with the entry as it then stands; the active tables are
refused with REFUSED_STATE and zone set 0 with REFUSED_ARGUMENT (02, R23, R40; 03, R47, R48, R49; 05, R94; 07, R119,
R122, R124; 09, R160, R168). -/
def Obligations.ClearEntryEmpties : Prop :=
  ∀ (tag i1 i2 : Byte) (s : State), s.lane.phase = .inService → s.Calm → s.room .up 1 →
    let b := s.endBridge .down
    let i := bytesNat [i1, i2]
    let clears (t : Byte) (table : Table) (s1 : State) : Prop :=
      exec (.clearEntry tag [t, i1, i2]) s = .next (State.reply tag ⟨s1, .done, s1.entryBytes table i⟩)
    let staged := s.hunt.staged.get i
    (i ≤ 383 →
      let cleared : Station :=
        { s.stations.get i with dn := none, talkSlot := none, homeZone := none, pickupGroup := none,
                                authority := .none, ringAssist := false }
      clears 1#8 .station { b with stations := s.stations.put i cleared }) ∧
    (1 ≤ i → i ≤ 24 → clears 2#8 .zone (b.configureZone i ZoneFields.reset)) ∧
    (1 ≤ i → i ≤ 63 →
      clears 3#8 .zoneSet { b with paging := { s.paging with zoneSets := s.paging.zoneSets.put i none } } ∧
      clears 5#8 .pickupPartners { b with pickup := { s.pickup with partners := s.pickup.partners.put i [] } }) ∧
    (i ≤ 15 →
      clears 4#8 .accessCode { b with codes := s.codes.put i none } ∧
      clears 6#8 .tone { b with prompts := { s.prompts with tones := s.prompts.tones.put i none } }) ∧
    (i ≤ 31 → clears 7#8 .promptDir { b with prompts := { s.prompts with directory := s.prompts.directory.put i none } }) ∧
    (i = 0 → clears 8#8 .pagingParams { b with paging := { s.paging with params := PagingParams.reset } }) ∧
    (1 ≤ i → i ≤ 32 →
      clears 9#8 .stagedGroup { b with hunt :=
        { s.hunt with staged := s.hunt.staged.put i { staged with fields := GroupFields.reset } } } ∧
      clears 10#8 .stagedMembers { b with hunt :=
        { s.hunt with staged := s.hunt.staged.put i { staged with members := [] } } }) ∧
    (i = 0 → exec (.clearEntry tag [3#8, i1, i2]) s =
      .next (b.queued .up [replyCell s.lane.own tag .refusedArgument []])) ∧
    (∀ t, t = 11#8 ∨ t = 12#8 → exec (.clearEntry tag [t, i1, i2]) s =
      .next (b.queued .up [replyCell s.lane.own tag .refusedState []]))

/-- SET_MODE to the mode in force answers DONE and changes nothing. To ENGAGED, an ACTIVE latch places its claims, then
the assist claims are re-evaluated. To TRANSPARENT, the teardown leaves no hunt record, no closed call, no occupied
orbit, no session and no source session of one, no alarm claim, every claim list empty with no content and every beacon
OFF, and keeps every line, the zones' configuration and audio, the latch's source, both banks and the countdown (04,
R88; 07, R125, R138; 10, R179; 11, R184). -/
def Obligations.SetModeChangesMode : Prop :=
  ∀ (tag : Byte) (s : State), s.lane.phase = .inService → s.Calm →
    let b := s.endBridge .down
    let engaged : State := { b with maint := { s.maint with mode := .engaged } }
    (s.room .up 1 →
      (s.maint.mode = .transparent → exec (.setModeTransparent tag [0#8]) s =
        .next (b.queued .up [replyCell s.lane.own tag .done [0#8]])) ∧
      (s.maint.mode = .engaged → exec (.setModeEngaged tag [1#8]) s =
        .next (b.queued .up [replyCell s.lane.own tag .done [1#8]])) ∧
      (s.maint.mode = .transparent → s.alarm.source = none →
        exec (.setModeEngaged tag [1#8]) s =
          .next (engaged.reevaluateAll.queued .up [replyCell s.lane.own tag .done [1#8]]))) ∧
    (s.maint.mode = .transparent → s.alarm.source ≠ none →
      exec (.setModeEngaged tag [1#8]) s = .next (State.reply tag ⟨engaged.placeAlarm.reevaluateAll, .done, [1#8]⟩)) ∧
    (s.maint.mode = .engaged → (∀ r ∈ s.hunt.records, 1 ≤ r.group ∧ r.group ≤ 32) →
      ∃ t : State, exec (.setModeTransparent tag [0#8]) s = .next (State.reply tag ⟨t, .done, [0#8]⟩) ∧
        t.maint.mode = .transparent ∧ t.hunt.records = [] ∧ t.hunt.closed = [] ∧
        t.hunt.staged = s.hunt.staged ∧ t.hunt.active = s.hunt.active ∧ t.hunt.countdown = s.hunt.countdown ∧
        (∀ i, t.paging.sessions.get i = none) ∧
        t.alarm.claimed = [] ∧ t.alarm.scope = none ∧ t.alarm.source = s.alarm.source ∧
        (∀ n, t.orbits.get n = none) ∧
        (∀ z, 1 ≤ z → z ≤ 24 →
          let zn := t.zones.get z
          zn.claims = [] ∧ zn.player = Player.empty ∧ zn.beacon = Beacon.off ∧ zn.fields = (s.zones.get z).fields ∧
          zn.audio = (s.zones.get z).audio) ∧
        (∀ n i x, n < 384 → (s.stations.get n).source = some i → s.paging.sessions.get i = some x → x.source = n →
          (t.stations.get n).source = none) ∧
        ∀ n, t.stations.get n = { s.stations.get n with source := (t.stations.get n).source })

/-- RESTART, in either mode, leaves the mode TRANSPARENT, the cause RESTART and RESET set and unmasked; no hunt record,
no closed call, no countdown, no raised event, no orbit, no ringing entry, no session, no claim, no content, no assist
count and every beacon OFF; every line IDLE but those OUT_OF_SERVICE; and the latch IDLE, or entered anew from an
active ALARM_IN. It keeps the configuration, both banks, prompt memory and each station's availability, strikes and
last-idle time; every zone's audio state; every counter, but for what its own teardown counts (calls diverted, cells
discarded at a full queue); every flag, to which it adds RESET and those of its own causes alone; the mask other than
RESET's bit; and the Lane Interface with what stands in its queues. In TRANSPARENT mode it counts nothing but such
discards (02, R24; 03, R50, R54; 04, R65, R66, R88; 05, R91; 06, R105; 07, R119, R130; 10, R171; 11, R185;
notes/assumptions/33.md, 42.md). -/
def Obligations.RestartReturnsBlocks : Prop :=
  ∀ (tag : Byte) (s : State), s.lane.phase = .inService → s.Calm →
    ∃ t : State, exec (.restart tag []) s = .next (State.reply tag ⟨t, .done, []⟩) ∧
      t.maint.mode = .transparent ∧ t.maint.cause = .restart ∧ hasFlag t.maint.flags .reset = true ∧
      hasFlag t.maint.mask .reset = false ∧
      t.hunt = { s.hunt with records := [], closed := [], countdown := none, headChecks := [], available := []
                             live := t.hunt.live } ∧
      t.orbits = Tab.all 1 9 none ∧ t.pickup.ringing = [] ∧ t.pickup.partners = s.pickup.partners ∧
      t.paging.sessions = Tab.all 1 8 none ∧ t.paging.zoneSets = s.paging.zoneSets ∧
      t.paging.params = s.paging.params ∧ t.prompts = s.prompts ∧ t.codes = s.codes ∧ t.clock = s.clock ∧
      t.lane.own = s.lane.own ∧ t.lane.straps = s.lane.straps ∧
      t.alarm = { source := if s.alarm.line then some .input else none, scope := none, claimed := [],
                  line := s.alarm.line } ∧
      (∀ n, n < 384 → t.stations.get n =
        { s.stations.get n with
          line := if (s.stations.get n).line = .outOfService then .outOfService else .idle
          call := none, deliveredBy := none, wrapUp := none, source := none }) ∧
      (∀ z, 1 ≤ z → z ≤ 24 → t.zones.get z =
        { s.zones.get z with claims := [], player := Player.empty, beacon := Beacon.off, assist := 0, completed := false }) ∧
      t.pickup = { s.pickup with ringing := [] } ∧
      t.paging = { s.paging with sessions := Tab.all 1 8 none, frameReport := none } ∧
      t.maint.mask = s.maint.mask &&& ~~~ flagMask .reset ∧
      (∀ f, hasFlag s.maint.flags f = true → hasFlag t.maint.flags f = true) ∧
      (∀ f, hasFlag t.maint.flags f = true → hasFlag s.maint.flags f = true ∨ f = .reset ∨ f = .laneOverflow ∨
        f = .alarmEntered ∧ s.alarm.line = true ∨
        f = .queueOverflow ∧ s.maint.mode = .engaged ∧ ∃ r ∈ s.hunt.records, r.isQueued = true) ∧
      (∃ down up,
        t.lane = { s.lane with bridgeDown := .off, downQueue := s.lane.downQueue ++ down
                               upQueue := s.lane.upQueue ++ up, counters := t.lane.counters }) ∧
      t.lane.counters = { s.lane.counters with discardedDown := t.lane.counters.discardedDown
                                               discardedUp := t.lane.counters.discardedUp } ∧
      (hasFlag t.maint.flags .laneOverflow = false → t.lane.counters = s.lane.counters) ∧
      (s.maint.mode = .transparent → t.hunt.live = s.hunt.live) ∧
      (s.hunt.Fits → ∀ g, t.hunt.live.get g =
        let live := s.hunt.live.get g
        let away := (s.queue g).length
        if s.maint.mode = .engaged ∧ 1 ≤ g ∧ g ≤ 32 ∧ away ≠ 0 then
          { live with counters := { live.counters with diverted := min (live.counters.diverted + away) 65535 } }
        else live) ∧
      t.highwayOut = s.highwayOut ∧ t.pending = s.pending

/-- STATION_AVAILABILITY sets the availability, with no strikes once AVAILABLE, and a station that becomes a candidate
raises its event. STATION_SERVICE takes a station out of service, with no call, delivered-by group or wrap-up, an
offered or ringing hunt member's call re-selected and a page session's source ending it with TONE(ENDED), or returns it
IDLE with last-idle time now; asked for what is so already it changes nothing. A station number above 383 is refused.
The replies carry the availability and the strikes, or the line state (02, R33, R34, R35, R37; 05, R93). -/
def Obligations.StationRequests : Prop :=
  ∀ (tag n1 n2 : Byte) (s : State), s.lane.phase = .inService → s.Calm → s.room .up 1 →
    let n := bytesNat [n1, n2]
    let st := s.stations.get n
    let b := s.endBridge .down
    let reply (data : List Byte) : List LaneCell := [replyCell s.lane.own tag .done data]
    let out : Station := { st with line := .outOfService, call := none, deliveredBy := none, wrapUp := none }
    (384 ≤ n →
      ∀ i ∈ [Instr.stationAvailability tag [n1, n2, 1#8], .stationAvailability tag [n1, n2, 0#8],
        .stationServiceOut tag [n1, n2, 0#8], .stationServiceIn tag [n1, n2, 1#8]],
      exec i s = .next (b.queued .up [replyCell s.lane.own tag .refusedArgument []])) ∧
    (n < 384 →
      exec (.stationAvailability tag [n1, n2, 1#8]) s = .next
        (({ b with
            stations := s.stations.put n { st with available := true, strikes := 0 }
            hunt := s.hunt.raiseIf (st.line = .idle && st.wrapUp.isNone && !st.available) n } : State).queued .up
          (reply [0#8, 0#8])) ∧
      exec (.stationAvailability tag [n1, n2, 0#8]) s = .next
        (({ b with stations := s.stations.put n { st with available := false } } : State).queued .up
          (reply (1#8 :: natBytes 1 st.strikes))) ∧
      (st.line = .outOfService →
        exec (.stationServiceOut tag [n1, n2, 0#8]) s = .next (b.queued .up (reply [6#8])) ∧
        exec (.stationServiceIn tag [n1, n2, 1#8]) s = .next
          (({ b with
              stations := s.stations.put n { st with line := .idle, lastIdle := s.clock }
              hunt := s.hunt.raiseIf (st.available && st.wrapUp.isNone) n } : State).queued .up (reply [0#8]))) ∧
      (st.line ≠ .outOfService →
        exec (.stationServiceIn tag [n1, n2, 1#8]) s =
          .next (b.queued .up (reply (natBytes 1 (lineStates.idxOf st.line))))) ∧
      (st.line = .idle ∨ st.line = .seized ∨ st.line = .talking ∨ st.line = .feature → st.source = none →
        exec (.stationServiceOut tag [n1, n2, 0#8]) s =
          .next (({ b with stations := s.stations.put n out } : State).queued .up (reply [6#8]))) ∧
      (st.line = .offered ∨ st.line = .ringing → st.source = none →
        (∀ c, st.call = some c → s.isMember n c = false) →
        let gone : State := { b with stations := s.stations.put n out }
        exec (.stationServiceOut tag [n1, n2, 0#8]) s = .next
          ((if st.line = LineState.ringing then gone.ringingRemove n else gone).queued .up (reply [6#8]))) ∧
      let away : State := { b with stations := s.stations.put n { st with line := .outOfService } }
      let taken (u : State) : Host.Outcome State Fault Refusal :=
        let left : Station := { u.stations.get n with call := none, deliveredBy := none, wrapUp := none }
        .next (State.reply tag ⟨{ u with stations := u.stations.put n left }, .done, [6#8]⟩)
      (∀ c, st.line = .offered ∨ st.line = .ringing → st.source = none → st.call = some c → s.isMember n c = true →
        exec (.stationServiceOut tag [n1, n2, 0#8]) s =
          taken (((if st.line = LineState.ringing then away.ringingRemove n else away).detachTried c n).reselect c)) ∧
      ∀ i x, st.line = .feature → st.source = some i → s.paging.sessions.get i = some x → x.source = n →
        exec (.stationServiceOut tag [n1, n2, 0#8]) s = taken (away.endSession i false))

/-- ALARM_START at an IDLE latch enters the alarm with source REQUEST, sets ALARM_ENTERED and, in ENGAGED mode, places
the claims: a fresh scope from the alarm zone set, then a claim on each enabled zone of it in its order, which joins
the claimed list and turns its beacon to ALARM_FLASH where the claim is granted, as it is on every empty list. At an
ACTIVE one it changes nothing. ALARM_CLEAR is refused while ALARM_IN is active; else it makes an ACTIVE latch exit and
leaves an IDLE one as it is. An exit takes the alarm's claim from every zone of the claimed list: none of them holds it
then, their other claims stay in order, a claim that waited behind it starts from its beginning, the assist claim is
re-evaluated and the beacon chosen again; source and scope are absent and ALARM_CLEARED is set. Replies carry the
latch's state and source (07, R125, R127, R128, R136, R137; 10, R172, R173, R174, R177, R178). -/
def Obligations.AlarmRequests : Prop :=
  (∀ s : State,
    let set := s.paging.params.alarmSet
    let scope := if set = 0 then List.range' 1 24 else (s.paging.zoneSets.get set).getD []
    let sound : List Step := [.tone s.paging.params.alarmTone none]
    let claim : Claim := { claimant := .alarm, cls := 1, content := sound }
    let enabled (z : Nat) : Bool := (s.zones.get z).fields.enabled
    let ask (u : State) (z : Nat) : State :=
      let r := u.requestClaim z claim
      if r.2 = true then
        State.chooseBeacon z { r.1 with alarm := { r.1.alarm with claimed := r.1.alarm.claimed ++ [z] } }
      else r.1
    s.placeAlarm =
      (scope.filter enabled).foldl ask { s with alarm := { s.alarm with scope := some scope, claimed := [] } } ∧
    (scope.Nodup → (∀ z ∈ scope, 1 ≤ z ∧ z ≤ 24) → (∀ z ∈ scope, enabled z = true → (s.zones.get z).claims = []) →
      ∃ zs,
        s.placeAlarm = { s with
          zones := zs, alarm := { s.alarm with scope := some scope, claimed := scope.filter enabled } } ∧
        (∀ z ∈ scope, enabled z = true → zs.get z =
          { s.zones.get z with
            claims := [claim], player := ⟨1, sound, .fresh⟩, completed := false
            beacon := { pattern := .alarmFlash, line := true, boundary := s.clock + 500 } }) ∧
        ∀ z, z ∉ scope.filter enabled → zs.get z = s.zones.get z)) ∧
  (∀ s : State, ∃ zs, s.leftByAlarm zs ∧ s.exitAlarm =
    ({ s with zones := zs, alarm := { source := none, scope := none, claimed := [], line := s.alarm.line } } :
      State).setFlag .alarmCleared) ∧
  ∀ (tag : Byte) (s : State), s.lane.phase = .inService → s.Calm → s.room .up 1 →
    let b := s.endBridge .down
    let entered : State :=
      ({ b with alarm := { s.alarm with source := some .request } } : State).setFlag .alarmEntered
    let reply (data : List Byte) : List LaneCell := [replyCell s.lane.own tag .done data]
    (s.alarm.source = none →
      exec (.alarmStart tag []) s = .next (State.reply tag
        ⟨if s.maint.mode = .engaged then entered.placeAlarm else entered, .done, [1#8, 1#8]⟩)) ∧
    (∀ a, s.alarm.source = some a →
      exec (.alarmStart tag []) s =
        .next (b.queued .up (reply [1#8, match a with | .input => 0#8 | .request => 1#8]))) ∧
    (s.alarm.line = true → exec (.alarmClear tag []) s =
      .next (b.queued .up [replyCell s.lane.own tag .refusedState []])) ∧
    (s.alarm.line = false → s.alarm.source = none →
      exec (.alarmClear tag []) s = .next (b.queued .up (reply [0#8, 255#8]))) ∧
    (s.alarm.line = false → s.alarm.source ≠ none →
      exec (.alarmClear tag []) s = .next (State.reply tag ⟨b.exitAlarm, .done, [0#8, 255#8]⟩) ∧
      b.exitAlarm.alarm = { source := none, scope := none, claimed := [], line := false } ∧
      hasFlag b.exitAlarm.maint.flags .alarmCleared = true ∧
      (s.alarm.claimed = [] → b.exitAlarm =
        ({ b with alarm := { source := none, scope := none, claimed := [], line := false } } : State).setFlag
          .alarmCleared))

/-- ALARM_IN: an active level at an IDLE latch enters the alarm with source INPUT and ALARM_ENTERED; at an ACTIVE one,
and while a reset holds, only the level is followed. An inactive level makes an INPUT alarm exit where auto-exit is
yes, which leaves each zone of the claimed list to its other claims. A level that the line has already changes nothing
(07, R128, R136, R137; 10, R172, R176, R178; notes/assumptions/3.md, 20.md). -/
def Obligations.AlarmInputFollowed : Prop :=
  ∀ s : State, s.Calm →
    let level (b : Bool) : State := { s with alarm := { s.alarm with line := b } }
    let entered : State :=
      ({ s with alarm := { s.alarm with source := some .input, line := true } } : State).setFlag .alarmEntered
    (s.alarm.line = true → exec .alarmInActive s = .next s) ∧
    (s.alarm.line = false → exec .alarmInInactive s = .next s) ∧
    (s.alarm.line = false → s.lane.phase ≠ .inService ∨ s.alarm.source ≠ none →
      exec .alarmInActive s = .next (level true)) ∧
    (s.alarm.line = false → s.lane.phase = .inService → s.alarm.source = none →
      exec .alarmInActive s = .next (if s.maint.mode = .engaged then entered.placeAlarm else entered)) ∧
    (s.alarm.line = true →
      s.lane.phase ≠ .inService ∨ s.alarm.source ≠ some .input ∨ s.paging.params.autoExit = false →
      exec .alarmInInactive s = .next (level false)) ∧
    (s.alarm.line = true → s.lane.phase = .inService → s.alarm.source = some .input → s.paging.params.autoExit = true →
      ∃ zs, (level false).leftByAlarm zs ∧ exec .alarmInInactive s = .next
        (({ s with zones := zs, alarm := { source := none, scope := none, claimed := [], line := false } } :
          State).setFlag .alarmCleared))

/-- WRITE_RESET_CAUSE stores POWER, PIN or RESTART and answers with the value; another value is refused. CLEAR_COUNTERS
sets every counter of its one owner to 0 and answers with the values they held (11, R187, R190, R191). -/
def Obligations.CauseAndCounters : Prop :=
  ∀ (tag : Byte) (s : State), s.lane.phase = .inService → s.Calm → s.room .up 1 →
    let b := s.endBridge .down
    (∀ (v : Byte) (c : ResetCause), v = 0#8 ∧ c = .power ∨ v = 1#8 ∧ c = .pin ∨ v = 2#8 ∧ c = .restart →
      exec (.writeResetCause tag [v]) s =
        .next (({ b with maint := { s.maint with cause := c } } : State).queued .up
          [replyCell s.lane.own tag .done [v]])) ∧
    (∀ v : Byte, 2 < v.toNat → exec (.writeResetCause tag [v]) s =
      .next (b.queued .up [replyCell s.lane.own tag .refusedArgument []])) ∧
    (∀ (o i : Byte) (owner : Owner), ownerOf o.toNat i.toNat = some owner →
      exec (.clearCounters tag [o, i]) s = .next
        ((match owner with
          | .lane => { b with lane := { b.lane with counters := LaneCounters.zero } }
          | .group g => { b with hunt :=
              { s.hunt with live := s.hunt.live.put g { s.hunt.live.get g with counters := GroupCounters.zero } } }
          | .zone z => { b with zones := s.zones.put z { s.zones.get z with saturations := 0, preemptions := 0 } }
          | .pickup => { b with pickup := { s.pickup with successes := 0, denials := 0 } }
          | .paging => { b with paging := { s.paging with refused := 0 } } : State).queued .up
          [replyCell s.lane.own tag .done (counterBytes (s.counters owner))]))

/-- ATTENTION_CLEAR clears the flags it names, ATTENTION_MASK_SET masks them, ATTENTION_MASK_CLEAR unmasks them with
one ATTENTION cell where a flag that was set and masked is among them; each answers with the flags or the mask as they
then stand. A set that names the unused bit is refused (11, R193, R194; 12, R195, R197). -/
def Obligations.AttentionRequests : Prop :=
  ∀ (tag x1 x2 : Byte) (s : State), s.lane.phase = .inService → s.Calm → s.room .up 2 →
    let b := s.endBridge .down
    let x : BitVec 16 := x1 ++ x2
    let reply (v : BitVec 16) : LaneCell := replyCell s.lane.own tag .done (natBytes 2 v.toNat)
    let unmasked := s.maint.mask &&& ~~~ x
    (x.getLsbD 0 = false →
      exec (.attentionClear tag [x1, x2]) s = .next
        (({ b with maint := { s.maint with flags := s.maint.flags &&& ~~~ x } } : State).queued .up
          [reply (s.maint.flags &&& ~~~ x)]) ∧
      exec (.attentionMaskSet tag [x1, x2]) s = .next
        (({ b with maint := { s.maint with mask := s.maint.mask ||| x } } : State).queued .up
          [reply (s.maint.mask ||| x)]) ∧
      exec (.attentionMaskClear tag [x1, x2]) s = .next
        (({ b with maint := { s.maint with mask := unmasked } } : State).queued .up
          ((if s.maint.flags &&& s.maint.mask &&& x = 0#16 then []
            else [.known ⟨s.lane.own, 0#16, .attention s.maint.flags (s.maint.flags &&& ~~~ unmasked)⟩]) ++
            [reply unmasked]))) ∧
    (x.getLsbD 0 = true →
      ∀ i ∈ [Instr.attentionClear tag [x1, x2], .attentionMaskSet tag [x1, x2], .attentionMaskClear tag [x1, x2]],
      exec i s = .next (b.queued .up [replyCell s.lane.own tag .refusedArgument []]))


/-! ### Deadlines of lines, sessions and beacons (02; 07) -/

/-- Deadlines that have come. A wrap-up's ends, and a station that is then a candidate raises its event. A session's
ends the session: its claim leaves every zone it holds, where the other claims stay and the next head starts from its
beginning, TONE(ENDED) goes to its source, whose source session is absent, and it is free; a session that ends quietly
sends no tone. A beacon's phase boundary switches the line, and the next lies one phase of its pattern later. A
deadline that has not come, or that does not stand, does nothing (01, R18; 02, R37, R38; 07, R128, R134, R135, R136,
R137; notes/assumptions/3.md). -/
def Obligations.DeadlinesTaken : Prop :=
  (∀ (i : Nat) (x : Session) (s : State), s.paging.sessions.get i = some x →
    let tone : LaneCell := .known ⟨BitVec.ofNat 10 x.source, 0#16, .tone 4#8⟩
    ∃ zs, s.leftBySession i x zs ∧ s.endSession i true = s.freed i x zs ∧
      (s.room .down 1 → s.endSession i false = (s.freed i x zs).queued .down [tone]) ∧
      (¬ s.room .down 1 → s.endSession i false = (s.freed i x zs).discarded .down) ∧
      ∀ z, (z, HoldStatus.held) ∈ x.zones → ∀ c ∈ (zs.get z).claims, c.claimant ≠ .session i) ∧
  ∀ s : State, s.lane.phase = .inService → s.Calm →
    (∀ n d, n < 384 → (s.stations.get n).wrapUp = some d → d ≤ s.clock →
      let st := s.stations.get n
      exec (.wrapUpExpiry n) s = .next
        { s with stations := s.stations.put n { st with wrapUp := none }
                 hunt := s.hunt.raiseIf (st.line = LineState.idle && st.available) n }) ∧
    (∀ n, (∀ d, (s.stations.get n).wrapUp = some d → s.clock < d) → exec (.wrapUpExpiry n) s = .next s) ∧
    (∀ i x, s.paging.sessions.get i = some x → x.deadline ≤ s.clock →
      exec (.sessionDeadline i) s = .next (s.endSession i false) ∧
      (s.room .down 1 →
        ∃ zs, s.leftBySession i x zs ∧ exec (.sessionDeadline i) s = .next ((s.freed i x zs).queued .down
          [.known ⟨BitVec.ofNat 10 x.source, 0#16, .tone 4#8⟩]))) ∧
    (∀ i, (∀ x, s.paging.sessions.get i = some x → s.clock < x.deadline) → exec (.sessionDeadline i) s = .next s) ∧
    (∀ z,
      let b := (s.zones.get z).beacon
      (b.pattern ≠ .off → b.boundary ≤ s.clock →
        let phase := match b.pattern, b.line with
          | .callFlash, true => 800
          | .callFlash, false => 200
          | _, _ => 500
        exec (.beaconPhaseChange z) s = .next
          { s with
            zones := s.zones.put z
              { s.zones.get z with beacon := { b with line := !b.line, boundary := b.boundary + phase } } }) ∧
      (b.pattern = .off ∨ s.clock < b.boundary → exec (.beaconPhaseChange z) s = .next s))

/-! ### Claims (07, 7.4) -/

/-- A voice request is granted only on an empty list or over a head of a higher class number: it is then the head, a
voice head is lost and a resumable one stays behind it. A resumable request stands behind every claim of its class or a
lower class number and before the others, over the list without a voice head that it displaces; it is refused only
where it would be the lowest-ranked of five. A list that would hold five loses its lowest-ranked claim, a shorter one
loses none. A grant leaves a list in good form; every claim it takes away is the lost head or the evicted fifth. At the
part, a request for a disabled zone, from a claimant that stands there, or that is refused changes nothing. A grant
puts the list in force; a grant at the front starts the new head's content and, over a standing head, adds one to the
preemptions counter. The session of a lost head marks the zone LOST, and with no zone held any more it ends as
PREEMPTED: TONE(ENDED) to its source, whose source session is absent, and it is free. An evicted fifth is an orbit's or
the assist's, and changes nothing of its claimant. Where a claim left, the zone's assist claim is re-evaluated (07,
R125, R126, R127, R128, R129, R134, R135, R136). -/
def Obligations.ClaimGrants : Prop :=
  (∀ (c : Claim) (l : List Claim), ClaimsFit l → c.classFits → holdsClaim l c.claimant = false →
    (c.isVoice = true →
      (placeVoice c l = none ↔ ∃ h rest, l = h :: rest ∧ h.cls ≤ c.cls) ∧
      ∀ g, placeVoice c l = some g → g.first = true ∧ g.lost = l.head?.filter Claim.isVoice ∧
        g.claims = (c :: l.filter fun d => !d.isVoice).take 4 ∧
        g.evicted = (l.filter fun d => !d.isVoice)[3]?) ∧
    (c.isVoice = false →
      (placeResumable c l = none ↔ l.length = 4 ∧ ∀ d ∈ l, d.cls ≤ c.cls) ∧
      ∀ g, placeResumable c l = some g →
        (g.first = true ↔ ∀ d ∈ l, c.cls < d.cls) ∧
        (g.lost = if g.first = true then l.head?.filter Claim.isVoice else none) ∧
        let base := if g.lost = none then l else l.tail
        ∃ before behind, base = before ++ behind ∧ (∀ d ∈ before, d.cls ≤ c.cls) ∧ (∀ d ∈ behind, c.cls < d.cls) ∧
          (before = [] ↔ g.first = true) ∧
          g.claims = (before ++ c :: behind).take 4 ∧
          g.evicted = (before ++ c :: behind)[4]?) ∧
    ∀ g, placeVoice c l = some g ∧ c.isVoice = true ∨ placeResumable c l = some g ∧ c.isVoice = false →
      ClaimsFit g.claims ∧ c ∈ g.claims ∧
      (∀ d, g.lost = some d → l.head? = some d ∧ ∃ i, d.claimant = .session i) ∧
      (∀ d, g.evicted = some d → d.claimant = .assist ∨ ∃ n, d.claimant = .orbit n) ∧
      ∀ d, d ∈ l ↔ (d ∈ g.claims ∧ d ≠ c) ∨ g.lost = some d ∨ g.evicted = some d) ∧
  ∀ (z : Nat) (c : Claim) (s : State),
    let l := (s.zones.get z).claims
    let place := if c.isVoice = true then placeVoice c l else placeResumable c l
    ((s.zones.get z).fields.enabled = false ∨ holdsClaim l c.claimant = true ∨ place = none →
      s.requestClaim z c = (s, false)) ∧
    ∀ g, (s.zones.get z).fields.enabled = true → holdsClaim l c.claimant = false → ClaimsFit l → c.classFits →
      place = some g →
      let t : State := { s with zones := s.zones.put z (s.granted z g) }
      (g.lost = none → s.requestClaim z c = (if g.evicted = none then t else t.reevaluateAssist z, true)) ∧
      ∀ d i x, g.lost = some d → d.claimant = .session i → s.paging.sessions.get i = some x →
        let left := x.zones.map fun e => if e.1 = z then (z, HoldStatus.lost) else e
        ((∃ e ∈ left, e.2 = HoldStatus.held) →
          s.requestClaim z c = (State.reevaluateAssist z { t with paging :=
            { s.paging with sessions := s.paging.sessions.put i (some { x with zones := left }) } }, true)) ∧
        ((∀ e ∈ left, e.2 = HoldStatus.lost) → s.room .down 1 →
          s.requestClaim z c = (((t.freed i x t.zones).queued .down
            [.known ⟨BitVec.ofNat 10 x.source, 0#16, .tone 4#8⟩]).reevaluateAssist z, true))

/-! ### Frames (08; 09) -/

/-- The formation of a frame, once the reports outstanding are taken: every enabled zone goes through its frame, in
ENGAGED mode each writes its sample into its output slot, and every other slot carries what came in. A zone's voice is
the sample of the tap frame in the talk slot that its head's session copied, while that session is LIVE; it is 0 with no
head, with a resumable head, and while the session is in PREANNOUNCE. Zones that are disabled keep their records;
ZONE_SATURATION is set where a sample was clamped. While a reset holds every slot passes (08, R140, R142, R143, R149,
R156, R157; 01, R20, R21; notes/assumptions/10.md). -/
def Obligations.FrameFormation : Prop :=
  ∀ (tap shelf : List Sample) (s : State), tap.length = 512 → shelf.length = 512 →
    (s.lane.phase = .inService →
      let u := s.takeReports
      let engaged := u.maint.mode == Mode.engaged
      let enabled (z : Nat) : Prop := (u.zones.get z).fields.enabled = true
      let slot (z : Nat) : Nat := (u.zones.get z).fields.outputSlot
      let formed (z : Nat) : ZoneFrame :=
        let zn := u.zones.get z
        zn.frame u.prompts engaged (optionalSample tap (u.voiceSlot zn)) (optionalSample tap zn.fields.musicSlot)
          (optionalSample tap zn.fields.senseSlot)
      ∃ zs out,
        let t : State :=
          { u with
            zones := zs
            highwayOut := out
            lane := { u.lane with bridgeHighway := .off }
            paging := { u.paging with frameReport := some (sessionNumbers.filter fun i =>
              (u.paging.sessions.get i).any fun x => x.phase == SessionPhase.preannounce) } }
        ((∀ z, enabled z → (formed z).saturated = false) → exec (.frameFormation tap shelf) s = .next t) ∧
        ((∃ z, enabled z ∧ (formed z).saturated = true) →
          exec (.frameFormation tap shelf) s = .next (t.setFlag .zoneSaturation)) ∧
        (∀ z, enabled z → zs.get z = (formed z).zone) ∧
        (∀ z, ¬ enabled z → zs.get z = u.zones.get z) ∧
        (∀ z,
          let zn := u.zones.get z
          let v := optionalSample tap (u.voiceSlot zn)
          (∀ c rest i x, zn.claims = c :: rest → c.claimant = .session i → u.paging.sessions.get i = some x →
            (x.phase = .live → u.voiceSlot zn = some x.talkSlot ∧ v = (tap.getD x.talkSlot 0#16).toInt) ∧
            (x.phase = .preannounce → u.voiceSlot zn = none ∧ v = 0)) ∧
          (zn.claims = [] ∨ (∃ c rest, zn.claims = c :: rest ∧ ∀ i, c.claimant ≠ .session i) →
            u.voiceSlot zn = none ∧ v = 0)) ∧
        (∀ k, optionalSample tap none = 0 ∧ optionalSample tap (some k) = (tap.getD k 0#16).toInt) ∧
        (∀ z, engaged = true → enabled z → slot z < 512 → (∀ y, enabled y → slot y = slot z → y = z) →
          slotSample (slot z) out = (formed z).out) ∧
        ∀ k, k < 512 → engaged = false ∨ (∀ z, enabled z → slot z ≠ k) →
          slotSample k out = some (shelf.getD k 0#16)) ∧
    (s.lane.phase ≠ .inService →
      ∃ out, exec (.frameFormation tap shelf) s = .next { s with highwayOut := out } ∧
        ∀ k, k < 512 → slotSample k out = some (shelf.getD k 0#16))

/-- A zone's output sample is its unclamped sample clamped to 16 bits, counted where that changes it; the music gain
moves by at most the duck step toward the gain of a zone with a head, or without, and never passes it; a head clears
the noise block, and a quiet frame's magnitude enters it. The quiet frame that is the block's 64th sets the level, the
boost and the loud flag, with a loud change report where the flag changes. A completion report is raised where the
content ends under an ANNOUNCE head. The content sample is the player's: a prompt step copies its entry's start and
length in its first frame and gives the sample at start + k in its k-th; a skipped or played-out one gives way in the
same frame; a tone step reads its descriptor as it begins and gives its triangle sample in an on-frame, else 0, and a
finite one ends with the last frame of its last cycle. The content ends with its last step (08, R141, R142, R144, R147,
R149, R150, R151, R152, R153, R154; 09, R161, R162, R164, R169). -/
def Obligations.ZoneFrameStages : Prop :=
  (∀ (zn : Zone) (pr : Prompts) (engaged : Bool) (v m sense : Int),
    let r := zn.frame pr engaged v m sense
    let f := zn.fields
    let played := pr.play zn.player
    let x := unclamped (zn.accumulate v played.sample m)
    let y := if x < -32768 then -32768 else if 32767 < x then 32767 else x
    let target := if zn.claims = [] then f.musicBase else f.musicDuck
    let before := zn.audio.musicGain
    let after := r.zone.audio.musicGain
    (engaged = true →
      r.out = some (BitVec.ofInt 16 y) ∧ (r.saturated = true ↔ y ≠ x) ∧
      r.zone.saturations = if y ≠ x then min (zn.saturations + 1) 65535 else zn.saturations) ∧
    (engaged = false → r.out = none ∧ r.saturated = false ∧ r.zone.saturations = zn.saturations) ∧
    (before ≤ target + f.duckStep → target ≤ before + f.duckStep → after = target) ∧
    (target + f.duckStep < before → after + f.duckStep = before) ∧
    (before + f.duckStep < target → after = before + f.duckStep) ∧
    (zn.claims ≠ [] → r.zone.audio = { zn.audio with blockSum := 0, blockCount := 0, musicGain := after }) ∧
    (zn.claims = [] →
      let sum := zn.audio.blockSum + (if f.senseSlot = none then 0 else sense.natAbs)
      (zn.audio.blockCount < 63 →
        r.zone.audio =
          { zn.audio with blockSum := sum, blockCount := zn.audio.blockCount + 1, musicGain := after }) ∧
      (63 ≤ zn.audio.blockCount →
        ∃ level : Nat,
          (f.senseSlot = none → level = 0) ∧
          (f.senseSlot ≠ none →
            (level : Int) = zn.audio.noise + Int.tdiv ((sum / 64 : Nat) - (zn.audio.noise : Int)) 16) ∧
          let boost := if f.noiseFloor < level then 1024 + (level - f.noiseFloor) * f.slope / 64 else 1024
          let loud := if f.loudOn ≤ level then true else if level ≤ f.loudOff then false else zn.audio.loud
          r.zone.audio =
            { noise := level, blockSum := 0, blockCount := 0, boost := min boost f.maxBoost, loud := loud
              musicGain := after })) ∧
    (r.zone.loudReport = true ↔ zn.loudReport = true ∨ r.zone.audio.loud ≠ zn.audio.loud) ∧
    (r.zone.completed = true ↔
      zn.completed = true ∨ played.complete = true ∧ ∃ c rest, zn.claims = c :: rest ∧ c.cls = 4) ∧
    r.zone = { zn with player := played.player, audio := r.zone.audio, saturations := r.zone.saturations
                       completed := r.zone.completed, loudReport := r.zone.loudReport }) ∧
  ∀ (pr : Prompts) (n : Nat) (rest : List Step),
    let ends (f : Frame) : Prop :=
      f.player = (if rest = [] then Player.empty else ⟨n + 1, rest, .fresh⟩) ∧ (f.complete = true ↔ rest = [])
    let passed (p : Player) : Prop :=
      pr.play p = if rest = [] then ⟨0, Player.empty, true⟩ else pr.play ⟨n + 1, rest, .fresh⟩
    pr.play Player.empty = ⟨0, Player.empty, false⟩ ∧
    (∀ e,
      (∀ x, pr.directory.get e = some x → 0 < x.length →
        pr.play ⟨n, .prompt e :: rest, .fresh⟩ = pr.play ⟨n, .prompt e :: rest, .prompt x.start x.length 0⟩) ∧
      ((∀ x, pr.directory.get e = some x → x.length = 0) → passed ⟨n, .prompt e :: rest, .fresh⟩) ∧
      ∀ start length k,
        let f := pr.play ⟨n, .prompt e :: rest, .prompt start length k⟩
        (k < length → f.sample = (memRead pr.memory (start + k)).toInt) ∧
        (k + 1 < length ∨ k + 1 = length ∧ rest ≠ [] →
          f.player = ⟨n, .prompt e :: rest, .prompt start length (k + 1)⟩ ∧ f.complete = false) ∧
        (k + 1 = length → rest = [] → f.player = Player.empty ∧ f.complete = true) ∧
        (length ≤ k → passed ⟨n, .prompt e :: rest, .prompt start length k⟩)) ∧
    ∀ d limit,
      (pr.tones.get d = none →
        pr.play ⟨n, .tone d limit :: rest, .fresh⟩ =
          pr.play ⟨n, .tone d limit :: rest, .tone 1 0 0 0 .void 1 0⟩) ∧
      (∀ y, pr.tones.get d = some y → 0 < y.onTime + y.offTime →
        pr.play ⟨n, .tone d limit :: rest, .fresh⟩ = pr.play ⟨n, .tone d limit :: rest,
          if 0 < y.onTime then .tone 1 y.increment y.amplitude (8 * y.offTime) .on (8 * y.onTime) 0
          else .tone 1 y.increment y.amplitude 0 .off (8 * y.offTime) 0⟩) ∧
      ∀ cycle inc amp off part left phase, 0 < left →
        let f := pr.play ⟨n, .tone d limit :: rest, .tone cycle inc amp off part left phase⟩
        let last : Prop := left = 1 ∧ (part = .on → off = 0) ∧ ∃ l, limit = some l ∧ l ≤ cycle
        (part = .on → f.sample = toneSample phase amp) ∧ (part ≠ .on → f.sample = 0) ∧
        (last → ends f) ∧
        (¬ last → f.complete = false ∧ f.player.number = n ∧ f.player.steps = .tone d limit :: rest)

/-- The accumulation is the exact sum of the voice, the content and the music at their gains, and stays within 32 bits;
the unclamped sample is that sum over 1024, a half rounded upward, within its stated range. A tone's on-frame gives its
triangle value at the amplitude, rounded, and then the phase advances; the range of tone samples and the extremes at
the highest amplitude are as stated (08, R148; 09, R163). -/
def Obligations.SampleArithmetic : Prop :=
  (∀ (zn : Zone) (v t m : Int),
    let ge (g : Nat) : Nat := min ((g * zn.audio.boost + 512) / 1024) 4095
    let a : Int := v * ge zn.fields.pageGain + t * ge zn.fields.toneGain + m * zn.audio.musicGain
    zn.accumulate v t m = a ∧
    1024 * unclamped a ≤ a + 512 ∧ a + 512 < 1024 * (unclamped a + 1) ∧
    (zn.audio.musicGain ≤ 4095 → -32768 ≤ v → v ≤ 32767 → -32768 ≤ t → t ≤ 32767 → -32768 ≤ m → m ≤ 32767 →
      (v * ge zn.fields.pageGain).natAbs ≤ 134184960 ∧ (t * ge zn.fields.toneGain).natAbs ≤ 134184960 ∧
      (m * zn.audio.musicGain).natAbs ≤ 134184960 ∧ a.natAbs ≤ 402554880 ∧ (402554880 : Nat) < 2 ^ 31 ∧
      -393120 ≤ unclamped a ∧ unclamped a ≤ 393108)) ∧
  (unclamped 512 = 1 ∧ unclamped 511 = 0 ∧ unclamped (-512) = 0 ∧ unclamped (-513) = -1) ∧
  (∀ (limit : Option Nat) (cycle inc amp offFrames left phase : Nat), phase ≤ 65535 → 0 < left →
    let tri : Int := if phase < 32768 then phase - 16384 else 49151 - phase
    let r := playCycle limit (.tone cycle inc amp offFrames .on left phase)
    (-16384 ≤ tri ∧ tri ≤ 16383) ∧
    16384 * r.sample ≤ tri * amp + 8192 ∧ tri * amp + 8192 < 16384 * (r.sample + 1) ∧
    (1 < left → r.cursor = some (.tone cycle inc amp offFrames .on (left - 1) ((phase + inc) % 65536))) ∧
    (∀ c i a o part k p, r.cursor = some (.tone c i a o part k p) → p = (phase + inc) % 65536) ∧
    (amp ≤ 32767 → (tri * amp).natAbs ≤ 536854528 ∧ (536854528 : Nat) < 2 ^ 31 ∧ -32767 ≤ r.sample ∧
      r.sample ≤ 32766) ∧
    (amp = 32767 → (tri = -16384 → r.sample = -32767) ∧ (tri = 16383 → r.sample = 32765) ∧
      -32767 ≤ r.sample ∧ r.sample ≤ 32765) ∧
    (amp = 0 → r.sample = 0)) ∧
  (∀ phase amp, phase ≤ 65535 → toneSample 0 amp = -(amp : Int) ∧ toneSample 0 amp ≤ toneSample phase amp)

/-! ### The ends of a block, a cycle and a prompt step (08; 09; notes/assumptions/9.md) -/

/-- The quiet frame that is a block's 64th ends it: the level moves a sixteenth of the way to the block's mean, or is 0
with no sense slot; the boost and then the loud flag follow the level; sum and count are 0, and a changed loud flag is
reported. Elsewhere, under a head and in a disabled zone, no block ends (08, R151, R152, R153, R154). -/
def Obligations.NoiseBlockEnds : Prop :=
  ∀ (z : Nat) (sense : Sample) (s : State), s.lane.phase = .inService →
    let zn := s.zones.get z
    let f := zn.fields
    (f.enabled = true → zn.claims = [] → 63 ≤ zn.audio.blockCount →
      ∃ level : Nat,
        (f.senseSlot = none → level = 0) ∧
        (f.senseSlot ≠ none →
          (level : Int) = zn.audio.noise +
            Int.tdiv (((zn.audio.blockSum + sense.toInt.natAbs) / 64 : Nat) - (zn.audio.noise : Int)) 16) ∧
        let boost := if f.noiseFloor < level then 1024 + (level - f.noiseFloor) * f.slope / 64 else 1024
        let loud := if f.loudOn ≤ level then true else if level ≤ f.loudOff then false else zn.audio.loud
        exec (.noiseBlockEnd z sense) s = .next
          { s with
            zones := s.zones.put z
              { zn with
                audio := { zn.audio with noise := level, blockSum := 0, blockCount := 0
                                         boost := min boost f.maxBoost, loud := loud }
                loudReport := zn.loudReport || (loud != zn.audio.loud) } }) ∧
    (f.enabled = false ∨ zn.claims ≠ [] ∨ zn.audio.blockCount < 63 → exec (.noiseBlockEnd z sense) s = .next s)

/-- A tone cycle that has run out is over at its row, and the next is due. The next frame formed starts it, with the row
taken or not: the descriptor as it stands in that frame sets its on-frames and off-frames, eight a millisecond, its
increment and its amplitude, its phase 0; an empty one gives a void cycle of one frame. A finite step counts on; a
repeating one returns to 1 behind its round. A prompt step that has played out gives way to the step behind it, or
leaves the player empty. Else the player stays (09, R161, R162, R164, R169; notes/assumptions/9.md, 34.md). -/
def Obligations.PlayerStepsOn : Prop :=
  (∀ (pr : Prompts) (n d : Nat) (limit : Option Nat) (rest : List Step) (cycle : Nat) (cur : Cursor), 0 < cycle →
    cur = .cycleDue cycle ∨ (∃ inc amp off part phase, cur = .tone cycle inc amp off part 0 phase) →
    let x := pr.tones.get d
    let round := match x with | some y => if y.cycles = 0 then 255 else y.cycles | none => 255
    let next := if limit = none ∧ round ≤ cycle then 1 else cycle + 1
    let steps : List Step := .tone d limit :: rest
    (x = none → pr.play ⟨n, steps, cur⟩ = pr.play ⟨n, steps, .tone next 0 0 0 .void 1 0⟩) ∧
    (∀ y, x = some y → 0 < y.onTime + y.offTime →
      pr.play ⟨n, steps, cur⟩ = pr.play ⟨n, steps,
        if 0 < y.onTime then .tone next y.increment y.amplitude (8 * y.offTime) .on (8 * y.onTime) 0
        else .tone next y.increment y.amplitude 0 .off (8 * y.offTime) 0⟩)) ∧
  ∀ (z : Nat) (s : State), s.lane.phase = .inService →
    let zn := s.zones.get z
    let put (p : Player) : State := { s with zones := s.zones.put z { zn with player := p } }
    (∀ d limit rest cycle inc amp off part phase, zn.player.steps = .tone d limit :: rest →
      zn.player.cursor = .tone cycle inc amp off part 0 phase →
      exec (.toneCycleEnd z) s = .next (put { zn.player with cursor := .cycleDue cycle })) ∧
    ((∀ cycle inc amp off part phase, zn.player.cursor ≠ .tone cycle inc amp off part 0 phase) →
      exec (.toneCycleEnd z) s = .next s) ∧
    (∀ e rest start length, zn.player.steps = .prompt e :: rest → ∀ k, zn.player.cursor = .prompt start length k →
      (length ≤ k → exec (.promptStepEnd z) s =
        .next (put (if rest = [] then Player.empty else ⟨zn.player.number + 1, rest, .fresh⟩))) ∧
      (k < length → exec (.promptStepEnd z) s = .next s)) ∧
    ((∀ start length k, zn.player.cursor ≠ .prompt start length k) → exec (.promptStepEnd z) s = .next s)

/-! ### The mixer's reports (08, R142) -/

/-- A completion report that stands takes the head claim away, and the next claim's content starts from its beginning;
the removal has the zone's assist claim re-evaluated. A loud change report that stands has it re-evaluated and the
beacon chosen again. A re-evaluation counts the zone's ringing stations afresh: an assist claim that is wanted and
absent joins the list as its lowest, the head where the list is empty, and is refused by a list of four; one that is
present and not wanted goes, and where it was head the zone is left with none. A report that does not stand does
nothing. A re-evaluation of every enabled zone does the same to each of them and changes nothing else (05, R92, R93;
07, R128, R129, R136, R137; 08, R142; notes/assumptions/3.md). -/
def Obligations.ZoneReportsTaken : Prop :=
  (∀ s : State, ∃ zs, s.reevaluateAll = { s with zones := zs } ∧ ∀ z,
    let zn := s.zones.get z
    (zn.fields.enabled = true → ClaimsFit zn.claims → zs.get z = s.assisted z zn) ∧
    (zn.fields.enabled = false → zs.get z = zn)) ∧
  ∀ (z : Nat) (s : State),
    let zn := s.zones.get z
    let put (x : Zone) : State := { s with zones := s.zones.put z x }
    (ClaimsFit zn.claims → s.reevaluateAssist z = put (s.assisted z zn)) ∧
    (s.lane.phase = .inService → s.Calm →
      (ClaimsFit zn.claims →
        (zn.completed = true →
          (∀ c rest, zn.claims = c :: rest → exec (.contentCompletion z) s =
            .next (put (s.assisted z (s.headed z { zn with claims := rest, completed := false })))) ∧
          (zn.claims = [] → exec (.contentCompletion z) s = .next (put { zn with completed := false }))) ∧
        (zn.loudReport = true → exec (.loudChange z) s =
          .next (put (s.shows s.alarm.claimed z (s.assisted z { zn with loudReport := false }))))) ∧
      (zn.completed = false → exec (.contentCompletion z) s = .next s) ∧
      (zn.loudReport = false → exec (.loudChange z) s = .next s))

/-- The frame-formed report lowers the count of every session it names that is still in PREANNOUNCE; one whose count
was 1 is LIVE, and the zones it holds carry no prompt step. PREANNOUNCE_END takes this for one session whose count has
come to its end. Nothing else of the part changes; neither does anything where it does not stand (07, R133; 08, R142,
R145; notes/assumptions/9.md). -/
def Obligations.PreannounceCounts : Prop :=
  ∀ s : State, s.lane.phase = .inService → s.Calm →
    let report := s.paging.frameReport
    (∀ l, report = some l → l.Nodup →
      ∃ ss zs,
        exec .frameFormed s = .next
          { s with zones := zs, paging := { s.paging with sessions := ss, frameReport := none } } ∧
        (∀ i, i ∉ l → ss.get i = s.paging.sessions.get i) ∧
        (∀ i ∈ l, ss.get i = (s.paging.sessions.get i).map fun x =>
          if x.phase = .preannounce then
            (if x.frames ≤ 1 then { x with phase := .live, frames := 0 } else { x with frames := x.frames - 1 })
          else x) ∧
        ∀ z, (∃ i ∈ l, ∃ x, s.paging.sessions.get i = some x ∧ x.phase = .preannounce ∧ x.frames ≤ 1 ∧
            (z, HoldStatus.held) ∈ x.zones) ∧ zs.get z = { s.zones.get z with player := Player.empty } ∨
          zs.get z = s.zones.get z ∧ ∀ i ∈ l, ∀ x, s.paging.sessions.get i = some x → x.phase = .preannounce →
            x.frames ≤ 1 → (z, HoldStatus.held) ∉ x.zones) ∧
    (report = none → exec .frameFormed s = .next s) ∧
    ∀ i,
      (∀ x, s.paging.sessions.get i = some x → x.phase = .preannounce →
        x.frames = 0 ∨ x.frames = 1 ∧ (∃ l, report = some l ∧ i ∈ l) →
        ∃ zs,
          exec (.preannounceEnd i) s = .next
            { s with zones := zs
                     paging :=
                       { s.paging with
                         sessions := s.paging.sessions.put i (some { x with phase := .live, frames := 0 })
                         frameReport := report.map fun l => l.filter (· ≠ i) } } ∧
          ∀ z, zs.get z = if (z, HoldStatus.held) ∈ x.zones then { s.zones.get z with player := Player.empty }
            else s.zones.get z) ∧
      ((∀ x, s.paging.sessions.get i = some x → x.phase = .preannounce →
          1 < x.frames ∨ x.frames = 1 ∧ (∀ l, report = some l → i ∉ l)) →
        exec (.preannounceEnd i) s = .next s)

/-! ### Every step (all blocks) -/

/-- Every step keeps every block in a good state: the outgoing queues, the hunt tables and the strikes bounded,
counters stopped, claim lists in their form, the unused flag bit 0, prompt memory in its one form. So it keeps what one
block says of another: an occupied orbit names a QUEUED record that holds it, and no record both awaits an orbit and
holds one; the ringing set has exactly the RINGING stations, each once and with its call; each zone of the claimed list
has the alarm's claim, each zone a session holds the session's, and both are enabled; a completion report stands for an
ANNOUNCE head only (01, R3, R16, R19; 02, 2.1; 04, R65, R66; 05, R91 to R93; 06, R105, R106; 07, R125, R132, R134; 08,
R142; 09, R166; 10, R174, R175; 11, R190). -/
def Obligations.EveryStepKeepsFits : Prop := ∀ s t : State, s.Fits → step s = .next t → t.Fits

/-- The part right after reset is in a good state, its tables, queues, sets and lists empty (11, R186). -/
def Obligations.ResetFits : Prop := State.reset.Fits

/-- An attention flag that was set and is clear after a command was cleared by an ATTENTION_CLEAR that names it, or by
the end of a POWER or PIN reset; the attention mask changes only by the two mask requests, a RESTART or the end of a
POWER or PIN reset (11, R186, R192, R194). -/
def Obligations.FlagsClearedOnlyByRequest : Prop :=
  ∀ (c : Instr) (s t : State), c.wf = true → exec c s = .next t →
    let ended : Prop :=
      (∃ straps, c = .powerOnResetEnd straps) ∧ s.lane.phase = .powerReset ∨
      (∃ straps, c = .resetNRelease straps) ∧ s.lane.phase = .pinReset
    let brings (kind : Byte) (args : List Byte) : Prop :=
      s.lane.phase = .inService ∧ ∃ call tag, cellOf s.lane.own c = some (.down, ⟨s.lane.own, call, .maint tag kind args⟩)
    (∀ f, hasFlag s.maint.flags f = true → hasFlag t.maint.flags f = false →
      ended ∨ ∃ x1 x2 : Byte, brings 21#8 [x1, x2] ∧ hasFlag (x1 ++ x2) f = true) ∧
    (t.maint.mask ≠ s.maint.mask → ended ∨ ∃ args, brings 22#8 args ∨ brings 23#8 args ∨ brings 7#8 args)

/-- The configuration changes only by a WRITE_ENTRY or a CLEAR_ENTRY and at the end of a reset; the active bank only by
a reset, by a COMMIT_EXPIRY that is due, or by a COMMIT of delay 0, whose expiry is due as it is accepted, as the
staged bank it then equals (03, R46, R49, R52, R55, R57; 11, R183, R186; notes/assumptions/2.md). -/
def Obligations.ConfigurationChangesOnlyByRequest : Prop :=
  ∀ (c : Instr) (s t : State), c.wf = true → exec c s = .next t →
    let ended : Prop := (∃ straps, c = .powerOnResetEnd straps) ∨ ∃ straps, c = .resetNRelease straps
    let writes : Prop :=
      s.lane.phase = .inService ∧ ∃ call tag kind args, (kind = 2#8 ∨ kind = 3#8) ∧
        cellOf s.lane.own c = some (.down, ⟨s.lane.own, call, .maint tag kind args⟩)
    let config (n : Nat) (u : State) :=
      let st := u.stations.get n
      (st.dn, st.talkSlot, st.homeZone, st.pickupGroup, st.authority, st.ringAssist)
    ((¬ ended → ¬ writes →
        t.hunt.staged = s.hunt.staged ∧ t.codes = s.codes ∧ t.pickup.partners = s.pickup.partners ∧
        t.paging.zoneSets = s.paging.zoneSets ∧ t.paging.params = s.paging.params ∧
        t.prompts.directory = s.prompts.directory ∧ t.prompts.tones = s.prompts.tones ∧
        (∀ n, config n t = config n s) ∧ ∀ z, (t.zones.get z).fields = (s.zones.get z).fields) ∧
      (t.hunt.active = s.hunt.active ∨ ended ∨
        t.hunt.active = s.hunt.staged ∧ s.lane.phase = .inService ∧
          (c = .commitExpiry ∧ (∃ d, s.hunt.countdown = some d ∧ d ≤ s.clock) ∨
            ∃ call tag, cellOf s.lane.own c =
              some (.down, ⟨s.lane.own, call, .maint tag 4#8 [0#8, 0#8, 0#8]⟩))))
end

