-- ==== Sys2Proof/Laws/Assist.lean ====
section
/-! SUPPORT. The re-evaluation of assist claims (07, R136): it changes zones only, and what it makes of them follows from
the zones, the ringing set, the stations' ring assist and home zone, the mode, the assist tone, the claimed list and the
clock alone. -/

namespace Sys2Proof.Machine

variable {s t : State}

/-! ### It changes zones only -/

/-- A part with other zones and nothing else changed. -/
def State.zonesOnly (s t : State) : Prop := t = { s with zones := t.zones }

theorem State.zonesOnly.rfl : s.zonesOnly s := Eq.refl s

theorem State.zonesOnly.trans {u : State} (h : s.zonesOnly t) (k : t.zonesOnly u) : s.zonesOnly u := by
  unfold State.zonesOnly at *; rw [k, h]

theorem State.modZone_zonesOnly (z : Nat) (f : Zone → Zone) : s.zonesOnly (s.modZone z f) := Eq.refl _

theorem State.chooseBeacon_zonesOnly (z : Nat) : s.zonesOnly (s.chooseBeacon z) := by
  unfold State.chooseBeacon; dsimp only; split
  · exact .rfl
  · exact s.modZone_zonesOnly z _

theorem State.headChange_zonesOnly (z : Nat) : s.zonesOnly (s.headChange z) :=
  (s.modZone_zonesOnly z _).trans (State.chooseBeacon_zonesOnly z)

theorem State.applyGrant_zonesOnly (z : Nat) (g : Grant) : s.zonesOnly (s.applyGrant z g) := by
  unfold State.applyGrant; dsimp only; split
  · exact (s.modZone_zonesOnly z _).trans (State.headChange_zonesOnly z)
  · exact s.modZone_zonesOnly z _

theorem State.removeClaim_zonesOnly (z : Nat) (who : Claimant) : s.zonesOnly (s.removeClaim z who) := by
  unfold State.removeClaim; dsimp only; split
  · have k (b : Bool) : s.zonesOnly (if b = true then
        (s.modZone z fun zn => { zn with claims := zn.claims.filter fun c => c.claimant ≠ who }).headChange z
        else s.modZone z fun zn => { zn with claims := zn.claims.filter fun c => c.claimant ≠ who }) := by
      cases b
      · rw [if_neg Bool.false_ne_true]; exact s.modZone_zonesOnly z _
      · rw [if_pos rfl]; exact (s.modZone_zonesOnly z _).trans (State.headChange_zonesOnly z)
    exact k _
  · exact .rfl

theorem State.reevaluateAssist_zonesOnly (z : Nat) : s.zonesOnly (s.reevaluateAssist z) := by
  refine (s.modZone_zonesOnly z _).trans (t := s.countAssist z) ?_
  unfold State.reevaluateAssist; dsimp only
  repeat' split
  all_goals first
    | exact .rfl
    | exact State.applyGrant_zonesOnly z _
    | exact State.removeClaim_zonesOnly z _

theorem State.reevaluateAll_zonesOnly (s : State) : s.zonesOnly s.reevaluateAll := by
  unfold State.reevaluateAll
  generalize s.enabledZones = l
  induction l generalizing s with
  | nil => exact .rfl
  | cons z l ih => exact (State.reevaluateAssist_zonesOnly z).trans (ih _)

theorem State.ringingRemove_zonesOnly (n : Nat) (s : State) :
    s.ringingRemove n = { s with
      zones := (s.ringingRemove n).zones
      pickup := { s.pickup with ringing := s.pickup.ringing.filter fun e => e.station ≠ n } } := by
  unfold State.ringingRemove
  split
  · exact (State.reevaluateAll_zonesOnly _)
  · rename_i h
    rw [List.filter_eq_self.mpr fun e he => by simpa using fun x => h (List.any_eq_true.mpr ⟨e, he, by simpa using x⟩)]

/-! ### What it depends on -/

/-- Two parts that agree on all that the re-evaluation of assist claims reads. -/
structure State.SameAssist (s t : State) : Prop where
  zones : s.zones = t.zones
  ringing : s.pickup.ringing = t.pickup.ringing
  assist : ∀ n, (s.stations.get n).ringAssist = (t.stations.get n).ringAssist
  home : ∀ n, (s.stations.get n).homeZone = (t.stations.get n).homeZone
  mode : s.maint.mode = t.maint.mode
  tone : s.paging.params.assistTone = t.paging.params.assistTone
  claimed : s.alarm.claimed = t.alarm.claimed
  clock : s.clock = t.clock

theorem State.SameAssist.modZone (h : s.SameAssist t) (z : Nat) (f : Zone → Zone) :
    (s.modZone z f).SameAssist (t.modZone z f) :=
  { h with zones := by simp only [State.modZone, h.zones] }

theorem State.SameAssist.chooseBeacon (h : s.SameAssist t) (z : Nat) : (s.chooseBeacon z).SameAssist (t.chooseBeacon z) := by
  have hp : s.beaconPattern z = t.beaconPattern z := by simp only [State.beaconPattern, h.zones, h.claimed]
  unfold State.chooseBeacon; dsimp only; rw [hp, h.zones, h.clock]; split
  · exact h
  · exact h.modZone z _

theorem State.SameAssist.headChange (h : s.SameAssist t) (z : Nat) : (s.headChange z).SameAssist (t.headChange z) :=
  (h.modZone z _).chooseBeacon z

theorem State.SameAssist.applyGrant (h : s.SameAssist t) (z : Nat) (g : Grant) :
    (s.applyGrant z g).SameAssist (t.applyGrant z g) := by
  unfold State.applyGrant; dsimp only; rw [h.zones]; split
  · exact (h.modZone z _).headChange z
  · exact h.modZone z _

theorem State.SameAssist.removeClaim (h : s.SameAssist t) (z : Nat) (who : Claimant) :
    (s.removeClaim z who).SameAssist (t.removeClaim z who) := by
  unfold State.removeClaim; dsimp only; rw [h.zones]; split
  · have k (b : Bool) (f : Zone → Zone) : State.SameAssist
        (if b = true then (s.modZone z f).headChange z else s.modZone z f)
        (if b = true then (t.modZone z f).headChange z else t.modZone z f) := by
      cases b
      · rw [if_neg Bool.false_ne_true, if_neg Bool.false_ne_true]; exact h.modZone z f
      · rw [if_pos rfl, if_pos rfl]; exact (h.modZone z f).headChange z
    exact k _ _
  · exact h

theorem State.SameAssist.count (h : s.SameAssist t) (z : Nat) : s.assistCount z = t.assistCount z := by
  simp only [State.assistCount, h.ringing, h.assist, h.home]

theorem State.SameAssist.reevaluateAssist (h : s.SameAssist t) (z : Nat) :
    (s.reevaluateAssist z).SameAssist (t.reevaluateAssist z) := by
  have k : (s.countAssist z).SameAssist (t.countAssist z) := by
    unfold State.countAssist; rw [h.count z]; exact h.modZone z _
  have hw : (s.countAssist z).assistWanted z = (t.countAssist z).assistWanted z := by
    simp only [State.assistWanted, State.zoneEnabled, k.mode, k.zones, k.count z]
  have hc : (s.countAssist z).assistClaim = (t.countAssist z).assistClaim := by simp only [State.assistClaim, k.tone]
  unfold State.reevaluateAssist; dsimp only; rw [hw, hc, k.zones]
  repeat' split
  all_goals first
    | exact k
    | exact k.applyGrant z _
    | exact k.removeClaim z _

/-- Parts that agree on what it reads are left with the same zones. -/
theorem State.SameAssist.reevaluateAll (h : s.SameAssist t) : s.reevaluateAll.SameAssist t.reevaluateAll := by
  have e : s.enabledZones = t.enabledZones := by
    simp only [State.enabledZones, funext fun z => show s.zoneEnabled z = t.zoneEnabled z by
      simp only [State.zoneEnabled, h.zones]]
  unfold State.reevaluateAll; rw [e]
  generalize t.enabledZones = l
  clear e
  induction l generalizing s t with
  | nil => exact h
  | cons z l ih => exact ih (h.reevaluateAssist z)

theorem State.SameAssist.ringingRemove (h : s.SameAssist t) (n : Nat) :
    (s.ringingRemove n).SameAssist (t.ringingRemove n) := by
  unfold State.ringingRemove; rw [h.ringing]; split
  · exact State.SameAssist.reevaluateAll { h with ringing := by simp only [State.modPickup, h.ringing] }
  · exact h

end Sys2Proof.Machine
end

