-- ==== Sys2Proof/Laws/State.lean ====
section
/-! SUPPORT. The record updates of State: one lemma per field per update, so that no proof unfolds an update. -/

namespace Sys2Proof.Machine

variable (s : State)

/-! ### modLane -/

@[simp] theorem State.modLane_lane (f : Lane → Lane) : (s.modLane f).lane = f s.lane := rfl
@[simp] theorem State.modLane_stations (f : Lane → Lane) : (s.modLane f).stations = s.stations := rfl
@[simp] theorem State.modLane_codes (f : Lane → Lane) : (s.modLane f).codes = s.codes := rfl
@[simp] theorem State.modLane_hunt (f : Lane → Lane) : (s.modLane f).hunt = s.hunt := rfl
@[simp] theorem State.modLane_orbits (f : Lane → Lane) : (s.modLane f).orbits = s.orbits := rfl
@[simp] theorem State.modLane_pickup (f : Lane → Lane) : (s.modLane f).pickup = s.pickup := rfl
@[simp] theorem State.modLane_paging (f : Lane → Lane) : (s.modLane f).paging = s.paging := rfl
@[simp] theorem State.modLane_zones (f : Lane → Lane) : (s.modLane f).zones = s.zones := rfl
@[simp] theorem State.modLane_prompts (f : Lane → Lane) : (s.modLane f).prompts = s.prompts := rfl
@[simp] theorem State.modLane_alarm (f : Lane → Lane) : (s.modLane f).alarm = s.alarm := rfl
@[simp] theorem State.modLane_maint (f : Lane → Lane) : (s.modLane f).maint = s.maint := rfl
@[simp] theorem State.modLane_clock (f : Lane → Lane) : (s.modLane f).clock = s.clock := rfl
@[simp] theorem State.modLane_highwayOut (f : Lane → Lane) : (s.modLane f).highwayOut = s.highwayOut := rfl
@[simp] theorem State.modLane_pending (f : Lane → Lane) : (s.modLane f).pending = s.pending := rfl

/-! ### modHunt -/

@[simp] theorem State.modHunt_lane (f : Hunt → Hunt) : (s.modHunt f).lane = s.lane := rfl
@[simp] theorem State.modHunt_stations (f : Hunt → Hunt) : (s.modHunt f).stations = s.stations := rfl
@[simp] theorem State.modHunt_codes (f : Hunt → Hunt) : (s.modHunt f).codes = s.codes := rfl
@[simp] theorem State.modHunt_hunt (f : Hunt → Hunt) : (s.modHunt f).hunt = f s.hunt := rfl
@[simp] theorem State.modHunt_orbits (f : Hunt → Hunt) : (s.modHunt f).orbits = s.orbits := rfl
@[simp] theorem State.modHunt_pickup (f : Hunt → Hunt) : (s.modHunt f).pickup = s.pickup := rfl
@[simp] theorem State.modHunt_paging (f : Hunt → Hunt) : (s.modHunt f).paging = s.paging := rfl
@[simp] theorem State.modHunt_zones (f : Hunt → Hunt) : (s.modHunt f).zones = s.zones := rfl
@[simp] theorem State.modHunt_prompts (f : Hunt → Hunt) : (s.modHunt f).prompts = s.prompts := rfl
@[simp] theorem State.modHunt_alarm (f : Hunt → Hunt) : (s.modHunt f).alarm = s.alarm := rfl
@[simp] theorem State.modHunt_maint (f : Hunt → Hunt) : (s.modHunt f).maint = s.maint := rfl
@[simp] theorem State.modHunt_clock (f : Hunt → Hunt) : (s.modHunt f).clock = s.clock := rfl
@[simp] theorem State.modHunt_highwayOut (f : Hunt → Hunt) : (s.modHunt f).highwayOut = s.highwayOut := rfl
@[simp] theorem State.modHunt_pending (f : Hunt → Hunt) : (s.modHunt f).pending = s.pending := rfl

/-! ### modPickup -/

@[simp] theorem State.modPickup_lane (f : Pickup → Pickup) : (s.modPickup f).lane = s.lane := rfl
@[simp] theorem State.modPickup_stations (f : Pickup → Pickup) : (s.modPickup f).stations = s.stations := rfl
@[simp] theorem State.modPickup_codes (f : Pickup → Pickup) : (s.modPickup f).codes = s.codes := rfl
@[simp] theorem State.modPickup_hunt (f : Pickup → Pickup) : (s.modPickup f).hunt = s.hunt := rfl
@[simp] theorem State.modPickup_orbits (f : Pickup → Pickup) : (s.modPickup f).orbits = s.orbits := rfl
@[simp] theorem State.modPickup_pickup (f : Pickup → Pickup) : (s.modPickup f).pickup = f s.pickup := rfl
@[simp] theorem State.modPickup_paging (f : Pickup → Pickup) : (s.modPickup f).paging = s.paging := rfl
@[simp] theorem State.modPickup_zones (f : Pickup → Pickup) : (s.modPickup f).zones = s.zones := rfl
@[simp] theorem State.modPickup_prompts (f : Pickup → Pickup) : (s.modPickup f).prompts = s.prompts := rfl
@[simp] theorem State.modPickup_alarm (f : Pickup → Pickup) : (s.modPickup f).alarm = s.alarm := rfl
@[simp] theorem State.modPickup_maint (f : Pickup → Pickup) : (s.modPickup f).maint = s.maint := rfl
@[simp] theorem State.modPickup_clock (f : Pickup → Pickup) : (s.modPickup f).clock = s.clock := rfl
@[simp] theorem State.modPickup_highwayOut (f : Pickup → Pickup) : (s.modPickup f).highwayOut = s.highwayOut := rfl
@[simp] theorem State.modPickup_pending (f : Pickup → Pickup) : (s.modPickup f).pending = s.pending := rfl

/-! ### modPaging -/

@[simp] theorem State.modPaging_lane (f : Paging → Paging) : (s.modPaging f).lane = s.lane := rfl
@[simp] theorem State.modPaging_stations (f : Paging → Paging) : (s.modPaging f).stations = s.stations := rfl
@[simp] theorem State.modPaging_codes (f : Paging → Paging) : (s.modPaging f).codes = s.codes := rfl
@[simp] theorem State.modPaging_hunt (f : Paging → Paging) : (s.modPaging f).hunt = s.hunt := rfl
@[simp] theorem State.modPaging_orbits (f : Paging → Paging) : (s.modPaging f).orbits = s.orbits := rfl
@[simp] theorem State.modPaging_pickup (f : Paging → Paging) : (s.modPaging f).pickup = s.pickup := rfl
@[simp] theorem State.modPaging_paging (f : Paging → Paging) : (s.modPaging f).paging = f s.paging := rfl
@[simp] theorem State.modPaging_zones (f : Paging → Paging) : (s.modPaging f).zones = s.zones := rfl
@[simp] theorem State.modPaging_prompts (f : Paging → Paging) : (s.modPaging f).prompts = s.prompts := rfl
@[simp] theorem State.modPaging_alarm (f : Paging → Paging) : (s.modPaging f).alarm = s.alarm := rfl
@[simp] theorem State.modPaging_maint (f : Paging → Paging) : (s.modPaging f).maint = s.maint := rfl
@[simp] theorem State.modPaging_clock (f : Paging → Paging) : (s.modPaging f).clock = s.clock := rfl
@[simp] theorem State.modPaging_highwayOut (f : Paging → Paging) : (s.modPaging f).highwayOut = s.highwayOut := rfl
@[simp] theorem State.modPaging_pending (f : Paging → Paging) : (s.modPaging f).pending = s.pending := rfl

/-! ### modPrompts -/

@[simp] theorem State.modPrompts_lane (f : Prompts → Prompts) : (s.modPrompts f).lane = s.lane := rfl
@[simp] theorem State.modPrompts_stations (f : Prompts → Prompts) : (s.modPrompts f).stations = s.stations := rfl
@[simp] theorem State.modPrompts_codes (f : Prompts → Prompts) : (s.modPrompts f).codes = s.codes := rfl
@[simp] theorem State.modPrompts_hunt (f : Prompts → Prompts) : (s.modPrompts f).hunt = s.hunt := rfl
@[simp] theorem State.modPrompts_orbits (f : Prompts → Prompts) : (s.modPrompts f).orbits = s.orbits := rfl
@[simp] theorem State.modPrompts_pickup (f : Prompts → Prompts) : (s.modPrompts f).pickup = s.pickup := rfl
@[simp] theorem State.modPrompts_paging (f : Prompts → Prompts) : (s.modPrompts f).paging = s.paging := rfl
@[simp] theorem State.modPrompts_zones (f : Prompts → Prompts) : (s.modPrompts f).zones = s.zones := rfl
@[simp] theorem State.modPrompts_prompts (f : Prompts → Prompts) : (s.modPrompts f).prompts = f s.prompts := rfl
@[simp] theorem State.modPrompts_alarm (f : Prompts → Prompts) : (s.modPrompts f).alarm = s.alarm := rfl
@[simp] theorem State.modPrompts_maint (f : Prompts → Prompts) : (s.modPrompts f).maint = s.maint := rfl
@[simp] theorem State.modPrompts_clock (f : Prompts → Prompts) : (s.modPrompts f).clock = s.clock := rfl
@[simp] theorem State.modPrompts_highwayOut (f : Prompts → Prompts) :
    (s.modPrompts f).highwayOut = s.highwayOut := rfl
@[simp] theorem State.modPrompts_pending (f : Prompts → Prompts) : (s.modPrompts f).pending = s.pending := rfl

/-! ### modAlarm -/

@[simp] theorem State.modAlarm_lane (f : Alarm → Alarm) : (s.modAlarm f).lane = s.lane := rfl
@[simp] theorem State.modAlarm_stations (f : Alarm → Alarm) : (s.modAlarm f).stations = s.stations := rfl
@[simp] theorem State.modAlarm_codes (f : Alarm → Alarm) : (s.modAlarm f).codes = s.codes := rfl
@[simp] theorem State.modAlarm_hunt (f : Alarm → Alarm) : (s.modAlarm f).hunt = s.hunt := rfl
@[simp] theorem State.modAlarm_orbits (f : Alarm → Alarm) : (s.modAlarm f).orbits = s.orbits := rfl
@[simp] theorem State.modAlarm_pickup (f : Alarm → Alarm) : (s.modAlarm f).pickup = s.pickup := rfl
@[simp] theorem State.modAlarm_paging (f : Alarm → Alarm) : (s.modAlarm f).paging = s.paging := rfl
@[simp] theorem State.modAlarm_zones (f : Alarm → Alarm) : (s.modAlarm f).zones = s.zones := rfl
@[simp] theorem State.modAlarm_prompts (f : Alarm → Alarm) : (s.modAlarm f).prompts = s.prompts := rfl
@[simp] theorem State.modAlarm_alarm (f : Alarm → Alarm) : (s.modAlarm f).alarm = f s.alarm := rfl
@[simp] theorem State.modAlarm_maint (f : Alarm → Alarm) : (s.modAlarm f).maint = s.maint := rfl
@[simp] theorem State.modAlarm_clock (f : Alarm → Alarm) : (s.modAlarm f).clock = s.clock := rfl
@[simp] theorem State.modAlarm_highwayOut (f : Alarm → Alarm) : (s.modAlarm f).highwayOut = s.highwayOut := rfl
@[simp] theorem State.modAlarm_pending (f : Alarm → Alarm) : (s.modAlarm f).pending = s.pending := rfl

/-! ### modMaint -/

@[simp] theorem State.modMaint_lane (f : Maint → Maint) : (s.modMaint f).lane = s.lane := rfl
@[simp] theorem State.modMaint_stations (f : Maint → Maint) : (s.modMaint f).stations = s.stations := rfl
@[simp] theorem State.modMaint_codes (f : Maint → Maint) : (s.modMaint f).codes = s.codes := rfl
@[simp] theorem State.modMaint_hunt (f : Maint → Maint) : (s.modMaint f).hunt = s.hunt := rfl
@[simp] theorem State.modMaint_orbits (f : Maint → Maint) : (s.modMaint f).orbits = s.orbits := rfl
@[simp] theorem State.modMaint_pickup (f : Maint → Maint) : (s.modMaint f).pickup = s.pickup := rfl
@[simp] theorem State.modMaint_paging (f : Maint → Maint) : (s.modMaint f).paging = s.paging := rfl
@[simp] theorem State.modMaint_zones (f : Maint → Maint) : (s.modMaint f).zones = s.zones := rfl
@[simp] theorem State.modMaint_prompts (f : Maint → Maint) : (s.modMaint f).prompts = s.prompts := rfl
@[simp] theorem State.modMaint_alarm (f : Maint → Maint) : (s.modMaint f).alarm = s.alarm := rfl
@[simp] theorem State.modMaint_maint (f : Maint → Maint) : (s.modMaint f).maint = f s.maint := rfl
@[simp] theorem State.modMaint_clock (f : Maint → Maint) : (s.modMaint f).clock = s.clock := rfl
@[simp] theorem State.modMaint_highwayOut (f : Maint → Maint) : (s.modMaint f).highwayOut = s.highwayOut := rfl
@[simp] theorem State.modMaint_pending (f : Maint → Maint) : (s.modMaint f).pending = s.pending := rfl

/-! ### modStation -/

@[simp] theorem State.modStation_lane (n : Nat) (f : Station → Station) : (s.modStation n f).lane = s.lane := rfl
@[simp] theorem State.modStation_stations (n : Nat) (f : Station → Station) :
    (s.modStation n f).stations = s.stations.put n (f (s.stations.get n)) := rfl
@[simp] theorem State.modStation_codes (n : Nat) (f : Station → Station) : (s.modStation n f).codes = s.codes := rfl
@[simp] theorem State.modStation_hunt (n : Nat) (f : Station → Station) : (s.modStation n f).hunt = s.hunt := rfl
@[simp] theorem State.modStation_orbits (n : Nat) (f : Station → Station) :
    (s.modStation n f).orbits = s.orbits := rfl
@[simp] theorem State.modStation_pickup (n : Nat) (f : Station → Station) :
    (s.modStation n f).pickup = s.pickup := rfl
@[simp] theorem State.modStation_paging (n : Nat) (f : Station → Station) :
    (s.modStation n f).paging = s.paging := rfl
@[simp] theorem State.modStation_zones (n : Nat) (f : Station → Station) : (s.modStation n f).zones = s.zones := rfl
@[simp] theorem State.modStation_prompts (n : Nat) (f : Station → Station) :
    (s.modStation n f).prompts = s.prompts := rfl
@[simp] theorem State.modStation_alarm (n : Nat) (f : Station → Station) : (s.modStation n f).alarm = s.alarm := rfl
@[simp] theorem State.modStation_maint (n : Nat) (f : Station → Station) : (s.modStation n f).maint = s.maint := rfl
@[simp] theorem State.modStation_clock (n : Nat) (f : Station → Station) : (s.modStation n f).clock = s.clock := rfl
@[simp] theorem State.modStation_highwayOut (n : Nat) (f : Station → Station) :
    (s.modStation n f).highwayOut = s.highwayOut := rfl
@[simp] theorem State.modStation_pending (n : Nat) (f : Station → Station) :
    (s.modStation n f).pending = s.pending := rfl

/-! ### modZone -/

@[simp] theorem State.modZone_lane (n : Nat) (f : Zone → Zone) : (s.modZone n f).lane = s.lane := rfl
@[simp] theorem State.modZone_stations (n : Nat) (f : Zone → Zone) : (s.modZone n f).stations = s.stations := rfl
@[simp] theorem State.modZone_codes (n : Nat) (f : Zone → Zone) : (s.modZone n f).codes = s.codes := rfl
@[simp] theorem State.modZone_hunt (n : Nat) (f : Zone → Zone) : (s.modZone n f).hunt = s.hunt := rfl
@[simp] theorem State.modZone_orbits (n : Nat) (f : Zone → Zone) : (s.modZone n f).orbits = s.orbits := rfl
@[simp] theorem State.modZone_pickup (n : Nat) (f : Zone → Zone) : (s.modZone n f).pickup = s.pickup := rfl
@[simp] theorem State.modZone_paging (n : Nat) (f : Zone → Zone) : (s.modZone n f).paging = s.paging := rfl
@[simp] theorem State.modZone_zones (n : Nat) (f : Zone → Zone) :
    (s.modZone n f).zones = s.zones.put n (f (s.zones.get n)) := rfl
@[simp] theorem State.modZone_prompts (n : Nat) (f : Zone → Zone) : (s.modZone n f).prompts = s.prompts := rfl
@[simp] theorem State.modZone_alarm (n : Nat) (f : Zone → Zone) : (s.modZone n f).alarm = s.alarm := rfl
@[simp] theorem State.modZone_maint (n : Nat) (f : Zone → Zone) : (s.modZone n f).maint = s.maint := rfl
@[simp] theorem State.modZone_clock (n : Nat) (f : Zone → Zone) : (s.modZone n f).clock = s.clock := rfl
@[simp] theorem State.modZone_highwayOut (n : Nat) (f : Zone → Zone) :
    (s.modZone n f).highwayOut = s.highwayOut := rfl
@[simp] theorem State.modZone_pending (n : Nat) (f : Zone → Zone) : (s.modZone n f).pending = s.pending := rfl

/-! ### setOrbit -/

@[simp] theorem State.setOrbit_lane (n : Nat) (o : Option Orbit) : (s.setOrbit n o).lane = s.lane := rfl
@[simp] theorem State.setOrbit_stations (n : Nat) (o : Option Orbit) : (s.setOrbit n o).stations = s.stations := rfl
@[simp] theorem State.setOrbit_codes (n : Nat) (o : Option Orbit) : (s.setOrbit n o).codes = s.codes := rfl
@[simp] theorem State.setOrbit_hunt (n : Nat) (o : Option Orbit) : (s.setOrbit n o).hunt = s.hunt := rfl
@[simp] theorem State.setOrbit_orbits (n : Nat) (o : Option Orbit) : (s.setOrbit n o).orbits = s.orbits.put n o := rfl
@[simp] theorem State.setOrbit_pickup (n : Nat) (o : Option Orbit) : (s.setOrbit n o).pickup = s.pickup := rfl
@[simp] theorem State.setOrbit_paging (n : Nat) (o : Option Orbit) : (s.setOrbit n o).paging = s.paging := rfl
@[simp] theorem State.setOrbit_zones (n : Nat) (o : Option Orbit) : (s.setOrbit n o).zones = s.zones := rfl
@[simp] theorem State.setOrbit_prompts (n : Nat) (o : Option Orbit) : (s.setOrbit n o).prompts = s.prompts := rfl
@[simp] theorem State.setOrbit_alarm (n : Nat) (o : Option Orbit) : (s.setOrbit n o).alarm = s.alarm := rfl
@[simp] theorem State.setOrbit_maint (n : Nat) (o : Option Orbit) : (s.setOrbit n o).maint = s.maint := rfl
@[simp] theorem State.setOrbit_clock (n : Nat) (o : Option Orbit) : (s.setOrbit n o).clock = s.clock := rfl
@[simp] theorem State.setOrbit_highwayOut (n : Nat) (o : Option Orbit) :
    (s.setOrbit n o).highwayOut = s.highwayOut := rfl
@[simp] theorem State.setOrbit_pending (n : Nat) (o : Option Orbit) : (s.setOrbit n o).pending = s.pending := rfl

/-! ### setCode -/

@[simp] theorem State.setCode_lane (n : Nat) (e : Option AccessCode) : (s.setCode n e).lane = s.lane := rfl
@[simp] theorem State.setCode_stations (n : Nat) (e : Option AccessCode) :
    (s.setCode n e).stations = s.stations := rfl
@[simp] theorem State.setCode_codes (n : Nat) (e : Option AccessCode) : (s.setCode n e).codes = s.codes.put n e := rfl
@[simp] theorem State.setCode_hunt (n : Nat) (e : Option AccessCode) : (s.setCode n e).hunt = s.hunt := rfl
@[simp] theorem State.setCode_orbits (n : Nat) (e : Option AccessCode) : (s.setCode n e).orbits = s.orbits := rfl
@[simp] theorem State.setCode_pickup (n : Nat) (e : Option AccessCode) : (s.setCode n e).pickup = s.pickup := rfl
@[simp] theorem State.setCode_paging (n : Nat) (e : Option AccessCode) : (s.setCode n e).paging = s.paging := rfl
@[simp] theorem State.setCode_zones (n : Nat) (e : Option AccessCode) : (s.setCode n e).zones = s.zones := rfl
@[simp] theorem State.setCode_prompts (n : Nat) (e : Option AccessCode) : (s.setCode n e).prompts = s.prompts := rfl
@[simp] theorem State.setCode_alarm (n : Nat) (e : Option AccessCode) : (s.setCode n e).alarm = s.alarm := rfl
@[simp] theorem State.setCode_maint (n : Nat) (e : Option AccessCode) : (s.setCode n e).maint = s.maint := rfl
@[simp] theorem State.setCode_clock (n : Nat) (e : Option AccessCode) : (s.setCode n e).clock = s.clock := rfl
@[simp] theorem State.setCode_highwayOut (n : Nat) (e : Option AccessCode) :
    (s.setCode n e).highwayOut = s.highwayOut := rfl
@[simp] theorem State.setCode_pending (n : Nat) (e : Option AccessCode) : (s.setCode n e).pending = s.pending := rfl

/-! ### setSession -/

@[simp] theorem State.setSession_lane (n : Nat) (x : Option Session) : (s.setSession n x).lane = s.lane := rfl
@[simp] theorem State.setSession_stations (n : Nat) (x : Option Session) :
    (s.setSession n x).stations = s.stations := rfl
@[simp] theorem State.setSession_codes (n : Nat) (x : Option Session) : (s.setSession n x).codes = s.codes := rfl
@[simp] theorem State.setSession_hunt (n : Nat) (x : Option Session) : (s.setSession n x).hunt = s.hunt := rfl
@[simp] theorem State.setSession_orbits (n : Nat) (x : Option Session) : (s.setSession n x).orbits = s.orbits := rfl
@[simp] theorem State.setSession_pickup (n : Nat) (x : Option Session) : (s.setSession n x).pickup = s.pickup := rfl
@[simp] theorem State.setSession_paging (n : Nat) (x : Option Session) :
    (s.setSession n x).paging = { s.paging with sessions := s.paging.sessions.put n x } := rfl
@[simp] theorem State.setSession_zones (n : Nat) (x : Option Session) : (s.setSession n x).zones = s.zones := rfl
@[simp] theorem State.setSession_prompts (n : Nat) (x : Option Session) :
    (s.setSession n x).prompts = s.prompts := rfl
@[simp] theorem State.setSession_alarm (n : Nat) (x : Option Session) : (s.setSession n x).alarm = s.alarm := rfl
@[simp] theorem State.setSession_maint (n : Nat) (x : Option Session) : (s.setSession n x).maint = s.maint := rfl
@[simp] theorem State.setSession_clock (n : Nat) (x : Option Session) : (s.setSession n x).clock = s.clock := rfl
@[simp] theorem State.setSession_highwayOut (n : Nat) (x : Option Session) :
    (s.setSession n x).highwayOut = s.highwayOut := rfl
@[simp] theorem State.setSession_pending (n : Nat) (x : Option Session) :
    (s.setSession n x).pending = s.pending := rfl

/-! ### modGroupCounters -/

@[simp] theorem State.modGroupCounters_lane (g : Nat) (f : GroupCounters → GroupCounters) :
    (s.modGroupCounters g f).lane = s.lane := rfl
@[simp] theorem State.modGroupCounters_stations (g : Nat) (f : GroupCounters → GroupCounters) :
    (s.modGroupCounters g f).stations = s.stations := rfl
@[simp] theorem State.modGroupCounters_codes (g : Nat) (f : GroupCounters → GroupCounters) :
    (s.modGroupCounters g f).codes = s.codes := rfl
@[simp] theorem State.modGroupCounters_hunt (g : Nat) (f : GroupCounters → GroupCounters) :
    (s.modGroupCounters g f).hunt = { s.hunt with
        live := s.hunt.live.put g { s.hunt.live.get g with counters := f (s.hunt.live.get g).counters } } := rfl
@[simp] theorem State.modGroupCounters_orbits (g : Nat) (f : GroupCounters → GroupCounters) :
    (s.modGroupCounters g f).orbits = s.orbits := rfl
@[simp] theorem State.modGroupCounters_pickup (g : Nat) (f : GroupCounters → GroupCounters) :
    (s.modGroupCounters g f).pickup = s.pickup := rfl
@[simp] theorem State.modGroupCounters_paging (g : Nat) (f : GroupCounters → GroupCounters) :
    (s.modGroupCounters g f).paging = s.paging := rfl
@[simp] theorem State.modGroupCounters_zones (g : Nat) (f : GroupCounters → GroupCounters) :
    (s.modGroupCounters g f).zones = s.zones := rfl
@[simp] theorem State.modGroupCounters_prompts (g : Nat) (f : GroupCounters → GroupCounters) :
    (s.modGroupCounters g f).prompts = s.prompts := rfl
@[simp] theorem State.modGroupCounters_alarm (g : Nat) (f : GroupCounters → GroupCounters) :
    (s.modGroupCounters g f).alarm = s.alarm := rfl
@[simp] theorem State.modGroupCounters_maint (g : Nat) (f : GroupCounters → GroupCounters) :
    (s.modGroupCounters g f).maint = s.maint := rfl
@[simp] theorem State.modGroupCounters_clock (g : Nat) (f : GroupCounters → GroupCounters) :
    (s.modGroupCounters g f).clock = s.clock := rfl
@[simp] theorem State.modGroupCounters_highwayOut (g : Nat) (f : GroupCounters → GroupCounters) :
    (s.modGroupCounters g f).highwayOut = s.highwayOut := rfl
@[simp] theorem State.modGroupCounters_pending (g : Nat) (f : GroupCounters → GroupCounters) :
    (s.modGroupCounters g f).pending = s.pending := rfl

/-! ### setPointer -/

@[simp] theorem State.setPointer_lane (g : Nat) (p : Option Nat) : (s.setPointer g p).lane = s.lane := rfl
@[simp] theorem State.setPointer_stations (g : Nat) (p : Option Nat) : (s.setPointer g p).stations = s.stations := rfl
@[simp] theorem State.setPointer_codes (g : Nat) (p : Option Nat) : (s.setPointer g p).codes = s.codes := rfl
@[simp] theorem State.setPointer_hunt (g : Nat) (p : Option Nat) :
    (s.setPointer g p).hunt = { s.hunt with live := s.hunt.live.put g { s.hunt.live.get g with pointer := p } } := rfl
@[simp] theorem State.setPointer_orbits (g : Nat) (p : Option Nat) : (s.setPointer g p).orbits = s.orbits := rfl
@[simp] theorem State.setPointer_pickup (g : Nat) (p : Option Nat) : (s.setPointer g p).pickup = s.pickup := rfl
@[simp] theorem State.setPointer_paging (g : Nat) (p : Option Nat) : (s.setPointer g p).paging = s.paging := rfl
@[simp] theorem State.setPointer_zones (g : Nat) (p : Option Nat) : (s.setPointer g p).zones = s.zones := rfl
@[simp] theorem State.setPointer_prompts (g : Nat) (p : Option Nat) : (s.setPointer g p).prompts = s.prompts := rfl
@[simp] theorem State.setPointer_alarm (g : Nat) (p : Option Nat) : (s.setPointer g p).alarm = s.alarm := rfl
@[simp] theorem State.setPointer_maint (g : Nat) (p : Option Nat) : (s.setPointer g p).maint = s.maint := rfl
@[simp] theorem State.setPointer_clock (g : Nat) (p : Option Nat) : (s.setPointer g p).clock = s.clock := rfl
@[simp] theorem State.setPointer_highwayOut (g : Nat) (p : Option Nat) :
    (s.setPointer g p).highwayOut = s.highwayOut := rfl
@[simp] theorem State.setPointer_pending (g : Nat) (p : Option Nat) : (s.setPointer g p).pending = s.pending := rfl

/-! ### modLaneCounters -/

@[simp] theorem State.modLaneCounters_lane (f : LaneCounters → LaneCounters) :
    (s.modLaneCounters f).lane = { s.lane with counters := f s.lane.counters } := rfl
@[simp] theorem State.modLaneCounters_stations (f : LaneCounters → LaneCounters) :
    (s.modLaneCounters f).stations = s.stations := rfl
@[simp] theorem State.modLaneCounters_codes (f : LaneCounters → LaneCounters) :
    (s.modLaneCounters f).codes = s.codes := rfl
@[simp] theorem State.modLaneCounters_hunt (f : LaneCounters → LaneCounters) :
    (s.modLaneCounters f).hunt = s.hunt := rfl
@[simp] theorem State.modLaneCounters_orbits (f : LaneCounters → LaneCounters) :
    (s.modLaneCounters f).orbits = s.orbits := rfl
@[simp] theorem State.modLaneCounters_pickup (f : LaneCounters → LaneCounters) :
    (s.modLaneCounters f).pickup = s.pickup := rfl
@[simp] theorem State.modLaneCounters_paging (f : LaneCounters → LaneCounters) :
    (s.modLaneCounters f).paging = s.paging := rfl
@[simp] theorem State.modLaneCounters_zones (f : LaneCounters → LaneCounters) :
    (s.modLaneCounters f).zones = s.zones := rfl
@[simp] theorem State.modLaneCounters_prompts (f : LaneCounters → LaneCounters) :
    (s.modLaneCounters f).prompts = s.prompts := rfl
@[simp] theorem State.modLaneCounters_alarm (f : LaneCounters → LaneCounters) :
    (s.modLaneCounters f).alarm = s.alarm := rfl
@[simp] theorem State.modLaneCounters_maint (f : LaneCounters → LaneCounters) :
    (s.modLaneCounters f).maint = s.maint := rfl
@[simp] theorem State.modLaneCounters_clock (f : LaneCounters → LaneCounters) :
    (s.modLaneCounters f).clock = s.clock := rfl
@[simp] theorem State.modLaneCounters_highwayOut (f : LaneCounters → LaneCounters) :
    (s.modLaneCounters f).highwayOut = s.highwayOut := rfl
@[simp] theorem State.modLaneCounters_pending (f : LaneCounters → LaneCounters) :
    (s.modLaneCounters f).pending = s.pending := rfl

/-! ### withPending -/

@[simp] theorem State.withPending_lane (q : List Instr) : (s.withPending q).lane = s.lane := rfl
@[simp] theorem State.withPending_stations (q : List Instr) : (s.withPending q).stations = s.stations := rfl
@[simp] theorem State.withPending_codes (q : List Instr) : (s.withPending q).codes = s.codes := rfl
@[simp] theorem State.withPending_hunt (q : List Instr) : (s.withPending q).hunt = s.hunt := rfl
@[simp] theorem State.withPending_orbits (q : List Instr) : (s.withPending q).orbits = s.orbits := rfl
@[simp] theorem State.withPending_pickup (q : List Instr) : (s.withPending q).pickup = s.pickup := rfl
@[simp] theorem State.withPending_paging (q : List Instr) : (s.withPending q).paging = s.paging := rfl
@[simp] theorem State.withPending_zones (q : List Instr) : (s.withPending q).zones = s.zones := rfl
@[simp] theorem State.withPending_prompts (q : List Instr) : (s.withPending q).prompts = s.prompts := rfl
@[simp] theorem State.withPending_alarm (q : List Instr) : (s.withPending q).alarm = s.alarm := rfl
@[simp] theorem State.withPending_maint (q : List Instr) : (s.withPending q).maint = s.maint := rfl
@[simp] theorem State.withPending_clock (q : List Instr) : (s.withPending q).clock = s.clock := rfl
@[simp] theorem State.withPending_highwayOut (q : List Instr) : (s.withPending q).highwayOut = s.highwayOut := rfl
@[simp] theorem State.withPending_pending (q : List Instr) : (s.withPending q).pending = q := rfl

/-! ### tick -/

@[simp] theorem State.tick_lane : (s.tick).lane = s.lane := rfl
@[simp] theorem State.tick_stations : (s.tick).stations = s.stations := rfl
@[simp] theorem State.tick_codes : (s.tick).codes = s.codes := rfl
@[simp] theorem State.tick_hunt : (s.tick).hunt = s.hunt := rfl
@[simp] theorem State.tick_orbits : (s.tick).orbits = s.orbits := rfl
@[simp] theorem State.tick_pickup : (s.tick).pickup = s.pickup := rfl
@[simp] theorem State.tick_paging : (s.tick).paging = s.paging := rfl
@[simp] theorem State.tick_zones : (s.tick).zones = s.zones := rfl
@[simp] theorem State.tick_prompts : (s.tick).prompts = s.prompts := rfl
@[simp] theorem State.tick_alarm : (s.tick).alarm = s.alarm := rfl
@[simp] theorem State.tick_maint : (s.tick).maint = s.maint := rfl
@[simp] theorem State.tick_clock : (s.tick).clock = s.clock + 1 := rfl
@[simp] theorem State.tick_highwayOut : (s.tick).highwayOut = s.highwayOut := rfl
@[simp] theorem State.tick_pending : (s.tick).pending = s.pending := rfl

end Sys2Proof.Machine
end

