-- ==== Sys2Proof/Laws/Table.lean ====
section
/-! SUPPORT. Reading a numbered table after a write, a fill and a map. -/

namespace Sys2Proof

variable {lo n : Nat} {α β : Type} [Inhabited α] [Inhabited β]

/-- A number lies in a table. -/
theorem Tab.get_of_mem (t : Tab lo n α) {i : Nat} (h : lo ≤ i ∧ i < lo + n) :
    t.get i = t.vec[i - lo]'(by omega) := by
  simp [Tab.get, h]

/-- A number outside a table reads as the default. -/
theorem Tab.get_of_not_mem (t : Tab lo n α) {i : Nat} (h : ¬(lo ≤ i ∧ i < lo + n)) : t.get i = default := by
  unfold Tab.get; exact dif_neg h

/-- A write to a number of the table is read back. -/
theorem Tab.get_put_same (t : Tab lo n α) {i : Nat} (a : α) (h : lo ≤ i ∧ i < lo + n) : (t.put i a).get i = a := by
  simp [Tab.get, Tab.put, h]

/-- A write leaves every other number alone. -/
@[simp] theorem Tab.get_put_ne (t : Tab lo n α) {i j : Nat} (a : α) (h : i ≠ j) : (t.put i a).get j = t.get j := by
  unfold Tab.put
  split
  · unfold Tab.get
    split
    · simp only [Vector.getElem_set]; rw [if_neg (by omega)]
    · rfl
  · rfl

omit [Inhabited α] in
/-- A write outside the table changes nothing. -/
theorem Tab.put_of_not_mem (t : Tab lo n α) {i : Nat} (a : α) (h : ¬(lo ≤ i ∧ i < lo + n)) : t.put i a = t := by
  unfold Tab.put; exact dif_neg h

/-- What any number reads after a write: the new value, or what it read before. -/
theorem Tab.get_put (t : Tab lo n α) (i j : Nat) (a : α) :
    (t.put i a).get j = if i = j ∧ lo ≤ i ∧ i < lo + n then a else t.get j := by
  by_cases hij : i = j
  · subst hij
    by_cases h : lo ≤ i ∧ i < lo + n
    · simp [Tab.get_put_same t a h, h]
    · rw [Tab.put_of_not_mem t a h, if_neg (fun x => h x.2)]
  · simp [hij]

/-- A property of the old entries and of the new one holds of every entry after a write. -/
theorem Tab.forall_put {p : α → Prop} {t : Tab lo n α} {i : Nat} {a : α} (ht : ∀ j, p (t.get j)) (ha : p a) (j : Nat) :
    p ((t.put i a).get j) := by
  rw [Tab.get_put]; split
  · exact ha
  · exact ht j

/-- A filled table reads as its value at every number it holds. -/
theorem Tab.get_all (a : α) {i : Nat} (h : lo ≤ i ∧ i < lo + n) : (Tab.all lo n a).get i = a := by
  simp [Tab.get, Tab.all, h]

/-- A property of the fill and of the default holds of every entry of a filled table. -/
theorem Tab.forall_all {p : α → Prop} {a : α} (ha : p a) (hd : p default) (j : Nat) : p ((Tab.all lo n a).get j) := by
  by_cases h : lo ≤ j ∧ j < lo + n
  · rw [Tab.get_all a h]; exact ha
  · rw [Tab.get_of_not_mem _ h]; exact hd

/-- A mapped table reads as the mapped entry. -/
theorem Tab.get_map (f : α → β) (t : Tab lo n α) {i : Nat} (h : lo ≤ i ∧ i < lo + n) :
    (t.map f).get i = f (t.get i) := by
  simp [Tab.get, Tab.map, h]

/-- A property that a map gives every entry holds of every entry of a mapped table. -/
theorem Tab.forall_map {p : β → Prop} {f : α → β} {t : Tab lo n α} (hf : ∀ j, p (f (t.get j))) (hd : p default)
    (j : Nat) : p ((t.map f).get j) := by
  by_cases h : lo ≤ j ∧ j < lo + n
  · rw [Tab.get_map f t h]; exact hf j
  · rw [Tab.get_of_not_mem _ h]; exact hd

/-- Writing back what an entry holds changes nothing. -/
theorem Tab.put_get (t : Tab lo n α) (i : Nat) : t.put i (t.get i) = t := by
  by_cases h : lo ≤ i ∧ i < lo + n
  · simp [Tab.put, Tab.get, h]
  · exact Tab.put_of_not_mem t _ h

omit [Inhabited α] in
/-- The later of two writes to one number stands. -/
theorem Tab.put_put (t : Tab lo n α) (i : Nat) (a b : α) : (t.put i a).put i b = t.put i b := by
  unfold Tab.put; split <;> simp

end Sys2Proof
end

