-- ==== Sys2Proof/Laws/Queues.lean ====
section
/-! SUPPORT. What a joining cell, a flag, a counter and a raised event can do (01, R16, R18; 11, R190, R192, R193). -/

namespace Sys2Proof.Machine

/-- A counter that adds one still fits. -/
theorem satInc_fits (n : Nat) : CounterFits (satInc n) := Nat.min_le_right _ _

/-- Below its stop a counter adds one. -/
theorem satInc_of_lt {n : Nat} (h : n < Config.counterMax) : satInc n = n + 1 := Nat.min_eq_left h

/-- At its stop a counter stays. -/
theorem satInc_of_eq : satInc Config.counterMax = Config.counterMax := by decide

/-! ### Queues -/

/-- The queue of a direction after it is set. -/
@[simp] theorem Lane.queue_setQueue (l : Lane) (d : Dir) (q : List LaneCell) : (l.setQueue d q).queue d = q := by
  cases d <;> rfl

/-- Setting one queue leaves the lane's other fields alone. -/
@[simp] theorem Lane.setQueue_rest (l : Lane) (d : Dir) (q : List LaneCell) :
    (l.setQueue d q).phase = l.phase ∧ (l.setQueue d q).straps = l.straps ∧ (l.setQueue d q).own = l.own ∧
      (l.setQueue d q).counters = l.counters ∧ (l.setQueue d q).downOut = l.downOut ∧
      (l.setQueue d q).upOut = l.upOut ∧ (l.setQueue d q).bridgeDown = l.bridgeDown ∧
      (l.setQueue d q).bridgeUp = l.bridgeUp ∧ (l.setQueue d q).bridgeHighway = l.bridgeHighway := by
  cases d <;> exact ⟨rfl, rfl, rfl, rfl, rfl, rfl, rfl, rfl, rfl⟩

/-- A cell joins a queue that has a free place (01, R16). -/
theorem State.join_of_free {s : State} {d : Dir} (c : LaneCell) (h : s.queueFree d = true) : s.join d c = s.push d c := by
  unfold State.join; rw [if_pos h]

/-- A cell that meets a full queue is discarded (01, R18). -/
theorem State.join_of_full {s : State} {d : Dir} (c : LaneCell) (h : s.queueFree d = false) :
    s.join d c = (s.countDiscard d).noteOverflow := by
  unfold State.join; rw [if_neg (by simp [h])]

/-- A queue with a free place keeps within its bound when a cell joins it. -/
theorem Lane.Fits.push {s : State} {d : Dir} (c : LaneCell) (h : s.lane.Fits) (hf : s.queueFree d = true) :
    (s.lane.setQueue d (s.lane.queue d ++ [c])).Fits := by
  have hq : (s.lane.queue d).length < Config.queueCells := by simpa [State.queueFree] using hf
  cases d
  · exact ⟨by simp only [Lane.setQueue, Lane.queue] at hq ⊢; simp; omega, h.upQueue, h.own, h.counters⟩
  · exact ⟨h.downQueue, by simp only [Lane.setQueue, Lane.queue] at hq ⊢; simp; omega, h.own, h.counters⟩

/-! ### Flags -/

/-- A flag's mask names only that flag, so the bit that names none stays 0. -/
theorem flagMask_low (f : Flag) : (flagMask f).getLsbD 0 = false := by cases f <;> decide

/-- Setting a flag keeps the unused bit 0. -/
theorem Maint.Fits.setBit {m : Maint} (h : m.Fits) (f : Flag) : ({ m with flags := m.flags ||| flagMask f } : Maint).Fits :=
  ⟨by have := h.flags; simp only [BitVec.getLsbD_or, flagMask_low, this, Bool.or_false], h.mask⟩

/-- A flag that is set already stays as it is, and no cell is raised (11, R192, R193). -/
theorem State.setFlag_of_set {s : State} {f : Flag} (h : hasFlag s.maint.flags f = true) : s.setFlag f = s := by
  unfold State.setFlag; rw [if_pos h]

/-- A masked flag is set without a cell (11, R193). -/
theorem State.setFlag_of_masked {s : State} {f : Flag} (h : hasFlag s.maint.flags f = false)
    (hm : hasFlag s.maint.mask f = true) :
    s.setFlag f = s.modMaint fun m => { m with flags := m.flags ||| flagMask f } := by
  unfold State.setFlag; rw [if_neg (by simp [h])]; simp [hm]

/-- An unmasked flag that goes from clear to set raises one ATTENTION cell, which shows the flags with it (11, R193). -/
theorem State.setFlag_of_unmasked {s : State} {f : Flag} (h : hasFlag s.maint.flags f = false)
    (hm : hasFlag s.maint.mask f = false) :
    s.setFlag f =
      (s.modMaint fun m => { m with flags := m.flags ||| flagMask f }).join .up
        (.known (attentionCell (s.modMaint fun m => { m with flags := m.flags ||| flagMask f }))) := by
  unfold State.setFlag; rw [if_neg (by simp [h])]; simp [hm]

/-- The flag of a cause is set afterwards (11, R192). -/
theorem hasFlag_or (x : BitVec 16) (f : Flag) : hasFlag (x ||| flagMask f) f = true := by
  cases f <;> simp [hasFlag, flagMask, flagIndex]

/-! ### Ascending lists -/

/-- A number joins an ascending list without repeats. -/
theorem insertSorted_mem {n m : Nat} : ∀ {l : List Nat}, m ∈ insertSorted n l ↔ m = n ∨ m ∈ l
  | [] => by simp [insertSorted]
  | a :: l => by
    unfold insertSorted
    split
    · simp
    · split
      · subst_vars; simp
      · simp only [List.mem_cons, insertSorted_mem (l := l)]; tauto

/-- An ascending list without repeats stays one where a number joins it. -/
theorem insertSorted_ascending (n : Nat) : ∀ {l : List Nat}, l.Pairwise (· < ·) → (insertSorted n l).Pairwise (· < ·)
  | [], _ => by simp [insertSorted]
  | a :: l, h => by
    rw [List.pairwise_cons] at h
    unfold insertSorted
    split
    · rename_i ha
      refine List.pairwise_cons.mpr ⟨fun b hb => ?_, List.pairwise_cons.mpr h⟩
      rcases List.mem_cons.mp hb with rfl | hb
      · exact ha
      · exact ha.trans (h.1 b hb)
    · split
      · exact List.pairwise_cons.mpr h
      · refine List.pairwise_cons.mpr ⟨fun b hb => ?_, insertSorted_ascending n h.2⟩
        rcases insertSorted_mem.mp hb with rfl | hb
        · omega
        · exact h.1 b hb

end Sys2Proof.Machine
end

