-- ==== Sys2Proof/Laws/Cells.lean ====
section
/-! SUPPORT. Cells and flags where the queues have room, and a station's change: what the shared operations do, said as
whole states, for proofs that follow one command through. -/

namespace Sys2Proof.Machine

variable {s : State}

/-! ### Room in a queue -/

/-- A queue with room is free. -/
theorem State.room_free {d : Dir} {k : Nat} (h : s.room d k) (hk : 1 ≤ k) : s.queueFree d = true := by
  simp only [State.room, State.queueFree] at *; simp; omega

/-- A queue with no room for one cell is full. -/
theorem State.full_of_not_room {d : Dir} (h : ¬ s.room d 1) : s.queueFree d = false := by
  simp only [State.room, State.queueFree] at *; simp; omega

/-- Less room than there is. -/
theorem State.room_mono {d : Dir} {j k : Nat} (h : s.room d k) (hj : j ≤ k) : s.room d j := by
  simp only [State.room] at *; omega

/-- A cell joins a queue that has room behind the cells that stand there (01, R16). -/
theorem State.join_room {d : Dir} (c : LaneCell) (h : s.room d 1) : s.join d c = s.queued d [c] := by
  rw [State.join_of_free c (State.room_free h le_rfl)]; rfl

/-- Cells that join one queue in turn join it together. -/
theorem State.queued_queued {d : Dir} (a b : List LaneCell) : (s.queued d a).queued d b = s.queued d (a ++ b) := by
  cases d <;> simp [State.queued, State.modLane, Lane.setQueue, Lane.queue]

/-- Cells that join different queues join them in either order. -/
theorem State.queued_comm (a b : List LaneCell) : (s.queued .down a).queued .up b = (s.queued .up b).queued .down a := rfl

/-- No cell joins a queue. -/
theorem State.queued_nil (d : Dir) : s.queued d [] = s := by
  cases d <;> simp [State.queued, State.modLane, Lane.setQueue, Lane.queue]

/-- Room left behind cells that joined. -/
theorem State.room_queued {d : Dir} {cs : List LaneCell} {k : Nat} (h : s.room d (cs.length + k)) :
    (s.queued d cs).room d k := by
  cases d <;> (simp only [State.room, State.queued, State.modLane, Lane.setQueue, Lane.queue, List.length_append] at *
               omega)

/-! ### Flags -/

/-- A flag that is set stays so under its own bit. -/
theorem or_flagMask {x : BitVec 16} {f : Flag} (h : hasFlag x f = true) : x ||| flagMask f = x := by
  apply BitVec.eq_of_getLsbD_eq
  intro i hi
  rw [BitVec.getLsbD_or]
  by_cases hx : i = flagIndex f
  · subst hx; have : x.getLsbD (flagIndex f) = true := h
    simp [this]
  · have : (flagMask f).getLsbD i = false := by
      unfold flagMask
      rw [BitVec.getLsbD_shiftLeft]
      simp only [BitVec.getLsbD_one]
      simp; omega
    simp [this]

/-- A flag is set with room in the up queue: its bit, and the ATTENTION cell that it raises (11, R192, R193). -/
theorem State.setFlag_room {f : Flag} (h : s.room .up 1) : s.setFlag f = (s.flagged f).queued .up (s.raised f) := by
  unfold State.setFlag State.raised State.flagged
  by_cases hf : hasFlag s.maint.flags f
  · rw [if_pos hf]
    simp [hf, State.queued_nil, State.modMaint, or_flagMask hf]
  · simp only [hf]
    by_cases hm : hasFlag s.maint.mask f
    · simp [hm, State.modMaint, State.queued_nil]
    · simp [hm, State.modMaint]
      rw [State.join_room]; rfl; exact h

/-! ### The end of a bridge -/

@[simp] theorem State.endBridge_phase (d : Dir) : (s.endBridge d).lane.phase = s.lane.phase := by cases d <;> rfl
@[simp] theorem State.endBridge_own (d : Dir) : (s.endBridge d).lane.own = s.lane.own := by cases d <;> rfl
@[simp] theorem State.endBridge_room (d e : Dir) (k : Nat) : (s.endBridge d).room e k ↔ s.room e k := by
  cases d <;> cases e <;> exact Iff.rfl
@[simp] theorem State.endBridge_rest (d : Dir) :
    (s.endBridge d).stations = s.stations ∧ (s.endBridge d).hunt = s.hunt ∧ (s.endBridge d).maint = s.maint ∧
      (s.endBridge d).zones = s.zones ∧ (s.endBridge d).pickup = s.pickup ∧ (s.endBridge d).paging = s.paging ∧
      (s.endBridge d).alarm = s.alarm ∧ (s.endBridge d).prompts = s.prompts ∧ (s.endBridge d).clock = s.clock ∧
      (s.endBridge d).codes = s.codes ∧ (s.endBridge d).orbits = s.orbits := by
  cases d <;> exact ⟨rfl, rfl, rfl, rfl, rfl, rfl, rfl, rfl, rfl, rfl, rfl⟩

/-! ### Arrivals and replies -/

/-- Where nothing is raised there is nothing to take (02, R37; 04, R83). -/
theorem State.settle_of_calm (h : s.Calm) : s.settle = s := by
  simp only [State.settle, State.takeChecks, h.1, h.2, List.foldl_nil]

/-- A piece of work where nothing is raised. -/
theorem State.afterRaised_of_calm (f : State → State) (hp : s.lane.phase = .inService) (h : s.Calm) :
    s.afterRaised f = f s := by
  simp only [State.afterRaised, State.inService, if_pos hp, State.settle_of_calm h]

/-- A cell of good form arrives in service where nothing is raised: it ends its direction's bridge and is classified (01,
R4, R7). -/
theorem State.arrive_ok (d : Dir) (c : Cell) (hp : s.lane.phase = .inService) (h : s.Calm) (ho : cellOk c = true) :
    s.arrive d c = (s.endBridge d).classify c := by
  unfold State.arrive; simp [hp, ho, State.settle_of_calm h]

/-- A reply of one part is one cell (11, R181; 12, R198). -/
theorem State.reply_one {tag : Byte} {a : Answer} (h : a.data.length ≤ Config.replyBytes) (hr : a.state.room .up 1) :
    State.reply tag a = a.state.queued .up [replyCell a.state.lane.own tag a.outcome a.data] := by
  have hp : replyParts a.data = [a.data] := by
    unfold replyParts
    cases a.data.length with
    | zero => rfl
    | succ k => unfold replyPartsAux; rw [if_pos h]
  unfold State.reply
  rw [hp]
  simp only [State.sendParts, List.length_singleton]
  unfold State.sendOwn
  rw [State.join_room _ hr]
  rfl

/-! ### Stations -/

/-- A tracked equipment number is a station's. -/
theorem tracked_lt {eq : Equip} (h : tracked eq = true) : eq.toNat < 384 := of_decide_eq_true h

/-- The record put under a station's number. -/
theorem State.get_put_station {n : Nat} (h : n < 384) (x : Station) : (s.stations.put n x).get n = x :=
  Tab.get_put_same _ _ ⟨Nat.zero_le _, by omega⟩

/-- A change to a station that is no candidate: its record, and its event where it becomes one (02, R37). -/
theorem State.changeStation_eq {n : Nat} (hn : n < 384) (f : Station → Station)
    (h0 : (s.stations.get n).candidate = false) :
    s.changeStation n f =
      { s with stations := s.stations.put n (f (s.stations.get n))
               hunt := s.hunt.raiseIf (f (s.stations.get n)).candidate n } := by
  unfold State.changeStation
  have h1 : s.candidate n = false := by simp [State.candidate, h0]
  have h2 : (s.modStation n f).candidate n = (f (s.stations.get n)).candidate := by
    simp [State.candidate, State.modStation, State.get_put_station hn, Config.stations, hn]
  simp only [h1, h2]
  unfold Hunt.raiseIf
  cases (f (s.stations.get n)).candidate <;> rfl

/-- A change that leaves a station no candidate raises no event (02, R37). -/
theorem State.changeStation_quiet {n : Nat} (hn : n < 384) (f : Station → Station)
    (h0 : (f (s.stations.get n)).candidate = false) :
    s.changeStation n f = { s with stations := s.stations.put n (f (s.stations.get n)) } := by
  unfold State.changeStation
  have h2 : (s.modStation n f).candidate n = (f (s.stations.get n)).candidate := by
    simp [State.candidate, State.modStation, State.get_put_station hn, Config.stations, hn]
  simp only [h2, h0]
  simp [State.modStation]

/-- An offer that no record follows at the station is no hunt call's (04, R74). -/
theorem State.offerLost_not {n : Nat} {c : CallRef} (h : s.isMember n c = false) : s.offerLost n c = s := by
  unfold State.offerLost
  unfold State.isMember at h
  split
  · rfl
  · rename_i r hr; simp only [hr] at h; rw [if_neg (by simp [h])]

/-- A member's offer that is lost: detached, tried and re-selected (04, R74, R77). -/
theorem State.offerLost_member {n : Nat} {c : CallRef} (h : s.isMember n c = true) :
    s.offerLost n c = (s.detachTried c n).reselect c := by
  unfold State.offerLost
  unfold State.isMember at h
  split
  · rename_i hr; simp [hr] at h
  · rename_i r hr; simp only [hr] at h; rw [if_pos h]

end Sys2Proof.Machine
end

