-- ==== Sys2Proof/Laws/Claims.lean ====
section
/-! SUPPORT. A claim list keeps its form (07, R125) through every grant and every removal (07, R126 to R129). -/

namespace Sys2Proof.Machine

/-- An empty list has the form. -/
theorem ClaimsFit.nil : ClaimsFit [] := ⟨Nat.zero_le _, List.nodup_nil, List.Pairwise.nil, by simp, by simp⟩

/-- Every sublist of a list of the form has it. -/
theorem ClaimsFit.sublist {l m : List Claim} (h : ClaimsFit l) (hs : m.Sublist l) : ClaimsFit m :=
  ⟨le_trans hs.length_le h.short, h.distinct.sublist (hs.map _), h.ordered.sublist hs,
   fun c hc => h.voiceFirst c (hs.tail.subset hc), fun c hc => h.classes c (hs.subset hc)⟩

/-- A list without a claimant's claims has the form. -/
theorem ClaimsFit.filter {l : List Claim} (h : ClaimsFit l) (p : Claim → Bool) : ClaimsFit (l.filter p) :=
  h.sublist List.filter_sublist

/-- What the lists before the last eviction satisfy: the form but for one claim too many. -/
structure ClaimsFive (l : List Claim) : Prop where
  short : l.length ≤ Config.claims + 1
  distinct : (l.map Claim.claimant).Nodup
  ordered : l.Pairwise fun a b => a.cls ≤ b.cls
  voiceFirst : ∀ c ∈ l.tail, c.isVoice = false
  classes : ∀ c ∈ l, c.classFits

/-- An eviction leaves a list of the form. -/
theorem ClaimsFive.evict {l : List Claim} (h : ClaimsFive l) : ClaimsFit (evictFifth l).1 := by
  unfold evictFifth
  split
  · have hs : l.dropLast.Sublist l := List.dropLast_sublist l
    have := h.short
    exact ⟨by rw [List.length_dropLast]; omega, h.distinct.sublist (hs.map _), h.ordered.sublist hs,
      fun c hc => h.voiceFirst c (hs.tail.subset hc), fun c hc => h.classes c (hs.subset hc)⟩
  · exact ⟨by show l.length ≤ _; omega, h.distinct, h.ordered, h.voiceFirst, h.classes⟩

/-- A claimant that holds no claim stands nowhere in the list. -/
theorem not_holdsClaim {l : List Claim} {who : Claimant} (h : holdsClaim l who = false) :
    who ∉ l.map Claim.claimant := by
  simp only [holdsClaim, List.any_eq_false, decide_eq_true_eq] at h
  simp only [List.mem_map, not_exists, not_and]
  exact fun c hc e => h c hc e

/-- A claim that outranks every claim of a list of the form, put in front, with a voice head removed. -/
theorem ClaimsFit.overHead {l : List Claim} {c : Claim} (h : ClaimsFit l) (hn : holdsClaim l c.claimant = false)
    (hc : c.classFits) (hr : ∀ d ∈ l, c.cls ≤ d.cls) : ClaimsFive (overHead c l).1 := by
  have hn := not_holdsClaim hn
  cases l with
  | nil => exact ⟨by simp [Machine.overHead], by simp [Machine.overHead], by simp [Machine.overHead],
      by simp [Machine.overHead], by simpa [Machine.overHead] using hc⟩
  | cons d rest =>
    have hd := h.distinct
    have ho := h.ordered
    have hs := h.short
    simp only [List.map_cons, List.nodup_cons, List.mem_cons, not_or] at hd hn
    rw [List.pairwise_cons] at ho
    simp only [List.length_cons] at hs
    unfold Machine.overHead
    by_cases hv : d.isVoice = true
    · simp only [hv, if_true]
      refine ⟨by simp; omega, ?_, ?_, fun x hx => h.voiceFirst x hx, ?_⟩
      · simp only [List.map_cons, List.nodup_cons]; exact ⟨hn.2, hd.2⟩
      · exact List.pairwise_cons.mpr ⟨fun x hx => hr x (List.mem_cons_of_mem _ hx), ho.2⟩
      · intro x hx
        rcases List.mem_cons.mp hx with rfl | hx
        · exact hc
        · exact h.classes x (List.mem_cons_of_mem _ hx)
    · have hv : d.isVoice = false := by simpa using hv
      simp only [hv, Bool.false_eq_true, if_false]
      refine ⟨by simp; omega, ?_, ?_, ?_, ?_⟩
      · simp only [List.map_cons, List.nodup_cons, List.mem_cons, not_or]; exact ⟨hn, hd⟩
      · exact List.pairwise_cons.mpr ⟨hr, h.ordered⟩
      · intro x hx
        rcases List.mem_cons.mp hx with rfl | hx
        · exact hv
        · exact h.voiceFirst x hx
      · intro x hx
        rcases List.mem_cons.mp hx with rfl | hx
        · exact hc
        · exact h.classes x hx

/-- In an ordered list, a claim that outranks the head outranks every claim. -/
theorem le_of_head_le {l : List Claim} (h : l.Pairwise fun a b => a.cls ≤ b.cls) {k : Nat}
    (hk : ∀ d, l.head? = some d → k ≤ d.cls) : ∀ d ∈ l, k ≤ d.cls := by
  cases l with
  | nil => simp
  | cons d rest =>
    rw [List.pairwise_cons] at h
    have hd : k ≤ d.cls := hk d rfl
    intro x hx
    rcases List.mem_cons.mp hx with rfl | hx
    · exact hd
    · exact le_trans hd (h.1 x hx)

/-- A granted voice claim leaves a list of the form (07, R126). -/
theorem ClaimsFit.placeVoice {l : List Claim} {c : Claim} {g : Grant} (h : ClaimsFit l)
    (hn : holdsClaim l c.claimant = false) (hc : c.classFits) (hg : placeVoice c l = some g) : ClaimsFit g.claims := by
  cases l with
  | nil =>
    cases hg
    exact (h.overHead hn hc (by simp)).evict
  | cons e rest =>
    by_cases ho : c.cls < e.cls
    · simp only [Machine.placeVoice, ho, decide_true, if_true, Option.some.injEq] at hg
      rw [← hg]
      refine (h.overHead hn hc (le_of_head_le h.ordered ?_)).evict
      intro d hd
      cases hd
      omega
    · simp [Machine.placeVoice, ho] at hg

/-- Putting a claim at its place by rank keeps the order. -/
theorem rankInsert_pairwise {c : Claim} {l : List Claim} (h : l.Pairwise fun a b => a.cls ≤ b.cls) :
    (rankInsert c l).Pairwise fun a b => a.cls ≤ b.cls := by
  have hmem : ∀ d ∈ l.dropWhile (fun d => decide (d.cls ≤ c.cls)), c.cls ≤ d.cls := by
    refine le_of_head_le (h.sublist (List.dropWhile_sublist _)) ?_
    intro d hd
    have := List.head?_dropWhile_not (fun d : Claim => decide (d.cls ≤ c.cls)) l
    rw [hd] at this
    have h2 : ¬ d.cls ≤ c.cls := by simpa using this
    omega
  have htake : ∀ d ∈ l.takeWhile (fun d => decide (d.cls ≤ c.cls)), d.cls ≤ c.cls := by
    intro d hd
    simpa using List.mem_takeWhile_imp hd
  unfold rankInsert
  rw [List.pairwise_append]
  refine ⟨h.sublist (List.takeWhile_sublist _), List.pairwise_cons.mpr ⟨hmem, h.sublist (List.dropWhile_sublist _)⟩, ?_⟩
  intro a ha b hb
  rcases List.mem_cons.mp hb with rfl | hb
  · exact htake a ha
  · exact le_trans (htake a ha) (hmem b hb)

/-- The claims of a list with one put at its place by rank. -/
theorem rankInsert_perm (c : Claim) (l : List Claim) : (rankInsert c l).Perm (c :: l) := by
  unfold rankInsert
  refine (List.perm_middle).trans ?_
  rw [List.takeWhile_append_dropWhile]

/-- A granted resumable claim leaves a list of the form (07, R127). -/
theorem ClaimsFit.placeResumable {l : List Claim} {c : Claim} {g : Grant} (h : ClaimsFit l)
    (hn : holdsClaim l c.claimant = false) (hc : c.classFits) (hv : c.isVoice = false)
    (hg : placeResumable c l = some g) : ClaimsFit g.claims := by
  unfold Machine.placeResumable at hg
  dsimp only at hg
  split at hg
  · rename_i he
    cases hg
    refine (h.overHead hn hc (le_of_head_le h.ordered ?_)).evict
    intro d hd
    cases l with
    | nil => cases hd
    | cons e rest =>
      cases hd
      by_contra hlt
      have : decide (d.cls ≤ c.cls) = true := by simp; omega
      simp [this] at he
  · rename_i he
    split at hg
    · cases hg
    · cases hg
      have hp := rankInsert_perm c l
      have hn' := not_holdsClaim hn
      refine (ClaimsFive.mk ?_ ?_ (rankInsert_pairwise h.ordered) ?_ ?_).evict
      · rw [hp.length_eq]; simpa using h.short
      · rw [(hp.map _).nodup_iff, List.map_cons, List.nodup_cons]; exact ⟨hn', h.distinct⟩
      · intro x hx
        cases l with
        | nil => simp at he
        | cons e rest =>
          have hk : decide (e.cls ≤ c.cls) = true := by
            by_contra hk
            simp [hk] at he
          have hsplit : (rankInsert c (e :: rest)).tail = rankInsert c rest := by
            simp [rankInsert, hk]
          rw [hsplit] at hx
          rcases List.mem_cons.mp ((rankInsert_perm c rest).subset hx) with rfl | hx
          · exact hv
          · exact h.voiceFirst x hx
      · intro x hx
        rcases List.mem_cons.mp (hp.subset hx) with rfl | hx
        · exact hc
        · exact h.classes x hx

/-- A list with a claimant's claims removed keeps the form. -/
theorem ClaimsFit.remove {l : List Claim} (h : ClaimsFit l) (who : Claimant) :
    ClaimsFit (l.filter fun c => c.claimant ≠ who) := h.filter _

/-! ### What a grant leaves of a list (07, R126, R127) -/

/-- A claim of a class that outranks none (07, 7.4). -/
theorem Claim.classFits.le_five {c : Claim} (h : c.classFits) : c.cls ≤ 5 := by
  unfold Claim.classFits at h
  split at h
  · simp only [Claim.isVoice, Bool.or_eq_true, beq_iff_eq] at h; omega
  all_goals omega

/-- The claim that is asked for, and every claim that stood, is in the list of a new head, but for the displaced one. -/
theorem overHead_mem {c d : Claim} {l : List Claim} :
    d ∈ (overHead c l).1 ∨ (overHead c l).2 = some d ↔ d = c ∨ d ∈ l := by
  cases l with
  | nil => simp [overHead]
  | cons e rest =>
    simp only [overHead]
    split
    · simp only [List.mem_cons, Option.some.injEq]; tauto
    · simp

/-- A list's claims are those left after an eviction and the evicted one. -/
theorem evictFifth_mem {d : Claim} {l : List Claim} : d ∈ (evictFifth l).1 ∨ (evictFifth l).2 = some d ↔ d ∈ l := by
  unfold evictFifth
  split
  · rename_i h
    have hl : l ≠ [] := by intro h0; subst h0; simp at h
    rw [List.getLast?_eq_some_getLast hl]
    conv => rhs; rw [← List.dropLast_append_getLast hl]
    simp [eq_comm]
  · simp

/-- A granted voice claim is the new head (07, R126). -/
theorem placeVoice_eq {c : Claim} {l : List Claim} {g : Grant} (h : placeVoice c l = some g) :
    g = { claims := (evictFifth (overHead c l).1).1, first := true, lost := (overHead c l).2,
          evicted := (evictFifth (overHead c l).1).2 } := by
  cases l with
  | nil => cases h; rfl
  | cons e rest =>
    by_cases ho : c.cls < e.cls
    · simp only [placeVoice, ho, decide_true, if_true, Option.some.injEq] at h
      exact h.symm
    · simp [placeVoice, ho] at h

/-- A granted claim's list holds every claim that stood, but for the displaced and the evicted one. -/
theorem place_mem {c d : Claim} {l : List Claim} {g : Grant}
    (h : (if c.isVoice then placeVoice c l else placeResumable c l) = some g) (hd : d ∈ l) :
    d ∈ g.claims ∨ g.lost = some d ∨ g.evicted = some d := by
  have first : d ∈ (evictFifth (overHead c l).1).1 ∨ (overHead c l).2 = some d ∨
      (evictFifth (overHead c l).1).2 = some d := by
    rcases overHead_mem.mpr (Or.inr hd) with h1 | h1
    · rcases evictFifth_mem.mpr h1 with h2 | h2
      · exact .inl h2
      · exact .inr (.inr h2)
    · exact .inr (.inl h1)
  split at h
  · rw [placeVoice_eq h]; exact first
  · unfold placeResumable at h
    dsimp only at h
    split at h
    · cases h; exact first
    · split at h
      · cases h
      · cases h
        rcases evictFifth_mem.mpr ((rankInsert_perm c l).mem_iff.mpr (List.mem_cons_of_mem _ hd)) with h2 | h2
        · exact .inl h2
        · exact .inr (.inr h2)

/-- An eviction from a list with a claim behind another leaves the other. -/
theorem evictFifth_front {c : Claim} {a b : List Claim} (hb : b ≠ []) : c ∈ (evictFifth (a ++ c :: b)).1 := by
  unfold evictFifth
  split
  · rw [List.dropLast_append_of_ne_nil (by simp), List.dropLast_cons_of_ne_nil hb]
    simp
  · simp

/-- A list that is not too long loses nothing. -/
theorem evictFifth_short {l : List Claim} (h : l.length ≤ Config.claims) : evictFifth l = (l, none) := by
  unfold evictFifth; exact if_neg (by omega)

/-- A granted claim stands in its list (07, R126, R127). -/
theorem ClaimsFit.place_new {c : Claim} {l : List Claim} {g : Grant} (hl : ClaimsFit l)
    (h : (if c.isVoice then Machine.placeVoice c l else Machine.placeResumable c l) = some g) : c ∈ g.claims := by
  have first : c ∈ (evictFifth (Machine.overHead c l).1).1 := by
    cases l with
    | nil => simp [Machine.overHead, evictFifth, Config.claims]
    | cons e rest =>
      simp only [Machine.overHead]
      split
      · rw [evictFifth_short (by have := hl.short; simp only [List.length_cons] at *; omega)]; simp
      · exact evictFifth_front (a := []) (by simp)
  split at h
  · rw [placeVoice_eq h]; exact first
  · unfold Machine.placeResumable at h
    dsimp only at h
    split at h
    · cases h; exact first
    · split at h
      · cases h
      · rename_i hn
        cases h
        show c ∈ (evictFifth (rankInsert c l)).1
        by_cases hs : l.length < Config.claims
        · rw [evictFifth_short (by rw [(rankInsert_perm c l).length_eq]; simpa using hs)]
          exact (rankInsert_perm c l).mem_iff.mpr (List.mem_cons_self ..)
        · refine evictFifth_front (fun h0 => hn ?_)
          have hall : ∀ d ∈ l, d.cls ≤ c.cls := by simpa using h0
          simp only [Bool.and_eq_true, decide_eq_true_eq, List.all_eq_true]
          exact ⟨by omega, hall⟩

/-- A grant that does not make its claim the head leaves the head. -/
theorem place_head {c : Claim} {l : List Claim} {g : Grant}
    (h : (if c.isVoice then placeVoice c l else placeResumable c l) = some g) (hg : g.first = false) :
    g.claims.head? = l.head? := by
  split at h
  · rw [placeVoice_eq h] at hg; cases hg
  · unfold placeResumable at h
    dsimp only at h
    split at h
    · cases h; cases hg
    · rename_i he
      split at h
      · cases h
      · cases h
        cases l with
        | nil => simp at he
        | cons e rest =>
          have hk : decide (e.cls ≤ c.cls) = true := by
            by_contra hk
            simp [hk] at he
          have hr : rankInsert c (e :: rest) = e :: rankInsert c rest := by simp [rankInsert, hk]
          show (evictFifth (rankInsert c (e :: rest))).1.head? = _
          rw [hr]
          unfold evictFifth
          split
          · rw [List.dropLast_cons_of_ne_nil (by unfold rankInsert; simp)]
            rfl
          · rfl

/-- The lowest class takes nothing away: an assist claim is placed behind the others or not at all (07, R136). -/
theorem ClaimsFit.place_lowest {c : Claim} {l : List Claim} {g : Grant} (hl : ClaimsFit l) (hc : c.cls = 5)
    (h : Machine.placeResumable c l = some g) : ∀ d ∈ l, d ∈ g.claims := by
  have hle : ∀ d ∈ l, decide (d.cls ≤ c.cls) = true := fun d hd => by
    have := (hl.classes d hd).le_five
    rw [decide_eq_true_eq]; omega
  have ht : l.takeWhile (fun d => decide (d.cls ≤ c.cls)) = l := List.takeWhile_eq_self_iff.mpr hle
  unfold Machine.placeResumable at h
  dsimp only at h
  rw [ht] at h
  split at h
  · rename_i he
    rw [List.isEmpty_iff] at he
    subst he
    simp
  · split at h
    · cases h
    · rename_i hn
      cases h
      intro d hd
      show d ∈ (evictFifth (rankInsert c l)).1
      have hs : l.length < Config.claims := by
        by_contra hs
        refine hn ?_
        simp only [Bool.and_eq_true, decide_eq_true_eq, List.all_eq_true]
        exact ⟨by omega, fun d hd => of_decide_eq_true (hle d hd)⟩
      rw [evictFifth_short (by rw [(rankInsert_perm c l).length_eq]; simpa using hs)]
      exact (rankInsert_perm c l).mem_iff.mpr (List.mem_cons_of_mem _ hd)

/-- A claimant that holds a claim stands in the list. -/
theorem holdsClaim_iff {l : List Claim} {who : Claimant} : holdsClaim l who = true ↔ ∃ c ∈ l, c.claimant = who := by
  simp [holdsClaim]

end Sys2Proof.Machine
end

