-- ==== Sys2Proof/Laws/Kept.lean ====
section
/-! SUPPORT. What an ordinary event can do, said once: a property that the few moves below keep is kept by every shared
operation, and so by every cell, deadline and report. The moves say what no ordinary event touches (configuration, both
banks, prompt memory, the mask and the mode), that each block stays in a good state, and that what one block says of
another stays so; the few pieces of work that break such a tie and mend it are moves of their own. -/

namespace Sys2Proof.Machine

/-! ### The moves of each block -/

/-- Cells join the queues behind those that stand there, and lane counters count. -/
structure LaneMove (a b : Lane) : Prop where
  rest : b = { a with downQueue := b.downQueue, upQueue := b.upQueue, counters := b.counters }
  down : a.downQueue <+: b.downQueue
  up : a.upQueue <+: b.upQueue
  fits : a.Fits → b.Fits

/-- A station's live fields change. -/
structure StationChange (a b : Station) : Prop where
  dn : b.dn = a.dn
  talkSlot : b.talkSlot = a.talkSlot
  homeZone : b.homeZone = a.homeZone
  pickupGroup : b.pickupGroup = a.pickupGroup
  authority : b.authority = a.authority
  ringAssist : b.ringAssist = a.ringAssist
  fits : a.Fits → b.Fits

/-- A station's live fields change, but it neither starts nor stops ringing, nor changes its call as it rings. -/
structure StationMove (a b : Station) : Prop extends StationChange a b where
  ringing : b.line = .ringing ↔ a.line = .ringing
  call : a.line = .ringing → b.call = a.call

/-- The claims that other blocks rely on: for each zone, the claimants whose claim stays. -/
abbrev Relied := Nat → Claimant → Prop

/-- The claims of page sessions and of the alarm are relied on; those of orbits and of the assist logic may go at any
time. -/
def lasting : Relied := fun _ who => match who with | .session _ | .alarm => True | .orbit _ | .assist => False

/-- No claim is relied on. -/
def unrelied : Relied := fun _ _ => False

/-- A zone's claims, assist count, player, beacon, preemptions counter and reports change; the claims of these claimants
stay. -/
structure ZoneMove (K : Claimant → Prop) (a b : Zone) : Prop where
  fields : b.fields = a.fields
  audio : b.audio = a.audio
  saturations : b.saturations = a.saturations
  fits : a.Fits → b.Fits
  keeps : a.Fits → ∀ who, K who → holdsClaim a.claims who = true → holdsClaim b.claims who = true

/-- Hunt records, the closed-call list, the raised events and the groups' live state change. -/
structure HuntChange (a b : Hunt) : Prop where
  staged : b.staged = a.staged
  active : b.active = a.active
  countdown : b.countdown = a.countdown
  fits : a.Fits → b.Fits

/-- A record that holds an orbit stands in a table, with its call and its group. -/
def HuntRecord.staysIn (r : HuntRecord) (l : List HuntRecord) : Prop :=
  ∃ q ∈ l, q.call = r.call ∧ q.group = r.group ∧ q.orbit = r.orbit

/-- The Hunt Controller changes, but every record that holds an orbit stays. -/
structure HuntMove (a b : Hunt) : Prop extends HuntChange a b where
  orbits : a.Fits → ∀ r ∈ a.records, r.orbit ≠ none → r.staysIn b.records

/-- The ringing set and the pickup counters change. -/
structure PickupChange (a b : Pickup) : Prop where
  partners : b.partners = a.partners
  fits : a.Fits → b.Fits

/-- The pickup counters change. -/
structure PickupMove (a b : Pickup) : Prop extends PickupChange a b where
  ringing : b.ringing = a.ringing

/-- Sessions, the sessions refused counter and the frame-formed report change. -/
structure PagingChange (a b : Paging) : Prop where
  zoneSets : b.zoneSets = a.zoneSets
  params : b.params = a.params
  fits : a.Fits → b.Fits

/-- The Paging Controller changes, but no session gains a zone. -/
structure PagingMove (a b : Paging) : Prop extends PagingChange a b where
  sessions : ∀ i y, b.sessions.get i = some y → ∃ x, a.sessions.get i = some x ∧
    ∀ z, (z, HoldStatus.held) ∈ y.zones → (z, HoldStatus.held) ∈ x.zones

/-! ### The properties that the moves keep -/

/-- A property that a zone's own changes keep, as long as they leave these claims: all that the assist claims'
re-evaluation does (07, R136). -/
structure KeptZones (K : Relied) (P : State → Prop) : Prop where
  assist : ∀ z, ¬ K z .assist
  zone : ∀ {s : State} {z : Nat} {f : Zone → Zone}, P s → ZoneMove (K z) (s.zones.get z) (f (s.zones.get z)) →
    P (s.modZone z f)

/-- A property that the work on cells and flags keeps. -/
structure KeptLanes (P : State → Prop) : Prop where
  lane : ∀ {s : State} {f : Lane → Lane}, P s → LaneMove s.lane (f s.lane) → P (s.modLane f)
  flag : ∀ {s : State} (f : Flag), P s → P (s.modMaint fun m => { m with flags := m.flags ||| flagMask f })

/-- A property that the work on claims keeps: cells and flags, zones, the end of a session at its source, sessions that
gain no zone, a claimed list that loses zones; and whole, the work that places or ends what a session or the alarm holds. -/
structure KeptClaims (P : State → Prop) : Prop extends KeptZones lasting P, KeptLanes P where
  source : ∀ {s : State} (n : Nat), P s → P (s.modStation n fun st => { st with source := none })
  paging : ∀ {s : State} {f : Paging → Paging}, P s → PagingMove s.paging (f s.paging) → P (s.modPaging f)
  alarm : ∀ {s : State} {f : Alarm → Alarm}, P s → (f s.alarm).line = s.alarm.line →
    (f s.alarm).claimed.Sublist s.alarm.claimed → P (s.modAlarm f)
  requestClaim : ∀ {s : State}, P s → ∀ (z : Nat) {c : Claim}, c.classFits → P (s.requestClaim z c).1
  endSession : ∀ {s : State}, P s → ∀ (i : Nat) (quiet : Bool), P (s.endSession i quiet)
  startZones : ∀ {s : State}, P s → ∀ {i : Nat} {c : Claim} {l : List Nat} {x : Session},
    s.paging.sessions.get i = none → c.classFits → c.claimant = .session i →
    x.zones = (State.requestZones c l s).2.map (fun z => (z, HoldStatus.held)) →
    P ((State.requestZones c l s).1.setSession i (some x))
  claimAlarm : ∀ {s : State}, P s → ∀ {c : Claim}, c.classFits → c.claimant = .alarm → ∀ z, P (s.claimAlarm c z)
  withdrawAlarm : ∀ {s : State}, P s → P s.withdrawAlarm

/-- A property that the work on lines keeps too: live fields, the event of a candidate, the pickup counters; and whole, a
station's departure from what it did, with its entry in the ringing set. -/
structure KeptLines (P : State → Prop) : Prop extends KeptClaims P where
  station : ∀ {s : State} {n : Nat} {f : Station → Station}, P s →
    StationMove (s.stations.get n) (f (s.stations.get n)) → P (s.modStation n f)
  raiseAvailable : ∀ {s : State}, P s → ∀ n, P (s.raiseAvailable n)
  pickup : ∀ {s : State} {f : Pickup → Pickup}, P s → PickupMove s.pickup (f s.pickup) → P (s.modPickup f)
  leave : ∀ {s : State}, P s → ∀ (n : Nat) {f : Station → Station},
    StationChange (s.stations.get n) (f (s.stations.get n)) → (f (s.stations.get n)).line ≠ .ringing →
    P ((s.changeStation n f).ringingRemove n)

/-- A property that every move keeps: the Hunt Controller's changes that leave the holders of orbits, a chime's new
deadline; and whole, an orbit's release with what its record becomes, and an orbit's assignment. -/
structure Kept (P : State → Prop) : Prop extends KeptLines P where
  hunt : ∀ {s : State} {f : Hunt → Hunt}, P s → HuntMove s.hunt (f s.hunt) → P (s.modHunt f)
  orbit : ∀ {s : State} {n : Nat} {o : Orbit} {x : Nat}, P s → s.orbits.get n = some o →
    P (s.setOrbit n (some { o with nextChime := x }))
  release : ∀ {s : State} {f : Hunt → Hunt} {c : CallRef} {r : HuntRecord} {n : Nat}, P s →
    s.record c = some r → r.orbit = some n → HuntChange s.hunt (f s.hunt) →
    (∀ q ∈ s.hunt.records, q.call ≠ c → q.staysIn (f s.hunt).records) →
    P ((zoneNumbers.foldl (fun t z => t.withdrawClaim z (.orbit n)) (s.modHunt f)).setOrbit n none)
  assign : ∀ {s : State} {r : HuntRecord} {a b : Nat}, P s → ∀ n, r ∈ s.hunt.records → r.isQueued = true →
    (s.hunt.Fits → r.orbit = none) →
    P ((s.setOrbit n (some { call := r.call, group := r.group, assigned := a, nextChime := b })).modRecord r.call
      (HuntRecord.withOrbit n))

variable {K : Relied} {P : State → Prop} {s : State}

/-- A fold of steps that each keep a property keeps it. -/
theorem foldl_kept {α : Type} {g : State → α → State} (hg : ∀ t a, P t → P (g t a)) :
    ∀ (l : List α) {s : State}, P s → P (l.foldl g s)
  | [], _, h => h
  | a :: l, _, h => foldl_kept hg l (hg _ a h)

/-- A conditional step. -/
theorem ite_kept {c : Prop} [Decidable c] {a b : State} (ha : P a) (hb : P b) : P (if c then a else b) := by
  split <;> assumption

/-! ### Cells, counters and flags -/

theorem KeptLanes.push (k : KeptLanes P) (h : P s) {d : Dir} (c : LaneCell) (hf : s.queueFree d = true) : P (s.push d c) :=
  k.lane h ⟨by cases d <;> rfl, by cases d <;> simp [Lane.setQueue, Lane.queue],
    by cases d <;> simp [Lane.setQueue, Lane.queue], fun hl => hl.push c hf⟩

theorem KeptLanes.laneCounters (k : KeptLanes P) (h : P s) {f : LaneCounters → LaneCounters}
    (hf : s.lane.counters.Fits → (f s.lane.counters).Fits) : P (s.modLaneCounters f) :=
  k.lane h ⟨rfl, List.prefix_rfl, List.prefix_rfl, fun hl => ⟨hl.downQueue, hl.upQueue, hl.own, hf hl.counters⟩⟩

theorem KeptLanes.unexpected (k : KeptLanes P) (h : P s) : P s.unexpected :=
  k.laneCounters h fun c => ⟨c.malformed, c.down, c.up, satInc_fits _⟩

theorem KeptLanes.countDiscard (k : KeptLanes P) (h : P s) (d : Dir) : P (s.countDiscard d) :=
  k.laneCounters h fun c => by
    cases d
    · exact ⟨c.malformed, satInc_fits _, c.up, c.unexpected⟩
    · exact ⟨c.malformed, c.down, satInc_fits _, c.unexpected⟩

theorem KeptLanes.noteOverflow (k : KeptLanes P) (h : P s) : P s.noteOverflow := by
  unfold State.noteOverflow
  have h1 := k.flag .laneOverflow h
  dsimp only
  split
  · exact h
  · split
    · exact h1
    · split
      · exact k.push h1 _ (by assumption)
      · exact k.countDiscard h1 _

theorem KeptLanes.join (k : KeptLanes P) (h : P s) (d : Dir) (c : LaneCell) : P (s.join d c) := by
  unfold State.join
  split
  · exact k.push h c (by assumption)
  · exact k.noteOverflow (k.countDiscard h d)

theorem KeptLanes.setFlag (k : KeptLanes P) (h : P s) (f : Flag) : P (s.setFlag f) := by
  unfold State.setFlag
  have h1 := k.flag f h
  dsimp only
  split
  · exact h
  · exact ite_kept h1 (k.join h1 _ _)

theorem KeptLanes.sendTone (k : KeptLanes P) (h : P s) (n : Nat) (t : ToneKind) : P (s.sendTone n t) := k.join h _ _

theorem KeptLanes.sendOwn (k : KeptLanes P) (h : P s) (c : CallRef) (b : Body) : P (s.sendOwn c b) := k.join h _ _

/-! ### Zones and claims -/

/-- Two changes of one zone are one. -/
theorem State.modZone_modZone (s : State) (z : Nat) (f g : Zone → Zone) :
    (s.modZone z f).modZone z g = s.modZone z fun zn => g (f zn) := by
  unfold State.modZone
  dsimp only
  by_cases h : 1 ≤ z ∧ z < 1 + 24
  · rw [Tab.get_put_same _ _ h, Tab.put_put]
  · simp only [Tab.put_of_not_mem _ _ h]

/-- A zone record whose content starts from the beginning of its head's (07, R128; 08, R144). -/
def Zone.restartHead (zn : Zone) : Zone :=
  { zn with
    player := match zn.claims with | [] => Player.empty | c :: _ => playerFor c.content
    completed := false }

/-- A head change behind another change of the zone is one change of it, and the choice of its beacon. -/
theorem State.headChange_modZone (s : State) (z : Nat) (f : Zone → Zone) :
    (s.modZone z f).headChange z = (s.modZone z fun zn => (f zn).restartHead).chooseBeacon z := by
  unfold State.headChange
  rw [State.modZone_modZone]
  rfl

/-- A zone update that leaves the claims and counters alone, and raises no completion report. -/
theorem KeptZones.zoneRest (k : KeptZones K P) (h : P s) {z : Nat} {f : Zone → Zone}
    (hf : ∀ zn, (f zn).fields = zn.fields ∧ (f zn).audio = zn.audio ∧ (f zn).saturations = zn.saturations ∧
      (f zn).claims = zn.claims ∧ (f zn).preemptions = zn.preemptions ∧
      ((f zn).completed = true → zn.completed = true)) : P (s.modZone z f) := by
  obtain ⟨h1, h2, h3, h4, h5, h6⟩ := hf (s.zones.get z)
  refine k.zone h ⟨h1, h2, h3, fun x => ⟨h4 ▸ x.claims, fun hc => ?_, h5 ▸ x.preemptions, h3 ▸ x.saturations⟩,
    fun _ who _ hw => h4 ▸ hw⟩
  unfold Zone.announcing
  rw [h4]
  exact x.completed (h6 hc)

theorem KeptZones.chooseBeacon (k : KeptZones K P) (h : P s) (z : Nat) : P (s.chooseBeacon z) := by
  unfold State.chooseBeacon
  exact ite_kept h (k.zoneRest h fun _ => ⟨rfl, rfl, rfl, rfl, rfl, id⟩)

/-- A list takes the place of another at a zone: with a head change, or with the head as it was. -/
theorem KeptZones.changeClaims (k : KeptZones K P) (h : P s) {z : Nat} {f : Zone → Zone} {first : Bool}
    (h1 : (f (s.zones.get z)).fields = (s.zones.get z).fields) (h2 : (f (s.zones.get z)).audio = (s.zones.get z).audio)
    (h3 : (f (s.zones.get z)).saturations = (s.zones.get z).saturations)
    (h4 : (f (s.zones.get z)).completed = (s.zones.get z).completed)
    (hc : (s.zones.get z).Fits → ClaimsFit (f (s.zones.get z)).claims)
    (hp : CounterFits (s.zones.get z).preemptions → CounterFits (f (s.zones.get z)).preemptions)
    (hk : (s.zones.get z).Fits → ∀ who, K z who → holdsClaim (s.zones.get z).claims who = true →
      holdsClaim (f (s.zones.get z)).claims who = true)
    (hh : (s.zones.get z).Fits → first = false → (f (s.zones.get z)).claims.head? = (s.zones.get z).claims.head?) :
    P (if first = true then (s.modZone z f).headChange z else s.modZone z f) := by
  split
  · rw [State.headChange_modZone]
    exact k.chooseBeacon (k.zone (f := fun zn => (f zn).restartHead) h ⟨h1, h2, h3,
      fun x => ⟨hc x, fun y => (Bool.false_ne_true y).elim, hp x.preemptions, h3.symm ▸ x.saturations⟩, hk⟩) z
  · rename_i hf
    refine k.zone h ⟨h1, h2, h3, fun x => ⟨hc x, fun y => ?_, hp x.preemptions, h3.symm ▸ x.saturations⟩, hk⟩
    have ha := x.completed (h4 ▸ y)
    have hd := hh x (eq_false_of_ne_true hf)
    unfold Zone.announcing at *
    generalize (f (s.zones.get z)).claims = l at hd ⊢
    generalize (s.zones.get z).claims = m at hd ha
    cases l <;> cases m <;> simp_all

theorem KeptZones.applyGrant (k : KeptZones K P) (h : P s) {z : Nat} {g : Grant}
    (hg : (s.zones.get z).Fits → ClaimsFit g.claims)
    (hk : (s.zones.get z).Fits → ∀ who, K z who → holdsClaim (s.zones.get z).claims who = true →
      holdsClaim g.claims who = true)
    (hh : (s.zones.get z).Fits → g.first = false → g.claims.head? = (s.zones.get z).claims.head?) :
    P (s.applyGrant z g) := by
  unfold State.applyGrant
  refine k.changeClaims (f := fun zn => { zn with
    claims := g.claims
    preemptions := if g.first && !(s.zones.get z).claims.isEmpty then satInc zn.preemptions else zn.preemptions })
    h rfl rfl rfl rfl hg (fun x => ?_) hk hh
  dsimp only
  split
  · exact satInc_fits _
  · exact x

theorem holdsClaim_remove {l : List Claim} {who w : Claimant} (hw : w ≠ who) (h : holdsClaim l w = true) :
    holdsClaim (l.filter fun c => c.claimant ≠ who) w = true := by
  obtain ⟨c, hc, he⟩ := holdsClaim_iff.mp h
  exact holdsClaim_iff.mpr ⟨c, List.mem_filter.mpr ⟨hc, by simpa [he] using hw⟩, he⟩

theorem KeptZones.removeClaim (k : KeptZones K P) (h : P s) (z : Nat) {who : Claimant} (hw : ¬ K z who) :
    P (s.removeClaim z who) := by
  unfold State.removeClaim
  dsimp only
  refine ite_kept ?_ h
  refine k.changeClaims (f := fun zn => { zn with claims := zn.claims.filter fun c => c.claimant ≠ who })
    h rfl rfl rfl rfl (fun x => x.claims.remove who) id (fun _ w hk hl => holdsClaim_remove (fun e => hw (e ▸ hk)) hl)
    fun _ hf => ?_
  dsimp only
  generalize (s.zones.get z).claims = l at hf
  cases l with
  | nil => rfl
  | cons c rest =>
    have hf : c.claimant ≠ who := of_decide_eq_false hf
    simp [hf]

/-- The assist claim belongs to its claimant and is resumable. -/
theorem assistClaim_fits (s : State) : s.assistClaim.classFits ∧ s.assistClaim.isVoice = false := ⟨rfl, rfl⟩

theorem holdsClaim_mono {l m : List Claim} (h : ∀ d ∈ l, d ∈ m) {who : Claimant} (hw : holdsClaim l who = true) :
    holdsClaim m who = true := by
  obtain ⟨c, hc, he⟩ := holdsClaim_iff.mp hw
  exact holdsClaim_iff.mpr ⟨c, h c hc, he⟩

theorem KeptZones.reevaluateAssist (k : KeptZones K P) (h : P s) (z : Nat) : P (s.reevaluateAssist z) := by
  unfold State.reevaluateAssist
  have h : P (s.countAssist z) := k.zoneRest h (by intro _; exact ⟨rfl, rfl, rfl, rfl, rfl, id⟩)
  generalize s.countAssist z = s at h ⊢
  dsimp only
  split
  · split
    · exact h
    · rename_i hp
      split
      · exact h
      · rename_i g hg
        have hg' : (if s.assistClaim.isVoice = true then placeVoice s.assistClaim (s.zones.get z).claims
            else placeResumable s.assistClaim (s.zones.get z).claims) = some g := by
          rw [(assistClaim_fits s).2]; exact hg
        exact k.applyGrant h
          (fun x => x.claims.placeResumable (eq_false_of_ne_true hp) (assistClaim_fits s).1 (assistClaim_fits s).2 hg)
          (fun x _ _ hw => holdsClaim_mono (x.claims.place_lowest rfl hg) hw) fun _ hf => place_head hg' hf
  · exact ite_kept (k.removeClaim h z (k.assist z)) h

theorem KeptZones.reevaluateAll (k : KeptZones K P) (h : P s) : P s.reevaluateAll := by
  unfold State.reevaluateAll
  exact foldl_kept (P := P) (fun _ z ht => k.reevaluateAssist ht z) _ h

theorem KeptZones.withdrawClaim (k : KeptZones K P) (h : P s) (z : Nat) {who : Claimant} (hw : ¬ K z who) :
    P (s.withdrawClaim z who) := by
  unfold State.withdrawClaim
  exact ite_kept (k.reevaluateAssist (k.removeClaim h z hw) z) h

/-- What a grant does at its zone keeps a property, where every claim that is relied on but for those taken away stays. -/
theorem KeptZones.grantClaim (k : KeptZones K P) (h : P s) {z : Nat} {c : Claim} {g : Grant} (hc : c.classFits)
    (hn : holdsClaim (s.zones.get z).claims c.claimant = false)
    (hg : (if c.isVoice then placeVoice c (s.zones.get z).claims
      else placeResumable c (s.zones.get z).claims) = some g)
    (hk : ∀ d ∈ (s.zones.get z).claims, g.lost = some d ∨ g.evicted = some d → ¬ K z d.claimant) :
    P (s.applyGrant z g) := by
  refine k.applyGrant h (fun x => ?_) (fun _ who hw hl => ?_) fun _ hf => place_head hg hf
  · split at hg
    · exact x.claims.placeVoice hn hc hg
    · rename_i hv
      exact x.claims.placeResumable hn hc (by simpa using hv) hg
  · obtain ⟨d, hd, he⟩ := holdsClaim_iff.mp hl
    rcases place_mem hg hd with h1 | h1
    · exact holdsClaim_iff.mpr ⟨d, h1, he⟩
    · exact absurd (he ▸ hw) (hk d hd h1)

/-- A session is free, or holds what it held. -/
theorem PagingMove.setSession {p : Paging} {i : Nat} {y : Option Session}
    (h : ∀ v, y = some v → ∃ x, p.sessions.get i = some x ∧
      ∀ z, (z, HoldStatus.held) ∈ v.zones → (z, HoldStatus.held) ∈ x.zones) :
    PagingMove p { p with sessions := p.sessions.put i y } := by
  refine ⟨⟨rfl, rfl, fun x => x⟩, fun j v hv => ?_⟩
  rw [Tab.get_put] at hv
  split at hv
  · rename_i hj
    obtain ⟨rfl, -⟩ := hj
    exact h v hv
  · exact ⟨v, hv, fun _ hz => hz⟩

/-- A change of the Paging Controller that leaves its sessions alone. -/
theorem PagingMove.keepSessions {a b : Paging} (h : PagingChange a b) (hs : b.sessions = a.sessions) : PagingMove a b :=
  { h with sessions := fun _ y hy => ⟨y, hs ▸ hy, fun _ hz => hz⟩ }

/-- A zone that is lost is not among those still held. -/
theorem held_of_lost {zs : List (Nat × HoldStatus)} {y z : Nat}
    (h : (z, HoldStatus.held) ∈ zs.map fun e => if e.1 = y then (y, HoldStatus.lost) else e) :
    z ≠ y ∧ (z, HoldStatus.held) ∈ zs := by
  obtain ⟨e, he, hz⟩ := List.mem_map.mp h
  split at hz
  · cases hz
  · rename_i hy
    subst hz
    exact ⟨hy, he⟩

theorem KeptClaims.setSession (k : KeptClaims P) (h : P s) (i : Nat) {x y : Session}
    (hx : s.paging.sessions.get i = some x) (hy : y.zones = x.zones) : P (s.setSession i (some y)) :=
  k.paging h (.setSession fun v hv => by cases hv; exact ⟨x, hx, fun z hz => hy ▸ hz⟩)

theorem KeptClaims.goLive (k : KeptClaims P) (h : P s) (i : Nat) : P (s.goLive i) := by
  unfold State.goLive
  split
  · exact h
  · rename_i x hx
    refine foldl_kept (P := P) (fun _ _ ht => ?_) _ (k.setSession h i hx rfl)
    exact k.zoneRest ht (by intro _; exact ⟨rfl, rfl, rfl, rfl, rfl, id⟩)

/-- Work on zones alone keeps the part but for its zones. -/
theorem KeptZones.zonesOnly (s : State) : KeptZones unrelied (fun t => ∃ zs, t = { s with zones := zs }) :=
  ⟨fun _ => id, fun {_ _ _} h _ => by obtain ⟨zs, rfl⟩ := h; exact ⟨_, rfl⟩⟩

/-- The re-evaluation of the assist claims changes zones alone. -/
theorem State.reevaluateAll_zones (s : State) : ∃ zs, s.reevaluateAll = { s with zones := zs } :=
  (KeptZones.zonesOnly s).reevaluateAll ⟨s.zones, rfl⟩

/-- A claim's withdrawal changes zones alone. -/
theorem State.withdrawClaim_zones (s : State) (z : Nat) (who : Claimant) :
    ∃ zs, s.withdrawClaim z who = { s with zones := zs } :=
  (KeptZones.zonesOnly s).withdrawClaim ⟨s.zones, rfl⟩ z id

/-! ### Stations -/

/-- A station change that leaves configuration and strikes alone. -/
theorem StationChange.live {a b : Station} (hdn : b.dn = a.dn) (h1 : b.talkSlot = a.talkSlot)
    (h2 : b.homeZone = a.homeZone) (h3 : b.pickupGroup = a.pickupGroup) (h4 : b.authority = a.authority)
    (h5 : b.ringAssist = a.ringAssist) (h6 : b.strikes = a.strikes) : StationChange a b :=
  ⟨hdn, h1, h2, h3, h4, h5, fun x => by unfold Station.Fits at *; omega⟩

/-- A station change that leaves the line and the call alone. -/
theorem StationChange.still {a b : Station} (h : StationChange a b) (hl : b.line = a.line) (hc : b.call = a.call) :
    StationMove a b :=
  { h with ringing := by rw [hl], call := fun _ => hc }

/-- A change of a station that does not ring and does not begin to. -/
theorem StationChange.silent {a b : Station} (h : StationChange a b) (ha : a.line ≠ .ringing) (hb : b.line ≠ .ringing) :
    StationMove a b :=
  { h with ringing := ⟨fun x => absurd x hb, fun x => absurd x ha⟩, call := fun x => absurd x ha }

theorem KeptLines.changeStation (k : KeptLines P) (h : P s) {n : Nat} {f : Station → Station}
    (hf : StationMove (s.stations.get n) (f (s.stations.get n))) : P (s.changeStation n f) := by
  unfold State.changeStation
  exact ite_kept (k.raiseAvailable (k.station h hf) n) (k.station h hf)

theorem KeptLines.setAvailable (k : KeptLines P) (h : P s) (n : Nat) : P (s.setAvailable n) :=
  k.changeStation h (StationChange.still ⟨rfl, rfl, rfl, rfl, rfl, rfl, fun _ => Nat.zero_le _⟩ rfl rfl)

theorem KeptLines.setUnavailable (k : KeptLines P) (h : P s) (n : Nat) : P (s.setUnavailable n) :=
  k.changeStation h (StationChange.still (.live rfl rfl rfl rfl rfl rfl rfl) rfl rfl)

theorem KeptLines.trackOffer (k : KeptLines P) (h : P s) (n : Nat) (c : CallRef) : P (s.trackOffer n c) := by
  unfold State.trackOffer
  split
  · rename_i hl
    exact k.changeStation h (StationChange.silent (.live rfl rfl rfl rfl rfl rfl rfl) (by rw [hl]; decide) nofun)
  · exact h

theorem KeptLines.trackOfferGone (k : KeptLines P) (h : P s) (n : Nat) (c : CallRef) : P (s.trackOfferGone n c).1 := by
  unfold State.trackOfferGone
  split
  · exact k.leave h n (.live rfl rfl rfl rfl rfl rfl rfl) nofun
  · exact h

theorem KeptLines.sendOffer (k : KeptLines P) (h : P s) (n : Nat) (c : CallRef) (d e : Digits) (x : CallerClass)
    (g : Nat) : P (s.sendOffer n c d e x g) :=
  k.join (k.trackOffer h n c) _ _

theorem KeptLines.sendWithdraw (k : KeptLines P) (h : P s) (n : Nat) (c : CallRef) (x : WithdrawCause) :
    P (s.sendWithdraw n c x) :=
  k.join (k.trackOfferGone h n c) _ _

theorem KeptLines.sendEngage (k : KeptLines P) (h : P s) (n : Nat) (f : EngageFeature) : P (s.sendEngage n f) := by
  unfold State.sendEngage
  refine k.join ?_ _ _
  split
  · rename_i hl
    exact k.changeStation h (StationChange.silent (.live rfl rfl rfl rfl rfl rfl rfl) (by rw [hl]; decide) nofun)
  · exact h

theorem KeptLines.strike (k : KeptLines P) (h : P s) (n g : Nat) : P (s.strike n g) := by
  unfold State.strike
  have h1 : P (s.changeStation n fun st => { st with strikes := min (st.strikes + 1) 7 }) :=
    k.changeStation h (StationChange.still ⟨rfl, rfl, rfl, rfl, rfl, rfl, fun _ => Nat.min_le_right _ _⟩ rfl rfl)
  exact ite_kept (k.setFlag (k.changeStation h1
    (StationChange.still ⟨rfl, rfl, rfl, rfl, rfl, rfl, fun _ => Nat.zero_le _⟩ rfl rfl)) _) h1

end Sys2Proof.Machine
end

