-- ==== Sys2Proof/Laws/KeptFree.lean ====
section
/-! SUPPORT. A property that the small moves keep, whatever they do to what one block says of another, is kept by the
pieces of work that break such a tie and mend it: what most properties need to be kept by everything. -/

namespace Sys2Proof.Machine

variable {P : State → Prop} {s : State}

/-- A property that every small move of the work on claims keeps. -/
structure FreeClaims (P : State → Prop) : Prop extends KeptZones unrelied P, KeptLanes P where
  source : ∀ {s : State} (n : Nat), P s → P (s.modStation n fun st => { st with source := none })
  paging : ∀ {s : State} {f : Paging → Paging}, P s → PagingChange s.paging (f s.paging) → P (s.modPaging f)
  alarm : ∀ {s : State} {f : Alarm → Alarm}, P s → (f s.alarm).line = s.alarm.line → P (s.modAlarm f)

/-- A property that every live change of a station keeps. -/
def FreeStation (P : State → Prop) : Prop := ∀ {s : State} {n : Nat} {f : Station → Station}, P s →
  StationChange (s.stations.get n) (f (s.stations.get n)) → P (s.modStation n f)

/-- A property that every live change of the Hunt Controller keeps. -/
def FreeHunt (P : State → Prop) : Prop := ∀ {s : State} {f : Hunt → Hunt}, P s →
  HuntChange s.hunt (f s.hunt) → P (s.modHunt f)

/-- A property that every change of an orbit keeps. -/
def FreeOrbit (P : State → Prop) : Prop := ∀ {s : State} {n : Nat} {o : Option Orbit}, P s → P (s.setOrbit n o)

/-- A property that every live change of the Pickup Unit keeps. -/
def FreePickup (P : State → Prop) : Prop := ∀ {s : State} {f : Pickup → Pickup}, P s →
  PickupChange s.pickup (f s.pickup) → P (s.modPickup f)

/-! ### The work on claims -/

/-- What relies on no claim is kept where what relies on some is. -/
theorem ZoneMove.weaken {A : Claimant → Prop} {a b : Zone} (h : ZoneMove A a b) : ZoneMove (unrelied 0) a b :=
  ⟨h.fields, h.audio, h.saturations, h.fits, fun _ _ hw => hw.elim⟩

theorem FreeClaims.setSession (k : FreeClaims P) (h : P s) (i : Nat) (x : Option Session) : P (s.setSession i x) :=
  k.paging h ⟨rfl, rfl, id⟩

theorem FreeClaims.freeSession (k : FreeClaims P) (h : P s) (i : Nat) : P (s.freeSession i) := by
  unfold State.freeSession
  split
  · exact h
  · exact k.paging (k.setSession (k.source _ h) _ _) ⟨rfl, rfl, id⟩

theorem FreeClaims.sessionLost (k : FreeClaims P) (h : P s) (i z : Nat) : P (s.sessionLost i z) := by
  unfold State.sessionLost
  split
  · exact h
  · have h1 := k.setSession h i
    exact ite_kept (h1 _) (k.freeSession (k.sendTone (h1 _) _ _) _)

theorem FreeClaims.reportLoss (k : FreeClaims P) (h : P s) (z : Nat) (c : Claim) : P (s.reportLoss z c) := by
  unfold State.reportLoss
  split
  · exact k.sessionLost h _ _
  · exact h
  · exact k.alarm h rfl
  · exact h

theorem FreeClaims.settleGrant (k : FreeClaims P) (h : P s) (z : Nat) (g : Grant) : P (s.settleGrant z g) := by
  have hr : ∀ (o : Option Claim) {t : State}, P t → P (match o with | some c => t.reportLoss z c | none => t) := by
    intro o t ht
    cases o
    · exact ht
    · exact k.reportLoss ht _ _
  unfold State.settleGrant
  exact ite_kept (k.reevaluateAssist (hr _ (hr _ h)) z) (hr _ (hr _ h))

theorem FreeClaims.requestClaim (k : FreeClaims P) (h : P s) (z : Nat) {c : Claim} (hc : c.classFits) :
    P (s.requestClaim z c).1 := by
  unfold State.requestClaim
  dsimp only
  split
  · exact h
  · rename_i hn
    have hn : holdsClaim (s.zones.get z).claims c.claimant = false := by
      simp only [Bool.or_eq_true, not_or, Bool.not_eq_true] at hn; exact hn.2
    split
    · exact h
    · rename_i g hg
      exact k.settleGrant (k.grantClaim h hc hn hg fun _ _ _ => id) z g

theorem FreeClaims.endSession (k : FreeClaims P) (h : P s) (i : Nat) (q : Bool) : P (s.endSession i q) := by
  unfold State.endSession
  split
  · exact h
  · have h1 := foldl_kept (P := P) (g := fun t (e : Nat × HoldStatus) => t.withdrawClaim e.1 (.session i))
      (fun _ e ht => k.withdrawClaim ht e.1 id)
    exact k.freeSession (ite_kept (h1 _ h) (k.sendTone (h1 _ h) _ _)) _

theorem FreeClaims.requestZones (k : FreeClaims P) {c : Claim} (hc : c.classFits) : ∀ (l : List Nat) {s : State}, P s →
    P (State.requestZones c l s).1
  | [], _, h => h
  | z :: rest, _, h => k.requestZones hc rest (k.requestClaim h z hc)

theorem FreeClaims.claimAlarm (k : FreeClaims P) (h : P s) {c : Claim} (hc : c.classFits) (z : Nat) :
    P (s.claimAlarm c z) := by
  have h1 := k.requestClaim h z hc
  unfold State.claimAlarm
  exact ite_kept (k.chooseBeacon (k.alarm h1 (f := fun a => { a with claimed := a.claimed ++ [z] }) rfl) z) h1

theorem FreeClaims.withdrawAlarm (k : FreeClaims P) (h : P s) : P s.withdrawAlarm := by
  have h1 : P (s.alarm.claimed.foldl (fun t z => t.withdrawClaim z .alarm) s) :=
    foldl_kept (P := P) (fun _ z ht => k.withdrawClaim ht z id) _ h
  unfold State.withdrawAlarm
  exact foldl_kept (P := P) (fun _ z ht => k.chooseBeacon ht z) _ (k.alarm h1 rfl)

/-- A property that the small moves of the work on claims keep is kept by all of it. -/
theorem FreeClaims.kept (k : FreeClaims P) : KeptClaims P where
  assist := fun _ => id
  zone h hf := k.zone h hf.weaken
  lane := k.lane
  flag := k.flag
  source := k.source
  paging h hf := k.paging h hf.toPagingChange
  alarm h hf _ := k.alarm h hf
  requestClaim h z _ hc := k.requestClaim h z hc
  endSession h i q := k.endSession h i q
  startZones h _ _ _ _ _ hc _ _ := k.setSession (k.requestZones hc _ h) _ _
  claimAlarm h _ hc _ z := k.claimAlarm h hc z
  withdrawAlarm h := k.withdrawAlarm h

/-! ### Lines, records and orbits -/

theorem KeptClaims.leaveFree (k : KeptClaims P) (hs : FreeStation P) (hr : ∀ {t : State}, P t → ∀ n, P (t.raiseAvailable n))
    (hp : FreePickup P) (h : P s) (n : Nat) {f : Station → Station}
    (hf : StationChange (s.stations.get n) (f (s.stations.get n))) : P ((s.changeStation n f).ringingRemove n) := by
  have h1 : P (s.changeStation n f) := by
    unfold State.changeStation
    exact ite_kept (hr (hs h hf) n) (hs h hf)
  unfold State.ringingRemove
  exact ite_kept (k.reevaluateAll (hp h1 ⟨rfl, fun x => ⟨x.successes, x.denials⟩⟩)) h1

theorem KeptClaims.releaseFree (k : KeptClaims P) (hh : FreeHunt P) (ho : FreeOrbit P) (h : P s) {f : Hunt → Hunt} {n : Nat}
    (hf : HuntChange s.hunt (f s.hunt)) :
    P ((zoneNumbers.foldl (fun t z => t.withdrawClaim z (.orbit n)) (s.modHunt f)).setOrbit n none) :=
  ho (foldl_kept (P := P) (fun _ z ht => k.withdrawClaim ht z id) _ (hh h hf))

theorem HuntRecord.withOrbit_call (n : Nat) (r : HuntRecord) : (r.withOrbit n).call = r.call := by
  unfold HuntRecord.withOrbit; split <;> rfl

theorem HuntRecord.withOrbit_awaiting (n : Nat) (r : HuntRecord) : (r.withOrbit n).awaiting = false := by
  cases h : r.status <;> simp [HuntRecord.withOrbit, HuntRecord.awaiting, h]

/-- Giving a call's record an orbit keeps the table in form. -/
theorem HuntChange.withOrbit {h : Hunt} (c : CallRef) (n : Nat) :
    HuntChange h { h with records := h.records.map fun r => if r.call = c then r.withOrbit n else r } := by
  refine ⟨rfl, rfl, rfl, fun x => ⟨by simpa using x.records, ?_, ?_, x.closed, x.closedOnce, x.counters, x.raised⟩⟩
  · have : (h.records.map fun r => if r.call = c then r.withOrbit n else r).map HuntRecord.call =
        h.records.map HuntRecord.call := by
      rw [List.map_map]
      refine List.map_congr_left fun r _ => ?_
      show (if r.call = c then r.withOrbit n else r).call = r.call
      split
      · exact HuntRecord.withOrbit_call n r
      · rfl
    exact this ▸ x.calls
  · intro q hq ha
    obtain ⟨r, hr, rfl⟩ := List.mem_map.mp hq
    split at ha
    · rw [HuntRecord.withOrbit_awaiting] at ha; cases ha
    · rename_i hc; rw [if_neg hc]; exact x.awaiting r hr ha

theorem assignFree (hh : FreeHunt P) (ho : FreeOrbit P) (h : P s) (n : Nat) (o : Option Orbit) (c : CallRef) :
    P ((s.setOrbit n o).modRecord c (HuntRecord.withOrbit n)) :=
  hh (ho h) (HuntChange.withOrbit c n)

/-- A property that every small move keeps. -/
structure Free (P : State → Prop) : Prop extends FreeClaims P where
  station : FreeStation P
  hunt : FreeHunt P
  orbit : FreeOrbit P
  pickup : FreePickup P

/-- The event of a candidate keeps the tables in form. -/
theorem HuntChange.raise {h : Hunt} (n : Nat) : HuntChange h { h with available := insertSorted n h.available } :=
  ⟨rfl, rfl, rfl, fun x => ⟨x.records, x.calls, x.awaiting, x.closed, x.closedOnce, x.counters, x.raised.1,
    insertSorted_ascending n x.raised.2⟩⟩

/-- A property that every small move keeps is kept by all the moves. -/
theorem Free.kept (k : Free P) : Kept P where
  toKeptClaims := k.toFreeClaims.kept
  station h hf := k.station h hf.toStationChange
  raiseAvailable h n := k.hunt h (.raise n)
  pickup h hf := k.pickup h hf.toPickupChange
  leave h n _ hf _ := k.toFreeClaims.kept.leaveFree k.station (fun h n => k.hunt h (.raise n)) k.pickup h n hf
  hunt h hf := k.hunt h hf.toHuntChange
  orbit h _ := k.orbit h
  release h _ _ hf _ := k.toFreeClaims.kept.releaseFree k.hunt k.orbit h hf
  assign h n _ _ _ := assignFree k.hunt k.orbit h n _ _

/-! ### What the work on claims leaves alone -/

/-- Work on claims leaves the hunt tables and the orbits alone. -/
theorem KeptClaims.same (s : State) : KeptClaims (fun t => t.hunt = s.hunt ∧ t.orbits = s.orbits) :=
  FreeClaims.kept
    { assist := fun _ => id, zone := fun h _ => h, lane := fun h _ => h, flag := fun _ h => h, source := fun _ h => h
      paging := fun h _ => h, alarm := fun h _ => h }

end Sys2Proof.Machine
end

