-- ==== Sys2Proof/Laws/KeptHunt.lean ====
section
/-! SUPPORT. The Hunt Controller's and the Orbit Table's operations keep what the moves keep (04; 06). -/

namespace Sys2Proof.Machine

variable {P : State → Prop} {s : State}

/-! ### The tables -/

/-- A record changes in place: its call and its group stay, an orbit that it holds stays, and it awaits none beside one
that it holds. -/
structure RecordMove (a b : HuntRecord) : Prop where
  call : b.call = a.call
  group : b.group = a.group
  orbit : a.orbit ≠ none → b.orbit = a.orbit
  awaiting : (a.awaiting = true → a.orbit = none) → b.awaiting = true → b.orbit = none

theorem RecordMove.refl (r : HuntRecord) : RecordMove r r := ⟨Eq.refl _, Eq.refl _, fun _ => Eq.refl _, id⟩

/-- A change of a record that leaves its status alone. -/
theorem RecordMove.status {a b : HuntRecord} (h1 : b.call = a.call) (h2 : b.group = a.group) (h3 : b.status = a.status) :
    RecordMove a b := by
  have ho : b.orbit = a.orbit := by unfold HuntRecord.orbit; rw [h3]
  have ha : b.awaiting = a.awaiting := by unfold HuntRecord.awaiting; rw [h3]
  exact ⟨h1, h2, fun _ => ho, fun h x => ho.trans (h (ha ▸ x))⟩

/-- A change of an OFFERED record that leaves it OFFERED. -/
theorem RecordMove.offered {a b : HuntRecord} (h1 : b.call = a.call) (h2 : b.group = a.group)
    (h3 : a.isQueued = false) (h4 : b.isQueued = false) : RecordMove a b := by
  have ha : a.orbit = none := by
    unfold HuntRecord.orbit; unfold HuntRecord.isQueued at h3; split <;> simp_all
  have hb : b.awaiting = false := by
    unfold HuntRecord.awaiting; unfold HuntRecord.isQueued at h4; split <;> simp_all
  exact ⟨h1, h2, fun x => absurd ha x, fun _ x => by rw [hb] at x; cases x⟩

/-- A table of calls, each once, holds one record of a call. -/
theorem record_unique {l : List HuntRecord} (h : (l.map HuntRecord.call).Nodup) {q r : HuntRecord} (hq : q ∈ l)
    (hr : r ∈ l) (he : q.call = r.call) : q = r :=
  List.inj_on_of_nodup_map h hq hr he

/-- The call table with records changed in place. -/
theorem HuntMove.mapRecords {h : Hunt} {f : HuntRecord → HuntRecord}
    (hf : h.Fits → ∀ r ∈ h.records, RecordMove r (f r)) (hc : ∀ r, (f r).call = r.call) :
    HuntMove h { h with records := h.records.map f } := by
  refine ⟨⟨rfl, rfl, rfl, fun x => ⟨?_, ?_, ?_, x.closed, x.closedOnce, x.counters, x.raised⟩⟩, fun x r hr ho => ?_⟩
  · simpa using x.records
  · have : (h.records.map f).map HuntRecord.call = h.records.map HuntRecord.call := by
      rw [List.map_map]; exact List.map_congr_left fun r _ => hc r
    exact this ▸ x.calls
  · intro q hq ha
    obtain ⟨r, hr, rfl⟩ := List.mem_map.mp hq
    exact (hf x r hr).awaiting (x.awaiting r hr) ha
  · have m := hf x r hr
    exact ⟨f r, List.mem_map.mpr ⟨r, hr, rfl⟩, m.call, m.group, m.orbit ho⟩

/-- The call table with some records left out. -/
theorem HuntChange.filterRecords {h : Hunt} (p : HuntRecord → Bool) :
    HuntChange h { h with records := h.records.filter p } :=
  ⟨rfl, rfl, rfl, fun x => ⟨le_trans (List.length_filter_le _ _) x.records,
    x.calls.sublist (List.filter_sublist.map _), fun r hr => x.awaiting r (List.mem_filter.mp hr).1, x.closed,
    x.closedOnce, x.counters, x.raised⟩⟩

/-- A record placed in the table stands among the others. -/
theorem placeRecord_perm (r : HuntRecord) : ∀ l : List HuntRecord, (placeRecord r l).Perm (r :: l)
  | [] => List.Perm.refl _
  | q :: rest => by
    unfold placeRecord
    split
    · exact List.Perm.refl _
    · exact ((placeRecord_perm r rest).cons q).trans (List.Perm.swap r q rest)

/-- The call of a record found by its call. -/
theorem record_call {c : CallRef} {r : HuntRecord} (h : s.record c = some r) : r.call = c ∧ r ∈ s.hunt.records :=
  ⟨by simpa using List.find?_some h, List.mem_of_find?_eq_some h⟩

/-- A call with no record stands nowhere in the table. -/
theorem record_none {c : CallRef} (h : s.record c = none) : c ∉ s.hunt.records.map HuntRecord.call := by
  intro hc
  obtain ⟨r, hr, he⟩ := List.mem_map.mp hc
  have := List.find?_eq_none.mp h r hr
  simp [he] at this

/-- The closed-call list stays within its bound, each call once (04, R66). -/
theorem closeCall_fits {l : List CallRef} (c : CallRef) (hl : l.length ≤ Config.closedCalls) (hn : l.Nodup) :
    (closeCall c l).length ≤ Config.closedCalls ∧ (closeCall c l).Nodup := by
  have hn1 : (l.filter (· ≠ c) ++ [c]).Nodup := by
    rw [List.nodup_append]
    refine ⟨hn.sublist List.filter_sublist, by simp, ?_⟩
    intro a ha b hb
    rw [List.mem_singleton] at hb
    subst hb
    simpa using (List.mem_filter.mp ha).2
  have hl1 : (l.filter (· ≠ c)).length ≤ l.length := List.length_filter_le _ _
  unfold closeCall
  dsimp only
  split
  · exact ⟨by rw [List.length_drop, List.length_append, List.length_singleton]; omega, hn1.sublist (List.drop_sublist _ _)⟩
  · exact ⟨by omega, hn1⟩

/-- A record enters the table at its place: it was there before under its call, holding no orbit, or there was room. -/
theorem HuntMove.place {h : Hunt} {q : HuntRecord} (ha : q.awaiting = false)
    (hq : (∃ r ∈ h.records, r.call = q.call ∧ r.orbit = none) ∨
      q.call ∉ h.records.map HuntRecord.call ∧ h.records.length < Config.huntRecords) :
    HuntMove h { h with records := placeRecord q (h.records.filter fun r => r.call ≠ q.call) } := by
  have hp := placeRecord_perm q (h.records.filter fun r => r.call ≠ q.call)
  refine ⟨⟨rfl, rfl, rfl, fun x => ⟨?_, ?_, fun r hr hw => ?_, x.closed, x.closedOnce, x.counters, x.raised⟩⟩,
    fun x r hr ho => ?_⟩
  · have hl := hp.length_eq
    rw [List.length_cons] at hl
    show (placeRecord _ _).length ≤ _
    rcases hq with ⟨r, hr, he, -⟩ | ⟨-, hq⟩
    · have : (h.records.filter fun r => r.call ≠ q.call).length < h.records.length :=
        List.length_filter_lt_length_iff_exists.mpr ⟨r, hr, by simp [he]⟩
      have := x.records
      omega
    · have := List.length_filter_le (fun r : HuntRecord => decide (r.call ≠ q.call)) h.records
      omega
  · show ((placeRecord _ _).map _).Nodup
    rw [(hp.map _).nodup_iff, List.map_cons, List.nodup_cons]
    refine ⟨?_, x.calls.sublist (List.filter_sublist.map _)⟩
    intro hc
    obtain ⟨r, hr, he⟩ := List.mem_map.mp hc
    simpa [he] using (List.mem_filter.mp hr).2
  · rcases List.mem_cons.mp (hp.mem_iff.mp hr) with rfl | hr
    · rw [ha] at hw; cases hw
    · exact x.awaiting r (List.mem_filter.mp hr).1 hw
  · refine ⟨r, hp.mem_iff.mpr (List.mem_cons_of_mem _ (List.mem_filter.mpr ⟨hr, decide_eq_true fun he => ?_⟩)), rfl, rfl,
      rfl⟩
    rcases hq with ⟨p, hp, hc, hn⟩ | ⟨hc, -⟩
    · exact ho (record_unique x.calls hr hp (he.trans hc.symm) ▸ hn)
    · exact hc (List.mem_map.mpr ⟨r, hr, he⟩)

/-- A record of a new call enters at the end of the table, where there is room. -/
theorem HuntMove.append {h : Hunt} {q : HuntRecord} (ha : q.awaiting = false) (hq : q.call ∉ h.records.map HuntRecord.call)
    (hl : h.records.length < Config.huntRecords) : HuntMove h { h with records := h.records ++ [q] } := by
  refine ⟨⟨rfl, rfl, rfl, fun y => ⟨?_, ?_, fun r hr hw => ?_, y.closed, y.closedOnce, y.counters, y.raised⟩⟩,
    fun _ r hr _ => ⟨r, List.mem_append_left _ hr, rfl, rfl, rfl⟩⟩
  · show (h.records ++ [q]).length ≤ _
    rw [List.length_append, List.length_singleton]; omega
  · show ((h.records ++ [q]).map HuntRecord.call).Nodup
    rw [List.map_append, List.map_cons, List.map_nil, List.nodup_append]
    refine ⟨y.calls, by simp, ?_⟩
    intro a ha b hb
    rw [List.mem_singleton] at hb
    subst hb
    exact fun hab => hq (hab ▸ ha)
  · rcases List.mem_append.mp hr with hr | hr
    · exact y.awaiting r hr hw
    · rw [List.mem_singleton.mp hr, ha] at hw; cases hw

/-- A hunt update that leaves the call table alone. -/
theorem HuntMove.keepRecords {a b : Hunt} (h : HuntChange a b) (hr : b.records = a.records) : HuntMove a b :=
  { h with orbits := fun _ r hm _ => ⟨r, hr ▸ hm, rfl, rfl, rfl⟩ }

/-- A hunt update that leaves both tables and the counters alone. -/
theorem HuntMove.rest {a b : Hunt} (h1 : b.staged = a.staged) (h2 : b.active = a.active) (h3 : b.countdown = a.countdown)
    (h4 : b.records = a.records) (h5 : b.closed = a.closed) (h6 : b.live = a.live)
    (h7 : a.headChecks.Pairwise (· < ·) → b.headChecks.Pairwise (· < ·))
    (h8 : a.available.Pairwise (· < ·) → b.available.Pairwise (· < ·)) : HuntMove a b :=
  .keepRecords ⟨h1, h2, h3, fun x => ⟨h4 ▸ x.records, h4 ▸ x.calls, h4 ▸ x.awaiting, h5 ▸ x.closed, h5 ▸ x.closedOnce,
    h6 ▸ x.counters, h7 x.raised.1, h8 x.raised.2⟩⟩ h4

/-- A change that each record of the table may take. -/
theorem Kept.modRecord (k : Kept P) (h : P s) (c : CallRef) {f : HuntRecord → HuntRecord}
    (hf : ∀ r, RecordMove r (f r)) : P (s.modRecord c f) :=
  k.hunt h (HuntMove.mapRecords (fun _ r _ => by split; exacts [hf r, .refl r])
    fun r => by split; exacts [(hf r).call, rfl])

/-- A change that the record of a call may take. -/
theorem Kept.modRecordOf (k : Kept P) (h : P s) {c : CallRef} {r : HuntRecord} (hr : s.record c = some r)
    {f : HuntRecord → HuntRecord} (hf : RecordMove r (f r)) (hc : ∀ q, (f q).call = q.call) : P (s.modRecord c f) := by
  refine k.hunt h (HuntMove.mapRecords (fun x q hq => ?_) fun q => by split; exacts [hc q, rfl])
  obtain ⟨hrc, hrm⟩ := record_call hr
  split
  · rename_i he
    rw [record_unique x.calls hq hrm (he.trans hrc.symm)]
    exact hf
  · exact .refl q

theorem Kept.groupCounters (k : Kept P) (h : P s) (g : Nat) {f : GroupCounters → GroupCounters}
    (hf : ∀ c : GroupCounters, c.Fits → (f c).Fits) : P (s.modGroupCounters g f) :=
  k.hunt h (.keepRecords ⟨rfl, rfl, rfl, fun x => ⟨x.records, x.calls, x.awaiting, x.closed, x.closedOnce,
    Tab.forall_put (p := fun y : GroupLive => y.counters.Fits) x.counters (hf _ (x.counters g)), x.raised⟩⟩ rfl)

theorem Kept.setPointer (k : Kept P) (h : P s) (g : Nat) (p : Option Nat) : P (s.setPointer g p) :=
  k.hunt h (.keepRecords ⟨rfl, rfl, rfl, fun x => ⟨x.records, x.calls, x.awaiting, x.closed, x.closedOnce,
    Tab.forall_put (p := fun y : GroupLive => y.counters.Fits) x.counters (x.counters g), x.raised⟩⟩ rfl)

theorem Kept.raiseHeadCheck (k : Kept P) (h : P s) (g : Nat) : P (s.raiseHeadCheck g) :=
  k.hunt h (.rest rfl rfl rfl rfl rfl rfl (insertSorted_ascending g) id)

theorem Kept.closeCall (k : Kept P) (h : P s) (c : CallRef) : P (s.closeCall c) :=
  k.hunt h (.keepRecords ⟨rfl, rfl, rfl, fun x =>
    have y := closeCall_fits c x.closed x.closedOnce
    ⟨x.records, x.calls, x.awaiting, y.1, y.2, x.counters, x.raised⟩⟩ rfl)

/-! ### Orbits (06) -/

theorem HuntRecord.markAwaiting_call (r : HuntRecord) : r.markAwaiting.call = r.call := by
  unfold HuntRecord.markAwaiting; split <;> rfl

/-- A record that holds no orbit may be marked awaiting one. -/
theorem RecordMove.markAwaiting {r : HuntRecord} (h : r.orbit = none) : RecordMove r r.markAwaiting := by
  have ho : r.markAwaiting.orbit = r.orbit := by
    cases hs : r.status <;> simp [HuntRecord.markAwaiting, HuntRecord.orbit, hs]
  refine ⟨HuntRecord.markAwaiting_call r, ?_, fun _ => ho, fun _ _ => ho.trans h⟩
  unfold HuntRecord.markAwaiting; split <;> rfl

/-- A record that awaits an orbit is QUEUED. -/
theorem HuntRecord.isQueued_of_awaiting {r : HuntRecord} (h : r.awaiting = true) : r.isQueued = true := by
  unfold HuntRecord.awaiting at h; unfold HuntRecord.isQueued; split <;> simp_all

/-- The first record of the awaiting order is a record of the table that awaits. -/
theorem State.firstAwaiting_mem {r : HuntRecord} (h : s.firstAwaiting = some r) :
    r ∈ s.hunt.records ∧ r.awaiting = true := by
  have key : ∀ (l : List HuntRecord) (a : Option HuntRecord),
      (∀ x, a = some x → x ∈ s.hunt.records ∧ x.awaiting = true) →
      (∀ x ∈ l, x ∈ s.hunt.records ∧ x.awaiting = true) → ∀ x,
      l.foldl (fun best r => match best with
        | none => some r
        | some b => if awaitsBefore r b then some r else some b) a = some x → x ∈ s.hunt.records ∧ x.awaiting = true := by
    intro l
    induction l with
    | nil => intro a ha _ x hx; exact ha x hx
    | cons y l ih =>
      intro a ha hl x hx
      refine ih _ (fun v hv => ?_) (fun v hv => hl v (List.mem_cons_of_mem _ hv)) x hx
      have hy := hl y (List.mem_cons_self ..)
      cases a with
      | none => cases hv; exact hy
      | some b =>
        dsimp only at hv
        split at hv
        · cases hv; exact hy
        · cases hv; exact ha v rfl
  exact key _ none (fun _ hx => by cases hx) (fun x hx => (List.mem_filter.mp hx)) r h

/-- The claims of a chime leave the hunt tables and the orbits alone. -/
theorem State.chimeClaims_same (c : Claim) (hc : c.classFits) (l : List Nat) :
    (l.foldl (fun t z => (t.requestClaim z c).1) s).hunt = s.hunt ∧
    (l.foldl (fun t z => (t.requestClaim z c).1) s).orbits = s.orbits :=
  foldl_kept (P := fun t : State => t.hunt = s.hunt ∧ t.orbits = s.orbits)
    (fun _ z ht => (KeptClaims.same s).requestClaim ht z hc) l ⟨rfl, rfl⟩

theorem Kept.chimeOrbit (k : Kept P) (h : P s) (n : Nat) : P (s.chimeOrbit n) := by
  unfold State.chimeOrbit
  split
  · exact h
  · rename_i o ho
    refine k.orbit (foldl_kept (P := P) (fun _ z ht => k.requestClaim ht z (by rfl)) _ h) (o := o) ?_
    rw [(State.chimeClaims_same _ (by rfl) _).2, ho]

theorem Kept.assignOrbit (k : Kept P) (h : P s) (n : Nat) {r : HuntRecord} (hr : r ∈ s.hunt.records)
    (hq : r.isQueued = true) (ho : s.hunt.Fits → r.orbit = none) : P (s.assignOrbit n r) :=
  k.chimeOrbit (k.assign h n hr hq ho) n

theorem Kept.requestOrbit (k : Kept P) (h : P s) (c : CallRef) : P (s.requestOrbit c) := by
  unfold State.requestOrbit
  split
  · exact h
  · rename_i r hr
    split
    · exact h
    · rename_i hn
      have hn : r.isQueued = true ∧ r.orbit = none := by simpa using hn
      split
      · exact k.assignOrbit h _ (record_call hr).2 hn.1 fun _ => hn.2
      · exact ite_kept h (k.setFlag (k.modRecordOf h hr (.markAwaiting hn.2) HuntRecord.markAwaiting_call) _)

/-- An orbit's release, once the orbit is free and what its record becomes is so: it is handed on. -/
theorem Kept.releaseOrbit (k : Kept P) {n : Nat}
    (h : P ((zoneNumbers.foldl (fun t z => t.withdrawClaim z (.orbit n)) s).setOrbit n none)) (b : Bool) :
    P (s.releaseOrbit n b) := by
  unfold State.releaseOrbit
  dsimp only
  refine ite_kept ?_ h
  split
  · rename_i r hr
    obtain ⟨hm, ha⟩ := State.firstAwaiting_mem hr
    exact k.assignOrbit h _ hm (HuntRecord.isQueued_of_awaiting ha) fun x => x.awaiting r hm ha
  · exact h

/-- A record leaves its queue, or the table, and its orbit: every other record stays. -/
theorem Kept.leaveOrbit (k : Kept P) (h : P s) {c : CallRef} {r : HuntRecord} (hr : s.record c = some r)
    {f : Hunt → Hunt} (hf : HuntChange s.hunt (f s.hunt))
    (hs : ∀ q ∈ s.hunt.records, q.call ≠ c → q.staysIn (f s.hunt).records) (b : Bool) :
    P (match r.orbit with | some n => (s.modHunt f).releaseOrbit n b | none => s.modHunt f) := by
  split
  · rename_i n hn
    exact k.releaseOrbit (k.release h hr hn hf hs) b
  · rename_i hn
    refine k.hunt h { hf with orbits := fun x q hq ho => hs q hq fun he => ho ?_ }
    obtain ⟨hrc, hrm⟩ := record_call hr
    rw [record_unique x.calls hq hrm (he.trans hrc.symm), hn]

/-! ### Records and queues (04) -/

theorem Kept.removeRecord (k : Kept P) (h : P s) (c : CallRef) (b : Bool) : P (s.removeRecord c b) := by
  unfold State.removeRecord
  split
  · exact h
  · rename_i r hr
    have h2 : P (match r.orbit with
        | some n => (s.modHunt fun h => { h with records := h.records.filter fun q => q.call ≠ c }).releaseOrbit n (!b)
        | none => s.modHunt fun h => { h with records := h.records.filter fun q => q.call ≠ c }) :=
      k.leaveOrbit (f := fun h => { h with records := h.records.filter fun q => q.call ≠ c }) h hr
        (.filterRecords _)
        (fun q hq hc => ⟨q, List.mem_filter.mpr ⟨hq, decide_eq_true hc⟩, rfl, rfl, rfl⟩) (!b)
    have h3 := ite_kept (c := b = true) h2 (k.closeCall h2 c)
    exact ite_kept (k.raiseHeadCheck h3 _) h3

theorem Kept.countOffered (k : Kept P) (h : P s) (g : Nat) :
    P (s.modGroupCounters g fun c => { c with offered := satInc c.offered }) :=
  k.groupCounters h g fun _ x => ⟨satInc_fits _, x.answered, x.picked, x.retrieved, x.abandoned, x.diverted, x.noAnswers⟩

theorem Kept.countAnswered (k : Kept P) (h : P s) (g : Nat) :
    P (s.modGroupCounters g fun c => { c with answered := satInc c.answered }) :=
  k.groupCounters h g fun _ x => ⟨x.offered, satInc_fits _, x.picked, x.retrieved, x.abandoned, x.diverted, x.noAnswers⟩

theorem Kept.countPicked (k : Kept P) (h : P s) (g : Nat) :
    P (s.modGroupCounters g fun c => { c with picked := satInc c.picked }) :=
  k.groupCounters h g fun _ x => ⟨x.offered, x.answered, satInc_fits _, x.retrieved, x.abandoned, x.diverted, x.noAnswers⟩

theorem Kept.countRetrieved (k : Kept P) (h : P s) (g : Nat) :
    P (s.modGroupCounters g fun c => { c with retrieved := satInc c.retrieved }) :=
  k.groupCounters h g fun _ x => ⟨x.offered, x.answered, x.picked, satInc_fits _, x.abandoned, x.diverted, x.noAnswers⟩

theorem Kept.countAbandoned (k : Kept P) (h : P s) (g : Nat) :
    P (s.modGroupCounters g fun c => { c with abandoned := satInc c.abandoned }) :=
  k.groupCounters h g fun _ x => ⟨x.offered, x.answered, x.picked, x.retrieved, satInc_fits _, x.diverted, x.noAnswers⟩

theorem Kept.countDiverted (k : Kept P) (h : P s) (g : Nat) :
    P (s.modGroupCounters g fun c => { c with diverted := satInc c.diverted }) :=
  k.groupCounters h g fun _ x => ⟨x.offered, x.answered, x.picked, x.retrieved, x.abandoned, satInc_fits _, x.noAnswers⟩

theorem Kept.countNoAnswers (k : Kept P) (h : P s) (g : Nat) :
    P (s.modGroupCounters g fun c => { c with noAnswers := satInc c.noAnswers }) :=
  k.groupCounters h g fun _ x => ⟨x.offered, x.answered, x.picked, x.retrieved, x.abandoned, x.diverted, satInc_fits _⟩

theorem Kept.sendAway (k : Kept P) (h : P s) (c : CallRef) (g : Nat) (b : Body) : P (s.sendAway c g b) :=
  k.countDiverted (k.setFlag (k.removeRecord (k.sendOwn h c b) c false) _) g

theorem Kept.overflow (k : Kept P) (h : P s) (c : CallRef) (g : Nat) : P (s.overflow c g) := k.sendAway h _ _ _

/-- A record becomes OFFERED, every other one staying as it was (04, R71). -/
theorem HuntChange.offer {h : Hunt} (c : CallRef) {f : HuntRecord → HuntRecord} (hc : ∀ r, (f r).call = r.call)
    (ho : ∀ r, (f r).isQueued = false) :
    HuntChange h { h with records := h.records.map fun r => if r.call = c then f r else r } := by
  refine ⟨rfl, rfl, rfl, fun x => ⟨by simpa using x.records, ?_, ?_, x.closed, x.closedOnce, x.counters, x.raised⟩⟩
  · have : (h.records.map fun r => if r.call = c then f r else r).map HuntRecord.call =
        h.records.map HuntRecord.call := by
      rw [List.map_map]
      refine List.map_congr_left fun r _ => ?_
      show (if r.call = c then f r else r).call = r.call
      split
      · exact hc r
      · rfl
    exact this ▸ x.calls
  · intro q hq ha
    obtain ⟨r, hr, rfl⟩ := List.mem_map.mp hq
    split at ha
    · exact absurd (HuntRecord.isQueued_of_awaiting ha) (by rw [ho]; decide)
    · rename_i hc; rw [if_neg hc]; exact x.awaiting r hr ha

theorem Kept.offerTo (k : Kept P) (h : P s) (c : CallRef) (n : Nat) (b : Bool) : P (s.offerTo c n b) := by
  unfold State.offerTo
  split
  · exact h
  · rename_i r hr
    have h4 : ∀ {t : State}, P t → P (((t.setPointer r.group (some n)).modGroupCounters r.group fun k =>
        { k with offered := satInc k.offered }).sendOffer n c r.called r.caller r.cls r.group) :=
      fun ht => k.sendOffer (k.countOffered (k.setPointer ht _ _) _) _ _ _ _ _ _
    have h2 : ∀ d, P (match r.orbit with
        | some o => (s.modRecord c fun r => { r with
            status := .offered (some n) d none, tried := if b then [] else r.tried }).releaseOrbit o true
        | none => s.modRecord c fun r => { r with
            status := .offered (some n) d none, tried := if b then [] else r.tried }) := fun d =>
      k.leaveOrbit h hr (HuntChange.offer c (f := fun r => { r with
          status := .offered (some n) d none, tried := if b then [] else r.tried }) (fun _ => rfl) fun _ => rfl)
        (fun q hq hc => ⟨q, List.mem_map.mpr ⟨q, hq, by exact if_neg hc⟩, rfl, rfl, rfl⟩) true
    exact h4 (ite_kept (k.raiseHeadCheck (h2 _) _) (h2 _))

theorem State.queuedForm_call (r : HuntRecord) : (s.queuedForm r).call = r.call := rfl

theorem Kept.enterQueue (k : Kept P) (h : P s) {r : HuntRecord}
    (hr : (∃ q ∈ s.hunt.records, q.call = r.call ∧ q.orbit = none) ∨
      r.call ∉ s.hunt.records.map HuntRecord.call ∧ s.hunt.records.length < Config.huntRecords) :
    P (s.enterQueue r) := by
  have h1 : P (s.modHunt fun h => { h with
      records := placeRecord (s.queuedForm r) (h.records.filter fun q => q.call ≠ r.call) }) :=
    k.hunt h (HuntMove.place (q := s.queuedForm r) rfl hr)
  unfold State.enterQueue
  exact ite_kept (k.raiseHeadCheck h1 _) h1

theorem Kept.askIfDue (k : Kept P) (h : P s) (c : CallRef) : P (s.askIfDue c) := by
  unfold State.askIfDue
  split
  · exact ite_kept (k.requestOrbit h c) h
  · exact h

theorem Kept.maximumWait (k : Kept P) (h : P s) (c : CallRef) : P (s.maximumWait c) := by
  unfold State.maximumWait
  split
  · exact h
  · exact k.setFlag (k.overflow h _ _) _

/-! ### How an offer ends (04, 4.4) -/

theorem HuntRecord.detached_call (r : HuntRecord) : r.detached.call = r.call := by
  unfold HuntRecord.detached; split <;> rfl

/-- A record may lose its member. -/
theorem RecordMove.detached (r : HuntRecord) : RecordMove r r.detached := by
  cases hs : r.status with
  | offered m d a =>
    have e : r.detached = { r with status := .offered none d a } := by unfold HuntRecord.detached; rw [hs]
    rw [e]
    exact .offered rfl rfl (by unfold HuntRecord.isQueued; rw [hs]) rfl
  | queued w p o a =>
    have e : r.detached = r := by unfold HuntRecord.detached; rw [hs]
    rw [e]
    exact .refl r

theorem Kept.detach (k : Kept P) (h : P s) (c : CallRef) : P (s.modRecord c HuntRecord.detached) :=
  k.modRecord h c RecordMove.detached

/-- What becomes of a record whose member is detached and tried (04, R74). -/
def State.triedForm (s : State) (n : Nat) (r : HuntRecord) : HuntRecord :=
  if s.activeMember r.group n && !r.tried.contains n then { r.detached with tried := r.detached.tried ++ [n] }
  else r.detached

theorem State.detachTried_eq (s : State) (c : CallRef) (n : Nat) : s.detachTried c n = s.modRecord c (s.triedForm n) := rfl

theorem RecordMove.tried (s : State) (n : Nat) (r : HuntRecord) : RecordMove r (s.triedForm n r) := by
  unfold State.triedForm
  have d := RecordMove.detached r
  split
  · exact ⟨d.call, d.group, d.orbit, d.awaiting⟩
  · exact d

theorem Kept.detachTried (k : Kept P) (h : P s) (c : CallRef) (n : Nat) : P (s.detachTried c n) :=
  k.modRecord h c (RecordMove.tried s n)

theorem Kept.requeue (k : Kept P) (h : P s) {r : HuntRecord} (hr : r ∈ s.hunt.records) (ho : r.orbit = none) :
    P (s.requeue r) := by
  unfold State.requeue
  have h1 := k.sendOwn (k.enterQueue h (.inl ⟨r, hr, rfl, ho⟩)) r.call .ringStarted
  generalize (s.enterQueue r).sendOwn r.call .ringStarted = t at h1 ⊢
  refine k.askIfDue ?_ _
  have h2 : P (if (t.queue r.group).length > (t.activeGroup r.group).fields.capacity then
      match (t.queue r.group).getLast? with | some last => t.overflow last.call r.group | none => t
    else t) := by
    refine ite_kept ?_ h1
    split
    · exact k.overflow h1 _ _
    · exact h1
  generalize (if (t.queue r.group).length > (t.activeGroup r.group).fields.capacity then
      match (t.queue r.group).getLast? with | some last => t.overflow last.call r.group | none => t
    else t) = u at h2 ⊢
  split
  · exact ite_kept (k.maximumWait h2 _) h2
  · exact h2

/-- The record of a call, if it has one, holds no orbit: one whose offer has just ended. -/
def State.orbitless (s : State) (c : CallRef) : Prop := ∀ r, s.record c = some r → r.orbit = none

theorem Kept.reselect (k : Kept P) (h : P s) (c : CallRef) (hc : s.orbitless c) : P (s.reselect c) := by
  unfold State.reselect
  split
  · exact h
  · rename_i r hr
    split
    · exact k.sendAway h _ _ _
    · refine ite_kept (k.overflow h _ _) ?_
      split
      · exact k.offerTo h _ _ _
      · exact k.requeue h (record_call hr).2 (hc r hr)

/-- The record of a call after a change of the call's records that keeps their calls. -/
theorem State.record_modRecord {c : CallRef} {f : HuntRecord → HuntRecord} (hf : ∀ r, (f r).call = r.call) :
    (s.modRecord c f).record c = (s.record c).map f := by
  unfold State.record State.modRecord State.modHunt
  dsimp only
  induction s.hunt.records with
  | nil => rfl
  | cons r l ih =>
    by_cases hc : r.call = c
    · simp [hc, hf]
    · simp [hc, ih]

theorem HuntRecord.orbit_of_member {r : HuntRecord} {n : Nat} (h : r.member = some n) : r.orbit = none := by
  unfold HuntRecord.member at h; unfold HuntRecord.orbit; split <;> simp_all

/-- A record whose member is detached and tried holds no orbit. -/
theorem State.orbitless_detachTried {c : CallRef} {r : HuntRecord} {n m : Nat} (hr : s.record c = some r)
    (hm : r.member = some m) : (s.detachTried c n).orbitless c := by
  intro q hq
  rw [State.detachTried_eq, State.record_modRecord fun r => (RecordMove.tried s n r).call, hr] at hq
  cases hq
  cases hs : r.status with
  | offered a d b =>
    unfold State.triedForm HuntRecord.detached
    rw [hs]
    dsimp only
    split <;> rfl
  | queued w p o a => unfold HuntRecord.member at hm; rw [hs] at hm; cases hm

theorem Kept.offerLost (k : Kept P) (h : P s) (n : Nat) (c : CallRef) : P (s.offerLost n c) := by
  unfold State.offerLost
  split
  · exact h
  · rename_i r hr
    split
    · rename_i hm
      exact k.reselect (k.detachTried h c n) c (State.orbitless_detachTried hr (by simpa using hm))
    · exact h

/-- The work on lines leaves the hunt records alone. -/
theorem KeptLines.sameRecords (s : State) : KeptLines (fun t => t.hunt.records = s.hunt.records) :=
  have k : FreeClaims (fun t => t.hunt.records = s.hunt.records) :=
    { assist := fun _ => id, zone := fun h _ => h, lane := fun h _ => h, flag := fun _ h => h, source := fun _ h => h
      paging := fun h _ => h, alarm := fun h _ => h }
  { toKeptClaims := k.kept, station := fun h _ => h, raiseAvailable := fun h _ => h, pickup := fun h _ => h
    leave := fun h n _ hf _ => k.kept.leaveFree (fun h _ => h) (fun h _ => h) (fun h _ => h) h n hf }

theorem Kept.noAnswer (k : Kept P) (h : P s) {c : CallRef} {r : HuntRecord} {m : Nat} (hr : s.record c = some r)
    (hm : r.member = some m) (n g : Nat) : P (s.noAnswer c n g) := by
  refine k.reselect (k.countNoAnswers (k.sendWithdraw (k.strike (k.detachTried h c n) n g) n c .noAnswer) g) c ?_
  have hl := KeptLines.sameRecords (s.detachTried c n)
  have e : (((s.detachTried c n).strike n g).sendWithdraw n c .noAnswer).hunt.records = (s.detachTried c n).hunt.records :=
    hl.sendWithdraw (hl.strike rfl n g) n c .noAnswer
  intro q hq
  refine State.orbitless_detachTried (n := n) hr hm q ?_
  unfold State.record at hq ⊢
  rw [← e]
  exact hq

theorem Kept.withdrawMember (k : Kept P) (h : P s) (c : CallRef) (m : Nat) : P (s.withdrawMember c m) :=
  k.sendWithdraw (k.detach h c) m c .taken

theorem Kept.abandon (k : Kept P) (h : P s) (c : CallRef) : P (s.abandon c) := by
  unfold State.abandon
  split
  · exact h
  · exact k.countAbandoned (k.removeRecord (k.detach h c) c false) _

/-! ### Pilot arrival, head checks, member-available events, teardown (04, 4.2, 4.6, 4.8) -/

theorem Kept.pilotArrival (k : Kept P) (h : P s) (c : CallRef) (d e : Digits) (x : CallerClass) :
    P (s.pilotArrival c d e x) := by
  unfold State.pilotArrival
  have h0 : P (s.modHunt fun h => { h with closed := h.closed.filter (· ≠ c) }) :=
    k.hunt h (.keepRecords ⟨rfl, rfl, rfl, fun y => ⟨y.records, y.calls, y.awaiting, le_trans (List.length_filter_le _ _) y.closed,
      y.closedOnce.sublist List.filter_sublist, y.counters, y.raised⟩⟩ rfl)
  generalize (s.modHunt fun h => { h with closed := h.closed.filter (· ≠ c) }) = t at h0 ⊢
  dsimp only
  refine ite_kept (k.sendOwn h0 _ _) ?_
  split
  · exact k.sendOwn h0 _ _
  · rename_i g _
    split
    · exact k.unexpected h0
    · rename_i hr
      have hr : t.record c = none := by simpa using hr
      split
      · exact k.countDiverted (k.sendOwn h0 _ _) g
      · split
        · exact k.setFlag (k.overflow h0 _ _) _
        · rename_i hl
          have hl : t.hunt.records.length < Config.huntRecords := by omega
          split
          · exact k.offerTo (k.hunt h0 (HuntMove.append rfl (record_none hr) hl)) _ _ _
          · exact ite_kept (k.overflow h0 _ _) (k.askIfDue (k.sendOwn (k.enterQueue h0 (.inr ⟨record_none hr, hl⟩)) _ _) _)

theorem Kept.offerHeads (k : Kept P) (g : Nat) : ∀ (fuel : Nat) {s : State}, P s → P (State.offerHeads g fuel s)
  | 0, _, h => h
  | fuel + 1, _, h => by
    unfold State.offerHeads
    split
    · exact h
    · split
      · exact h
      · exact k.offerHeads g fuel (k.offerTo h _ _ _)

theorem Kept.headCheck (k : Kept P) (h : P s) (g : Nat) : P (s.headCheck g) :=
  k.hunt (k.offerHeads g _ h) (.rest rfl rfl rfl rfl rfl rfl (·.filter _) id)

theorem Kept.memberAvailable (k : Kept P) (h : P s) (n : Nat) : P (s.memberAvailable n) := by
  unfold State.memberAvailable
  have h0 : P (s.modHunt fun h => { h with available := h.available.filter (· ≠ n) }) :=
    k.hunt h (.rest rfl rfl rfl rfl rfl rfl id (·.filter _))
  dsimp only
  refine ite_kept ?_ h0
  split
  · exact k.offerTo h0 _ _ _
  · exact h0

theorem Kept.takeChecks (k : Kept P) (h : P s) : P s.takeChecks :=
  foldl_kept (P := P) (fun _ g ht => k.headCheck ht g) _ h

theorem Kept.settle (k : Kept P) (h : P s) : P s.settle :=
  foldl_kept (P := P) (fun _ n ht => k.takeChecks (k.memberAvailable ht n)) _ (k.takeChecks h)

/-- The teardown of the Hunt Controller keeps a property that the end of a group's records keeps (04, R88). -/
theorem Kept.teardownHunt (k : Kept P)
    (hf : ∀ {t : State} (g : Nat), P t → P (t.modHunt fun h => { h with records := h.records.filter fun r => r.group ≠ g }))
    (h : P s) : P s.teardownHunt := by
  have h1 : P (groupNumbers.foldl (fun t g => t.teardownGroup g) s) := by
    refine foldl_kept (P := P) (fun t g ht => ?_) _ h
    unfold State.teardownGroup
    refine hf g (foldl_kept (P := P) (fun _ r ht => ?_) _ ht)
    exact k.countDiverted (k.setFlag (k.removeRecord (k.sendOwn ht _ _) _ _) _) g
  unfold State.teardownHunt
  generalize groupNumbers.foldl (fun t g => t.teardownGroup g) s = t at h1 ⊢
  exact k.hunt h1 (.keepRecords ⟨rfl, rfl, rfl, fun x =>
    ⟨x.records, x.calls, x.awaiting, Nat.zero_le _, List.nodup_nil, x.counters, x.raised⟩⟩ rfl)

end Sys2Proof.Machine
end

