-- ==== Sys2Proof/Laws/KeptCalls.lean ====
section
/-! SUPPORT. The operations of the Paging Controller, the Alarm Latch, the Pickup Unit, the Station Tracker and the Code
Matcher keep what the moves keep (02; 05; 06; 07; 10). -/

namespace Sys2Proof.Machine

variable {P : State → Prop} {s : State}

/-! ### Paging (07) -/

theorem Kept.sourceDeparted (k : Kept P) (h : P s) (n : Nat) (q : Bool) : P (s.sourceDeparted n q) := by
  unfold State.sourceDeparted
  split
  · exact h
  · split
    · exact h
    · exact ite_kept (k.endSession h _ _) h

theorem Kept.teardownSessions (k : Kept P) (h : P s) : P s.teardownSessions := by
  unfold State.teardownSessions
  exact foldl_kept (P := P) (fun _ i ht => k.endSession ht i false) _ h

theorem Kept.countRefused (k : Kept P) (h : P s) :
    P (s.modPaging fun p => { p with refused := satInc p.refused }) :=
  k.paging h (.keepSessions ⟨rfl, rfl, fun _ => satInc_fits _⟩ rfl)

theorem Kept.refusePage (k : Kept P) (h : P s) (n : Nat) (t : ToneKind) : P (s.refusePage n t) := by
  have h1 := k.countRefused (k.sendTone (k.sendEngage h n .denied) n t)
  unfold State.refusePage
  exact ite_kept (k.setFlag h1 _) h1

/-- A page's claim belongs to its session: classes 0, 2 and 3 are voice (07, R132). -/
theorem pageClaim_fits (i : Nat) (x : PageClass) (l : List Step) :
    ({ claimant := .session i, cls := pageClaimClass x, content := l } : Claim).classFits := by
  cases x <;> exact rfl

theorem Kept.page (k : Kept P) (h : P s) (n set : Nat) (x : PageClass) : P (s.page n set x) := by
  unfold State.page
  split
  · exact k.refusePage h _ _
  · exact k.refusePage h _ _
  · rename_i i _ hi
    have hi : s.paging.sessions.get i = none := by
      unfold State.freeSessionNumber at hi
      simpa using List.find?_some hi
    refine ite_kept (k.refusePage h _ _) ?_
    refine k.sendTone (k.station (k.sendEngage (k.startZones h hi (pageClaim_fits i x _) rfl ?_) _ _)
      (StationChange.still (.live rfl rfl rfl rfl rfl rfl rfl) rfl rfl)) _ _
    rfl

theorem Kept.sessionDeadline (k : Kept P) (h : P s) (i : Nat) : P (s.sessionDeadline i) := by
  unfold State.sessionDeadline
  split
  · exact ite_kept (k.endSession h _ _) h
  · exact h

theorem Kept.lowerCount (k : Kept P) (h : P s) (i : Nat) : P (s.lowerCount i) := by
  unfold State.lowerCount
  split
  · rename_i x hx
    exact ite_kept (ite_kept (k.goLive h _) (k.setSession h _ hx rfl)) h
  · exact h

theorem Kept.frameReport (k : Kept P) (h : P s) (f : Option (List Nat) → Option (List Nat)) :
    P (s.modPaging fun p => { p with frameReport := f p.frameReport }) :=
  k.paging h (.keepSessions ⟨rfl, rfl, fun x => x⟩ rfl)

theorem Kept.frameFormed (k : Kept P) (h : P s) : P s.frameFormed := by
  unfold State.frameFormed
  split
  · exact h
  · exact k.frameReport (foldl_kept (P := P) (fun _ i ht => k.lowerCount ht i) _ h) (fun _ => none)

theorem Kept.preannounceEnd (k : Kept P) (h : P s) (i : Nat) : P (s.preannounceEnd i) := by
  unfold State.preannounceEnd
  split
  · exact ite_kept (k.frameReport (k.goLive h i) _) h
  · exact h

/-! ### The alarm's claims (10) -/

theorem Kept.placeAlarm (k : Kept P) (h : P s) : P s.placeAlarm := by
  unfold State.placeAlarm
  exact foldl_kept (P := P) (fun _ z ht => k.claimAlarm ht (by rfl) rfl z) _
    (k.alarm h rfl (List.nil_sublist _))

theorem Kept.enterAlarm (k : Kept P) (h : P s) (a : AlarmSource) : P (s.enterAlarm a) := by
  have h1 : P ((s.modAlarm fun x => { x with source := some a }).setFlag .alarmEntered) := k.setFlag (k.alarm h rfl (List.Sublist.refl _)) _
  unfold State.enterAlarm
  exact ite_kept (k.placeAlarm h1) h1

theorem Kept.exitAlarm (k : Kept P) (h : P s) : P s.exitAlarm :=
  k.setFlag (k.alarm (k.withdrawAlarm h) rfl (List.Sublist.refl _)) _

theorem Kept.alarmReaches (k : Kept P) (h : P s) (z : Nat) : P (s.alarmReaches z) := by
  unfold State.alarmReaches
  exact ite_kept (k.claimAlarm h (by rfl) rfl z) h

/-! ### Answers, pickups and retrievals (02, R29; 05; 06) -/

/-- A station takes up another line state than RINGING; a ringing one leaves the ringing set. -/
theorem KeptLines.depart (k : KeptLines P) (h : P s) {n : Nat} {f : Station → Station}
    (hf : StationChange (s.stations.get n) (f (s.stations.get n))) (hl : (f (s.stations.get n)).line ≠ .ringing) :
    P (if (s.stations.get n).line = .ringing then (s.changeStation n f).ringingRemove n else s.changeStation n f) := by
  split
  · exact k.leave h n hf hl
  · rename_i hr
    exact k.changeStation h (hf.silent hr hl)

theorem Kept.applyAnswered (k : Kept P) (h : P s) (n : Nat) (c : CallRef) : P (s.applyAnswered n c) := by
  unfold State.applyAnswered
  refine ite_kept h ?_
  have h2 := k.depart (f := fun st => { st with line := .talking, call := some c, deliveredBy := none }) h (n := n)
    (.live rfl rfl rfl rfl rfl rfl rfl) nofun
  have h3 : ∀ {t : State}, P t → P (match (s.stations.get n).superseded c with | some x => t.offerLost n x | none => t) := by
    intro t ht
    split
    · exact k.offerLost ht _ _
    · exact ht
  exact ite_kept (k.sourceDeparted (h3 h2) n true) (h3 h2)

theorem Kept.sendAnswered (k : Kept P) (h : P s) (n : Nat) (c : CallRef) (v : Via) : P (s.sendAnswered n c v) :=
  k.join (k.applyAnswered h n c) _ _

theorem Kept.creditMember (k : Kept P) (h : P s) (n : Nat) (g : Option Nat) : P (s.creditMember n g) := by
  unfold State.creditMember
  split
  · exact ite_kept (k.station h (StationChange.still (.live rfl rfl rfl rfl rfl rfl rfl) rfl rfl)) h
  · exact h

theorem Kept.denyPickup (k : Kept P) (h : P s) (p : Nat) : P (s.denyPickup p) :=
  k.sendEngage (k.pickup (k.sendTone h p .denied) ⟨⟨rfl, fun x => ⟨x.successes, satInc_fits _⟩⟩, rfl⟩) p .denied

theorem Kept.pickRecord (k : Kept P) (h : P s) (c : CallRef) (r : Nat) : P (s.pickRecord c r).1 := by
  unfold State.pickRecord
  split
  · exact h
  · rename_i x _
    have h1 : P (match x.member with
        | none => s
        | some m => if m = r then s.modRecord c HuntRecord.detached else s.withdrawMember c m) := by
      split
      · exact h
      · exact ite_kept (k.detach h c) (k.withdrawMember h c _)
    exact k.countPicked (k.removeRecord h1 c false) _

theorem Kept.countSuccess (k : Kept P) (h : P s) :
    P (s.modPickup fun u => { u with successes := satInc u.successes }) :=
  k.pickup h ⟨⟨rfl, fun x => ⟨satInc_fits _, x.denials⟩⟩, rfl⟩

theorem Kept.takePickup (k : Kept P) (h : P s) (p : Nat) (e : Ringing) (v : Via) : P (s.takePickup p e v) := by
  have h1 := k.sendAnswered (k.sendWithdraw (k.pickRecord h e.call e.station) e.station e.call .taken) p e.call v
  exact k.countSuccess (k.closeCall (k.creditMember h1 p (s.pickRecord e.call e.station).2) e.call)

theorem Kept.groupPickup (k : Kept P) (h : P s) (p : Nat) : P (s.groupPickup p) := by
  unfold State.groupPickup
  split
  · exact k.denyPickup h p
  · split
    · exact k.denyPickup h p
    · exact k.takePickup h p _ _

theorem Kept.directedPickup (k : Kept P) (h : P s) (p : Nat) (d : Digits) : P (s.directedPickup p d) := by
  unfold State.directedPickup
  split
  · exact k.denyPickup h p
  · split
    · exact k.denyPickup h p
    · exact k.takePickup h p _ _

theorem Kept.retrieveRecord (k : Kept P) (h : P s) (c : CallRef) : P (s.retrieveRecord c) := by
  unfold State.retrieveRecord
  split
  · exact h
  · exact k.countRetrieved (k.removeRecord h c false) _

theorem Kept.denyRetrieve (k : Kept P) (h : P s) (p : Nat) : P (s.denyRetrieve p) :=
  k.sendEngage (k.sendTone h p .denied) p .denied

theorem Kept.retrieve (k : Kept P) (h : P s) (p n : Nat) : P (s.retrieve p n) := by
  unfold State.retrieve
  split
  · exact k.denyRetrieve h p
  · exact ite_kept (k.creditMember (k.sendAnswered (k.retrieveRecord h _) p _ .orbit) p _) (k.denyRetrieve h p)

/-! ### Cells at the tracker (02, R26 to R34) -/

theorem Kept.unlessApplied (k : Kept P) {r : State × Bool} (h : P r.1) : P (State.unlessApplied r) :=
  ite_kept h (k.unexpected h)

theorem Kept.trackOffHook (k : Kept P) (h : P s) (n : Nat) : P (s.trackOffHook n).1 := by
  unfold State.trackOffHook
  dsimp only
  split
  · rename_i hl
    exact k.changeStation h (StationChange.silent (.live rfl rfl rfl rfl rfl rfl rfl) (by rw [hl]; decide) nofun)
  · rename_i hl
    have h1 : P (s.changeStation n fun st => { st with line := .seized, call := none }) :=
      k.changeStation h (StationChange.silent (.live rfl rfl rfl rfl rfl rfl rfl) (by rw [hl]; decide) nofun)
    dsimp only
    split
    · exact k.offerLost h1 _ _
    · exact h1
  · exact h

theorem Kept.offHook (k : Kept P) (h : P s) (n : Nat) : P (s.offHook n) := k.unlessApplied (k.trackOffHook h n)

theorem Kept.sendOffHook (k : Kept P) (h : P s) (n : Nat) : P (s.sendOffHook n) := k.join (k.trackOffHook h n) _ _

theorem Kept.trackOnHook (k : Kept P) (h : P s) (n : Nat) : P (s.trackOnHook n).1 := by
  unfold State.trackOnHook
  dsimp only
  split
  · exact h
  · exact h
  · have h2 := k.depart (f := fun st =>
        { st with line := .idle, call := none, deliveredBy := none, wrapUp := s.wrapUpAfter st
                  lastIdle := if st.endsCall then s.clock else st.lastIdle }) h (n := n)
      (.live rfl rfl rfl rfl rfl rfl rfl) nofun
    have h3 : ∀ {t : State}, P t →
        P (match (s.stations.get n).call with | some c => t.offerLost n c | none => t) := by
      intro t ht
      split
      · exact k.offerLost ht _ _
      · exact ht
    have h4 := ite_kept (c := ((s.stations.get n).line = .offered || (s.stations.get n).line = .ringing) = true)
      (h3 h2) h2
    exact ite_kept (k.sourceDeparted h4 n true) h4

theorem Kept.onHook (k : Kept P) (h : P s) (n : Nat) : P (s.onHook n) := k.unlessApplied (k.trackOnHook h n)

theorem Kept.deliver (k : Kept P) (h : P s) (n g : Nat) : P (s.deliver n g) :=
  k.station h (StationChange.still ⟨rfl, rfl, rfl, rfl, rfl, rfl, fun _ => Nat.zero_le _⟩ rfl rfl)

theorem Kept.answerRecord (k : Kept P) (h : P s) (n : Nat) (r : HuntRecord) : P (s.answerRecord n r) := by
  have h1 : P (match r.member with
      | some m => if m = n then s else s.withdrawMember r.call m
      | none => s) := by
    split
    · exact ite_kept h (k.withdrawMember h _ _)
    · exact h
  exact k.deliver (k.applyAnswered (k.countAnswered (k.removeRecord h1 r.call false) r.group) n r.call) n r.group

theorem Kept.answerTooLate (k : Kept P) (h : P s) (n : Nat) (c : CallRef) : P (s.answerTooLate n c) :=
  k.sendOffHook (k.sendWithdraw h n c .taken) n

theorem Kept.answered (k : Kept P) (h : P s) (n : Nat) (c : CallRef) : P (s.answered n c).1 := by
  unfold State.answered
  split
  · exact k.answerRecord h n _
  · split
    · exact k.answerTooLate h n c
    · exact k.applyAnswered h n c

theorem Kept.refused (k : Kept P) (h : P s) (n : Nat) (c : CallRef) : P (s.refused n c).1 := by
  have h1 := k.trackOfferGone h n c
  unfold State.refused
  dsimp only
  split
  · exact k.offerLost h1 n c
  · split <;> exact h1

theorem Kept.withdrawn (k : Kept P) (h : P s) (n : Nat) (c : CallRef) : P (s.withdrawn n c) :=
  k.offerLost (k.trackOfferGone h n c) n c

theorem Kept.abandonment (k : Kept P) (h : P s) (c : CallRef) : P (s.abandonment c) := by
  unfold State.abandonment
  split
  · exact k.unexpected h
  · dsimp only
    split
    · exact k.sendWithdraw (k.abandon h c) _ _ _
    · exact k.abandon h c

theorem Kept.callEndAt (k : Kept P) (h : P s) (n : Nat) : P (s.callEndAt n) := by
  unfold State.callEndAt
  dsimp only
  split
  · exact k.leave h n (.live rfl rfl rfl rfl rfl rfl rfl) nofun
  · exact k.leave h n (.live rfl rfl rfl rfl rfl rfl rfl) nofun
  · rename_i hl
    exact k.changeStation h (StationChange.silent (.live rfl rfl rfl rfl rfl rfl rfl) (by rw [hl]; decide) nofun)
  · exact h

theorem Kept.callEnd (k : Kept P) (h : P s) (c : CallRef) : P (s.callEnd c) := by
  unfold State.callEnd
  exact k.abandon (foldl_kept (P := P) (fun _ n ht => k.callEndAt ht n) _ h) c

/-- A part in which a station does not ring. -/
def State.notRinging (n : Nat) (s : State) : Prop := (s.stations.get n).line ≠ .ringing

/-- Nothing but a RING_STARTED makes a station ring. -/
theorem Kept.notRinging (n : Nat) : Kept (State.notRinging n) :=
  have f : FreeClaims (State.notRinging n) :=
    { assist := fun _ => id, zone := fun h _ => h, lane := fun h _ => h, flag := fun _ h => h
      source := fun m h => by
        unfold State.notRinging State.modStation at *
        dsimp only
        rw [Tab.get_put]
        split
        · rename_i e; rw [e.1]; exact h
        · exact h
      paging := fun h _ => h, alarm := fun h _ => h }
  have m : ∀ {s : State} {m : Nat} {f : Station → Station}, State.notRinging n s →
      ((f (s.stations.get m)).line = .ringing → (s.stations.get m).line = .ringing) →
      State.notRinging n (s.modStation m f) := by
    intro s m f h hf
    unfold State.notRinging State.modStation at *
    dsimp only
    rw [Tab.get_put]
    split
    · rename_i e; rw [← e.1] at h; exact fun x => h (hf x)
    · exact h
  { toKeptClaims := f.kept
    station := fun h hf => m h hf.ringing.mp
    raiseAvailable := fun h _ => h
    pickup := fun h _ => h
    leave := fun {s} h i g _ hl => by
      have h1 : State.notRinging n (s.changeStation i g) := by
        unfold State.changeStation
        exact ite_kept (P := State.notRinging n) (m h fun x => absurd x hl) (m h fun x => absurd x hl)
      unfold State.ringingRemove
      exact ite_kept (P := State.notRinging n) (f.reevaluateAll h1) h1
    hunt := fun h _ => h
    orbit := fun h _ => h
    release := fun h _ _ hf _ => f.kept.releaseFree (fun h _ => h) (fun h => h) h hf
    assign := fun h _ _ _ _ => h }

/-- A station that has just taken up another line state does not ring. -/
theorem State.notRinging_change (s : State) (n : Nat) {f : Station → Station} (hf : ∀ st, (f st).line ≠ .ringing) :
    State.notRinging n (s.changeStation n f) := by
  have h : State.notRinging n (s.modStation n f) := by
    unfold State.notRinging State.modStation
    dsimp only
    rw [Tab.get_put]
    split
    · exact hf _
    · rename_i e
      rw [Tab.get_of_not_mem _ fun x => e ⟨rfl, x⟩]
      decide
  unfold State.changeStation
  exact ite_kept (P := State.notRinging n) h h

theorem Kept.serviceOut (k : Kept P) (h : P s) (n : Nat) : P (s.serviceOut n) := by
  unfold State.serviceOut
  refine ite_kept h ?_
  have h2 := k.depart (f := fun st => { st with line := .outOfService }) h (n := n)
    (.live rfl rfl rfl rfl rfl rfl rfl) nofun
  have q2 : State.notRinging n (if (s.stations.get n).line = .ringing then
      (s.changeStation n fun st => { st with line := .outOfService }).ringingRemove n
      else s.changeStation n fun st => { st with line := .outOfService }) := by
    have h1 := State.notRinging_change s n (f := fun st => { st with line := .outOfService }) fun _ => nofun
    refine ite_kept (P := State.notRinging n) ?_ h1
    unfold State.ringingRemove
    exact ite_kept (P := State.notRinging n) ((Kept.notRinging n).reevaluateAll h1) h1
  dsimp only
  generalize (if (s.stations.get n).line = .ringing then
      (s.changeStation n fun st => { st with line := .outOfService }).ringingRemove n
      else s.changeStation n fun st => { st with line := .outOfService }) = u at h2 q2 ⊢
  have rest {Q : State → Prop} (k : Kept Q) (hu : Q u) : Q (State.sourceDeparted n false
      (if ((s.stations.get n).line = .offered || (s.stations.get n).line = .ringing) = true then
        (match (s.stations.get n).call with | some c => u.offerLost n c | none => u) else u)) := by
    refine k.sourceDeparted (ite_kept ?_ hu) n false
    split
    · exact k.offerLost hu _ _
    · exact hu
  have q3 := rest (Kept.notRinging n) q2
  exact k.station (rest k h2) (StationChange.silent (.live rfl rfl rfl rfl rfl rfl rfl) q3 q3)

theorem Kept.serviceIn (k : Kept P) (h : P s) (n : Nat) : P (s.serviceIn n) := by
  unfold State.serviceIn
  split
  · rename_i hl
    exact k.changeStation h (StationChange.silent (.live rfl rfl rfl rfl rfl rfl rfl) (by rw [hl]; decide) nofun)
  · exact h

theorem Kept.wrapUpExpiry (k : Kept P) (h : P s) (n : Nat) : P (s.wrapUpExpiry n) := by
  unfold State.wrapUpExpiry
  exact ite_kept (k.changeStation h (StationChange.still (.live rfl rfl rfl rfl rfl rfl rfl) rfl rfl)) h

/-! ### The Code Matcher (02, R41 to R45) -/

theorem Kept.denyFeature (k : Kept P) (h : P s) (n : Nat) : P (s.denyFeature n) :=
  k.sendTone (k.sendEngage h n .denied) n .denied

theorem Kept.groupStatus (k : Kept P) (h : P s) (n g : Nat) : P (s.groupStatus n g) := by
  unfold State.groupStatus
  exact ite_kept (k.denyFeature h n) (k.sendTone (k.join (k.sendEngage h n .status) _ _) n .confirm)

theorem Kept.dispatchFeature (k : Kept P) (h : P s) (n : Nat) (e : AccessCode) (a : Digits) :
    P (s.dispatchFeature n e a) := by
  unfold State.dispatchFeature
  split
  · exact k.groupPickup h n
  · exact k.directedPickup h n a
  · exact k.page h n _ _
  · exact k.retrieve h n _
  · exact k.sendTone (k.sendEngage (k.setAvailable h n) n _) n _
  · exact k.sendTone (k.sendEngage (k.setUnavailable h n) n _) n _
  · exact k.groupStatus h n _

theorem Kept.dialled (k : Kept P) (h : P s) (n : Nat) (ds : Digits) : P (s.dialled n ds).1 := by
  unfold State.dialled
  split
  · split
    · exact h
    · exact ite_kept (k.dispatchFeature h n _ _) (k.denyFeature h n)
  · exact h

end Sys2Proof.Machine
end

