-- ==== Sys2Proof/Laws/Memory.lean ====
section
/-! SUPPORT. The laws of prompt memory (09, 9.3): what a read gives after a write, and that a write keeps the one form. -/

namespace Sys2Proof.Machine

/-- A memory of a form above a bound has that form above a lower bound. -/
theorem memWfFrom_mono {lo hi : Nat} (h : lo ≤ hi) : ∀ {m : List (Nat × Sample)}, memWfFrom hi m = true → memWfFrom lo m = true
  | [], _ => rfl
  | (b, x) :: rest, hm => by
    simp only [memWfFrom, Bool.and_eq_true, decide_eq_true_eq] at hm ⊢
    exact ⟨⟨⟨le_trans h hm.1.1.1, hm.1.1.2⟩, hm.1.2⟩, hm.2⟩

/-- Below its bound a memory holds the blank sample. -/
theorem memRead_below : ∀ {m : List (Nat × Sample)} {lo a : Nat}, memWfFrom lo m = true → a < lo → memRead m a = blankSample
  | [], _, _, _, _ => rfl
  | (b, x) :: rest, lo, a, hm, ha => by
    simp only [memWfFrom, Bool.and_eq_true, decide_eq_true_eq] at hm
    have hb : lo ≤ b := hm.1.1.1
    rw [memRead, if_neg (by omega)]
    exact memRead_below hm.2 (by omega)

/-- A write above the bound keeps the form. -/
theorem memWrite_wfFrom : ∀ {m : List (Nat × Sample)} {lo a : Nat} {v : Sample}, memWfFrom lo m = true → lo ≤ a →
    a < Config.promptSamples → memWfFrom lo (memWrite m a v) = true
  | [], lo, a, v, _, hl, ha => by
    unfold memWrite
    by_cases hv : v = blankSample <;> simp [hv, memWfFrom, hl, ha]
  | (b, x) :: rest, lo, a, v, hm, hl, ha => by
    have hm' := hm
    simp only [memWfFrom, Bool.and_eq_true, decide_eq_true_eq] at hm
    obtain ⟨⟨⟨h1, h2⟩, h3⟩, h4⟩ := hm
    unfold memWrite
    by_cases hab : a < b
    · rw [if_pos hab]
      by_cases hv : v = blankSample
      · rw [if_pos hv]; exact hm'
      · rw [if_neg hv]
        simp only [memWfFrom, Bool.and_eq_true, decide_eq_true_eq, bne_iff_ne]
        exact ⟨⟨⟨hl, ha⟩, hv⟩, ⟨⟨⟨by omega, h2⟩, bne_iff_ne.mp h3⟩, h4⟩⟩
    · rw [if_neg hab]
      by_cases he : a = b
      · rw [if_pos he]
        by_cases hv : v = blankSample
        · rw [if_pos hv]; exact memWfFrom_mono (by omega) h4
        · rw [if_neg hv]
          simp only [memWfFrom, Bool.and_eq_true, decide_eq_true_eq, bne_iff_ne]
          exact ⟨⟨⟨hl, ha⟩, hv⟩, he ▸ h4⟩
      · rw [if_neg he]
        simp only [memWfFrom, Bool.and_eq_true, decide_eq_true_eq]
        exact ⟨⟨⟨h1, h2⟩, h3⟩, memWrite_wfFrom h4 (by omega) ha⟩

/-- A write keeps the one form of prompt memory. -/
theorem memWrite_wf {m : List (Nat × Sample)} {a : Nat} {v : Sample} (hm : memWf m = true) (ha : a < Config.promptSamples) :
    memWf (memWrite m a v) = true :=
  memWrite_wfFrom hm (Nat.zero_le a) ha

/-- A sample written is read back. -/
theorem memRead_memWrite_same : ∀ {m : List (Nat × Sample)} {lo : Nat} (a : Nat) (v : Sample), memWfFrom lo m = true →
    memRead (memWrite m a v) a = v
  | [], _, a, v, _ => by
    unfold memWrite
    by_cases hv : v = blankSample <;> simp [hv, memRead]
  | (b, x) :: rest, lo, a, v, hm => by
    simp only [memWfFrom, Bool.and_eq_true, decide_eq_true_eq] at hm
    unfold memWrite
    by_cases hab : a < b
    · rw [if_pos hab]
      by_cases hv : v = blankSample
      · rw [if_pos hv, memRead, if_neg (by omega), hv]; exact memRead_below hm.2 (by omega)
      · rw [if_neg hv, memRead, if_pos rfl]
    · rw [if_neg hab]
      by_cases he : a = b
      · rw [if_pos he]
        by_cases hv : v = blankSample
        · rw [if_pos hv, hv]; exact memRead_below hm.2 (by omega)
        · rw [if_neg hv, memRead, if_pos rfl]
      · rw [if_neg he, memRead, if_neg he]; exact memRead_memWrite_same a v hm.2

/-- A write leaves every other address alone. -/
theorem memRead_memWrite_ne : ∀ {m : List (Nat × Sample)} {a c : Nat} (v : Sample), a ≠ c →
    memRead (memWrite m a v) c = memRead m c
  | [], a, c, v, h => by
    unfold memWrite
    by_cases hv : v = blankSample
    · rw [if_pos hv]
    · have h' : c ≠ a := fun e => h e.symm
      simp [hv, memRead, h']
  | (b, x) :: rest, a, c, v, h => by
    have h' : c ≠ a := fun e => h e.symm
    unfold memWrite
    by_cases hab : a < b
    · rw [if_pos hab]
      by_cases hv : v = blankSample
      · rw [if_pos hv]
      · rw [if_neg hv, memRead, if_neg h']
    · rw [if_neg hab]
      by_cases he : a = b
      · subst he
        rw [if_pos rfl]
        by_cases hv : v = blankSample
        · rw [if_pos hv, memRead, if_neg h']
        · rw [if_neg hv, memRead, if_neg h', memRead, if_neg h']
      · rw [if_neg he, memRead, memRead, memRead_memWrite_ne v h]

/-- What a store of samples does: it keeps a good Prompt Store good, touches nothing but memory and address, and moves
the address by the samples stored (09, R166). -/
theorem Prompts.store_spec : ∀ (xs : List Sample) (p : Prompts), p.Fits →
    (p.store xs).Fits ∧ (p.store xs).directory = p.directory ∧ (p.store xs).tones = p.tones ∧
      (p.store xs).address = min (p.address + xs.length) Config.promptSamples
  | [], p, h => ⟨h, rfl, rfl, by have := h.address; simp [Prompts.store]; omega⟩
  | x :: rest, p, h => by
    unfold Prompts.store
    by_cases ha : p.address < Config.promptSamples
    · rw [if_pos ha]
      obtain ⟨h1, h2, h3, h4⟩ := Prompts.store_spec rest { p with memory := memWrite p.memory p.address x, address := p.address + 1 }
        ⟨memWrite_wf h.memory ha, ha⟩
      refine ⟨h1, h2, h3, ?_⟩
      rw [h4]; simp; omega
    · rw [if_neg ha]
      exact ⟨h, rfl, rfl, by have := h.address; simp; omega⟩

/-- A store changes no sample below the write address. -/
theorem Prompts.store_below : ∀ (xs : List Sample) (p : Prompts) (a : Nat), a < p.address →
    memRead (p.store xs).memory a = memRead p.memory a
  | [], _, _, _ => rfl
  | x :: rest, p, a, h => by
    unfold Prompts.store
    split
    · rw [Prompts.store_below rest _ a (Nat.lt_succ_of_lt h)]
      exact memRead_memWrite_ne x (by omega)
    · rfl

end Sys2Proof.Machine
end

