-- ==== Sys2Proof/Laws/KeptAll.lean ====
section
/-! SUPPORT. What any command but a reset can do, said once: a property kept by every update that leaves a block in a good
state is kept by every command, the commit apart, which replaces the active bank (03, R57). -/

namespace Sys2Proof.Machine

/-- The lines of the Lane Interface change: its bridges and what stands on the outgoing lanes. -/
def LinesMove (a b : Lane) : Prop :=
  b = { a with downOut := b.downOut, upOut := b.upOut, bridgeDown := b.bridgeDown, bridgeUp := b.bridgeUp,
               bridgeHighway := b.bridgeHighway }

/-- A property that everything keeps but requests, resets, outgoing slots and the commit itself: beside the moves, the
lines, the zones' audio, the highway, the ALARM_IN line and the end of the countdown; and whole, a completion report and
a station's start to ring. -/
structure KeptEvents (P : State → Prop) : Prop extends Kept P where
  lines : ∀ {s : State} {f : Lane → Lane}, P s → LinesMove s.lane (f s.lane) → P (s.modLane f)
  audio : ∀ {s : State} {z : Nat} {f : Zone → Zone}, P s → (f (s.zones.get z)).fields = (s.zones.get z).fields →
    (f (s.zones.get z)).claims = (s.zones.get z).claims →
    ((s.zones.get z).Fits → (f (s.zones.get z)).Fits) → P (s.modZone z f)
  contentCompletion : ∀ {s : State}, P s → ∀ z, P (s.contentCompletion z)
  ring : ∀ {s : State}, P s → ∀ {n : Nat} (c : CallRef), n < Config.stations → (s.stations.get n).line ≠ .ringing →
    P ((s.changeStation n fun st => { st with line := .ringing, call := some c }).ringingAdd n c)
  highway : ∀ {s : State} {x : List (Nat × Sample)}, P s → P { s with highwayOut := x }
  alarmLine : ∀ {s : State} (b : Bool), P s → P (s.modAlarm fun a => { a with line := b })
  countdownOff : ∀ {s : State}, P s → P (s.modHunt fun h => { h with countdown := none })

/-- A property that requests keep too, the clearing of flags apart: configuration, the mask, the mode and the cause,
prompt memory and the values of a RESTART; and whole, the enabling and disabling of a zone and a teardown. -/
structure KeptAll (P : State → Prop) : Prop extends KeptEvents P where
  maint : ∀ {s : State} {f : Maint → Maint}, P s → (s.maint.Fits → (f s.maint).Fits) →
    s.maint.flags &&& (f s.maint).flags = s.maint.flags → P (s.modMaint f)
  stationAny : ∀ {s : State} {n : Nat} {f : Station → Station}, P s →
    ((s.stations.get n).Fits → (f (s.stations.get n)).Fits) →
    (f (s.stations.get n)).line = (s.stations.get n).line → (f (s.stations.get n)).call = (s.stations.get n).call →
    P (s.modStation n f)
  code : ∀ {s : State} {n : Nat} {e : Option AccessCode}, P s → P (s.setCode n e)
  zoneAny : ∀ {s : State} {z : Nat} {f : Zone → Zone}, P s → ((s.zones.get z).Fits → (f (s.zones.get z)).Fits) →
    (f (s.zones.get z)).fields.enabled = (s.zones.get z).fields.enabled →
    (f (s.zones.get z)).claims = (s.zones.get z).claims → P (s.modZone z f)
  enable : ∀ {s : State}, P s → ∀ z f, s.zoneEnabled z = false → P (s.modZone z (Zone.restarted f))
  disable : ∀ {s : State}, P s → ∀ z f, P (s.disableZone z f)
  huntAny : ∀ {s : State} {f : Hunt → Hunt}, P s → (f s.hunt).active = s.hunt.active →
    (s.hunt.Fits → (f s.hunt).Fits) → (f s.hunt).records = s.hunt.records → P (s.modHunt f)
  pickupAny : ∀ {s : State} {f : Pickup → Pickup}, P s → (s.pickup.Fits → (f s.pickup).Fits) →
    (f s.pickup).ringing = s.pickup.ringing → P (s.modPickup f)
  pagingAny : ∀ {s : State} {f : Paging → Paging}, P s → (s.paging.Fits → (f s.paging).Fits) →
    (f s.paging).sessions = s.paging.sessions → P (s.modPaging f)
  prompts : ∀ {s : State} {f : Prompts → Prompts}, P s → (s.prompts.Fits → (f s.prompts).Fits) → P (s.modPrompts f)
  teardown : ∀ {s : State}, P s → P s.teardown
  restart : ∀ {s : State}, P s → P s.restartBlocks

variable {P : State → Prop} {s : State}

/-! ### Commit (03) -/

theorem HuntRecord.orphan_call (a : RetiredAction) (r : HuntRecord) : (r.orphan a).call = r.call := by
  unfold HuntRecord.orphan; split <;> rfl

theorem HuntRecord.recompute_call (now t : Nat) (r : HuntRecord) : (r.recompute now t).call = r.call := by
  unfold HuntRecord.recompute; split
  · split <;> rfl
  · rfl

/-- A record may be orphaned (03, R58). -/
theorem RecordMove.orphan (a : RetiredAction) (r : HuntRecord) : RecordMove r (r.orphan a) := by
  have ha : (r.orphan a).awaiting = r.awaiting := by
    unfold HuntRecord.orphan; split
    · rename_i h; simp [HuntRecord.awaiting, h]
    · rfl
  have ho : (r.orphan a).orbit = r.orbit := by
    unfold HuntRecord.orphan; split
    · rename_i h; simp [HuntRecord.orbit, h]
    · rfl
  refine ⟨HuntRecord.orphan_call a r, ?_, fun _ => ho, fun h x => ho.trans (h (ha ▸ x))⟩
  unfold HuntRecord.orphan; split <;> rfl

/-- A record's announce point may be recomputed, where it holds no orbit (03, R62). -/
theorem RecordMove.recompute (now t : Nat) (r : HuntRecord) : RecordMove r (r.recompute now t) := by
  refine ⟨HuntRecord.recompute_call now t r, ?_, fun h => ?_, fun h => ?_⟩
  · unfold HuntRecord.recompute; split
    · split <;> rfl
    · rfl
  · unfold HuntRecord.recompute; split
    · rename_i hs; exact absurd (by simp [HuntRecord.orbit, hs]) h
    · rfl
  · unfold HuntRecord.recompute; split
    · split
      · intro x; cases x
      · intro _; rfl
    · exact h

theorem Kept.retireGroup (k : Kept P) (h : P s) (g : Nat) (old : Group) : P (s.retireGroup g old) := by
  have h1 : P ((s.queue g).foldl (fun t r => t.sendAway r.call g (overflowBody old.fields.overflowDn)) s) :=
    foldl_kept (P := P) (fun _ r ht => k.sendAway ht _ _ _) _ h
  exact k.hunt h1 (HuntMove.mapRecords (fun _ r _ => by split; exacts [RecordMove.orphan _ r, .refl r])
    fun r => by split; exacts [HuntRecord.orphan_call _ r, rfl])

theorem Kept.pruneTried (k : Kept P) (h : P s) (g : Nat) : P (s.pruneTried g) :=
  k.hunt h (HuntMove.mapRecords (fun _ r _ => by split; exacts [.status rfl rfl rfl, .refl r]) fun r => by split <;> rfl)

theorem Kept.trimQueue (k : Kept P) (g : Nat) : ∀ (fuel : Nat) {s : State}, P s → P (State.trimQueue g fuel s)
  | 0, _, h => h
  | fuel + 1, _, h => by
    unfold State.trimQueue
    refine ite_kept ?_ h
    split
    · exact k.trimQueue g fuel (k.overflow h _ _)
    · exact h

theorem Kept.recomputePoints (k : Kept P) (h : P s) (g : Nat) : P (s.recomputePoints g) := by
  unfold State.recomputePoints
  refine foldl_kept (P := P) (fun _ r ht => k.askIfDue ht _) _ (k.hunt h (HuntMove.mapRecords (fun _ r _ => ?_) fun r => ?_))
  · split
    · exact RecordMove.recompute _ _ r
    · exact .refl r
  · split
    · exact HuntRecord.recompute_call _ _ r
    · rfl

theorem Kept.commitGroup (k : Kept P) (h : P s) (old : Tab 1 32 Group) (g : Nat) : P (s.commitGroup old g) := by
  unfold State.commitGroup
  split
  · exact k.retireGroup h _ _
  · exact k.recomputePoints (k.trimQueue g _ (k.pruneTried h g)) g
  · exact h

/-- A commit keeps what the moves keep, once the new bank stands (03, R57). -/
theorem Kept.commit (k : Kept P) (h : P (s.modHunt fun h => { h with active := h.staged })) : P s.commit := by
  have h1 : P (groupNumbers.foldl (fun t g => t.commitGroup s.hunt.active g)
      (s.modHunt fun h => { h with active := h.staged })) :=
    foldl_kept (P := P) (fun _ g ht => k.commitGroup ht _ g) _ h
  unfold State.commit
  exact foldl_kept (P := P) (fun _ n ht => k.raiseAvailable ht n) _ (k.setFlag h1 .commitDone)

/-- The expiry of the countdown (03, R55). -/
theorem KeptEvents.commitExpiry (k : KeptEvents P) (h : P s)
    (hc : ∀ {t : State}, P t → P (t.modHunt fun h => { h with active := h.staged })) : P s.commitExpiry := by
  have h1 := k.countdownOff h
  unfold State.commitExpiry
  refine ite_kept ?_ h
  dsimp only
  split
  · exact k.setFlag h1 _
  · exact k.commit (hc h1)

/-! ### Frames, players and reports (08; 09) -/

/-- A zone update that leaves fields, claims and counters alone, and raises no completion report. -/
theorem KeptEvents.zoneAudio (k : KeptEvents P) (h : P s) {z : Nat} {f : Zone → Zone}
    (hf : ∀ zn, (f zn).fields = zn.fields ∧ (f zn).claims = zn.claims ∧ (f zn).preemptions = zn.preemptions ∧
      (f zn).saturations = zn.saturations ∧ ((f zn).completed = true → zn.completed = true)) : P (s.modZone z f) := by
  obtain ⟨h0, h1, h2, h3, h4⟩ := hf (s.zones.get z)
  refine k.audio h h0 h1 fun x => ⟨h1 ▸ x.claims, fun hc => ?_, h2 ▸ x.preemptions, h3 ▸ x.saturations⟩
  unfold Zone.announcing
  rw [h1]
  exact x.completed (h4 hc)

/-- One zone's frame leaves its claims and its preemptions counter alone, reports a completion of an ANNOUNCE content
only, and its saturations counter stops (08, R142, R149). -/
theorem Zone.frame_fits {zn : Zone} (h : zn.Fits) (pr : Prompts) (e : Bool) (v m sense : Int) :
    (zn.frame pr e v m sense).zone.Fits := by
  refine ⟨h.claims, fun hc => ?_, h.preemptions, ?_⟩
  · have hc : (zn.completed || ((pr.play zn.player).complete && zn.announcing)) = true := hc
    show zn.announcing = true
    rcases Bool.or_eq_true_iff.mp hc with hc | hc
    · exact h.completed hc
    · exact (Bool.and_eq_true_iff.mp hc).2
  · unfold Zone.frame
    dsimp only
    split
    · exact satInc_fits _
    · exact h.saturations

theorem KeptEvents.zoneFrame (k : KeptEvents P) (h : P s) (tap : List Sample) (z : Nat) : P (s.zoneFrame tap z).1 := by
  have h1 : ∀ pr e v m x, P (s.modZone z fun _ => ((s.zones.get z).frame pr e v m x).zone) :=
    fun _ _ _ _ _ => k.audio h rfl rfl fun y => Zone.frame_fits y _ _ _ _ _
  unfold State.zoneFrame
  exact ite_kept (k.setFlag (h1 _ _ _ _ _) _) (h1 _ _ _ _ _)

theorem KeptEvents.formZones (k : KeptEvents P) (tap : List Sample) : ∀ (l : List Nat) {s : State}, P s →
    P (State.formZones tap l s).1
  | [], _, h => h
  | z :: rest, _, h => k.formZones tap rest (k.zoneFrame h tap z)

theorem KeptEvents.loudChange (k : KeptEvents P) (h : P s) (z : Nat) : P (s.loudChange z) := by
  have h1 : P (s.modZone z fun zn => { zn with loudReport := false }) :=
    k.zoneAudio h (by intro _; exact ⟨rfl, rfl, rfl, rfl, id⟩)
  unfold State.loudChange
  exact ite_kept (k.chooseBeacon (k.reevaluateAssist h1 z) z) h

theorem KeptEvents.takeReports (k : KeptEvents P) (h : P s) : P s.takeReports := by
  have h1 : P (zoneNumbers.foldl (fun t z => t.contentCompletion z) s) :=
    foldl_kept (P := P) (fun _ z ht => k.contentCompletion ht z) _ h
  have h2 : P (zoneNumbers.foldl (fun t z => t.loudChange z)
      (zoneNumbers.foldl (fun t z => t.contentCompletion z) s)) :=
    foldl_kept (P := P) (fun _ z ht => k.loudChange ht z) _ h1
  unfold State.takeReports
  exact k.frameFormed h2

theorem KeptEvents.formFrame (k : KeptEvents P) (h : P s) (tap shelf : List Sample) : P (s.formFrame tap shelf) := by
  have h0 := k.takeReports h
  unfold State.formFrame
  generalize s.takeReports = t at h0 ⊢
  have h1 := k.formZones tap t.enabledZones h0
  dsimp only
  generalize State.formZones tap t.enabledZones t = r at h1 ⊢
  have h2 : P (r.1.modPaging fun p => { p with frameReport := some t.preannouncing }) := k.paging h1 (.keepSessions ⟨rfl, rfl, fun x => x⟩ rfl)
  have h3 := k.highway (x := outgoingFrame r.2 shelf) h2
  exact k.lines (f := fun l => { l with bridgeHighway := .off }) h3 rfl

theorem KeptEvents.frameFormation (k : KeptEvents P) (h : P s) (tap shelf : List Sample) : P (s.frameFormation tap shelf) := by
  unfold State.frameFormation
  exact ite_kept (k.formFrame h tap shelf) (k.highway h)

theorem KeptEvents.noiseBlockEnd (k : KeptEvents P) (h : P s) (z : Nat) (x : Sample) : P (s.noiseBlockEnd z x) := by
  unfold State.noiseBlockEnd
  exact ite_kept (k.zoneAudio h (by intro _; exact ⟨rfl, rfl, rfl, rfl, id⟩)) h

theorem KeptEvents.beaconPhaseChange (k : KeptEvents P) (h : P s) (z : Nat) : P (s.beaconPhaseChange z) := by
  unfold State.beaconPhaseChange
  exact ite_kept (k.zoneAudio h (by intro _; exact ⟨rfl, rfl, rfl, rfl, id⟩)) h

theorem KeptEvents.toneCycleEnd (k : KeptEvents P) (h : P s) (z : Nat) : P (s.toneCycleEnd z) :=
  k.zoneAudio (f := fun zn => { zn with player := zn.player.passCycle }) h fun _ => ⟨rfl, rfl, rfl, rfl, id⟩

theorem KeptEvents.promptStepEnd (k : KeptEvents P) (h : P s) (z : Nat) : P (s.promptStepEnd z) :=
  k.zoneAudio (f := fun zn => { zn with player := zn.player.passPrompt }) h fun _ => ⟨rfl, rfl, rfl, rfl, id⟩

/-! ### Zone configuration (07) -/

theorem KeptAll.configureZone (k : KeptAll P) (h : P s) (z : Nat) (f : ZoneFields) : P (s.configureZone z f) := by
  unfold State.configureZone
  split
  · rename_i he _
    exact k.alarmReaches (k.enable h z f he) z
  · exact k.disable h z f
  · rename_i h1 h2
    refine k.zoneAny h (fun x => ⟨x.claims, x.completed, x.preemptions, x.saturations⟩) ?_ rfl
    show f.enabled = s.zoneEnabled z
    revert h1 h2
    cases s.zoneEnabled z <;> cases f.enabled <;> simp

/-! ### Table writes (11, R183) -/

/-- An accepted write of a station's configuration leaves its strikes, its line and its call alone (02, R23). -/
theorem Station.write_live {m : Nat} {vs : List FieldValue} {old new : Station} (h : old.write m vs = some new) :
    new.strikes = old.strikes ∧ new.line = old.line ∧ new.call = old.call := by
  unfold Station.write at h
  split at h
  · split at h
    · cases h
    · simp only [Option.bind_eq_bind, Option.bind_eq_some_iff] at h
      obtain ⟨_, _, _, _, _, _, _, _, _, _, _, _, h⟩ := h
      cases h
      exact ⟨rfl, rfl, rfl⟩
  · cases h

theorem KeptAll.writeTable (k : KeptAll P) (h : P s) {t : Table} {i : Nat} {w : EntryWrite} {s1 : State}
    (hw : s.writeTable t i w = some s1) : P s1 := by
  unfold State.writeTable at hw
  split at hw
  · cases hw
  · split at hw
    · obtain ⟨st, hst, rfl⟩ := Option.map_eq_some_iff.mp hw
      obtain ⟨h1, h2, h3⟩ := Station.write_live hst
      exact k.stationAny h (fun x => by unfold Station.Fits at *; rw [h1]; exact x) h2 h3
    · split at hw
      · split at hw
        · cases hw
        · cases hw; exact k.configureZone h _ _
      · cases hw
    · split at hw
      · cases hw; exact k.pagingAny h (fun x => x) rfl
      · cases hw
    · split at hw
      · split at hw
        · cases hw
        · cases hw; exact k.code h
      · cases hw
    · split at hw
      · cases hw; exact k.pickupAny h (fun x => ⟨x.successes, x.denials⟩) rfl
      · cases hw
    · obtain ⟨x, _, rfl⟩ := Option.map_eq_some_iff.mp hw
      exact k.prompts h fun x => ⟨x.memory, x.address⟩
    · obtain ⟨x, _, rfl⟩ := Option.map_eq_some_iff.mp hw
      exact k.prompts h fun x => ⟨x.memory, x.address⟩
    · obtain ⟨x, _, rfl⟩ := Option.map_eq_some_iff.mp hw
      exact k.pagingAny h (fun x => x) rfl
    · obtain ⟨x, _, rfl⟩ := Option.map_eq_some_iff.mp hw
      exact k.huntAny h rfl (fun x => ⟨x.records, x.calls, x.awaiting, x.closed, x.closedOnce, x.counters, x.raised⟩) rfl
    · split at hw
      · cases hw; exact k.huntAny h rfl (fun x => ⟨x.records, x.calls, x.awaiting, x.closed, x.closedOnce, x.counters, x.raised⟩) rfl
      · cases hw
    · cases hw

theorem KeptAll.clearTable (k : KeptAll P) (h : P s) {t : Table} {i : Nat} {s1 : State}
    (hw : s.clearTable t i = some s1) : P s1 := by
  unfold State.clearTable at hw
  split at hw
  · cases hw
  · split at hw
    · cases hw; exact k.stationAny h (fun x => x) rfl rfl
    · cases hw; exact k.configureZone h _ _
    · split at hw
      · cases hw
      · cases hw; exact k.pagingAny h (fun x => x) rfl
    · cases hw; exact k.code h
    · cases hw; exact k.pickupAny h (fun x => ⟨x.successes, x.denials⟩) rfl
    · cases hw; exact k.prompts h fun x => ⟨x.memory, x.address⟩
    · cases hw; exact k.prompts h fun x => ⟨x.memory, x.address⟩
    · cases hw; exact k.pagingAny h (fun x => x) rfl
    · cases hw; exact k.huntAny h rfl (fun x => ⟨x.records, x.calls, x.awaiting, x.closed, x.closedOnce, x.counters, x.raised⟩) rfl
    · cases hw; exact k.huntAny h rfl (fun x => ⟨x.records, x.calls, x.awaiting, x.closed, x.closedOnce, x.counters, x.raised⟩) rfl
    · cases hw
    · cases hw

end Sys2Proof.Machine
end

