-- ==== Sys2Proof/Laws/KeptExec.lean ====
section
/-! SUPPORT. Every maintenance request, every cell and every other command but the four of the resets keeps what the
updates of KeptAll keep (01; 11; 12). -/

namespace Sys2Proof.Machine

variable {P : State → Prop} {s : State}

/-! ### Requests (11) -/

/-- READ_ENTRY leaves the part as it is (11, R183). -/
theorem State.readEntry_state (s : State) (args : List Byte) : (s.readEntry args).state = s := by
  unfold State.readEntry
  split
  · split
    · split <;> rfl
    · rfl
  · rfl

theorem KeptAll.writeEntry (k : KeptAll P) (h : P s) (args : List Byte) : P (s.writeEntry args).state := by
  unfold State.writeEntry
  split
  · split
    · exact h
    · split
      · exact h
      · split
        · exact h
        · split
          · exact h
          · rename_i hw
            exact k.writeTable h hw
  · exact h

theorem KeptAll.clearEntry (k : KeptAll P) (h : P s) (args : List Byte) : P (s.clearEntry args).state := by
  unfold State.clearEntry
  split
  · split
    · exact h
    · split
      · exact h
      · split
        · exact h
        · rename_i hw
          exact k.clearTable h hw
  · exact h

theorem KeptAll.countdown (k : KeptAll P) (h : P s) (x : Option Nat) :
    P (s.modHunt fun h => { h with countdown := x }) :=
  k.huntAny h rfl (fun x => ⟨x.records, x.calls, x.awaiting, x.closed, x.closedOnce, x.counters, x.raised⟩) rfl

theorem KeptAll.requestCommit (k : KeptAll P) (h : P s) (args : List Byte) : P (s.requestCommit args).state := by
  unfold State.requestCommit
  split
  · split
    · exact h
    · exact k.countdown h _
  · exact h

theorem KeptAll.cancelCommit (k : KeptAll P) (h : P s) (args : List Byte) : P (s.cancelCommit args).state := by
  unfold State.cancelCommit
  split
  · split
    · exact k.countdown h _
    · exact h
  · exact h

theorem KeptAll.setModeTo (k : KeptAll P) (h : P s) (m : Mode) : P (s.modMaint fun x => { x with mode := m }) :=
  k.maint h (fun x => ⟨x.flags, x.mask⟩) (BitVec.and_self ..)

theorem KeptAll.becomeTransparent (k : KeptAll P) (h : P s) : P s.becomeTransparent := by
  unfold State.becomeTransparent
  exact ite_kept (k.teardown h) h

theorem KeptAll.becomeEngaged (k : KeptAll P) (h : P s) : P s.becomeEngaged := by
  unfold State.becomeEngaged
  have h1 := k.setModeTo h .engaged
  exact ite_kept h (k.reevaluateAll (ite_kept (k.placeAlarm h1) h1))

theorem KeptAll.setMode (k : KeptAll P) (h : P s) (args : List Byte) : P (s.setMode args).state := by
  unfold State.setMode
  split
  · exact k.becomeTransparent h
  · exact k.becomeEngaged h
  · exact h

/-- Flags set are flags kept. -/
theorem flags_grow (a b : BitVec 16) : a &&& (a ||| b) = a := by
  ext i; simp; exact Or.inl

theorem KeptAll.setResetFlag (k : KeptAll P) (h : P s) : P s.setResetFlag := by
  unfold State.setResetFlag
  have h1 : P (s.modMaint fun m =>
      { m with flags := m.flags ||| flagMask .reset, mask := m.mask &&& ~~~ flagMask .reset }) :=
    k.maint h (fun x => ⟨(x.setBit .reset).flags, by
      have := x.mask; simp only [BitVec.getLsbD_and, this, Bool.false_and]⟩) (flags_grow _ _)
  exact ite_kept h1 (k.join h1 _ _)

theorem KeptAll.readAlarmLine (k : KeptAll P) (h : P s) : P s.readAlarmLine := by
  unfold State.readAlarmLine
  exact ite_kept (k.enterAlarm h _) h

theorem KeptAll.restartPart (k : KeptAll P) (h : P s) : P s.restart :=
  k.readAlarmLine (k.setResetFlag (k.maint (f := fun m => { m with cause := .restart })
    (k.restart (k.becomeTransparent h)) (fun x => ⟨x.flags, x.mask⟩) (BitVec.and_self ..)))

theorem KeptAll.requestRestart (k : KeptAll P) (h : P s) (args : List Byte) : P (s.requestRestart args).state := by
  unfold State.requestRestart
  split
  · exact k.restartPart h
  · exact h

theorem KeptAll.requestAvailability (k : KeptAll P) (h : P s) (args : List Byte) :
    P (s.requestAvailability args).state := by
  unfold State.requestAvailability
  split
  · split
    · exact ite_kept (k.setAvailable h _) (k.setUnavailable h _)
    · exact h
  · exact h

theorem KeptAll.requestService (k : KeptAll P) (h : P s) (args : List Byte) : P (s.requestService args).state := by
  unfold State.requestService
  split
  · split
    · exact ite_kept (k.serviceIn h _) (k.serviceOut h _)
    · exact h
  · exact h

theorem KeptAll.requestAlarmStart (k : KeptAll P) (h : P s) (args : List Byte) : P (s.requestAlarmStart args).state := by
  unfold State.requestAlarmStart
  split
  · exact ite_kept (k.enterAlarm h _) h
  · exact h

theorem KeptAll.requestAlarmClear (k : KeptAll P) (h : P s) (args : List Byte) : P (s.requestAlarmClear args).state := by
  unfold State.requestAlarmClear
  split
  · split
    · exact h
    · exact ite_kept (k.exitAlarm h) h
  · exact h

theorem KeptAll.promptAddress (k : KeptAll P) (h : P s) (args : List Byte) : P (s.promptAddress args).state := by
  unfold State.promptAddress
  split
  · split
    · rename_i ha
      refine k.prompts (f := fun p => { p with address := _ }) h ?_
      exact fun x => ⟨x.memory, le_of_lt ha⟩
    · exact h
  · exact h

theorem KeptAll.promptWrite (k : KeptAll P) (h : P s) (args : List Byte) : P (s.promptWrite args).state := by
  unfold State.promptWrite
  split
  · rename_i xs _
    split
    · have h1 : P (s.modPrompts fun p => p.store (xs.map (BitVec.ofNat 16))) :=
        k.prompts h fun x => (Prompts.store_spec _ _ x).1
      exact ite_kept (k.setFlag h1 _) h1
    · exact h
  · exact h

theorem KeptAll.writeResetCause (k : KeptAll P) (h : P s) (args : List Byte) : P (s.writeResetCause args).state := by
  unfold State.writeResetCause
  split
  · split
    · exact k.maint (f := fun m => { m with cause := _ }) h (fun x => ⟨x.flags, x.mask⟩) (BitVec.and_self ..)
    · exact h
  · exact h

theorem KeptAll.clearCounters (k : KeptAll P) (h : P s) (o : Owner) : P (s.clearCounters o) := by
  have h0 : CounterFits 0 := Nat.zero_le _
  unfold State.clearCounters
  split
  · exact k.laneCounters h fun _ => ⟨h0, h0, h0, h0⟩
  · exact k.groupCounters h _ fun _ _ => ⟨h0, h0, h0, h0, h0, h0, h0⟩
  · exact k.zoneAny h (fun x => ⟨x.claims, x.completed, h0, h0⟩) rfl rfl
  · exact k.pickupAny h (fun _ => ⟨h0, h0⟩) rfl
  · exact k.pagingAny h (fun _ => h0) rfl

theorem KeptAll.requestClearCounters (k : KeptAll P) (h : P s) (args : List Byte) :
    P (s.requestClearCounters args).state := by
  unfold State.requestClearCounters
  split
  · split
    · exact k.clearCounters h _
    · exact h
  · exact h

/-- A flag set that a request names has the unused bit 0 (11, R194; 12, R195). -/
theorem flagSet_low {args : List Byte} {x : BitVec 16} (h : flagSet args = some x) : x.getLsbD 0 = false := by
  unfold flagSet at h
  split at h
  · split at h
    · rename_i v _ hv
      cases h
      rw [BitVec.getLsbD_ofNat]
      simp [Nat.testBit_zero, hv]
    · cases h
  · cases h

/-- A property that the clearing of named flags keeps (11, R194). -/
def ClearKept (P : State → Prop) : Prop := ∀ {s : State} (x : BitVec 16), P s → x.getLsbD 0 = false →
  P (s.modMaint fun m => { m with flags := m.flags &&& ~~~ x })

theorem State.attentionClear_kept (hc : ClearKept P) (h : P s) (args : List Byte) : P (s.attentionClear args).state := by
  unfold State.attentionClear
  split
  · rename_i hx
    exact hc _ h (flagSet_low hx)
  · exact h

theorem KeptAll.attentionMaskSet (k : KeptAll P) (h : P s) (args : List Byte) : P (s.attentionMaskSet args).state := by
  unfold State.attentionMaskSet
  split
  · rename_i x hx
    refine k.maint (f := fun m => { m with mask := m.mask ||| x }) h ?_ (BitVec.and_self ..)
    intro y
    exact ⟨y.flags, by have := y.mask; simp only [BitVec.getLsbD_or, this, flagSet_low hx, Bool.or_false]⟩
  · exact h

theorem KeptAll.attentionMaskClear (k : KeptAll P) (h : P s) (args : List Byte) :
    P (s.attentionMaskClear args).state := by
  unfold State.attentionMaskClear
  split
  · rename_i x _
    have h1 : P (s.modMaint fun m => { m with mask := m.mask &&& ~~~ x }) :=
      k.maint h (fun y => ⟨y.flags, by have := y.mask; simp only [BitVec.getLsbD_and, this, Bool.false_and]⟩)
        (BitVec.and_self ..)
    exact ite_kept h1 (k.join h1 _ _)
  · exact h

/-- A request that only reads leaves the part as it is. -/
theorem State.promptRead_state (s : State) (args : List Byte) : (s.promptRead args).state = s := by
  unfold State.promptRead
  split
  · split <;> rfl
  · rfl

/-- READ_STATUS leaves the part as it is (11, R188). -/
theorem State.readStatus_state (s : State) (args : List Byte) : (s.readStatus args).state = s := by
  unfold State.readStatus
  split <;> rfl

/-- READ_LIVE leaves the part as it is (11, R189). -/
theorem State.readLive_state (s : State) (args : List Byte) : (s.readLive args).state = s := by
  unfold State.readLive
  split
  · split <;> rfl
  · rfl

/-- READ_COUNTERS leaves the part as it is (11, R190). -/
theorem State.readCounters_state (s : State) (args : List Byte) : (s.readCounters args).state = s := by
  unfold State.readCounters
  split
  · split <;> rfl
  · rfl

/-- ATTENTION_READ leaves the part as it is (11, R194). -/
theorem State.attentionRead_state (s : State) (args : List Byte) : (s.attentionRead args).state = s := by
  unfold State.attentionRead
  split <;> rfl

theorem KeptAll.request (k : KeptAll P) (h : P s) (kind : Nat) (args : List Byte)
    (hc : kind = 21 → ClearKept P) : P (s.request kind args).state := by
  unfold State.request
  split
  · exact (State.readEntry_state s args).symm ▸ h
  · exact k.writeEntry h args
  · exact k.clearEntry h args
  · exact k.requestCommit h args
  · exact k.cancelCommit h args
  · exact k.setMode h args
  · exact k.requestRestart h args
  · exact k.requestAvailability h args
  · exact k.requestService h args
  · exact k.requestAlarmStart h args
  · exact k.requestAlarmClear h args
  · exact k.promptAddress h args
  · exact k.promptWrite h args
  · exact (State.promptRead_state s args).symm ▸ h
  · exact (State.readStatus_state s args).symm ▸ h
  · exact k.writeResetCause h args
  · exact (State.readLive_state s args).symm ▸ h
  · exact (State.readCounters_state s args).symm ▸ h
  · exact k.requestClearCounters h args
  · exact (State.attentionRead_state s args).symm ▸ h
  · exact State.attentionClear_kept (hc rfl) h args
  · exact k.attentionMaskSet h args
  · exact k.attentionMaskClear h args
  · exact h

theorem Kept.sendParts (k : Kept P) (tag : Byte) (o : ReplyOutcome) (count : Nat) :
    ∀ (parts : List (List Byte)) (part : Nat) {s : State}, P s → P (State.sendParts tag o count part parts s)
  | [], _, _, h => h
  | _ :: rest, part, _, h => k.sendParts tag o count rest (part + 1) (k.sendOwn h _ _)

/-- A property that the staged bank's becoming the active one keeps (03, R57). -/
def CommitKept (P : State → Prop) : Prop := ∀ {s : State}, P s → P (s.modHunt fun h => { h with active := h.staged })

theorem KeptAll.maintain (k : KeptAll P) (h : P s) (tag kind : Byte) (args : List Byte)
    (hc : kind.toNat = 21 → ClearKept P) (hn : kind = 4#8 → CommitKept P) : P (s.maintain tag kind args) := by
  have h1 := k.sendParts tag (s.request kind.toNat args).outcome (replyParts (s.request kind.toNat args).data).length
    (replyParts (s.request kind.toNat args).data) 1 (k.request h kind.toNat args hc)
  unfold State.maintain State.commitNow
  dsimp only
  split
  · rename_i hk
    exact k.commitExpiry h1 (hn hk.1)
  · exact h1

/-! ### Cells and slots (01) -/

theorem KeptEvents.endBridge (k : KeptEvents P) (h : P s) (d : Dir) : P (s.endBridge d) := by
  cases d <;> exact k.lines h rfl

theorem KeptEvents.copySlot (k : KeptEvents P) (h : P s) (d : Dir) (w : Option WireCell) : P (s.copySlot d w) := by
  cases d <;> exact k.lines h rfl

theorem Kept.pass (k : Kept P) (h : P s) (d : Dir) (c : Cell) : P (s.pass d c) := k.join h _ _

theorem Kept.decide (k : Kept P) (c : Cell) {r : State × Decision} (h : P r.1) : P (State.decide c r) := by
  unfold State.decide
  split
  · exact k.pass h _ _
  · exact h

theorem Kept.forwardBad (k : Kept P) (h : P s) (d : Dir) (c : LaneCell) : P (s.forwardBad d c) :=
  k.join (k.setFlag (k.laneCounters (f := fun c => { c with malformed := satInc c.malformed }) h
    fun x => ⟨satInc_fits _, x.down, x.up, x.unexpected⟩) .malformedCell) d c

theorem KeptEvents.ringStarted (k : KeptEvents P) (h : P s) {n : Nat} (hn : n < Config.stations) (c : CallRef) :
    P (s.ringStarted n c) := by
  refine k.unlessApplied ?_
  unfold State.trackRingStarted
  dsimp only
  split
  · rename_i hl
    exact k.ring h c hn (by rw [hl]; decide)
  · rename_i hl
    split
    · exact k.ring h c hn (by rw [hl]; decide)
    · exact h
  · exact h
  · exact h

theorem KeptEvents.classify (k : KeptEvents P) (h : P s) (c : Cell)
    (hq : ∀ tag kind args, c.body = .maint tag kind args → P (s.maintain tag kind args)) : P (s.classify c) := by
  unfold State.classify
  dsimp only
  split
  · exact ite_kept (k.pilotArrival h _ _ _ _) (ite_kept (k.pass (k.trackOffer h _ _) _ _) (k.pass h _ _))
  · exact ite_kept (k.abandonment h _) (ite_kept (k.pass (k.withdrawn h _ _) _ _) (k.pass h _ _))
  · exact k.pass (k.callEnd h _) _ _
  · exact k.pass h _ _
  · exact k.pass h _ _
  · exact ite_kept (hq _ _ _ (by assumption)) (k.pass h _ _)
  · exact ite_kept (k.pass (k.offHook h _) _ _) (k.pass h _ _)
  · exact ite_kept (k.pass (k.onHook h _) _ _) (k.pass h _ _)
  · split
    · rename_i ht
      exact k.pass (k.ringStarted h (by simpa [tracked] using ht) _) _ _
    · exact k.pass h _ _
  · exact ite_kept (k.decide _ (k.dialled h _ _)) (k.pass h _ _)
  · exact ite_kept (k.decide _ (k.answered h _ _)) (k.pass h _ _)
  · exact ite_kept (k.decide _ (k.refused h _ _)) (k.pass h _ _)
  · exact k.pass h _ _
  · exact k.pass h _ _
  · exact k.pass (ite_kept (k.unexpected h) h) _ _
  · exact k.pass (ite_kept (k.unexpected h) h) _ _

theorem KeptEvents.arrive (k : KeptEvents P) (h : P s) (d : Dir) (c : Cell)
    (hq : ∀ {u : State} tag kind args, c.body = .maint tag kind args → P u → P (u.maintain tag kind args)) :
    P (s.arrive d c) := by
  unfold State.arrive
  have h1 := k.endBridge (k.settle h) d
  exact ite_kept (ite_kept (k.classify h1 c fun _ _ _ hb => hq _ _ _ hb h1) (k.forwardBad h1 d _)) (k.copySlot h d _)

theorem KeptEvents.arriveBytes (k : KeptEvents P) (h : P s) (d : Dir) (bytes : List Byte)
    (hq : ∀ {u : State} tag kind args, P u → P (u.maintain tag kind args)) : P (s.arriveBytes d bytes) := by
  unfold State.arriveBytes
  have h1 := k.endBridge (k.settle h) d
  refine ite_kept ?_ (k.copySlot h d _)
  dsimp only
  split
  · exact k.join h1 _ _
  · exact k.forwardBad h1 d _
  · exact k.classify h1 _ fun _ _ _ _ => hq _ _ _ h1

theorem KeptEvents.arriveDamaged (k : KeptEvents P) (h : P s) (d : Dir) (bytes : List Byte) (v : Nat) :
    P (s.arriveDamaged d bytes v) := by
  unfold State.arriveDamaged
  exact ite_kept (k.forwardBad (k.endBridge (k.settle h) d) d _) (k.copySlot h d _)

theorem KeptEvents.arriveRequest (k : KeptEvents P) (h : P s) (tag kind : Byte) (args : List Byte)
    (hq : ∀ {u : State}, P u → P (u.maintain tag kind args)) : P (s.arriveRequest tag kind args) :=
  k.arrive h _ _ fun _ _ _ hb hu => by cases hb; exact hq hu

theorem KeptEvents.bridgeSlot (k : KeptEvents P) (h : P s) (b : BridgeSlot) : P (s.bridgeSlot b) := by
  unfold State.bridgeSlot
  split
  · split
    · exact h
    · exact k.copySlot h _ _
    · exact k.endBridge (k.copySlot h _ _) _
  · split
    · exact h
    · exact k.highway h

/-! ### ALARM_IN, deadlines and raised events -/

theorem KeptEvents.alarmInActive (k : KeptEvents P) (h : P s) : P s.alarmInActive := by
  have h1 := k.alarmLine true h
  unfold State.alarmInActive
  exact ite_kept h (ite_kept (k.enterAlarm h1 _) h1)

theorem KeptEvents.alarmInInactive (k : KeptEvents P) (h : P s) : P s.alarmInInactive := by
  have h1 := k.alarmLine false h
  unfold State.alarmInInactive
  exact ite_kept h (ite_kept (k.exitAlarm h1) h1)

theorem Kept.noAnswerExpiry (k : Kept P) (h : P s) (c : CallRef) : P (s.noAnswerExpiry c) := by
  unfold State.noAnswerExpiry
  split
  · exact h
  · rename_i hr
    split
    · rename_i hm
      exact ite_kept (k.noAnswer h hr hm _ _) h
    · exact h

theorem Kept.maximumWaitExpiry (k : Kept P) (h : P s) (c : CallRef) : P (s.maximumWaitExpiry c) := by
  unfold State.maximumWaitExpiry
  split
  · exact ite_kept (k.maximumWait h _) h
  · exact h

theorem Kept.announcePointExpiry (k : Kept P) (h : P s) (c : CallRef) : P (s.announcePointExpiry c) := by
  unfold State.announcePointExpiry
  split
  · exact ite_kept (k.requestOrbit h _) h
  · exact h

theorem Kept.chimeExpiry (k : Kept P) (h : P s) (n : Nat) : P (s.chimeExpiry n) := by
  unfold State.chimeExpiry
  split
  · exact ite_kept (k.chimeOrbit h n) h
  · exact h

theorem Kept.takeAvailable (k : Kept P) (h : P s) (n : Nat) : P (s.takeAvailable n) := by
  unfold State.takeAvailable
  exact ite_kept (k.memberAvailable h n) h

theorem Kept.takeHeadCheck (k : Kept P) (h : P s) (g : Nat) : P (s.takeHeadCheck g) := by
  unfold State.takeHeadCheck
  exact ite_kept (k.headCheck h g) h

theorem Kept.afterRaised (k : Kept P) {f : State → State} (h : P s) (hf : ∀ {u : State}, P u → P (f u)) :
    P (s.afterRaised f) := by
  unfold State.afterRaised State.inService
  exact ite_kept (hf (k.settle h)) h

theorem inService_kept {f : State → State} (h : P s) (hf : P (f s)) : P (s.inService f) := by
  unfold State.inService
  exact ite_kept hf h

/-! ### Every command -/

/-- The commands that begin or end a POWER or PIN reset (01, R20, R21; 11, R186). -/
def Instr.isReset : Instr → Bool
  | .powerOn | .powerOnResetEnd _ | .resetNAssert | .resetNRelease _ => true
  | _ => false

/-- The request kinds that a command may bring to the Maintenance Responder (01, R10; 12, R197). -/
def Instr.brings : Instr → Byte → Bool
  | .malformedCell .., _ | .unknownKindCell .., _ => true
  | .maintPass _ _ _ k _, kind => kind == k
  | .readEntry .., kind => kind == 1#8
  | .writeEntry .., kind => kind == 2#8
  | .clearEntry .., kind => kind == 3#8
  | .commit .., kind => kind == 4#8
  | .cancelCommit .., kind => kind == 5#8
  | .setModeTransparent .., kind => kind == 6#8
  | .setModeEngaged .., kind => kind == 6#8
  | .restart .., kind => kind == 7#8
  | .stationAvailability .., kind => kind == 8#8
  | .stationServiceOut .., kind => kind == 9#8
  | .stationServiceIn .., kind => kind == 9#8
  | .alarmStart .., kind => kind == 10#8
  | .alarmClear .., kind => kind == 11#8
  | .promptAddress .., kind => kind == 12#8
  | .promptWrite .., kind => kind == 13#8
  | .promptRead .., kind => kind == 14#8
  | .readStatus .., kind => kind == 15#8
  | .writeResetCause .., kind => kind == 16#8
  | .readLive .., kind => kind == 17#8
  | .readCounters .., kind => kind == 18#8
  | .clearCounters .., kind => kind == 19#8
  | .attentionRead .., kind => kind == 20#8
  | .attentionClear .., kind => kind == 21#8
  | .attentionMaskSet .., kind => kind == 22#8
  | .attentionMaskClear .., kind => kind == 23#8
  | .unknownRequest _ k _, kind => kind == k
  | _, _ => false

/-- What a command answers, when it is known to be a next state. -/
theorem next_kept {a t : State} (h : (.next a : Result) = .next t) (ha : P a) : P t := by
  cases h; exact ha

/-- Every command but the resets' keeps what the events keep, where the requests it brings do; an outgoing slot and a
commit are given apart. -/
theorem KeptEvents.exec (k : KeptEvents P) {i : Instr} {t : State} (h : P s) (hi : Instr.isReset i = false)
    (hc : i = .commitExpiry → CommitKept P)
    (ho : ∀ d, i = .outgoingSlot d → P (s.outgoingSlot d))
    (hq : ∀ {u : State} tag kind args, Instr.brings i kind = true → P u → P (u.maintain tag kind args))
    (he : exec i s = .next t) : P t := by
  cases i with
  | powerOn => exact Bool.noConfusion (show true = false from hi)
  | powerOnResetEnd => exact Bool.noConfusion (show true = false from hi)
  | resetNAssert => exact Bool.noConfusion (show true = false from hi)
  | resetNRelease => exact Bool.noConfusion (show true = false from hi)
  | outgoingSlot => exact next_kept he (ho _ rfl)
  | damagedCell => exact next_kept he (k.arriveDamaged h _ _ _)
  | malformedCell => exact next_kept he (k.arriveBytes h _ _ fun _ _ _ => hq _ _ _ rfl)
  | unknownKindCell => exact next_kept he (k.arriveBytes h _ _ fun _ _ _ => hq _ _ _ rfl)
  | pilotArrival => exact next_kept he (k.arrive h _ _ fun _ _ _ hb => nomatch hb)
  | offer => exact next_kept he (k.arrive h _ _ fun _ _ _ hb => nomatch hb)
  | withdraw => exact next_kept he (k.arrive h _ _ fun _ _ _ hb => nomatch hb)
  | abandonment => exact next_kept he (k.arrive h _ _ fun _ _ _ hb => nomatch hb)
  | callEnd => exact next_kept he (k.arrive h _ _ fun _ _ _ hb => nomatch hb)
  | tone => exact next_kept he (k.arrive h _ _ fun _ _ _ hb => nomatch hb)
  | display => exact next_kept he (k.arrive h _ _ fun _ _ _ hb => nomatch hb)
  | maintPass => exact next_kept he (k.arrive h _ _ fun _ _ _ hb => by cases hb; exact hq _ _ _ (beq_self_eq_true _))
  | offHook => exact next_kept he (k.arrive h _ _ fun _ _ _ hb => nomatch hb)
  | onHook => exact next_kept he (k.arrive h _ _ fun _ _ _ hb => nomatch hb)
  | ringStarted => exact next_kept he (k.arrive h _ _ fun _ _ _ hb => nomatch hb)
  | dialled => exact next_kept he (k.arrive h _ _ fun _ _ _ hb => nomatch hb)
  | answered => exact next_kept he (k.arrive h _ _ fun _ _ _ hb => nomatch hb)
  | refused => exact next_kept he (k.arrive h _ _ fun _ _ _ hb => nomatch hb)
  | engage => exact next_kept he (k.arrive h _ _ fun _ _ _ hb => nomatch hb)
  | divert => exact next_kept he (k.arrive h _ _ fun _ _ _ hb => nomatch hb)
  | maintReply => exact next_kept he (k.arrive h _ _ fun _ _ _ hb => nomatch hb)
  | attention => exact next_kept he (k.arrive h _ _ fun _ _ _ hb => nomatch hb)
  | readEntry => exact next_kept he (k.arriveRequest h _ _ _ (hq _ _ _ (rfl)))
  | writeEntry => exact next_kept he (k.arriveRequest h _ _ _ (hq _ _ _ (rfl)))
  | clearEntry => exact next_kept he (k.arriveRequest h _ _ _ (hq _ _ _ (rfl)))
  | commit => exact next_kept he (k.arriveRequest h _ _ _ (hq _ _ _ (rfl)))
  | cancelCommit => exact next_kept he (k.arriveRequest h _ _ _ (hq _ _ _ (rfl)))
  | setModeTransparent => exact next_kept he (k.arriveRequest h _ _ _ (hq _ _ _ (rfl)))
  | setModeEngaged => exact next_kept he (k.arriveRequest h _ _ _ (hq _ _ _ (rfl)))
  | restart => exact next_kept he (k.arriveRequest h _ _ _ (hq _ _ _ (rfl)))
  | stationAvailability => exact next_kept he (k.arriveRequest h _ _ _ (hq _ _ _ (rfl)))
  | stationServiceOut => exact next_kept he (k.arriveRequest h _ _ _ (hq _ _ _ (rfl)))
  | stationServiceIn => exact next_kept he (k.arriveRequest h _ _ _ (hq _ _ _ (rfl)))
  | alarmStart => exact next_kept he (k.arriveRequest h _ _ _ (hq _ _ _ (rfl)))
  | alarmClear => exact next_kept he (k.arriveRequest h _ _ _ (hq _ _ _ (rfl)))
  | promptAddress => exact next_kept he (k.arriveRequest h _ _ _ (hq _ _ _ (rfl)))
  | promptWrite => exact next_kept he (k.arriveRequest h _ _ _ (hq _ _ _ (rfl)))
  | promptRead => exact next_kept he (k.arriveRequest h _ _ _ (hq _ _ _ (rfl)))
  | readStatus => exact next_kept he (k.arriveRequest h _ _ _ (hq _ _ _ (rfl)))
  | writeResetCause => exact next_kept he (k.arriveRequest h _ _ _ (hq _ _ _ (rfl)))
  | readLive => exact next_kept he (k.arriveRequest h _ _ _ (hq _ _ _ (rfl)))
  | readCounters => exact next_kept he (k.arriveRequest h _ _ _ (hq _ _ _ (rfl)))
  | clearCounters => exact next_kept he (k.arriveRequest h _ _ _ (hq _ _ _ (rfl)))
  | attentionRead => exact next_kept he (k.arriveRequest h _ _ _ (hq _ _ _ (rfl)))
  | attentionClear => exact next_kept he (k.arriveRequest h _ _ _ (hq _ _ _ (rfl)))
  | attentionMaskSet => exact next_kept he (k.arriveRequest h _ _ _ (hq _ _ _ (rfl)))
  | attentionMaskClear => exact next_kept he (k.arriveRequest h _ _ _ (hq _ _ _ (rfl)))
  | unknownRequest => exact next_kept he (k.arriveRequest h _ _ _ (hq _ _ _ (beq_self_eq_true _)))
  | alarmInActive => exact next_kept he (k.alarmInActive (inService_kept h (k.settle h)))
  | alarmInInactive => exact next_kept he (k.alarmInInactive (inService_kept h (k.settle h)))
  | wrapUpExpiry => exact next_kept he (k.afterRaised h fun hu => k.wrapUpExpiry hu _)
  | noAnswerExpiry => exact next_kept he (k.afterRaised h fun hu => k.noAnswerExpiry hu _)
  | maximumWaitExpiry => exact next_kept he (k.afterRaised h fun hu => k.maximumWaitExpiry hu _)
  | announcePointExpiry => exact next_kept he (k.afterRaised h fun hu => k.announcePointExpiry hu _)
  | chime => exact next_kept he (k.afterRaised h fun hu => k.chimeExpiry hu _)
  | sessionDeadline => exact next_kept he (k.afterRaised h fun hu => k.sessionDeadline hu _)
  | commitExpiry => exact next_kept he (k.afterRaised h fun hu => k.commitExpiry hu (hc rfl))
  | memberAvailable => exact next_kept he (inService_kept h (k.takeAvailable h _))
  | headCheck => exact next_kept he (inService_kept h (k.takeHeadCheck h _))
  | frameFormation => exact next_kept he (k.frameFormation h _ _)
  | noiseBlockEnd => exact next_kept he (inService_kept h (k.noiseBlockEnd h _ _))
  | toneCycleEnd => exact next_kept he (inService_kept h (k.toneCycleEnd h _))
  | promptStepEnd => exact next_kept he (inService_kept h (k.promptStepEnd h _))
  | contentCompletion => exact next_kept he (k.afterRaised h fun hu => k.contentCompletion hu _)
  | loudChange => exact next_kept he (k.afterRaised h fun hu => k.loudChange hu _)
  | frameFormed => exact next_kept he (k.afterRaised h fun hu => k.frameFormed hu)
  | preannounceEnd => exact next_kept he (k.afterRaised h fun hu => k.preannounceEnd hu _)
  | resetBridgeSlot => exact next_kept he (k.bridgeSlot h _)
  | beaconPhaseChange => exact next_kept he (k.afterRaised h fun hu => k.beaconPhaseChange hu _)

/-- Every command but the resets' keeps what every update keeps; the clearing of flags, an outgoing slot and a commit are
given apart. -/
theorem KeptAll.exec (k : KeptAll P) {i : Instr} {t : State} (h : P s) (hi : Instr.isReset i = false)
    (hc : i = .commitExpiry → CommitKept P)
    (ho : ∀ d, i = .outgoingSlot d → P (s.outgoingSlot d)) (ha : Instr.brings i 21#8 = true → ClearKept P)
    (hn : Instr.brings i 4#8 = true → CommitKept P) (he : exec i s = .next t) : P t :=
  k.toKeptEvents.exec h hi hc ho (fun _ kind _ hb hu => k.maintain hu _ _ _
    (fun hk => ha ((BitVec.eq_of_toNat_eq (hk.trans rfl) : kind = 21#8) ▸ hb)) fun hk => hn (hk ▸ hb)) he

end Sys2Proof.Machine
end

