-- ==== Sys2Proof/Laws/FreeAll.lean ====
section
/-! SUPPORT. A property that every small update keeps, whatever it does to what one block says of another, is kept by every
command but the resets'. -/

namespace Sys2Proof.Machine

variable {P : State → Prop} {s : State}

/-- A property that every change of a zone keeps which leaves it in a good state. -/
def FreeZone (P : State → Prop) : Prop := ∀ {s : State} {z : Nat} {f : Zone → Zone}, P s →
  ((s.zones.get z).Fits → (f (s.zones.get z)).Fits) → P (s.modZone z f)

theorem FreeClaims.contentCompletion (k : FreeClaims P) (hz : ∀ {t : State} {z : Nat}, P t →
    P (t.modZone z fun zn => { zn with completed := false })) (h : P s) (z : Nat) : P (s.contentCompletion z) := by
  unfold State.contentCompletion
  refine ite_kept ?_ h
  dsimp only
  split
  · exact k.withdrawClaim (hz h) _ id
  · exact hz h

theorem FreeClaims.disableZone (k : FreeClaims P) (hz : FreeZone P) (h : P s) (z : Nat) (f : ZoneFields) :
    P (s.disableZone z f) := by
  have h0 : P (s.modZone z (Zone.restarted f)) :=
    hz h fun x => ⟨ClaimsFit.nil, fun y => absurd (show false = true from y) (by decide), x.preemptions, x.saturations⟩
  have h1 := foldl_kept (P := P) (fun _ c ht => k.reportLoss ht z c) (s.zones.get z).claims h0
  unfold State.disableZone
  exact ite_kept h1 (k.reevaluateAssist h1 z)

/-- A zone at the end of a teardown is in a good state. -/
theorem Zone.silent_fits {zn : Zone} (h : zn.Fits) : zn.silent.Fits :=
  ⟨ClaimsFit.nil, fun y => absurd (show false = true from y) (by decide), h.preemptions, h.saturations⟩

theorem Kept.teardownFree (k : Kept P)
    (hm : ∀ {t : State}, P t → P (t.modMaint fun m => { m with mode := .transparent }))
    (hh : FreeHunt P) (hz : FreeZone P) (ho : FreeOrbit P) (h : P s) : P s.teardown := by
  have h1 := k.teardownHunt (fun g ht => hh ht (.filterRecords _)) (hm h)
  unfold State.teardown State.tornDown
  exact foldl_kept (P := P) (fun _ _ ht => ho ht) _
    (foldl_kept (P := P) (fun _ _ ht => hz ht Zone.silent_fits) _
      (k.reevaluateAll (k.withdrawAlarm (k.teardownSessions h1))))

theorem KeptClaims.ringFree (k : KeptClaims P) (hs : FreeStation P) (hr : ∀ {t : State}, P t → ∀ n, P (t.raiseAvailable n))
    (hp : FreePickup P) (h : P s) (n : Nat) (c : CallRef) :
    P ((s.changeStation n fun st => { st with line := .ringing, call := some c }).ringingAdd n c) := by
  have h1 : P (s.changeStation n fun st => { st with line := .ringing, call := some c }) := by
    have h0 : P (s.modStation n fun st => { st with line := .ringing, call := some c }) :=
      hs h (.live rfl rfl rfl rfl rfl rfl rfl)
    unfold State.changeStation
    exact ite_kept (hr h0 n) h0
  exact k.reevaluateAll (hp h1 ⟨rfl, fun x => ⟨x.successes, x.denials⟩⟩)

/-- A property that every small update of an event keeps. -/
structure FreeEvents (P : State → Prop) : Prop extends Free P where
  lines : ∀ {s : State} {f : Lane → Lane}, P s → LinesMove s.lane (f s.lane) → P (s.modLane f)
  audio : ∀ {s : State} {z : Nat} {f : Zone → Zone}, P s → (f (s.zones.get z)).fields = (s.zones.get z).fields →
    ((s.zones.get z).Fits → (f (s.zones.get z)).Fits) → P (s.modZone z f)
  highway : ∀ {s : State} {x : List (Nat × Sample)}, P s → P { s with highwayOut := x }
  alarmLine : ∀ {s : State} (b : Bool), P s → P (s.modAlarm fun a => { a with line := b })
  countdownOff : ∀ {s : State}, P s → P (s.modHunt fun h => { h with countdown := none })

/-- A property that every small update of an event keeps is kept by every event. -/
theorem FreeEvents.kept (k : FreeEvents P) : KeptEvents P where
  toKept := k.toFree.kept
  lines := k.lines
  audio h hf _ hx := k.audio h hf hx
  contentCompletion h z := k.toFreeClaims.contentCompletion (fun h => k.audio h rfl fun x =>
    ⟨x.claims, fun y => absurd (show false = true from y) (by decide), x.preemptions, x.saturations⟩) h z
  ring h n c _ _ := k.toFreeClaims.kept.ringFree k.station (fun h n => k.hunt h (.raise n)) k.pickup h n c
  highway := k.highway
  alarmLine := k.alarmLine
  countdownOff := k.countdownOff

/-- A property that every small update keeps. -/
structure FreeAll (P : State → Prop) : Prop extends FreeEvents P where
  maint : ∀ {s : State} {f : Maint → Maint}, P s → (s.maint.Fits → (f s.maint).Fits) →
    s.maint.flags &&& (f s.maint).flags = s.maint.flags → P (s.modMaint f)
  stationAny : ∀ {s : State} {n : Nat} {f : Station → Station}, P s →
    ((s.stations.get n).Fits → (f (s.stations.get n)).Fits) → P (s.modStation n f)
  code : ∀ {s : State} {n : Nat} {e : Option AccessCode}, P s → P (s.setCode n e)
  zoneAny : FreeZone P
  huntAny : ∀ {s : State} {f : Hunt → Hunt}, P s → (f s.hunt).active = s.hunt.active →
    (s.hunt.Fits → (f s.hunt).Fits) → P (s.modHunt f)
  pickupAny : ∀ {s : State} {f : Pickup → Pickup}, P s → (s.pickup.Fits → (f s.pickup).Fits) → P (s.modPickup f)
  pagingAny : ∀ {s : State} {f : Paging → Paging}, P s → (s.paging.Fits → (f s.paging).Fits) → P (s.modPaging f)
  prompts : ∀ {s : State} {f : Prompts → Prompts}, P s → (s.prompts.Fits → (f s.prompts).Fits) → P (s.modPrompts f)
  restart : ∀ {s : State}, P s → P s.restartBlocks

/-- A property that every small update keeps is kept by every update of a command. -/
theorem FreeAll.kept (k : FreeAll P) : KeptAll P where
  toKeptEvents := k.toFreeEvents.kept
  maint := k.maint
  stationAny h hf _ _ := k.stationAny h hf
  code := k.code
  zoneAny h hf _ _ := k.zoneAny h hf
  enable h _ _ _ := k.zoneAny h fun x =>
    ⟨ClaimsFit.nil, fun y => absurd (show false = true from y) (by decide), x.preemptions, x.saturations⟩
  disable h z f := k.toFreeClaims.disableZone k.zoneAny h z f
  huntAny h ha hf _ := k.huntAny h ha hf
  pickupAny h hf _ := k.pickupAny h hf
  pagingAny h hf _ := k.pagingAny h hf
  prompts := k.prompts
  teardown h := k.toFree.kept.teardownFree (fun h => k.maint h (fun x => ⟨x.flags, x.mask⟩) (BitVec.and_self ..))
    k.hunt k.zoneAny k.orbit h
  restart := k.restart

end Sys2Proof.Machine
end

