-- ==== Sys2Proof/Laws/KeptFits.lean ====
section
/-! SUPPORT. The lanes, the Maintenance Responder, the Prompt Store, the stations, the hunt tables, the counters and the
zones, each in a good state, are kept by every update; so is a hunt table alone. -/

namespace Sys2Proof.Machine

variable {s : State}

/-- A property of the path blocks alone: every update of another block keeps it. -/
theorem State.PathFits.keep {s t : State} (h : s.PathFits) (h1 : t.lane = s.lane) (h2 : t.maint = s.maint)
    (h3 : t.prompts = s.prompts) : t.PathFits :=
  ⟨h1 ▸ h.lane, h2 ▸ h.maint, h3 ▸ h.prompts⟩

theorem State.PathFits.kept : FreeAll State.PathFits where
  assist _ := id
  zone h _ := h.keep rfl rfl rfl
  lane h hf := ⟨hf.fits h.lane, h.maint, h.prompts⟩
  flag f h := ⟨h.lane, h.maint.setBit f, h.prompts⟩
  source _ h := h.keep rfl rfl rfl
  paging h _ := h.keep rfl rfl rfl
  alarm h _ := h.keep rfl rfl rfl
  station h _ := h.keep rfl rfl rfl
  hunt h _ := h.keep rfl rfl rfl
  orbit h := h.keep rfl rfl rfl
  pickup h _ := h.keep rfl rfl rfl
  lines {s f} h hf := ⟨by
    have x := h.lane
    show (f s.lane).Fits
    rw [hf]
    exact ⟨x.downQueue, x.upQueue, x.own, x.counters⟩, h.maint, h.prompts⟩
  audio h _ _ := h.keep rfl rfl rfl
  highway h := h.keep rfl rfl rfl
  alarmLine _ h := h.keep rfl rfl rfl
  countdownOff h := h.keep rfl rfl rfl
  maint h hf _ := ⟨h.lane, hf h.maint, h.prompts⟩
  stationAny h _ := h.keep rfl rfl rfl
  code h := h.keep rfl rfl rfl
  zoneAny h _ := h.keep rfl rfl rfl
  huntAny h _ _ := h.keep rfl rfl rfl
  pickupAny h _ := h.keep rfl rfl rfl
  pagingAny h _ := h.keep rfl rfl rfl
  prompts h hf := ⟨h.lane, h.maint, hf h.prompts⟩
  restart h := h.keep rfl rfl rfl

/-- The call blocks, where all but the call blocks has changed. -/
theorem State.CallsFit.keep {s t : State} (h : s.CallsFit) (h1 : t.hunt = s.hunt) (h2 : t.stations = s.stations)
    (h3 : t.pickup = s.pickup) (h4 : t.paging = s.paging) : t.CallsFit :=
  ⟨h1 ▸ h.hunt, h2 ▸ h.stations, h3 ▸ h.pickup, h4 ▸ h.paging⟩

theorem State.CallsFit.kept : FreeAll State.CallsFit where
  assist _ := id
  zone h _ := h.keep rfl rfl rfl rfl
  lane h _ := h.keep rfl rfl rfl rfl
  flag _ h := h.keep rfl rfl rfl rfl
  source n h := ⟨h.hunt, Tab.forall_put (p := Station.Fits) h.stations (h.stations n), h.pickup, h.paging⟩
  paging h hf := ⟨h.hunt, h.stations, h.pickup, hf.fits h.paging⟩
  alarm h _ := h.keep rfl rfl rfl rfl
  station {_ n _} h hf := ⟨h.hunt, Tab.forall_put (p := Station.Fits) h.stations (hf.fits (h.stations n)), h.pickup, h.paging⟩
  hunt h hf := ⟨hf.fits h.hunt, h.stations, h.pickup, h.paging⟩
  orbit h := h.keep rfl rfl rfl rfl
  pickup h hf := ⟨h.hunt, h.stations, hf.fits h.pickup, h.paging⟩
  lines h _ := h.keep rfl rfl rfl rfl
  audio h _ _ := h.keep rfl rfl rfl rfl
  highway h := h.keep rfl rfl rfl rfl
  alarmLine _ h := h.keep rfl rfl rfl rfl
  countdownOff h :=
    have x := h.hunt
    ⟨⟨x.records, x.calls, x.awaiting, x.closed, x.closedOnce, x.counters, x.raised⟩, h.stations, h.pickup, h.paging⟩
  maint h _ _ := h.keep rfl rfl rfl rfl
  stationAny {_ n _} h hf := ⟨h.hunt, Tab.forall_put (p := Station.Fits) h.stations (hf (h.stations n)), h.pickup, h.paging⟩
  code h := h.keep rfl rfl rfl rfl
  zoneAny h _ := h.keep rfl rfl rfl rfl
  huntAny h _ hf := ⟨hf h.hunt, h.stations, h.pickup, h.paging⟩
  pickupAny h hf := ⟨h.hunt, h.stations, hf h.pickup, h.paging⟩
  pagingAny h hf := ⟨h.hunt, h.stations, h.pickup, hf h.paging⟩
  prompts h _ := h.keep rfl rfl rfl rfl
  restart h := by
    refine ⟨⟨Nat.zero_le _, List.nodup_nil, (fun _ hr => nomatch hr), Nat.zero_le _, List.nodup_nil, h.hunt.counters,
      List.Pairwise.nil, List.Pairwise.nil⟩, ?_, ⟨h.pickup.successes, h.pickup.denials⟩, h.paging⟩
    exact Tab.forall_map (p := Station.Fits) (fun n => h.stations n) (Nat.zero_le _)

/-- The hunt tables alone, in form. -/
theorem HuntFits.kept : FreeAll (fun s => s.hunt.Fits) where
  assist _ := id
  zone h _ := h
  lane h _ := h
  flag _ h := h
  source _ h := h
  paging h _ := h
  alarm h _ := h
  station h _ := h
  hunt h hf := hf.fits h
  orbit h := h
  pickup h _ := h
  lines h _ := h
  audio h _ _ := h
  highway h := h
  alarmLine _ h := h
  countdownOff h := ⟨h.records, h.calls, h.awaiting, h.closed, h.closedOnce, h.counters, h.raised⟩
  maint h _ _ := h
  stationAny h _ := h
  code h := h
  zoneAny h _ := h
  huntAny h _ hf := hf h
  pickupAny h _ := h
  pagingAny h _ := h
  prompts h _ := h
  restart h := ⟨Nat.zero_le _, List.nodup_nil, (fun _ hr => nomatch hr), Nat.zero_le _, List.nodup_nil, h.counters,
    List.Pairwise.nil, List.Pairwise.nil⟩

/-- A zone right after a reset is in a good state. -/
theorem Zone.reset_fits : Zone.reset.Fits :=
  ⟨ClaimsFit.nil, fun y => absurd (show false = true from y) (by decide), Nat.zero_le _, Nat.zero_le _⟩

/-- What a number outside the zones reads is in a good state. -/
theorem Zone.default_fits : (default : Zone).Fits :=
  ⟨ClaimsFit.nil, fun y => absurd (show false = true from y) (by decide), Nat.zero_le _, Nat.zero_le _⟩

theorem State.ZonesFit.modZone (h : s.ZonesFit) {z : Nat} {f : Zone → Zone} (hf : (s.zones.get z).Fits → (f (s.zones.get z)).Fits) :
    (s.modZone z f).ZonesFit :=
  Tab.forall_put (p := Zone.Fits) h (hf (h z))

theorem State.ZonesFit.kept : FreeAll State.ZonesFit where
  assist _ := id
  zone h hf := h.modZone hf.fits
  lane h _ := h
  flag _ h := h
  source _ h := h
  paging h _ := h
  alarm h _ := h
  station h _ := h
  hunt h _ := h
  orbit h := h
  pickup h _ := h
  lines h _ := h
  audio h _ hf := h.modZone hf
  highway h := h
  alarmLine _ h := h
  countdownOff h := h
  maint h _ _ := h
  stationAny h _ := h
  code h := h
  zoneAny h hf := h.modZone hf
  huntAny h _ _ := h
  pickupAny h _ := h
  pagingAny h _ := h
  prompts h _ := h
  restart h := Tab.forall_map (p := Zone.Fits) (fun z =>
    ⟨ClaimsFit.nil, fun y => absurd (show false = true from y) (by decide), (h z).preemptions, (h z).saturations⟩)
    Zone.default_fits

/-- Good hunt tables stay so as the staged bank becomes the active one, and the call blocks with them (03, R57). -/
theorem State.CallsFit.commit : CommitKept State.CallsFit := fun h =>
  have x := h.hunt
  ⟨⟨x.records, x.calls, x.awaiting, x.closed, x.closedOnce, x.counters, x.raised⟩, h.stations, h.pickup, h.paging⟩

theorem State.PathFits.clear : ClearKept State.PathFits := fun x h _ => ⟨h.lane,
  ⟨by have := h.maint.flags; show (_ &&& _ : BitVec 16).getLsbD 0 = false; rw [BitVec.getLsbD_and, this, Bool.false_and],
    h.maint.mask⟩, h.prompts⟩

end Sys2Proof.Machine
end

