-- ==== Sys2Proof/Laws/KeptHeld.lean ====
section
/-! SUPPORT. What the alarm and the page sessions hold, they have claims for, each on an enabled zone (07, R132, R134; 10,
R174, R175): every update keeps it so, over zones in form. -/

namespace Sys2Proof.Machine

variable {K : Relied} {s t : State}

/-- A claimant's block counts a zone among those it holds. -/
def State.counts (s : State) (z : Nat) (who : Claimant) : Prop :=
  match who with
  | .alarm => z ∈ s.alarm.claimed
  | .session i => ∃ x, s.paging.sessions.get i = some x ∧ (z, HoldStatus.held) ∈ x.zones
  | .orbit _ | .assist => False

/-- The zones in form, the claimed list without repeats, and each zone that is counted, among these, with its claim. -/
structure State.Held (K : Relied) (s : State) : Prop where
  zones : s.ZonesFit
  once : s.alarm.claimed.Nodup
  held : ∀ z who, K z who → s.counts z who → s.holds z who

theorem State.Held.toClaimsHeld (h : s.Held lasting) : s.ClaimsHeld :=
  ⟨h.once, fun z hz => h.held z .alarm trivial hz, fun i x z hx hz => h.held z (.session i) trivial ⟨x, hx, hz⟩⟩

theorem State.ClaimsHeld.toHeld (h : s.ClaimsHeld) (hz : s.ZonesFit) : s.Held lasting := by
  refine ⟨hz, h.once, fun z who hk hc => ?_⟩
  cases who with
  | alarm => exact h.alarm z hc
  | session i => obtain ⟨x, hx, hz⟩ := hc; exact h.sessions i x z hx hz
  | orbit => exact hk.elim
  | assist => exact hk.elim

theorem State.Held.mono {L : Relied} (h : s.Held K) (hl : ∀ z who, L z who → K z who) : s.Held L :=
  ⟨h.zones, h.once, fun z who hk => h.held z who (hl z who hk)⟩

/-- The zones stay; nothing that was not counted is. -/
theorem State.Held.keep (h : s.Held K) (hz : t.zones = s.zones) (ho : t.alarm.claimed.Sublist s.alarm.claimed)
    (hc : ∀ z who, K z who → t.counts z who → s.counts z who) : t.Held K := by
  refine ⟨?_, h.once.sublist ho, fun z who hk hw => ?_⟩
  · unfold State.ZonesFit; rw [hz]; exact h.zones
  · unfold State.holds State.zoneEnabled
    rw [hz]
    exact h.held z who hk (hc z who hk hw)

/-- Nothing that is counted depends on more than the claimed list and the sessions. -/
theorem State.Held.same (h : s.Held K) (hz : t.zones = s.zones) (h1 : t.alarm.claimed = s.alarm.claimed)
    (h2 : t.paging.sessions = s.paging.sessions) : t.Held K := by
  refine h.keep hz (h1 ▸ List.Sublist.refl _) fun z who _ hw => ?_
  cases who with
  | alarm => exact (show z ∈ s.alarm.claimed from h1 ▸ (show z ∈ t.alarm.claimed from hw))
  | session i => obtain ⟨x, hx, hz⟩ := hw; exact ⟨x, h2 ▸ hx, hz⟩
  | orbit => exact hw
  | assist => exact hw

/-- A claimant that has its claim on a zone has it after a change of zones that keeps it there. -/
theorem State.holds_modZone {z y : Nat} {f : Zone → Zone} {who : Claimant}
    (he : z = y → (f (s.zones.get z)).fields.enabled = (s.zones.get z).fields.enabled)
    (hk : z = y → holdsClaim (s.zones.get z).claims who = true → holdsClaim (f (s.zones.get z)).claims who = true)
    (h : s.holds y who) : (s.modZone z f).holds y who := by
  unfold State.holds State.zoneEnabled State.modZone at *
  dsimp only
  rw [Tab.get_put]
  split
  · rename_i e
    obtain ⟨e, -⟩ := e
    subst e
    exact ⟨(he rfl).trans h.1, hk rfl h.2⟩
  · exact h

theorem State.Held.modZone (h : s.Held K) {z : Nat} {f : Zone → Zone}
    (hf : (s.zones.get z).Fits → (f (s.zones.get z)).Fits)
    (he : (f (s.zones.get z)).fields.enabled = (s.zones.get z).fields.enabled)
    (hk : ∀ who, K z who → holdsClaim (s.zones.get z).claims who = true → holdsClaim (f (s.zones.get z)).claims who = true) :
    (s.modZone z f).Held K :=
  ⟨h.zones.modZone hf, h.once, fun y who hy hw =>
    State.holds_modZone (fun _ => he) (fun e => hk who (e ▸ hy)) (h.held y who hy hw)⟩

/-- The assist claims' re-evaluation and what else leaves the claims that are counted. -/
theorem State.Held.kept (K : Relied) (hK : ∀ z, ¬ K z .assist) : KeptZones K (State.Held K) where
  assist := hK
  zone {_ z _} h hf := h.modZone hf.fits (by rw [hf.fields]) fun who hw => hf.keeps (h.zones z) who hw

/-- A part in which one zone is in form and a claimant has its claim there. -/
structure State.Has (y : Nat) (who : Claimant) (s : State) : Prop where
  fits : (s.zones.get y).Fits
  holds : s.holds y who

theorem State.Has.kept (y : Nat) {who : Claimant} (hw : who ≠ .assist) :
    KeptZones (fun z w => z = y ∧ w = who) (State.Has y who) where
  assist _ h := hw h.2.symm
  zone {s z f} h hf := by
    refine ⟨?_, State.holds_modZone (fun _ => by rw [hf.fields]) (fun e hh => ?_) h.holds⟩
    · show ((s.zones.put z _).get y).Fits
      rw [Tab.get_put]
      split
      · rename_i e; exact hf.fits (e.1 ▸ h.fits)
      · exact h.fits
    · exact hf.keeps (e ▸ h.fits) who ⟨e, rfl⟩ hh

/-! ### Reports of lost claims (07, R129, R134) -/

/-- Cells and flags change lanes and flags alone. -/
theorem KeptLanes.rest (s : State) : KeptLanes (fun t => t.zones = s.zones ∧ t.alarm = s.alarm ∧ t.paging = s.paging) :=
  ⟨fun h _ => h, fun _ h => h⟩

theorem State.freeSession_counts (s : State) (i : Nat) :
    (s.freeSession i).zones = s.zones ∧ (s.freeSession i).alarm = s.alarm ∧
    ∀ z who, (s.freeSession i).counts z who → s.counts z who ∧ who ≠ .session i := by
  unfold State.freeSession
  split
  · rename_i hn
    refine ⟨rfl, rfl, fun z who hw => ⟨hw, fun e => ?_⟩⟩
    subst e
    obtain ⟨x, hx, -⟩ := hw
    rw [hn] at hx; cases hx
  · rename_i x hx
    refine ⟨rfl, rfl, fun z who hw => ?_⟩
    cases who with
    | alarm => exact ⟨hw, nofun⟩
    | session j =>
      obtain ⟨v, hv, hz⟩ := hw
      have hv : (s.paging.sessions.put i none).get j = some v := hv
      rw [Tab.get_put] at hv
      split at hv
      · cases hv
      · rename_i e
        refine ⟨⟨v, hv, hz⟩, fun h => e ⟨?_, ?_⟩⟩
        · cases h; rfl
        · cases h
          by_contra hr
          rw [Tab.get_of_not_mem _ hr] at hv
          cases hv
    | orbit => exact hw.elim
    | assist => exact hw.elim

theorem State.sessionLost_counts (s : State) (i z : Nat) :
    (s.sessionLost i z).zones = s.zones ∧ (s.sessionLost i z).alarm = s.alarm ∧
    ∀ y who, (s.sessionLost i z).counts y who → s.counts y who ∧ ¬(y = z ∧ who = .session i) := by
  unfold State.sessionLost
  split
  · rename_i hn
    refine ⟨rfl, rfl, fun y who hw => ⟨hw, fun e => ?_⟩⟩
    obtain ⟨-, rfl⟩ := e
    obtain ⟨x, hx, -⟩ := hw
    rw [hn] at hx; cases hx
  · rename_i x hx
    have lost : ∀ (u : State) (q : Paging), u.alarm = s.alarm → u.paging = q → q.sessions = s.paging.sessions.put i
        (some { x with zones := x.zones.map fun e => if e.1 = z then (z, HoldStatus.lost) else e }) →
        ∀ y who, u.counts y who → s.counts y who ∧ ¬(y = z ∧ who = .session i) := by
      intro u q ha hp hq y who hw
      cases who with
      | alarm => unfold State.counts at hw ⊢; rw [ha] at hw; exact ⟨hw, nofun⟩
      | session j =>
        obtain ⟨v, hv, hz⟩ := hw
        rw [hp, hq, Tab.get_put] at hv
        split at hv
        · rename_i e
          cases hv
          obtain ⟨h1, h2⟩ := held_of_lost hz
          exact ⟨⟨x, e.1 ▸ hx, h2⟩, fun h => h1 h.1⟩
        · rename_i e
          refine ⟨⟨v, hv, hz⟩, fun h => e ⟨?_, ?_⟩⟩
          · cases h.2; rfl
          · cases h.2
            by_contra hr
            rw [Tab.get_of_not_mem _ hr] at hv
            cases hv
      | orbit => exact hw.elim
      | assist => exact hw.elim
    dsimp only
    split
    · exact ⟨rfl, rfl, lost _ _ rfl rfl rfl⟩
    · have hl := (KeptLanes.rest (s.setSession i
        (some { x with zones := x.zones.map fun e => if e.1 = z then (z, HoldStatus.lost) else e }))).sendTone
          (P := fun t => _) ⟨rfl, rfl, rfl⟩ x.source .ended
      generalize (s.setSession i (some { x with zones := x.zones.map fun e =>
        if e.1 = z then (z, HoldStatus.lost) else e })).sendTone x.source .ended = u at hl ⊢
      obtain ⟨f1, f2, f3⟩ := State.freeSession_counts u i
      refine ⟨f1.trans hl.1, f2.trans hl.2.1, fun y who hw => ?_⟩
      exact lost u _ hl.2.1 hl.2.2 rfl y who (f3 y who hw).1

theorem State.reportLoss_counts (s : State) (z : Nat) (c : Claim) :
    (s.reportLoss z c).zones = s.zones ∧ (s.reportLoss z c).alarm.claimed.Sublist s.alarm.claimed ∧
    ∀ y who, (s.reportLoss z c).counts y who → s.counts y who ∧ ¬(y = z ∧ who = c.claimant) := by
  unfold State.reportLoss
  split
  · rename_i i hc
    obtain ⟨h1, h2, h3⟩ := State.sessionLost_counts s i z
    exact ⟨h1, by rw [h2], fun y who hw => by rw [hc]; exact h3 y who hw⟩
  · rename_i hc
    exact ⟨rfl, List.Sublist.refl _, fun y who hw => ⟨hw, fun h => by rw [h.2, hc] at hw; exact hw⟩⟩
  · rename_i hc
    refine ⟨rfl, List.filter_sublist, fun y who hw => ?_⟩
    cases who with
    | alarm =>
      obtain ⟨h1, h2⟩ := List.mem_filter.mp hw
      exact ⟨h1, fun h => by simp [h.1] at h2⟩
    | session i => exact ⟨hw, fun h => by rw [hc] at h; cases h.2⟩
    | orbit => exact hw.elim
    | assist => exact hw.elim
  · rename_i hc
    exact ⟨rfl, List.Sublist.refl _, fun y who hw => ⟨hw, fun h => by rw [h.2, hc] at hw; exact hw⟩⟩

/-- A report of a lost claim makes good what its loss left. -/
theorem State.Held.reportLoss {z : Nat} {c : Claim}
    (h : s.Held fun y who => K y who ∧ ¬(y = z ∧ who = c.claimant)) : (s.reportLoss z c).Held K := by
  obtain ⟨h1, h2, h3⟩ := State.reportLoss_counts s z c
  refine ⟨?_, h.once.sublist h2, fun y who hk hw => ?_⟩
  · unfold State.ZonesFit; rw [h1]; exact h.zones
  · obtain ⟨h4, h5⟩ := h3 y who hw
    unfold State.holds State.zoneEnabled
    rw [h1]
    exact h.held y who ⟨hk, h5⟩ h4

/-- The same, of a claim that may have been lost. -/
theorem State.Held.reportIf {z : Nat} {o : Option Claim}
    (h : s.Held fun y who => K y who ∧ ¬(y = z ∧ ∃ d, o = some d ∧ who = d.claimant)) :
    (match o with | some c => s.reportLoss z c | none => s).Held K := by
  cases o with
  | none => exact h.mono fun y who hk => ⟨hk, fun x => by obtain ⟨-, d, hd, -⟩ := x; cases hd⟩
  | some c => exact State.Held.reportLoss (h.mono fun y who hk => ⟨hk.1, fun x => by
      obtain ⟨h1, d, hd, h2⟩ := x; cases hd; exact hk.2 ⟨h1, h2⟩⟩)

theorem State.reportIf_counts (s : State) (z : Nat) (o : Option Claim) :
    (match o with | some c => s.reportLoss z c | none => s).zones = s.zones ∧
    (match o with | some c => s.reportLoss z c | none => s).alarm.claimed.Sublist s.alarm.claimed := by
  cases o with
  | none => exact ⟨rfl, List.Sublist.refl _⟩
  | some c => exact ⟨(State.reportLoss_counts s z c).1, (State.reportLoss_counts s z c).2.1⟩

/-! ### Claim requests (07, R125 to R127) -/

theorem lasting_assist (z : Nat) : ¬ lasting z .assist := id

/-- A request that is granted, in its parts. -/
theorem State.requestClaim_cases (s : State) (z : Nat) (c : Claim) :
    s.requestClaim z c = (s, false) ∨
    ∃ g, s.zoneEnabled z = true ∧ holdsClaim (s.zones.get z).claims c.claimant = false ∧
      (if c.isVoice then placeVoice c (s.zones.get z).claims else placeResumable c (s.zones.get z).claims) = some g ∧
      s.requestClaim z c = ((s.applyGrant z g).settleGrant z g, true) := by
  unfold State.requestClaim
  dsimp only
  split
  · exact .inl rfl
  · rename_i hn
    simp only [Bool.or_eq_true, not_or, Bool.not_eq_true, Bool.not_eq_false'] at hn
    split
    · exact .inl rfl
    · rename_i g hg
      exact .inr ⟨g, hn.1, hn.2, hg, rfl⟩

theorem State.Held.requestClaim (h : s.Held lasting) (z : Nat) {c : Claim} (hc : c.classFits) :
    (s.requestClaim z c).1.Held lasting := by
  rcases s.requestClaim_cases z c with e | ⟨g, -, hn, hg, e⟩
  · rw [e]; exact h
  · rw [e]
    let L : Relied := fun y who => lasting y who ∧
      ¬(y = z ∧ ∃ d, (g.lost = some d ∨ g.evicted = some d) ∧ who = d.claimant)
    have h1 : (s.applyGrant z g).Held L :=
      (State.Held.kept L fun y hy => hy.1).grantClaim (h.mono fun y who hk => hk.1) hc hn hg
        fun d _ hd hL => hL.2 ⟨rfl, d, hd, rfl⟩
    have h2 : (match g.lost with
        | some c => (s.applyGrant z g).reportLoss z c
        | none => s.applyGrant z g).Held (fun y who => lasting y who ∧ ¬(y = z ∧ ∃ d, g.evicted = some d ∧ who = d.claimant)) :=
      State.Held.reportIf (h1.mono fun y who hk => ⟨hk.1.1, fun x => by
        obtain ⟨hy, d, hd, hw⟩ := x
        rcases hd with hd | hd
        · exact hk.2 ⟨hy, d, hd, hw⟩
        · exact hk.1.2 ⟨hy, d, hd, hw⟩⟩)
    have h3 := State.Held.reportIf h2
    unfold State.settleGrant
    exact ite_kept ((State.Held.kept lasting lasting_assist).reevaluateAssist h3 z) h3

/-- A request at another zone, or of a claimant that is there, leaves a claim where it is. -/
theorem State.Has.requestClaim {y z : Nat} {who : Claimant} (hw : who ≠ .assist) (h : s.Has y who) {c : Claim}
    (hc : c.classFits) (hz : z = y → c.claimant = who) : (s.requestClaim z c).1.Has y who := by
  rcases s.requestClaim_cases z c with e | ⟨g, -, hn, hg, e⟩
  · rw [e]; exact h
  · rw [e]
    have hzy : z ≠ y := fun x => by
      subst x; rw [hz rfl, h.holds.2] at hn; cases hn
    have k := State.Has.kept y hw
    have h1 : (s.applyGrant z g).Has y who := k.grantClaim h hc hn hg fun _ _ _ x => hzy x.1
    have hr : ∀ (o : Option Claim) {t : State}, t.Has y who →
        (match o with | some c => t.reportLoss z c | none => t).Has y who := by
      intro o t ht
      have e := (State.reportIf_counts t z o).1
      refine ⟨?_, ?_⟩
      · rw [e]; exact ht.fits
      · unfold State.holds State.zoneEnabled; rw [e]; exact ht.holds
    have h3 := hr g.evicted (hr g.lost h1)
    unfold State.settleGrant
    exact ite_kept (P := State.Has y who) (k.reevaluateAssist h3 z) h3

/-- A zone that is enabled is one of the part's. -/
theorem State.zone_range {z : Nat} (h : s.zoneEnabled z = true) : 1 ≤ z ∧ z < 1 + 24 := by
  by_contra hz
  unfold State.zoneEnabled at h
  rw [Tab.get_of_not_mem _ hz] at h
  cases h

/-- What a zone's record keeps of its list and its configuration as its beacon is chosen. -/
theorem State.chooseBeacon_claims (s : State) (z y : Nat) :
    ((s.chooseBeacon z).zones.get y).claims = (s.zones.get y).claims ∧
    ((s.chooseBeacon z).zones.get y).fields = (s.zones.get y).fields := by
  unfold State.chooseBeacon
  dsimp only
  split
  · exact ⟨rfl, rfl⟩
  · show ((s.zones.put z _).get y).claims = _ ∧ ((s.zones.put z _).get y).fields = _
    rw [Tab.get_put]
    split
    · rename_i e; rw [e.1]; exact ⟨rfl, rfl⟩
    · exact ⟨rfl, rfl⟩

/-- A granted list stands at its zone. -/
theorem State.applyGrant_claims {z : Nat} (hz : 1 ≤ z ∧ z < 1 + 24) (g : Grant) :
    ((s.applyGrant z g).zones.get z).claims = g.claims ∧
    ((s.applyGrant z g).zones.get z).fields = (s.zones.get z).fields := by
  unfold State.applyGrant
  dsimp only
  split
  · rw [State.headChange_modZone]
    obtain ⟨h1, h2⟩ := State.chooseBeacon_claims (s.modZone z fun zn => Zone.restartHead { zn with
      claims := g.claims
      preemptions := if g.first && !(s.zones.get z).claims.isEmpty then satInc zn.preemptions else zn.preemptions }) z z
    rw [h1, h2]
    show ((s.zones.put z _).get z).claims = _ ∧ ((s.zones.put z _).get z).fields = _
    rw [Tab.get_put_same _ _ hz]
    exact ⟨rfl, rfl⟩
  · show ((s.zones.put z _).get z).claims = _ ∧ ((s.zones.put z _).get z).fields = _
    rw [Tab.get_put_same _ _ hz]
    exact ⟨rfl, rfl⟩

/-- A request that is granted leaves its claimant with its claim on the enabled zone. -/
theorem State.requestClaim_has (hs : s.ZonesFit) {z : Nat} {c : Claim} (hc : c.classFits) (hw : c.claimant ≠ .assist)
    (h : (s.requestClaim z c).2 = true) : (s.requestClaim z c).1.Has z c.claimant := by
  rcases s.requestClaim_cases z c with e | ⟨g, he, hn, hg, e⟩
  · rw [e] at h; cases h
  · rw [e]
    have hz := State.zone_range he
    have k := State.Has.kept z hw
    obtain ⟨a1, a2⟩ := State.applyGrant_claims (s := s) hz g
    have h0 : (s.applyGrant z g).ZonesFit :=
      (State.ZonesFit.kept.toFreeClaims).grantClaim hs hc hn hg fun _ _ _ => id
    have h1 : (s.applyGrant z g).Has z c.claimant := by
      refine ⟨h0 z, ?_, ?_⟩
      · unfold State.zoneEnabled at he ⊢; rw [a2]; exact he
      · rw [a1]; exact holdsClaim_iff.mpr ⟨c, (hs z).claims.place_new hg, rfl⟩
    have hr : ∀ (o : Option Claim) {t : State}, t.Has z c.claimant →
        (match o with | some c => t.reportLoss z c | none => t).Has z c.claimant := by
      intro o t ht
      have e := (State.reportIf_counts t z o).1
      refine ⟨?_, ?_⟩
      · rw [e]; exact ht.fits
      · unfold State.holds State.zoneEnabled; rw [e]; exact ht.holds
    have h3 := hr g.evicted (hr g.lost h1)
    unfold State.settleGrant
    exact ite_kept (P := State.Has z c.claimant) (k.reevaluateAssist h3 z) h3

/-- A request adds nothing to the claimed list. -/
theorem State.requestClaim_claimed (s : State) (z : Nat) (c : Claim) :
    (s.requestClaim z c).1.alarm.claimed.Sublist s.alarm.claimed := by
  rcases s.requestClaim_cases z c with e | ⟨g, -, -, -, e⟩
  · rw [e]
  · rw [e]
    have zs (u : State) : KeptZones unrelied (fun t => t.alarm = u.alarm) := ⟨fun _ => id, fun h _ => h⟩
    have h1 : (s.applyGrant z g).alarm = s.alarm := by
      unfold State.applyGrant
      dsimp only
      split
      · rw [State.headChange_modZone]; exact (zs s).chooseBeacon (s := s.modZone z _) rfl z
      · rfl
    have h2 := (State.reportIf_counts (s.applyGrant z g) z g.lost).2
    have h3 := (State.reportIf_counts (match g.lost with
        | some c => (s.applyGrant z g).reportLoss z c
        | none => s.applyGrant z g) z g.evicted).2
    have h4 := (h3.trans h2)
    rw [h1] at h4
    unfold State.settleGrant
    dsimp only
    split
    · rw [(zs _).reevaluateAssist rfl z]; exact h4
    · exact h4

/-! ### What places and ends the claims of sessions and of the alarm -/

/-- A page's zones hold the claim that it asked for on each. -/
theorem State.Held.requestZones {c : Claim} (hc : c.classFits) (hw : c.claimant ≠ .assist) :
    ∀ (l : List Nat) {s : State}, s.Held lasting →
      (State.requestZones c l s).1.Held lasting ∧
      (∀ y, s.Has y c.claimant → (State.requestZones c l s).1.Has y c.claimant) ∧
      ∀ y ∈ (State.requestZones c l s).2, (State.requestZones c l s).1.Has y c.claimant
  | [], _, h => ⟨h, fun _ hy => hy, fun _ hy => nomatch hy⟩
  | z :: rest, s, h => by
    obtain ⟨h1, h2, h3⟩ := State.Held.requestZones hc hw rest (h.requestClaim z hc)
    refine ⟨h1, fun y hy => h2 y (hy.requestClaim hw hc fun _ => rfl), fun y hy => ?_⟩
    have hy : y ∈ (if (s.requestClaim z c).2 = true then z :: (State.requestZones c rest (s.requestClaim z c).1).2
        else (State.requestZones c rest (s.requestClaim z c).1).2) := hy
    split at hy
    · rename_i hg
      rcases List.mem_cons.mp hy with rfl | hy
      · exact h2 y (State.requestClaim_has h.zones hc hw hg)
      · exact h3 y hy
    · exact h3 y hy

theorem State.Held.startZones (h : s.Held lasting) {i : Nat} {c : Claim} {l : List Nat} {x : Session} (hc : c.classFits)
    (hi : c.claimant = .session i)
    (hx : x.zones = (State.requestZones c l s).2.map fun z => (z, HoldStatus.held)) :
    ((State.requestZones c l s).1.setSession i (some x)).Held lasting := by
  obtain ⟨h1, -, h3⟩ := State.Held.requestZones hc (by rw [hi]; nofun) l h
  generalize State.requestZones c l s = r at hx h1 h3 ⊢
  refine ⟨h1.zones, h1.once, fun z who hk hw => ?_⟩
  show r.1.holds z who
  cases who with
  | alarm => exact h1.held z .alarm hk hw
  | session j =>
    obtain ⟨v, hv, hz⟩ := hw
    have hv : (r.1.paging.sessions.put i (some x)).get j = some v := hv
    rw [Tab.get_put] at hv
    split at hv
    · rename_i e
      cases hv
      rw [hx] at hz
      obtain ⟨y, hy, e2⟩ := List.mem_map.mp hz
      cases e2
      exact e.1 ▸ hi ▸ (h3 _ hy).holds
    · exact h1.held z _ trivial ⟨v, hv, hz⟩
  | orbit => exact hw.elim
  | assist => exact hw.elim

/-- All that is relied on but one claimant's claims. -/
def Relied.but (who : Claimant) (K : Relied) : Relied := fun z w => K z w ∧ w ≠ who

theorem State.Held.endSession (h : s.Held lasting) (i : Nat) (q : Bool) : (s.endSession i q).Held lasting := by
  unfold State.endSession
  split
  · exact h
  · rename_i x _
    have k := State.Held.kept (Relied.but (.session i) lasting) fun _ hy => hy.1
    have h1 : ((x.zones.filter fun e => e.2 = HoldStatus.held).foldl
        (fun t e => t.withdrawClaim e.1 (.session i)) s).Held (Relied.but (.session i) lasting) :=
      foldl_kept (P := State.Held _) (fun _ e ht => k.withdrawClaim ht e.1 fun hy => hy.2 rfl) _
        (h.mono fun _ _ hk => hk.1)
    dsimp only
    generalize (x.zones.filter fun e => e.2 = HoldStatus.held).foldl
        (fun t e => t.withdrawClaim e.1 (.session i)) s = u at h1 ⊢
    have h2 : (if q = true then u else u.sendTone x.source .ended).Held (Relied.but (.session i) lasting) := by
      refine ite_kept h1 ?_
      have e := (KeptLanes.rest u).sendTone (P := fun t => _) ⟨rfl, rfl, rfl⟩ x.source .ended
      exact h1.same e.1 (by rw [e.2.1]) (by rw [e.2.2])
    generalize (if q = true then u else u.sendTone x.source .ended) = v at h2 ⊢
    obtain ⟨f1, f2, f3⟩ := State.freeSession_counts v i
    refine ⟨?_, by rw [f2]; exact h2.once, fun z who hk hw => ?_⟩
    · unfold State.ZonesFit; rw [f1]; exact h2.zones
    · obtain ⟨h4, h5⟩ := f3 z who hw
      unfold State.holds State.zoneEnabled
      rw [f1]
      exact h2.held z who ⟨hk, h5⟩ h4

theorem State.Held.claimAlarm (h : s.Held lasting) {c : Claim} (hc : c.classFits) (hw : c.claimant = .alarm) (z : Nat) :
    (s.claimAlarm c z).Held lasting := by
  have h1 := h.requestClaim z hc
  unfold State.claimAlarm
  dsimp only
  split
  · rename_i hg
    have hz := State.requestClaim_has h.zones hc (by rw [hw]; nofun) hg
    have hn : z ∉ s.alarm.claimed := by
      intro hm
      have := (h.held z .alarm trivial hm).2
      rcases s.requestClaim_cases z c with e | ⟨g, -, hn, -, -⟩
      · rw [e] at hg; cases hg
      · rw [hw, this] at hn; cases hn
    have hs := s.requestClaim_claimed z c
    generalize s.requestClaim z c = r at h1 hg hz hs ⊢
    refine (State.Held.kept lasting lasting_assist).chooseBeacon ?_ z
    refine ⟨h1.zones, ?_, fun y who hk hy => ?_⟩
    · show (r.1.alarm.claimed ++ [z]).Nodup
      rw [List.nodup_append]
      refine ⟨h1.once, by simp, fun a ha b hb => ?_⟩
      rw [List.mem_singleton] at hb
      exact fun e => hn (hb ▸ e ▸ hs.subset ha)
    · show r.1.holds y who
      cases who with
      | alarm =>
        rcases List.mem_append.mp (show y ∈ r.1.alarm.claimed ++ [z] from hy) with hy | hy
        · exact h1.held y .alarm hk hy
        · rw [List.mem_singleton.mp hy, ← hw]; exact hz.holds
      | session i => exact h1.held y (.session i) hk hy
      | orbit => exact hy.elim
      | assist => exact hy.elim
  · exact h1

theorem State.Held.withdrawAlarm (h : s.Held lasting) : s.withdrawAlarm.Held lasting := by
  have k := State.Held.kept (Relied.but .alarm lasting) fun _ hy => hy.1
  have h1 : (s.alarm.claimed.foldl (fun t z => t.withdrawClaim z .alarm) s).Held (Relied.but .alarm lasting) :=
    foldl_kept (P := State.Held _) (fun _ z ht => k.withdrawClaim ht z fun hy => hy.2 rfl) _
      (h.mono fun _ _ hk => hk.1)
  unfold State.withdrawAlarm
  refine foldl_kept (P := State.Held _)
    (fun _ z ht => (State.Held.kept lasting lasting_assist).chooseBeacon ht z) _ ?_
  generalize s.alarm.claimed.foldl (fun t z => t.withdrawClaim z .alarm) s = u at h1 ⊢
  refine ⟨h1.zones, List.nodup_nil, fun z who hk hw => ?_⟩
  cases who with
  | alarm => exact nomatch (show z ∈ ([] : List Nat) from hw)
  | session i => exact h1.held z (.session i) ⟨hk, nofun⟩ hw
  | orbit => exact hw.elim
  | assist => exact hw.elim

/-- The work on claims keeps what sessions and the alarm hold. -/
theorem State.Held.claims : KeptClaims (State.Held lasting) where
  toKeptZones := State.Held.kept lasting lasting_assist
  lane h _ := h.same rfl rfl rfl
  flag _ h := h.same rfl rfl rfl
  source _ h := h.same rfl rfl rfl
  paging {s f} h hf := h.keep rfl (List.Sublist.refl _) fun z who _ hw => by
    cases who with
    | alarm => exact hw
    | session i =>
      obtain ⟨y, hy, hz⟩ := hw
      obtain ⟨x, hx, hsub⟩ := hf.sessions i y hy
      exact ⟨x, hx, hsub z hz⟩
    | orbit => exact hw
    | assist => exact hw
  alarm {s f} h _ hs := h.keep rfl hs fun z who _ hw => by
    cases who with
    | alarm => exact hs.subset hw
    | session i => exact hw
    | orbit => exact hw
    | assist => exact hw
  requestClaim h z _ hc := h.requestClaim z hc
  endSession h i q := h.endSession i q
  startZones h _ _ _ _ _ hc hi hx := h.startZones hc hi hx
  claimAlarm h _ hc hw z := h.claimAlarm hc hw z
  withdrawAlarm h := h.withdrawAlarm

/-! ### Every other update -/

theorem State.Held.keptMoves : Kept (State.Held lasting) where
  toKeptClaims := State.Held.claims
  station h _ := h.same rfl rfl rfl
  raiseAvailable h _ := h.same rfl rfl rfl
  pickup h _ := h.same rfl rfl rfl
  leave h n _ hf _ := State.Held.claims.leaveFree (fun h _ => h.same rfl rfl rfl) (fun h _ => h.same rfl rfl rfl)
    (fun h _ => h.same rfl rfl rfl) h n hf
  hunt h _ := h.same rfl rfl rfl
  orbit h _ := h.same rfl rfl rfl
  release h _ _ hf _ := State.Held.claims.releaseFree (fun h _ => h.same rfl rfl rfl) (fun h => h.same rfl rfl rfl) h hf
  assign h _ _ _ _ := h.same rfl rfl rfl

/-- A claim of class 4 is an orbit's (07, 7.4). -/
theorem Claim.not_lasting {c : Claim} (hc : c.classFits) (h4 : c.cls = 4) (z : Nat) : ¬ lasting z c.claimant := by
  unfold Claim.classFits at hc
  cases hw : c.claimant with
  | alarm => rw [hw] at hc; exact fun _ => absurd (hc.symm.trans h4) (by decide)
  | session i =>
    rw [hw] at hc
    simp [Claim.isVoice, h4] at hc
  | orbit => exact id
  | assist => exact id

theorem State.Held.contentCompletion (h : s.Held lasting) (z : Nat) : (s.contentCompletion z).Held lasting := by
  unfold State.contentCompletion
  dsimp only
  split
  · rename_i hd
    have h1 : (s.modZone z fun zn => { zn with completed := false }).Held lasting :=
      h.modZone (fun x => ⟨x.claims, fun y => absurd (show false = true from y) (by decide), x.preemptions,
        x.saturations⟩) rfl fun _ _ hh => hh
    split
    · rename_i c rest hl
      have ha := (h.zones z).completed hd
      unfold Zone.announcing at ha
      rw [hl] at ha
      exact (State.Held.kept lasting lasting_assist).withdrawClaim h1 z
        (Claim.not_lasting ((h.zones z).claims.classes c (by rw [hl]; exact List.mem_cons_self ..)) (by simpa using ha) z)
    · exact h1
  · exact h

/-- A zone that is not enabled is counted by nobody, so that it may begin anew. -/
theorem State.Held.enable (h : s.Held lasting) (z : Nat) (f : ZoneFields) (hz : s.zoneEnabled z = false) :
    (s.modZone z (Zone.restarted f)).Held lasting := by
  refine ⟨h.zones.modZone fun x => ⟨ClaimsFit.nil, fun y => absurd (show false = true from y) (by decide),
    x.preemptions, x.saturations⟩, h.once, fun y who hk hw => ?_⟩
  have hh := h.held y who hk hw
  refine State.holds_modZone (fun e => ?_) (fun e => ?_) hh
  all_goals
    subst e
    rw [hh.1] at hz
    cases hz

theorem State.Held.disable (h : s.Held lasting) (z : Nat) (f : ZoneFields) : (s.disableZone z f).Held lasting := by
  have fold : ∀ (l : List Claim) (u : State),
      u.Held (fun y who => lasting y who ∧ ¬(y = z ∧ ∃ d ∈ l, who = d.claimant)) →
      (l.foldl (fun t c => t.reportLoss z c) u).Held lasting := by
    intro l
    induction l with
    | nil => exact fun u hu => hu.mono fun y who hk => ⟨hk, fun x => by obtain ⟨-, d, hd, -⟩ := x; cases hd⟩
    | cons c l ih =>
      intro u hu
      refine ih _ (State.Held.reportLoss (hu.mono fun y who hk => ⟨hk.1.1, fun x => ?_⟩))
      obtain ⟨hy, d, hd, hw⟩ := x
      rcases List.mem_cons.mp hd with rfl | hd
      · exact hk.2 ⟨hy, hw⟩
      · exact hk.1.2 ⟨hy, d, hd, hw⟩
  have h1 := fold (s.zones.get z).claims (s.modZone z (Zone.restarted f)) (by
    refine ⟨h.zones.modZone fun x => ⟨ClaimsFit.nil, fun y => absurd (show false = true from y) (by decide),
      x.preemptions, x.saturations⟩, h.once, fun y who hk hw => ?_⟩
    have hh := h.held y who hk.1 hw
    by_cases e : z = y
    · subst e
      obtain ⟨d, hd, he⟩ := holdsClaim_iff.mp hh.2
      exact absurd ⟨rfl, d, hd, he.symm⟩ hk.2
    · exact State.holds_modZone (fun x => absurd x e) (fun x => absurd x e) hh)
  unfold State.disableZone
  exact ite_kept h1 ((State.Held.kept lasting lasting_assist).reevaluateAssist h1 z)

/-! ### The end of everything that is held: a teardown and a RESTART -/

/-- Where nothing is counted, zones in form are all that is needed. -/
theorem State.Held.empty (hz : s.ZonesFit) (hc : ∀ z who, ¬ s.counts z who) : s.Held K := by
  refine ⟨hz, ?_, fun z who _ hw => absurd hw (hc z who)⟩
  rw [List.eq_nil_iff_forall_not_mem.mpr fun z hm => hc z .alarm hm]
  exact List.nodup_nil

/-- What is counted depends on the claimed list and the sessions alone. -/
theorem State.counts_congr (h1 : t.alarm = s.alarm) (h2 : t.paging = s.paging) {z : Nat} {who : Claimant}
    (h : t.counts z who) : s.counts z who := by
  unfold State.counts at *
  rw [h1, h2] at h
  exact h

/-- Work on zones alone leaves what is counted. -/
theorem KeptZones.uncounted (s : State) : KeptZones unrelied (fun t => t.alarm = s.alarm ∧ t.paging = s.paging) :=
  ⟨fun _ => id, fun h _ => h⟩

theorem State.endSession_counts (s : State) (i : Nat) (q : Bool) {z : Nat} {who : Claimant}
    (h : (s.endSession i q).counts z who) : s.counts z who ∧ who ≠ .session i := by
  unfold State.endSession at h
  split at h
  · rename_i hn
    refine ⟨h, fun e => ?_⟩
    subst e
    obtain ⟨x, hx, -⟩ := h
    rw [hn] at hx; cases hx
  · rename_i x _
    have h1 := foldl_kept (P := fun t : State => t.alarm = s.alarm ∧ t.paging = s.paging)
      (g := fun t (e : Nat × HoldStatus) => t.withdrawClaim e.1 (.session i))
      (fun _ e ht => (KeptZones.uncounted s).withdrawClaim ht e.1 id)
      (x.zones.filter fun e => e.2 = HoldStatus.held) ⟨rfl, rfl⟩
    dsimp only at h
    generalize (x.zones.filter fun e => e.2 = HoldStatus.held).foldl
        (fun t e => t.withdrawClaim e.1 (.session i)) s = u at h1 h
    have h2 : (if q = true then u else u.sendTone x.source .ended).alarm = s.alarm ∧
        (if q = true then u else u.sendTone x.source .ended).paging = s.paging := by
      split
      · exact h1
      · have e := (KeptLanes.rest u).sendTone (P := fun t => _) ⟨rfl, rfl, rfl⟩ x.source .ended
        exact ⟨e.2.1.trans h1.1, e.2.2.trans h1.2⟩
    generalize (if q = true then u else u.sendTone x.source .ended) = v at h2 h
    obtain ⟨h3, h4⟩ := (State.freeSession_counts v i).2.2 z who h
    exact ⟨State.counts_congr h2.1 h2.2 h3, h4⟩

theorem State.teardownSessions_counts (s : State) {z : Nat} {who : Claimant} (h : s.teardownSessions.counts z who) :
    s.counts z who ∧ ∀ i, who ≠ .session i := by
  have fold : ∀ (l : List Nat) (u : State), (l.foldl (fun t i => t.endSession i false) u).counts z who →
      u.counts z who ∧ ∀ i ∈ l, who ≠ .session i := by
    intro l
    induction l with
    | nil => exact fun u hu => ⟨hu, fun _ hi => nomatch hi⟩
    | cons i l ih =>
      intro u hu
      obtain ⟨h1, h2⟩ := ih _ hu
      obtain ⟨h3, h4⟩ := State.endSession_counts u i false h1
      refine ⟨h3, fun j hj => ?_⟩
      rcases List.mem_cons.mp hj with rfl | hj
      · exact h4
      · exact h2 j hj
  unfold State.teardownSessions at h
  obtain ⟨h1, h2⟩ := fold _ _ h
  refine ⟨h1, fun i e => ?_⟩
  by_cases hr : 1 ≤ i ∧ i < 1 + 8
  · exact h2 i (List.mem_range'_1.mpr hr) e
  · subst e
    obtain ⟨x, hx, -⟩ := h1
    rw [Tab.get_of_not_mem _ hr] at hx
    cases hx

theorem State.withdrawAlarm_counts (s : State) {z : Nat} {who : Claimant} (h : s.withdrawAlarm.counts z who) :
    s.counts z who ∧ who ≠ .alarm := by
  have h1 := foldl_kept (P := fun t : State => t.alarm = s.alarm ∧ t.paging = s.paging)
    (g := fun t z => t.withdrawClaim z .alarm) (fun _ z ht => (KeptZones.uncounted s).withdrawClaim ht z id)
    s.alarm.claimed ⟨rfl, rfl⟩
  unfold State.withdrawAlarm at h
  dsimp only at h
  generalize s.alarm.claimed.foldl (fun t z => t.withdrawClaim z .alarm) s = u at h1 h
  have h2 := foldl_kept
    (P := fun t : State => t.alarm = (u.modAlarm fun a => { a with claimed := [], scope := none }).alarm ∧ t.paging = u.paging)
    (g := fun t z => t.chooseBeacon z)
    (fun _ z ht => (KeptZones.uncounted (u.modAlarm fun a => { a with claimed := [], scope := none })).chooseBeacon ht z)
    s.alarm.claimed (s := u.modAlarm fun a => { a with claimed := [], scope := none }) ⟨rfl, rfl⟩
  have h3 := State.counts_congr (s := u.modAlarm fun a => { a with claimed := [], scope := none }) h2.1 h2.2 h
  cases who with
  | alarm => exact nomatch (show z ∈ ([] : List Nat) from h3)
  | session i => exact ⟨State.counts_congr (s := s) (t := u) h1.1 h1.2 h3, nofun⟩
  | orbit => exact h3.elim
  | assist => exact h3.elim

/-- The end of a teardown changes zones and orbits alone. -/
theorem State.tornDown_rest (s : State) : s.tornDown.alarm = s.alarm ∧ s.tornDown.paging = s.paging := by
  have zone : ∀ (l : List Nat) (t : State), (l.foldl (fun t z => t.modZone z Zone.silent) t).alarm = t.alarm ∧
      (l.foldl (fun t z => t.modZone z Zone.silent) t).paging = t.paging := by
    intro l
    induction l with
    | nil => exact fun t => ⟨rfl, rfl⟩
    | cons z l ih => exact fun t => ih _
  have orbit : ∀ (l : List Nat) (t : State), (l.foldl (fun t n => t.setOrbit n none) t).alarm = t.alarm ∧
      (l.foldl (fun t n => t.setOrbit n none) t).paging = t.paging := by
    intro l
    induction l with
    | nil => exact fun t => ⟨rfl, rfl⟩
    | cons n l ih => exact fun t => ih _
  unfold State.tornDown
  exact ⟨(orbit _ _).1.trans (zone _ _).1, (orbit _ _).2.trans (zone _ _).2⟩

/-- A teardown leaves nothing counted (07, R138). -/
theorem State.teardown_counts (s : State) (z : Nat) (who : Claimant) : ¬ s.teardown.counts z who := by
  intro h
  unfold State.teardown at h
  generalize (s.modMaint fun m => { m with mode := .transparent }).teardownHunt = a at h
  generalize hb : a.teardownSessions = b at h
  generalize hw : b.withdrawAlarm = w at h
  obtain ⟨zs, hz⟩ := State.reevaluateAll_zones w
  rw [hz] at h
  have h1 := State.tornDown_rest { w with zones := zs }
  have h2 : w.counts z who := State.counts_congr h1.1 h1.2 h
  obtain ⟨h3, h4⟩ := State.withdrawAlarm_counts b (hw ▸ h2)
  obtain ⟨-, h5⟩ := State.teardownSessions_counts a (hb ▸ h3)
  cases who with
  | alarm => exact h4 rfl
  | session i => exact h5 i rfl
  | orbit => exact h2.elim
  | assist => exact h2.elim

theorem State.Held.keptAll : KeptAll (State.Held lasting) where
  toKept := State.Held.keptMoves
  lines h _ := h.same rfl rfl rfl
  audio h hf hc hx := h.modZone hx (by rw [hf]) fun _ _ hh => by rw [hc]; exact hh
  contentCompletion h z := h.contentCompletion z
  ring h n c _ _ := State.Held.claims.ringFree (fun h _ => h.same rfl rfl rfl) (fun h _ => h.same rfl rfl rfl)
    (fun h _ => h.same rfl rfl rfl) h n c
  highway h := h.same rfl rfl rfl
  alarmLine _ h := h.same rfl rfl rfl
  countdownOff h := h.same rfl rfl rfl
  maint h _ _ := h.same rfl rfl rfl
  stationAny h _ _ _ := h.same rfl rfl rfl
  code h := h.same rfl rfl rfl
  zoneAny h hx he hc := h.modZone hx he fun _ _ hh => by rw [hc]; exact hh
  enable h z f hz := h.enable z f hz
  disable h z f := h.disable z f
  huntAny h _ _ _ := h.same rfl rfl rfl
  pickupAny h _ _ := h.same rfl rfl rfl
  pagingAny h _ hs := h.same rfl rfl hs
  prompts h _ := h.same rfl rfl rfl
  teardown h := .empty (State.ZonesFit.kept.kept.teardown h.zones) (State.teardown_counts _)
  restart {s} h := .empty (State.ZonesFit.kept.restart h.zones) fun z who hw => by
    cases who with
    | alarm => exact nomatch (show z ∈ ([] : List Nat) from hw)
    | session i =>
      obtain ⟨x, hx, -⟩ := hw
      have := Tab.forall_all (lo := 1) (n := 8) (p := fun o : Option Session => o = none) (a := none) rfl rfl i
      rw [show s.restartBlocks.paging.sessions.get i = (Tab.all 1 8 none).get i from rfl, this] at hx
      cases hx
    | orbit => exact hw.elim
    | assist => exact hw.elim

end Sys2Proof.Machine
end

