-- ==== Sys2Proof/Laws/KeptOrbits.lean ====
section
/-! SUPPORT. An occupied orbit names the QUEUED record that holds it (04, R65; 06, R105): every update keeps it so, over
hunt tables in form. -/

namespace Sys2Proof.Machine

variable {s t : State}

/-- The hunt tables in form, and each occupied orbit with its record. -/
structure State.OrbitsStand (s : State) : Prop where
  hunt : s.hunt.Fits
  orbits : s.OrbitsFit

theorem State.OrbitsStand.keep (h : s.OrbitsStand) (h1 : t.hunt = s.hunt) (h2 : t.orbits = s.orbits) : t.OrbitsStand :=
  ⟨h1 ▸ h.hunt, by unfold State.OrbitsFit; rw [h1, h2]; exact h.orbits⟩

/-- The tables change, and the holders of the orbits that stay occupied stay. -/
theorem State.OrbitsStand.change (h : s.OrbitsStand) (hf : HuntChange s.hunt t.hunt)
    (ho : ∀ n o, t.orbits.get n = some o → ∃ p, s.orbits.get n = some p ∧ p.call = o.call ∧ p.group = o.group)
    (hr : ∀ n, t.orbits.get n ≠ none → ∀ r ∈ s.hunt.records, r.orbit = some n → r.staysIn t.hunt.records) :
    t.OrbitsStand := by
  refine ⟨hf.fits h.hunt, fun n o hn => ?_⟩
  obtain ⟨p, hp, hc, hg⟩ := ho n o hn
  obtain ⟨r, hm, h1, h2, h3⟩ := h.orbits n p hp
  obtain ⟨q, hq, q1, q2, q3⟩ := hr n (by rw [hn]; simp) r hm h3
  exact ⟨q, hq, q1.trans (h1.trans hc), q2.trans (h2.trans hg), q3.trans h3⟩

theorem State.OrbitsStand.modHunt (h : s.OrbitsStand) {f : Hunt → Hunt} (hf : HuntMove s.hunt (f s.hunt)) :
    (s.modHunt f).OrbitsStand :=
  h.change (t := s.modHunt f) hf.toHuntChange (fun _ o hn => ⟨o, hn, rfl, rfl⟩)
    fun _ _ r hm hr => hf.orbits h.hunt r hm (by rw [hr]; simp)

/-- The records stay as they are. -/
theorem State.OrbitsStand.sameRecords (h : s.OrbitsStand) {f : Hunt → Hunt} (hf : s.hunt.Fits → (f s.hunt).Fits)
    (hr : (f s.hunt).records = s.hunt.records) : (s.modHunt f).OrbitsStand := by
  refine ⟨hf h.hunt, ?_⟩
  unfold State.OrbitsFit
  show ∀ n o, s.orbits.get n = some o → ∃ r ∈ (f s.hunt).records, _
  rw [hr]
  exact h.orbits

theorem State.OrbitsStand.raise (h : s.OrbitsStand) (n : Nat) : (s.raiseAvailable n).OrbitsStand :=
  h.modHunt (.keepRecords (.raise n) rfl)

theorem State.OrbitsStand.claims : FreeClaims State.OrbitsStand where
  assist _ := id
  zone h _ := h.keep rfl rfl
  lane h _ := h.keep rfl rfl
  flag _ h := h.keep rfl rfl
  source _ h := h.keep rfl rfl
  paging h _ := h.keep rfl rfl
  alarm h _ := h.keep rfl rfl

/-- The withdrawal of an orbit's claims changes zones alone. -/
theorem State.withdrawOrbit_zones (s : State) (n : Nat) (l : List Nat) :
    ∃ zs, l.foldl (fun t z => t.withdrawClaim z (.orbit n)) s = { s with zones := zs } :=
  foldl_kept (P := fun t => ∃ zs, t = { s with zones := zs })
    (fun _ z ht => (KeptZones.zonesOnly s).withdrawClaim ht z id) l ⟨s.zones, rfl⟩

/-- An orbit is released with what its record becomes. -/
theorem State.OrbitsStand.release (h : s.OrbitsStand) {f : Hunt → Hunt} {c : CallRef} {r : HuntRecord} {n : Nat}
    (hr : s.record c = some r) (hn : r.orbit = some n) (hf : HuntChange s.hunt (f s.hunt))
    (hs : ∀ q ∈ s.hunt.records, q.call ≠ c → q.staysIn (f s.hunt).records) :
    ((zoneNumbers.foldl (fun t z => t.withdrawClaim z (.orbit n)) (s.modHunt f)).setOrbit n none).OrbitsStand := by
  obtain ⟨zs, hz⟩ := State.withdrawOrbit_zones (s.modHunt f) n zoneNumbers
  rw [hz]
  obtain ⟨hrc, hrm⟩ := record_call hr
  refine h.change (t := State.setOrbit n none { s.modHunt f with zones := zs }) hf (fun m o hm => ?_)
    fun m hm q hq ho => ?_
  · have hm : (s.orbits.put n none).get m = some o := hm
    rw [Tab.get_put] at hm
    split at hm
    · cases hm
    · exact ⟨o, hm, rfl, rfl⟩
  · have hm : (s.orbits.put n none).get m ≠ none := hm
    refine hs q hq fun he => hm ?_
    have : m = n := by
      have := record_unique h.hunt.calls hq hrm (he.trans hrc.symm)
      rw [this, hn] at ho
      exact (Option.some.inj ho).symm
    subst this
    rw [Tab.get_put]
    split
    · rfl
    · rename_i hx
      exact Tab.get_of_not_mem _ fun y => hx ⟨rfl, y⟩

theorem HuntRecord.withOrbit_of_queued {r : HuntRecord} (h : r.isQueued = true) (n : Nat) :
    (r.withOrbit n).orbit = some n ∧ (r.withOrbit n).group = r.group := by
  cases hs : r.status <;> simp [HuntRecord.isQueued, HuntRecord.withOrbit, HuntRecord.orbit, hs] at h ⊢

/-- A queued record that holds no orbit is given one. -/
theorem State.OrbitsStand.assign (h : s.OrbitsStand) {r : HuntRecord} {a b : Nat} (n : Nat) (hm : r ∈ s.hunt.records)
    (hq : r.isQueued = true) (ho : s.hunt.Fits → r.orbit = none) :
    ((s.setOrbit n (some { call := r.call, group := r.group, assigned := a, nextChime := b })).modRecord r.call
      (HuntRecord.withOrbit n)).OrbitsStand := by
  have hw := HuntRecord.withOrbit_of_queued hq n
  refine ⟨(HuntChange.withOrbit r.call n).fits h.hunt, fun m o hmo => ?_⟩
  have hmo : (s.orbits.put n (some ⟨r.call, r.group, a, b⟩)).get m = some o := hmo
  show ∃ q ∈ s.hunt.records.map fun q => if q.call = r.call then q.withOrbit n else q, _
  rw [Tab.get_put] at hmo
  split at hmo
  · rename_i hx
    cases hmo
    refine ⟨r.withOrbit n, List.mem_map.mpr ⟨r, hm, if_pos rfl⟩, HuntRecord.withOrbit_call n r, hw.2, ?_⟩
    rw [← hx.1]
    exact hw.1
  · obtain ⟨q, hqm, h1, h2, h3⟩ := h.orbits m o hmo
    refine ⟨q, List.mem_map.mpr ⟨q, hqm, if_neg fun he => ?_⟩, h1, h2, h3⟩
    rw [record_unique h.hunt.calls hqm hm he, ho h.hunt] at h3
    cases h3

theorem State.OrbitsStand.keptMoves : Kept State.OrbitsStand where
  toKeptClaims := State.OrbitsStand.claims.kept
  station h _ := h.keep rfl rfl
  raiseAvailable h n := h.raise n
  pickup h _ := h.keep rfl rfl
  leave h n _ hf _ := State.OrbitsStand.claims.kept.leaveFree (fun h _ => h.keep rfl rfl) (fun h n => h.raise n)
    (fun h _ => h.keep rfl rfl) h n hf
  hunt h hf := h.modHunt hf
  orbit {s n o x} h hn := by
    refine h.change (t := s.setOrbit n (some { o with nextChime := x })) ⟨rfl, rfl, rfl, id⟩ (fun m p hm => ?_)
      fun _ _ r hr _ => ⟨r, hr, rfl, rfl, rfl⟩
    have hm : (s.orbits.put n _).get m = some p := hm
    rw [Tab.get_put] at hm
    split at hm
    · rename_i e
      cases hm
      exact ⟨o, e.1 ▸ hn, rfl, rfl⟩
    · exact ⟨p, hm, rfl, rfl⟩
  release h hr hn hf hs := h.release hr hn hf hs
  assign h n hm hq ho := h.assign n hm hq ho

/-- No orbit is occupied. -/
theorem State.OrbitsStand.empty (h : s.hunt.Fits) (hn : ∀ n, s.orbits.get n = none) : s.OrbitsStand :=
  ⟨h, fun n o ho => by rw [hn n] at ho; cases ho⟩

/-- After a teardown no orbit is occupied (07, R138). -/
theorem State.tornDown_orbits (s : State) (n : Nat) : s.tornDown.orbits.get n = none := by
  have zone : ∀ (l : List Nat) (t : State), (l.foldl (fun t z => t.modZone z Zone.silent) t).orbits = t.orbits := by
    intro l
    induction l with
    | nil => intro t; rfl
    | cons z l ih => intro t; exact ih _
  have orbit : ∀ (l : List Nat) (t : State), t.orbits.get n = none ∨ n ∈ l →
      (l.foldl (fun t n => t.setOrbit n none) t).orbits.get n = none := by
    intro l
    induction l with
    | nil => intro t h; exact h.resolve_right (by simp)
    | cons m l ih =>
      intro t h
      refine ih _ ?_
      show (t.orbits.put m none).get n = none ∨ _
      rw [Tab.get_put]
      rcases h with h | h
      · left; split <;> first | rfl | exact h
      · rcases List.mem_cons.mp h with rfl | h
        · left
          split
          · rfl
          · rename_i hx
            exact Tab.get_of_not_mem _ fun y => hx ⟨rfl, y⟩
        · exact .inr h
  unfold State.tornDown
  refine orbit _ _ ?_
  by_cases h : 1 ≤ n ∧ n < 1 + 9
  · exact .inr (List.mem_range'_1.mpr h)
  · exact .inl (Tab.get_of_not_mem _ h)

theorem State.OrbitsStand.kept : KeptAll State.OrbitsStand where
  toKept := State.OrbitsStand.keptMoves
  lines h _ := h.keep rfl rfl
  audio h _ _ _ := h.keep rfl rfl
  contentCompletion h z := State.OrbitsStand.claims.contentCompletion (fun h => h.keep rfl rfl) h z
  ring h n c _ _ := State.OrbitsStand.claims.kept.ringFree (fun h _ => h.keep rfl rfl) (fun h n => h.raise n)
    (fun h _ => h.keep rfl rfl) h n c
  highway h := h.keep rfl rfl
  alarmLine _ h := h.keep rfl rfl
  countdownOff h := h.sameRecords
    (fun x => ⟨x.records, x.calls, x.awaiting, x.closed, x.closedOnce, x.counters, x.raised⟩) rfl
  maint h _ _ := h.keep rfl rfl
  stationAny h _ _ _ := h.keep rfl rfl
  code h := h.keep rfl rfl
  zoneAny h _ _ _ := h.keep rfl rfl
  enable h _ _ _ := h.keep rfl rfl
  disable h z f := State.OrbitsStand.claims.disableZone (fun h _ => h.keep rfl rfl) h z f
  huntAny h _ hf hr := h.sameRecords hf hr
  pickupAny h _ _ := h.keep rfl rfl
  pagingAny h _ _ := h.keep rfl rfl
  prompts h _ := h.keep rfl rfl
  teardown h := .empty (HuntFits.kept.kept.teardown h.hunt) (State.tornDown_orbits _)
  restart h := .empty (HuntFits.kept.restart h.hunt) (Tab.forall_all (p := fun o : Option Orbit => o = none) rfl rfl)

/-- The staged bank's becoming the active one leaves records and orbits (03, R57). -/
theorem State.OrbitsStand.commit : CommitKept State.OrbitsStand := fun h => h.sameRecords
  (fun x => ⟨x.records, x.calls, x.awaiting, x.closed, x.closedOnce, x.counters, x.raised⟩) rfl

end Sys2Proof.Machine
end

