-- ==== Sys2Proof/Laws/KeptRinging.lean ====
section
/-! SUPPORT. The ringing set follows the lines (05, R91): every update keeps it so. -/

namespace Sys2Proof.Machine

variable {s t : State}

theorem State.RingingFits.keep (h : s.RingingFits) (h1 : t.pickup.ringing = s.pickup.ringing)
    (h2 : t.stations = s.stations) : t.RingingFits :=
  ⟨h1 ▸ h.distinct, h1 ▸ h2 ▸ h.entries, h1 ▸ h2 ▸ h.entered⟩

/-- A station changes and neither starts nor stops ringing. -/
theorem State.RingingFits.modStation (h : s.RingingFits) {n : Nat} {f : Station → Station}
    (hl : (f (s.stations.get n)).line = .ringing ↔ (s.stations.get n).line = .ringing)
    (hc : (s.stations.get n).line = .ringing → (f (s.stations.get n)).call = (s.stations.get n).call) :
    (s.modStation n f).RingingFits := by
  refine ⟨h.distinct, fun e he => ?_, fun m hm hr => ?_⟩
  · obtain ⟨h1, h2, h3⟩ := h.entries e he
    refine ⟨h1, ?_⟩
    show ((s.stations.put n _).get e.station).line = _ ∧ ((s.stations.put n _).get e.station).call = _
    rw [Tab.get_put]
    split
    · rename_i hn
      rw [hn.1] at hl hc
      rw [hn.1]
      exact ⟨hl.mpr h2, (hc h2).trans h3⟩
    · exact ⟨h2, h3⟩
  · have hr : ((s.stations.put n (f (s.stations.get n))).get m).line = .ringing := hr
    rw [Tab.get_put] at hr
    refine h.entered m hm ?_
    split at hr
    · rename_i hn
      rw [← hn.1]
      exact hl.mp hr
    · exact hr

/-- A station takes up another line state than RINGING, and its entry leaves the set. -/
theorem State.RingingFits.leave (h : s.RingingFits) {n : Nat} {f : Station → Station}
    (hl : (f (s.stations.get n)).line ≠ .ringing)
    (h1 : t.pickup.ringing = s.pickup.ringing.filter fun e => e.station ≠ n)
    (h2 : t.stations = s.stations.put n (f (s.stations.get n))) : t.RingingFits := by
  refine ⟨?_, fun e he => ?_, fun m hm hr => ?_⟩
  · rw [h1]
    exact h.distinct.sublist (List.filter_sublist.map _)
  · rw [h1] at he
    obtain ⟨he, hn⟩ := List.mem_filter.mp he
    have hn : n ≠ e.station := fun x => by simp [x] at hn
    rw [h2, Tab.get_put_ne _ _ hn]
    exact h.entries e he
  · rw [h2, Tab.get_put] at hr
    split at hr
    · exact absurd hr hl
    · rename_i hn
      have hne : m ≠ n := fun x => hn ⟨x.symm, by subst x; exact ⟨Nat.zero_le _, by have := hm; unfold Config.stations at this; omega⟩⟩
      obtain ⟨e, he, hs⟩ := h.entered m hm hr
      exact ⟨e, h1 ▸ List.mem_filter.mpr ⟨he, by simpa [hs] using hne⟩, hs⟩

/-- A station starts to ring, and its entry joins the set. -/
theorem State.RingingFits.ring (h : s.RingingFits) {n : Nat} {c : CallRef} {x : Ringing} {f : Station → Station}
    (hn : n < Config.stations) (hl : (s.stations.get n).line ≠ .ringing)
    (hf : (f (s.stations.get n)).line = .ringing) (hc : (f (s.stations.get n)).call = some c)
    (hx : x.station = n ∧ x.call = c)
    (h1 : t.pickup.ringing = s.pickup.ringing ++ [x])
    (h2 : t.stations = s.stations.put n (f (s.stations.get n))) : t.RingingFits := by
  have hr : 0 ≤ n ∧ n < 0 + 384 := ⟨Nat.zero_le _, by have := hn; unfold Config.stations at this; omega⟩
  have ho : ∀ e ∈ s.pickup.ringing, n ≠ e.station := fun e he x => hl (x ▸ (h.entries e he).2.1)
  refine ⟨?_, fun e he => ?_, fun m hm hr2 => ?_⟩
  · rw [h1, List.map_append, List.nodup_append]
    refine ⟨h.distinct, by simp, fun a ha b hb => ?_⟩
    obtain ⟨e, he, rfl⟩ := List.mem_map.mp ha
    simp only [List.map_cons, List.map_nil, List.mem_singleton] at hb
    rw [hb, hx.1]
    exact (ho e he).symm
  · rw [h1] at he
    rcases List.mem_append.mp he with he | he
    · rw [h2, Tab.get_put_ne _ _ (ho e he)]
      exact h.entries e he
    · rw [List.mem_singleton.mp he, hx.1, hx.2, h2, Tab.get_put_same _ _ hr]
      exact ⟨hn, hf, hc⟩
  · rw [h1]
    by_cases hmn : n = m
    · exact ⟨x, List.mem_append_right _ (List.mem_singleton.mpr rfl), hx.1.trans hmn⟩
    · rw [h2, Tab.get_put_ne _ _ hmn] at hr2
      obtain ⟨e, he, hs⟩ := h.entered m hm hr2
      exact ⟨e, List.mem_append_left _ he, hs⟩

/-- A change of a station touches the stations and the raised events alone. -/
theorem State.changeStation_hunt (s : State) (n : Nat) (f : Station → Station) :
    (s.changeStation n f).stations = s.stations.put n (f (s.stations.get n)) ∧
    (s.changeStation n f).pickup = s.pickup ∧ (s.changeStation n f).hunt.records = s.hunt.records := by
  unfold State.changeStation
  dsimp only
  split <;> exact ⟨rfl, rfl, rfl⟩

/-- What leaves the set as a station leaves RINGING. -/
theorem State.ringingRemove_eq (s : State) (n : Nat) :
    (s.ringingRemove n).stations = s.stations ∧
    (s.ringingRemove n).pickup.ringing = s.pickup.ringing.filter fun e => e.station ≠ n := by
  unfold State.ringingRemove
  split
  · obtain ⟨zs, h⟩ := State.reevaluateAll_zones
      (s.modPickup fun p => { p with ringing := p.ringing.filter fun e => e.station ≠ n })
    rw [h]
    exact ⟨rfl, rfl⟩
  · rename_i h
    refine ⟨rfl, (List.filter_eq_self.mpr fun e he => ?_).symm⟩
    simpa using fun x => h (List.any_eq_true.mpr ⟨e, he, by simpa using x⟩)

theorem State.RingingFits.claims : FreeClaims State.RingingFits where
  assist _ := id
  zone h _ := h.keep rfl rfl
  lane h _ := h.keep rfl rfl
  flag _ h := h.keep rfl rfl
  source _ h := h.modStation Iff.rfl fun _ => rfl
  paging h _ := h.keep rfl rfl
  alarm h _ := h.keep rfl rfl

theorem State.RingingFits.keptMoves : Kept State.RingingFits where
  toKeptClaims := State.RingingFits.claims.kept
  station h hf := h.modStation hf.ringing hf.call
  raiseAvailable h _ := h.keep rfl rfl
  pickup h hf := h.keep hf.ringing rfl
  leave {s} h n f _ hl :=
    have e := State.changeStation_hunt s n f
    have r := State.ringingRemove_eq (s.changeStation n f) n
    h.leave hl (r.2.trans (by rw [e.2.1])) (r.1.trans e.1)
  hunt h _ := h.keep rfl rfl
  orbit h _ := h.keep rfl rfl
  release h _ _ hf _ := State.RingingFits.claims.kept.releaseFree (fun h _ => h.keep rfl rfl) (fun h => h.keep rfl rfl) h hf
  assign h _ _ _ _ := h.keep rfl rfl

/-- The ringing set of a part in which no station rings. -/
theorem State.RingingFits.empty (h1 : s.pickup.ringing = []) (h2 : ∀ n, (s.stations.get n).line ≠ .ringing) :
    s.RingingFits :=
  ⟨by rw [h1]; exact List.nodup_nil, by rw [h1]; simp, fun n _ hr => absurd hr (h2 n)⟩

theorem State.RingingFits.kept : KeptAll State.RingingFits where
  toKept := State.RingingFits.keptMoves
  lines h _ := h.keep rfl rfl
  audio h _ _ _ := h.keep rfl rfl
  contentCompletion h z := State.RingingFits.claims.contentCompletion (fun h => h.keep rfl rfl) h z
  ring {s} h n c hn hl := by
    have e := State.changeStation_hunt s n fun st => { st with line := .ringing, call := some c }
    unfold State.ringingAdd
    generalize s.changeStation n (fun st => { st with line := .ringing, call := some c }) = u at e ⊢
    obtain ⟨zs, hz⟩ := State.reevaluateAll_zones (u.modPickup fun p =>
      { p with ringing := p.ringing ++ [{ station := n, call := c, start := u.clock, group := (u.record c).map (·.group) }] })
    rw [hz]
    exact h.ring (f := fun st => { st with line := .ringing, call := some c }) hn hl rfl rfl ⟨rfl, rfl⟩
      (congrArg (· ++ _) (congrArg Pickup.ringing e.2.1)) e.1
  highway h := h.keep rfl rfl
  alarmLine _ h := h.keep rfl rfl
  countdownOff h := h.keep rfl rfl
  maint h _ _ := h.keep rfl rfl
  stationAny h _ hl hc := h.modStation (by rw [hl]) fun _ => hc
  code h := h.keep rfl rfl
  zoneAny h _ _ _ := h.keep rfl rfl
  enable h _ _ _ := h.keep rfl rfl
  disable h z f := State.RingingFits.claims.disableZone (fun h _ => h.keep rfl rfl) h z f
  huntAny h _ _ _ := h.keep rfl rfl
  pickupAny h _ hr := h.keep hr rfl
  pagingAny h _ _ := h.keep rfl rfl
  prompts h _ := h.keep rfl rfl
  teardown h := State.RingingFits.keptMoves.teardownFree (fun h => h.keep rfl rfl) (fun h _ => h.keep rfl rfl)
    (fun h _ => h.keep rfl rfl) (fun h => h.keep rfl rfl) h
  restart {s} _ := by
    refine .empty rfl (Tab.forall_map (p := fun st : Station => st.line ≠ .ringing) (fun n => ?_) nofun)
    unfold Station.restarted
    dsimp only
    split <;> nofun

end Sys2Proof.Machine
end

