-- ==== Sys2Proof/Laws/KeptCommands.lean ====
section
/-! SUPPORT. The five parts of a good state (`State.Fits`), each kept by every command but the resets', and whole by the
begin of a reset and at the values of its end. -/

namespace Sys2Proof.Machine

variable {P : State → Prop} {s : State}

/-- A property that every command but the resets' keeps. -/
structure KeptCommands (P : State → Prop) : Prop where
  all : KeptAll P
  commit : CommitKept P
  clear : ClearKept P
  slot : ∀ {s : State} (d : Dir), P s → P (s.outgoingSlot d)

theorem KeptCommands.exec (k : KeptCommands P) {i : Instr} {t : State} (h : P s) (hi : Instr.isReset i = false)
    (he : Machine.exec i s = .next t) : P t :=
  k.all.exec h hi (fun _ => k.commit) (fun d _ => k.slot d h) (fun _ => k.clear) (fun _ => k.commit) he

/-- An outgoing slot takes a cell off its queue (01, R17). -/
theorem KeptEvents.outgoingSlot (k : KeptEvents P)
    (hl : ∀ {t : State} {f : Lane → Lane}, P t → (t.lane.Fits → (f t.lane).Fits) → P (t.modLane f)) (d : Dir) (h : P s) :
    P (s.outgoingSlot d) := by
  unfold State.outgoingSlot
  refine ite_kept (hl (k.endBridge h d) fun x => ?_) h
  have e : (s.endBridge d).lane.queue d = s.lane.queue d := by cases d <;> rfl
  rw [← e]
  generalize (s.endBridge d).lane = l at x ⊢
  cases d
  · exact ⟨le_trans (by simp [Lane.setOut, Lane.setQueue, Lane.queue]) x.downQueue, x.upQueue, x.own, x.counters⟩
  · exact ⟨x.downQueue, le_trans (by simp [Lane.setOut, Lane.setQueue, Lane.queue]) x.upQueue, x.own, x.counters⟩

/-! ### The parts -/

theorem State.PathFits.commands : KeptCommands State.PathFits where
  all := State.PathFits.kept.kept
  commit h := h.keep rfl rfl rfl
  clear := State.PathFits.clear
  slot d h := State.PathFits.kept.kept.outgoingSlot (fun h hf => ⟨hf h.lane, h.maint, h.prompts⟩) d h

theorem State.CallsFit.commands : KeptCommands State.CallsFit where
  all := State.CallsFit.kept.kept
  commit := State.CallsFit.commit
  clear _ h _ := h.keep rfl rfl rfl rfl
  slot d h := State.CallsFit.kept.kept.outgoingSlot (fun h _ => h.keep rfl rfl rfl rfl) d h

theorem State.RingingFits.commands : KeptCommands State.RingingFits where
  all := State.RingingFits.kept
  commit h := h.keep rfl rfl
  clear _ h _ := h.keep rfl rfl
  slot d h := State.RingingFits.kept.outgoingSlot (fun h _ => h.keep rfl rfl) d h

theorem State.OrbitsStand.commands : KeptCommands State.OrbitsStand where
  all := State.OrbitsStand.kept
  commit := State.OrbitsStand.commit
  clear _ h _ := h.keep rfl rfl
  slot d h := State.OrbitsStand.kept.outgoingSlot (fun h _ => h.keep rfl rfl) d h

theorem State.Held.commands : KeptCommands (State.Held lasting) where
  all := State.Held.keptAll
  commit h := h.same rfl rfl rfl
  clear _ h _ := h.same rfl rfl rfl
  slot d h := State.Held.keptAll.outgoingSlot (fun h _ => h.same rfl rfl rfl) d h

/-- A good state is one that is good in its five parts. -/
theorem State.fits_iff : s.Fits ↔ s.PathFits ∧ s.CallsFit ∧ s.RingingFits ∧ s.OrbitsStand ∧ s.Held lasting :=
  ⟨fun h => ⟨h.path, h.calls, h.ringing, ⟨h.calls.hunt, h.orbits⟩, h.claims.toHeld h.zones⟩,
   fun h => ⟨h.1, h.2.1, h.2.2.2.2.zones, h.2.2.1, h.2.2.2.1.orbits, h.2.2.2.2.toClaimsHeld⟩⟩

/-! ### Resets (11, R186; 01, R20, R21) -/

/-- The begin of a reset changes a zone's beacon alone. -/
theorem State.holdReset_zones (s : State) (p : Phase) (z : Nat) :
    ((s.holdReset p).zones.get z).claims = (s.zones.get z).claims ∧
    ((s.holdReset p).zones.get z).fields = (s.zones.get z).fields ∧
    ((s.zones.get z).Fits → ((s.holdReset p).zones.get z).Fits) := by
  show ((s.zones.map fun zn : Zone => { zn with beacon := { zn.beacon with line := false } }).get z).claims = _ ∧
    ((s.zones.map fun zn : Zone => { zn with beacon := { zn.beacon with line := false } }).get z).fields = _ ∧
    (_ → ((s.zones.map fun zn : Zone => { zn with beacon := { zn.beacon with line := false } }).get z).Fits)
  by_cases h : 1 ≤ z ∧ z < 1 + 24
  · rw [Tab.get_map _ _ h]
    exact ⟨rfl, rfl, fun y => ⟨y.claims, y.completed, y.preemptions, y.saturations⟩⟩
  · rw [Tab.get_of_not_mem _ h, Tab.get_of_not_mem _ h]
    exact ⟨rfl, rfl, id⟩

/-- The begin of a reset leaves a good state good. -/
theorem State.holdReset_fits (h : s.Fits) (p : Phase) : (s.holdReset p).Fits := by
  have e := s.holdReset_zones p
  have hh : ∀ z w, s.holds z w → (s.holdReset p).holds z w := by
    intro z w hw
    unfold State.holds State.zoneEnabled at *
    rw [(e z).1, (e z).2.1]
    exact hw
  refine ⟨⟨⟨Nat.zero_le _, Nat.zero_le _, h.path.lane.own, h.path.lane.counters⟩, h.path.maint, h.path.prompts⟩,
    h.calls.keep rfl rfl rfl rfl, fun z => (e z).2.2 (h.zones z), h.ringing.keep rfl rfl, h.orbits, h.claims.once,
    fun z hz => hh z _ (h.claims.alarm z hz), fun i x z hx hz => hh z _ (h.claims.sessions i x z hx hz)⟩

/-- Every block at its reset values is good. -/
theorem State.blocksReset_fits (s : State) (c : ResetCause) (straps : BitVec 4) {pr : Prompts} (hp : pr.Fits) :
    (s.blocksReset c straps pr).Fits := by
  have z0 : CounterFits 0 := Nat.zero_le _
  refine ⟨⟨⟨Nat.zero_le _, Nat.zero_le _, rfl, ⟨z0, z0, z0, z0⟩⟩,
      ⟨show (0#16 : BitVec 16).getLsbD 0 = false by decide, show (0x7FFE#16 : BitVec 16).getLsbD 0 = false by decide⟩, hp⟩,
    ⟨⟨Nat.zero_le _, List.nodup_nil, (fun _ hr => nomatch hr), Nat.zero_le _, List.nodup_nil, ?_, List.Pairwise.nil,
      List.Pairwise.nil⟩, ?_, ⟨z0, z0⟩, z0⟩, ?_, .empty rfl ?_, ?_, ⟨List.nodup_nil, (fun _ hz => nomatch hz), ?_⟩⟩
  · exact Tab.forall_all (p := fun y : GroupLive => y.counters.Fits) ⟨z0, z0, z0, z0, z0, z0, z0⟩
      ⟨z0, z0, z0, z0, z0, z0, z0⟩
  · exact Tab.forall_all (p := Station.Fits) (Nat.zero_le _) (Nat.zero_le _)
  · exact Tab.forall_all (p := Zone.Fits) Zone.reset_fits Zone.default_fits
  · exact Tab.forall_all (p := fun x : Station => x.line ≠ .ringing) nofun nofun
  · intro n o ho
    have := Tab.forall_all (lo := 1) (n := 9) (p := fun o : Option Orbit => o = none) (a := none) rfl rfl n
    rw [show (s.blocksReset c straps pr).orbits.get n = (Tab.all 1 9 none).get n from rfl, this] at ho
    cases ho
  · intro i x z hx
    have := Tab.forall_all (lo := 1) (n := 8) (p := fun o : Option Session => o = none) (a := none) rfl rfl i
    rw [show (s.blocksReset c straps pr).paging.sessions.get i = (Tab.all 1 8 none).get i from rfl, this] at hx
    cases hx

/-- The queue of waiting commands and the clock are none of the blocks'. -/
theorem State.Fits.elsewhere {t : State} (h : s.Fits)
    (ht : t = { s with pending := t.pending, clock := t.clock }) : t.Fits := by
  rw [ht]
  exact ⟨h.path.keep rfl rfl rfl, h.calls.keep rfl rfl rfl rfl, h.zones, h.ringing.keep rfl rfl, h.orbits,
    h.claims.once, h.claims.alarm, h.claims.sessions⟩

end Sys2Proof.Machine
end

