-- ==== Sys2Proof/Tests/Slice0.lean ====
section
/-! SUPPORT. Tests: ill-formed commands refused; cells, samples, levels and requests against the manual's worked cases; and
for every obligation with hypotheses a state and operands that meet them, at the ends of their ranges. -/

set_option Elab.async false

namespace Sys2Proof.Tests

open Sys2Proof Sys2Proof.Machine

/-- The part after a command; the state itself where the command does not complete. -/
def after (c : Instr) (s : State) : State :=
  match exec c s with
  | .next t => t
  | .fault _ => s
  | .refused _ => s

/-! ### Well-formedness: each check refuses an ill-formed command -/

/-- A cell longer than its slot; bytes of the wrong kind under the rows for bad and unknown cells (01, R1, R6, R7). -/
theorem test_wf_refuses_bytes :
    ([.damagedCell .down ⟨(List.replicate 65 0#8), 0⟩, .damagedCell .up ⟨[0#8], 8⟩, .damagedCell .up ⟨[], 0⟩, .malformedCell .up [0x44#8, 0#8, 0#8, 0#8],
      .malformedCell .up (List.replicate 65 0#8), .unknownKindCell .down [0x04#8],
      .unknownKindCell .up (List.replicate 65 0#8), .resetBridgeSlot (.lane .up (some ⟨List.replicate 65 0#8, none⟩)),
      .resetBridgeSlot (.lane .up (some ⟨[0#8], some 8⟩))] : List Instr).all (fun i => !i.wf) = true := by decide +kernel

/-- A cell of each kind that has a form of its own to break: an absent or overlong DN, a group outside 1..32, call
reference 0, a symbol that is none, contents too long (01, R7). -/
theorem test_wf_refuses_cells :
    ([.pilotArrival 5 [] [] .internal none, .pilotArrival 0 [1] [] .internal none, .offer 7 5 [10] [] .internal none,
      .offer 7 5 [1] [1, 2, 3, 4, 5, 6, 7, 8, 9] .internal none, .offer 7 5 [1] [] .internal (some 33),
      .withdraw 7 0 .taken, .abandonment 0 .taken, .callEnd 7 0, .ringStarted 7 0, .dialled 7 0 [],
      .dialled 7 0 [12], .dialled 7 0 (List.replicate 17 1), .answered 7 0 .direct, .refused 7 0 .busy,
      .divert 7 5 [], .divert 7 0 [1], .maintReply 7 0 1 .done 1 1 (List.replicate 57 0),
      .maintPass 7 0 1 1 (List.replicate 59 0)] : List Instr).all (fun i => !i.wf) = true := by decide +kernel

/-- A request too long for its cell, or of another row's kind (12, R195, R197). -/
theorem test_wf_refuses_requests :
    ([.readEntry 1 (List.replicate 59 0), .restart 1 (List.replicate 59 0), .promptWrite 1 (List.replicate 59 0),
      .setModeTransparent 1 [1], .setModeEngaged 1 [0], .stationServiceOut 1 [0, 7, 1], .stationServiceIn 1 [0, 7, 0],
      .unknownRequest 1 1 [], .unknownRequest 1 23 []] : List Instr).all (fun i => !i.wf) = true := by decide +kernel

/-- A number outside the range of what it names; a frame that has not 512 slots. -/
theorem test_wf_refuses_numbers :
    ([.wrapUpExpiry 384, .memberAvailable 384, .noAnswerExpiry 0, .maximumWaitExpiry 0, .announcePointExpiry 0, .chime 0,
      .chime 10, .sessionDeadline 0, .sessionDeadline 9, .preannounceEnd 9, .headCheck 0, .headCheck 33,
      .noiseBlockEnd 25 0, .toneCycleEnd 0, .promptStepEnd 25, .contentCompletion 0, .loudChange 25,
      .beaconPhaseChange 0, .frameFormation [] (List.replicate 512 0), .frameFormation (List.replicate 513 0) []] :
      List Instr).all (fun i => !i.wf) = true := by decide +kernel

/-- Commands at the ends of their ranges are well formed. -/
theorem test_wf_accepts :
    ([.damagedCell .up ⟨(List.replicate 64 0), 511⟩, .malformedCell .up [0x44], .unknownKindCell .down [0x44, 0],
      .pilotArrival 65535 [9] [] .priority (some 32), .offer 383 1 [1, 2, 3, 4, 5, 6, 7, 8] [0] .internal none,
      .dialled 0 0 (List.replicate 16 11), .maintReply 1023 0 255 .done 1 1 (List.replicate 56 0),
      .readEntry 0 (List.replicate 58 0), .unknownRequest 0 0 [], .unknownRequest 0 24 [], .wrapUpExpiry 383,
      .headCheck 32, .chime 9, .sessionDeadline 8, .beaconPhaseChange 24,
      .frameFormation (List.replicate 512 0) (List.replicate 512 0)] : List Instr).all Instr.wf = true := by decide +kernel

/-! ### Cells (12, R195, R196): bytes written out from the tables -/

/-- An external pilot OFFER to 1008, call 0x0102, called 0431, no caller, no group: code 1, then the fields. -/
theorem test_cell_offer :
    parseCell .down [0x07, 0xF0, 0x01, 0x02, 0x04, 0x04, 0x31, 0x00, 0x01, 0xFF] =
      .ok ⟨1008, 0x0102, .offer [0, 4, 3, 1] [] .external none⟩ := by decide +kernel

/-- DIALLED `*41` from station 383 (code 18, an odd count, the filler behind it), and a filler that is none. -/
theorem test_cell_dialled :
    parseCell .up [0x49, 0x7F, 0, 0, 3, 0xA4, 0x1F] = .ok ⟨383, 0, .dialled [10, 4, 1]⟩ ∧
    parseCell .up [0x49, 0x7F, 0, 0, 3, 0xA4, 0x10] = .malformed := by decide +kernel

/-- ANSWERED with via ORBIT up is known (code 20); the same bytes down are of unknown kind, and via 4 is malformed. -/
theorem test_cell_answered :
    parseCell .up [0x51, 0x7F, 0x12, 0x34, 3] = .ok ⟨383, 0x1234, .answered .orbit⟩ ∧
    parseCell .down [0x51, 0x7F, 0x12, 0x34, 3] = .unknown ∧
    parseCell .up [0x51, 0x7F, 0x12, 0x34, 4] = .malformed := by decide +kernel

/-- The ATTENTION cell of the power-on reset leaves in the first up slot: code 26, number 1008, RESET set and unmasked (01,
R21; 11, R193). -/
theorem test_outgoing_attention :
    (after (.outgoingSlot .up) State.reset).lane.upOut = some ⟨[0x6B, 0xF0, 0, 0, 0x80, 0, 0x80, 0], none⟩ ∧
    (after (.outgoingSlot .up) State.reset).lane.upQueue = [] := by decide +kernel

/-! ### The worked cases of 08, 8.8 -/

/-- The effective gains of zones 12 and 14. -/
theorem test_effective_gains :
    effectiveGain 1024 2024 = 2024 ∧ effectiveGain 2048 3072 = 4095 ∧ effectiveGain 3000 3072 = 4095 ∧
    effectiveGain 1024 1024 = 1024 := by decide

/-- A paged sample in a loud hall, its two clamped ones, and the widest accumulation. -/
theorem test_output_samples :
    unclamped (accumulation 12000 2024 0 0 8000 256) = 25719 ∧ unclamped (accumulation 20000 2024 0 0 8000 256) = 41531 ∧
    unclamped (accumulation (-32768) 2024 0 0 0 256) = -64768 ∧
    unclamped (accumulation (-32768) 4095 (-32768) 4095 (-32768) 4095) = -393120 ∧
    clampSample 41531 = 32767 ∧ clampSample (-64768) = -32768 := by decide

/-- Ducking under a page: each step, and the last that does not pass the target. -/
theorem test_ducking :
    rampStep 2048 256 16 = 2032 ∧ rampStep 272 256 16 = 256 ∧ rampStep 268 256 20 = 256 ∧ rampStep 256 2048 16 = 272 := by
  decide

/-- Zone 12 of the noise history. -/
def zone12 : ZoneFields :=
  { ZoneFields.reset with senseSlot := some 40, noiseFloor := 1000, slope := 32, maxBoost := 3072, loudOn := 3100,
                          loudOff := 2900 }

/-- A noise history with a hold: the four block ends of the table. -/
theorem test_noise_history :
    let ended (level sum : Nat) (loud : Bool) : Nat × Nat × Bool :=
      let a := blockEnd zone12 { Audio.reset with noise := level, blockSum := sum, loud := loud }
      (a.noise, a.boost, a.loud)
    ended 3000 204800 false = (3012, 2030, false) ∧ ended 3012 307200 false = (3123, 2085, true) ∧
    ended 3123 128000 true = (3053, 2050, true) ∧ ended 3053 0 true = (2863, 1955, false) := by decide

/-! ### The worked cases of 09 -/

/-- The samples of the first frames of a player. -/
def samples (pr : Prompts) : Nat → Player → List Int
  | 0, _ => []
  | n + 1, p => (pr.play p).sample :: samples pr n (pr.play p).player

/-- A short beep on orbit 2 (9.2): two cycles of eight on-frames and eight off-frames. -/
theorem test_beep_cadence :
    samples { Prompts.reset with tones := Prompts.reset.tones.put 12 (some ⟨8192, 16384, 1, 1, 0⟩) } 33
        ⟨1, [.tone 12 (some 2)], .fresh⟩ =
      let burst : List Int := [-16384, -8192, 0, 8192, 16383, 8191, -1, -8193]
      burst ++ List.replicate 8 0 ++ burst ++ List.replicate 8 0 ++ [0] := by decide +kernel

/-- A descriptor written between a cycle's last frame and the next frame is what the new cycle reads, with the row
TONE_CYCLE_END taken before the write as without it (09, R164; the amplitude 8192 of 9.2). -/
theorem test_write_before_cycle_start :
    let pr : Prompts := { Prompts.reset with tones := Prompts.reset.tones.put 12 (some ⟨8192, 8192, 1, 1, 0⟩) }
    let p : Player := ⟨1, [.tone 12 (some 2)], .tone 1 8192 16384 0 .off 0 0⟩
    (pr.play p).sample = -8192 ∧ pr.play p.passCycle = pr.play p ∧ pr.ahead p.passCycle = pr.ahead p := by
  decide +kernel

/-- The part with its write address set. -/
def writing (a : Nat) : State := { State.reset with prompts := { Prompts.reset with address := a }, lane :=
  { State.reset.lane with upQueue := [] } }

/-- A reply, with the outcome and the data it carries. -/
def replied (o : ReplyOutcome) (data : List Byte) : LaneCell := replyCell 1008 9 o data

/-- Filling the end of memory (9.3): the last eight of twenty-four samples, then none of three. -/
theorem test_prompt_overrun :
    let t := after (.promptWrite 9 (24 :: List.replicate 48 1)) (writing 32760)
    t.prompts.address = 32768 ∧ t.lane.upQueue = [replied .done [8, 0x80, 0]] ∧
    hasFlag t.maint.flags .promptOverrun = true ∧ memRead t.prompts.memory 32767 = 0x0101 ∧
    (after (.promptWrite 9 (3 :: List.replicate 6 1)) (writing 32768)).prompts.memory = [] := by decide +kernel

/-- Reading and addressing at the end of memory (9.3). -/
theorem test_prompt_end :
    (after (.promptRead 9 [0x7F, 0xF8, 8]) (writing 32768)).lane.upQueue =
      [replied .done ([0x80, 0] ++ List.replicate 16 0)] ∧
    (after (.promptRead 9 [0x7F, 0xF8, 9]) (writing 32768)).lane.upQueue = [replied .refusedArgument []] ∧
    (after (.promptAddress 9 [0x80, 0]) (writing 32768)).lane.upQueue = [replied .refusedArgument []] ∧
    (after (.promptAddress 9 [0, 0]) (writing 32768)).prompts.address = 0 := by decide +kernel

/-! ### Matching against a loaded table (02, 2.4) -/

/-- The table of the worked example. -/
def codes : Tab 0 16 (Option AccessCode) :=
  ([(0, ⟨[10, 8], .groupPickup, .normal⟩), (1, ⟨[10, 8, 8], .directedPickup, .normal⟩), (2, ⟨[10, 6], .page, .normal⟩),
    (3, ⟨[10, 6, 6], .page, .urgent⟩), (4, ⟨[10, 6, 9], .page, .emergency⟩), (5, ⟨[11, 5], .orbitRetrieve, .normal⟩),
    (6, ⟨[10, 4, 1], .logon, .normal⟩), (7, ⟨[10, 4, 2], .logoff, .normal⟩),
    (8, ⟨[10, 4, 3], .groupStatus, .normal⟩)] : List (Nat × AccessCode)).foldl
    (fun t e => t.put e.1 (some e.2)) (Tab.all 0 16 none)

/-- What the matcher makes of a string: the feature and the argument, and whether the argument has its form. -/
def matched (ds : Digits) : Option (CodeFeature × Digits × Bool) :=
  (({ State.reset with codes := codes } : State).matchCode ds).map fun e => (e.1.feature, e.2, argumentOk e.1.feature e.2)

/-- The rows of the worked example. -/
theorem test_matching :
    ([[10, 8], [10, 8, 1], [10, 8, 8, 4, 3, 1, 0, 0], [10, 6, 6, 1, 2], [10, 6], [11, 5, 3], [11, 5, 0], [10, 4, 3, 0, 7],
      [10, 4, 3, 3, 3], [10, 4], [5, 5, 1, 2]] : List Digits).map matched =
    [some (.groupPickup, [], true), some (.groupPickup, [1], false), some (.directedPickup, [4, 3, 1, 0, 0], true),
      some (.page, [1, 2], true), some (.page, [], false), some (.orbitRetrieve, [3], true),
      some (.orbitRetrieve, [0], false), some (.groupStatus, [0, 7], true), some (.groupStatus, [3, 3], false), none,
      none] := by decide +kernel

/-! ### Single steps of the worked sequences -/

/-- The part in ENGAGED mode with these groups, stations and records, its queues empty. -/
def worked (own : Equip) (groups : List (Nat × Group)) (stations : List (Nat × Station)) (records : List HuntRecord)
    (now : Nat) : State :=
  { State.reset with
    lane := { State.reset.lane with upQueue := [], own := own }
    maint := { State.reset.maint with mode := .engaged }
    stations := stations.foldl (fun t e => t.put e.1 e.2) State.reset.stations
    codes := codes
    hunt := { State.reset.hunt with
      active := groups.foldl (fun t e => t.put e.1 e.2) State.reset.hunt.active, records := records }
    clock := now }

/-- A record of the worked sequences. -/
def workedRecord (call : CallRef) (group arrival : Nat) (status : HuntStatus) : HuntRecord :=
  { call := call, group := group, arrival := arrival, called := [1], caller := [], cls := .internal, tried := [],
    status := status }

/-- A group in use. -/
def inUse (members : List Nat) (capacity : Nat) : Group :=
  { fields := { GroupFields.reset with pilot := some [1], capacity := capacity }, members := members }

/-- `*4307` at 500,000 (02, 2.4): DISPLAY with group 7, two queued, 28 s, three candidates, four free places. -/
theorem test_group_status :
    (after (.dialled 200 0 [10, 4, 3, 0, 7]) (worked 1011 [(7, inUse [1, 2, 3, 4] 6)]
      [(4, { Station.reset with line := .ringing, call := some 9 }), (200, { Station.reset with line := .seized })]
      [workedRecord 1 7 471200 (.queued 600000 none none false),
        workedRecord 2 7 488900 (.queued 600000 none none false)] 500000)).lane.downQueue =
    [.known ⟨200, 0, .display 7 2 28 3 4⟩, .known ⟨200, 0, .tone 1⟩] := by decide +kernel

/-- A late answer that wins (04, 4.11): WITHDRAW(TAKEN) down to station 51, the ANSWERED of station 50 up. -/
theorem test_late_answer :
    let t := after (.answered 50 620 .direct) (worked 1008 [(2, inUse [50, 51] 0)]
      [(51, { Station.reset with line := .offered, call := some 620 })]
      [workedRecord 620 2 5000000 (.offered (some 51) 5040000 none)] 5020200)
    t.lane.downQueue = [.known ⟨51, 620, .withdraw .taken⟩] ∧ t.lane.upQueue = [.known ⟨50, 620, .answered .direct⟩] ∧
    (t.stations.get 50).line = .talking ∧ (t.stations.get 50).deliveredBy = some 2 ∧ (t.stations.get 51).line = .idle ∧
    t.hunt.closed = [620] := by decide +kernel

/-- Station 140 answers a call that station 150 has picked up (05, 5.7): the answer is consumed. -/
theorem test_late_answer_after_pickup :
    let t := after (.answered 140 810 .direct) { worked 1011 [] [] [] 7006000 with
      hunt := { State.reset.hunt with closed := [810] } }
    t.lane.downQueue = [.known ⟨140, 810, .withdraw .taken⟩] ∧ t.lane.upQueue = [.known ⟨140, 0, .offHook⟩] ∧
    (t.stations.get 140).line = .seized := by decide +kernel

/-- A full list (07, 7.11): orbit 4's claim evicts the ASSIST claim, orbit 5's is refused. -/
theorem test_full_list :
    let o (n : Nat) : Claim := ⟨.orbit n, 4, []⟩
    let assist : Claim := ⟨.assist, 5, []⟩
    placeResumable (o 4) [o 1, o 2, o 3, assist] = some ⟨[o 1, o 2, o 3, o 4], false, none, some assist⟩ ∧
    placeResumable (o 5) [o 1, o 2, o 3, o 4] = none ∧ placeResumable assist [o 2, o 3, o 4] =
      some ⟨[o 2, o 3, o 4, assist], false, none, none⟩ := by decide

/-! ### States that meet the hypotheses of the statements -/

/-- Cells that fill a queue. -/
def cells (k : Nat) : List LaneCell := List.replicate k (.raw ⟨[0], none⟩)

/-- A table with some entries set. -/
def entries {lo n : Nat} {α : Type} (t : Tab lo n α) (l : List (Nat × α)) : Tab lo n α := l.foldl (fun t e => t.put e.1 e.2) t

/-- A station in a line state, on a call. -/
def onLine (l : LineState) (c : Option CallRef) : Station := { Station.reset with line := l, call := c }

/-- The definition of a group with a pilot. -/
def piloted (pilot : Digits) (members : List Nat) (capacity : Nat) : Group :=
  { fields := { GroupFields.reset with pilot := some pilot, capacity := capacity, alarmDn := some [7], announceSet := 1,
                                       strikesThreshold := 1 }
    members := members }

/-- A hunt record. -/
def recordOf (call : CallRef) (group : Nat) (status : HuntStatus) : HuntRecord :=
  { call := call, group := group, arrival := 50, called := [1], caller := [], cls := .external, tried := [],
    status := status }

/-- The banks: group 1 with four members, group 32 with one, and a group whose member is busy. -/
def bank : Tab 1 32 Group :=
  entries State.reset.hunt.active [(1, piloted [1] [0, 1, 7, 383] 2), (2, piloted [2] [0] 2), (32, piloted [3] [383] 0)]

/-- The stations: one in each line state, at the ends of the table among them. -/
def lines : Tab 0 384 Station :=
  entries State.reset.stations
    [(0, { onLine .seized none with talkSlot := some 511, authority := .emergency, pickupGroup := some 63 }),
      (1, onLine .offered (some 1)), (2, { onLine .ringing (some 2) with pickupGroup := some 63 }),
      (3, { onLine .talking (some 3) with deliveredBy := some 32 }), (4, { onLine .feature none with source := some 8 }),
      (5, onLine .outOfService none), (6, onLine .offered (some 6)),
      (7, { onLine .ringing (some 7) with pickupGroup := some 63, dn := some [4] }),
      (8, { onLine .idle none with wrapUp := some 100000 })]

/-- The claims on zone 24: a voice page over two orbits. -/
def claims24 : List Claim := [⟨.session 8, 0, []⟩, ⟨.orbit 8, 4, [.tone 12 (some 8)]⟩, ⟨.orbit 9, 4, [.tone 12 (some 9)]⟩]

/-- The part in ENGAGED mode with calls, a page and an orbit in progress, and room for two cells in each queue. -/
def office : State :=
  { State.reset with
    lane := { State.reset.lane with downQueue := cells 62, upQueue := cells 62 }
    stations := lines
    codes := codes
    hunt :=
      { State.reset.hunt with
        staged := bank, active := bank, closed := [21], countdown := some 100000
        records := [recordOf 1 1 (.offered (some 1) 100000 none), recordOf 7 1 (.offered (some 7) 100001 none),
          recordOf 11 1 (.queued 100000 (some 100000) none false), recordOf 12 2 (.queued 100001 none none false)] }
    orbits := State.reset.orbits.put 9 (some ⟨11, 1, 5, 100000⟩)
    pickup := { State.reset.pickup with ringing := [⟨2, 2, 5, none⟩, ⟨7, 7, 5, some 1⟩] }
    paging :=
      { State.reset.paging with
        sessions := State.reset.paging.sessions.put 8 (some
          { source := 4, cls := .emergency, talkSlot := 0, zones := [(24, .held)], phase := .live, frames := 0, start := 5,
            deadline := 100000 })
        zoneSets := State.reset.paging.zoneSets.put 63 (some [1]) }
    zones := entries State.reset.zones
      [(1, { Zone.reset with fields := { ZoneFields.reset with enabled := true } }),
        (24, { Zone.reset with fields := { ZoneFields.reset with enabled := true, outputSlot := 511 }
                               claims := claims24, completed := true, loudReport := true
                               beacon := ⟨.alarmFlash, true, 100000⟩ })]
    maint := { State.reset.maint with mode := .engaged }
    clock := 100000 }

/-- The part with exactly one free place in each queue. -/
def brim : State := { office with lane := { office.lane with downQueue := cells 63, upQueue := cells 63 } }

/-- The part with both queues full. -/
def full : State := { office with lane := { office.lane with downQueue := cells 64, upQueue := cells 64 } }

/-- The part with events raised: a head check of group 2 where `check`, and station 383's member-available event. -/
def raised (check : Bool) : State :=
  { brim with hunt := { brim.hunt with headChecks := if check then [2] else [], available := [383] } }

/-- The part in TRANSPARENT mode, its queues empty. -/
def quiet : State := { State.reset with lane := { State.reset.lane with upQueue := [], bridgeHighway := .off } }

/-- The part while a PIN or a POWER reset holds. -/
def held (p : Phase) : State := { quiet with lane := { quiet.lane with phase := p } }

/-- What holds of an option's value holds of whatever it is. -/
theorem whatever {α : Type} {o : Option α} {a : α} {p : α → Prop} (ho : o = some a) (hp : p a) : ∀ c, o = some c → p c := by
  intro c h; rw [ho] at h; cases h; exact hp

/-- Hunt tables with no count are in a good state where their lists are. -/
theorem hunt_fits (h : Hunt) (live : h.live = State.reset.hunt.live)
    (lists : h.records.length ≤ 64 ∧ (h.records.map HuntRecord.call).Nodup ∧
      (∀ r ∈ h.records, r.awaiting = true → r.orbit = none) ∧ h.closed.length ≤ 64 ∧ h.closed.Nodup ∧
      h.headChecks.Pairwise (· < ·) ∧ h.available.Pairwise (· < ·)) : h.Fits :=
  { records := lists.1
    calls := lists.2.1
    awaiting := lists.2.2.1
    closed := lists.2.2.2.1
    closedOnce := lists.2.2.2.2.1
    counters := live ▸ Tab.forall_all (p := fun l : GroupLive => l.counters.Fits)
      (by constructor <;> exact Nat.zero_le _) (by constructor <;> exact Nat.zero_le _)
    raised := lists.2.2.2.2.2 }

/-- The hunt tables of the part in use are in a good state, with and without raised events. -/
theorem office_hunt_fits : office.hunt.Fits := hunt_fits _ rfl (by decide +kernel)

theorem raised_hunt_fits (check : Bool) : (raised check).hunt.Fits :=
  hunt_fits _ rfl (by cases check <;> decide +kernel)

/-- In the parts in use nothing raised waits. -/
theorem witness_calm : office.Calm ∧ brim.Calm ∧ full.Calm ∧ quiet.Calm := by decide

/-! ### Witnesses: the queue of commands, resets and the cell path -/

theorem witness_StepTakesFrontCommand :
    ({ office with pending := [.powerOn, .alarmInActive] } : State).pending = .powerOn :: [.alarmInActive] := rfl

theorem witness_EveryStepAnswers :
    (held .pinReset).pending = [] ∧ (held .pinReset).nextInternal = none ∧ (raised true).pending = [] ∧
    (raised true).nextInternal = some (.headCheck 2) ∧ startsWork .alarmInActive = true ∧
    (raised true).lane.phase = .inService := by
  decide +kernel

theorem witness_EveryStepAnswers_settled :
    (raised true).hunt.Fits ∧ (raised true).hunt.headChecks = [2] ∧ (raised false).hunt.Fits ∧
    (raised false).hunt.headChecks = [] ∧ (raised false).hunt.available = [383] :=
  ⟨raised_hunt_fits _, by decide, raised_hunt_fits _, by decide, by decide⟩

theorem witness_resets :
    office.lane.phase = .inService ∧ (held .powerReset).lane.phase = .powerReset ∧
    (held .pinReset).lane.phase = .pinReset := by decide +kernel

theorem witness_ResetBridgesAndWaits :
    (held .pinReset).lane.phase ≠ .inService ∧
    carriedBy 1008 (.damagedCell .up ⟨[0x45], 7⟩) = some (.up, ⟨[0x45], some 7⟩) ∧
    carriedBy 1008 (.callEnd 383 9) = some (.down, ⟨[0x0D, 0x7F, 0, 9], none⟩) ∧ isEvent (.chime 9) = true := by
  decide +kernel

theorem witness_BridgeCopiesSlots : quiet.lane.bridgeHighway = .off ∧ State.reset.lane.bridgeHighway ≠ .off := by decide

theorem witness_BadCellsForwarded :
    (Instr.malformedCell .up [0x44]).wf = true ∧ office.lane.phase = .inService ∧ office.Calm ∧ office.room .down 1 ∧
    office.room .up 2 := by
  simp only [State.room]; decide +kernel

theorem witness_UnknownKindPasses :
    (0x1C#8).toNat / 4 ∉ knownCodes .down ∧ (0x03#8).toNat / 4 ∉ knownCodes .down ∧ (0x43#8).toNat / 4 ∉ knownCodes .up ∧
    (0x6C#8).toNat / 4 ∉ knownCodes .up ∧ brim.room .down 1 ∧ brim.room .up 1 := by
  simp only [State.room]; decide +kernel

theorem witness_UntouchedCellsPass :
    brim.lane.phase = .inService ∧ brim.Calm ∧ brim.room .down 1 ∧ cellOf 1008 (.withdraw 384 1 .taken) =
      some (.down, ⟨384, 1, .withdraw .taken⟩) ∧ cellOk ⟨384, 1, .withdraw .taken⟩ = true ∧
    untouched 1008 ⟨384, 1, .withdraw .taken⟩ = true ∧ untouched 1008 ⟨0, 1, .tone 0⟩ = true ∧
    cellOf 1008 (.attention 1008 0 0 0) = some (.up, ⟨1008, 0, .attention 0 0⟩) ∧
    cellOk ⟨1008, 0, .attention 0 0⟩ = true := by
  simp only [State.room]; decide +kernel

theorem witness_FullQueueDiscards :
    let flagged (s : State) : State := { s with maint := { s.maint with flags := 0xFFFE } }
    let unmasked (s : State) : State := { s with maint := { s.maint with mask := 0 } }
    let downFull : State := { quiet with lane := { quiet.lane with downQueue := cells 64 } }
    cellOf 1008 (.tone 0 0 9) = some (.down, ⟨0, 0, .tone 9⟩) ∧ ¬ full.room .down 1 ∧
    hasFlag (flagged full).maint.flags .laneOverflow = true ∧ hasFlag full.maint.flags .laneOverflow = false ∧
    hasFlag full.maint.mask .laneOverflow = true ∧ hasFlag (unmasked full).maint.mask .laneOverflow = false ∧
    ¬ (unmasked full).room .up 1 ∧ ¬ downFull.room .down 1 ∧ downFull.room .up 1 := by
  simp only [State.room]; decide +kernel

/-- Cells of tracked stations at full queues: a station of each line state that the clauses name, a request that is refused,
a pilot arrival that is refused and one that is offered. -/
theorem witness_FullQueueDiscards_blocks :
    let s : State := { full with stations := full.stations.put 0 { full.stations.get 0 with available := false } }
    s.Calm ∧ ¬ s.room .up 1 ∧ ¬ s.room .down 1 ∧ tracked 383 = true ∧ (383#10 : Equip) ≠ s.lane.own ∧
    (s.stations.get 383).line = .idle ∧ (s.stations.get 1).line = .offered ∧ (s.stations.get 1).call = some 1 ∧
    s.record 9 = none ∧ (9#16 : CallRef) ∉ s.hunt.closed ∧ (s.stations.get 0).line = .seized ∧
    (s.stations.get 0).deliveredBy = none ∧ (s.stations.get 0).available = false ∧ (s.stations.get 383).onOffer 9 = false ∧
    (Instr.offer 383 9 [1] [] .internal none).wf = true ∧ (s.stations.get 2).onOffer 2 = true ∧ s.isMember 2 2 = false ∧
    (∀ m, m < 384 → (s.stations.get m).call ≠ some 9) ∧
    requestOf (.commit 9 [0, 0, 1]) = some (9, 4, [0, 0, 1]) ∧
    ((s.endBridge .down).request 24 []).outcome ≠ .done ∧ s.maint.mode = .engaged ∧ s.pilotGroup [9] = none ∧
    s.pilotGroup [3] = some 32 ∧ s.alarm.source = none ∧ s.hunt.records.length < 64 ∧ s.queue 32 = [] ∧
    s.select 32 [] = some (383, false) := by
  simp only [State.room]; decide +kernel

/-! ### Witnesses: stations and their cells -/

theorem witness_stations :
    brim.lane.phase = .inService ∧ brim.Calm ∧ brim.room .up 1 ∧ brim.room .down 1 ∧ tracked 0 = true ∧ tracked 383 = true := by
  simp only [State.room]; decide +kernel

theorem witness_OffHookSeizes :
    (brim.stations.get 383).line = .idle ∧ (brim.stations.get 6).line = .offered ∧
    (∀ c, (brim.stations.get 6).call = some c → brim.isMember 6 c = false) ∧
    (brim.stations.get 1).line = .offered ∧ (brim.stations.get 1).call = some 1 ∧ brim.isMember 1 1 = true ∧
    (brim.stations.get 0).line = .seized :=
  ⟨by decide +kernel, by decide +kernel, whatever (a := 6) (by decide +kernel) (by decide +kernel), by decide +kernel,
    by decide +kernel, by decide +kernel, by decide +kernel⟩

theorem witness_RingStartedRings :
    (brim.stations.get 383).line = .idle ∧ (brim.stations.get 1).line = .offered ∧ (brim.stations.get 1).call = some 1 ∧
    (brim.stations.get 2).line = .ringing ∧ (brim.stations.get 2).call = some 2 ∧ (brim.stations.get 0).line = .seized := by
  decide +kernel

theorem witness_OnHookReleases :
    (brim.stations.get 383).line = .idle ∧ (brim.stations.get 0).line = .seized ∧ (brim.stations.get 3).line = .talking ∧
    (brim.stations.get 4).line = .feature ∧ (brim.stations.get 4).source = some 8 ∧
    ((brim.paging.sessions.get 8).map (·.source)) = some 4 ∧
    (∀ c, (brim.stations.get 2).call = some c → brim.isMember 2 c = false) ∧ (brim.stations.get 2).line = .ringing ∧
    (brim.stations.get 7).call = some 7 ∧ brim.isMember 7 7 = true ∧ (brim.stations.get 7).line = .ringing :=
  ⟨by decide +kernel, by decide +kernel, by decide +kernel, by decide +kernel, by decide +kernel, by decide +kernel,
    whatever (a := 2) (by decide +kernel) (by decide +kernel), by decide +kernel, by decide +kernel, by decide +kernel,
    by decide +kernel⟩

theorem witness_OfferAndWithdrawTracked :
    (383#10 : Equip) ≠ brim.lane.own ∧ (Instr.offer 383 65535 [9] [] .priority (some 32)).wf = true ∧
    brim.isMember 383 9 = false ∧ (brim.stations.get 383).onOffer 9 = false ∧ brim.isMember 2 2 = false ∧
    (brim.stations.get 2).onOffer 2 = true ∧ brim.isMember 7 7 = true ∧ (brim.stations.get 7).onOffer 7 = true := by
  decide +kernel

theorem witness_CallEndReleases :
    brim.record 3 = none ∧ brim.record 11 = some (recordOf 11 1 (.queued 100000 (some 100000) none false)) ∧
    (recordOf 11 1 (.queued 100000 (some 100000) none false)).orbit = none := by decide +kernel

theorem witness_AnswerDelivers :
    brim.hunt.Fits ∧ brim.record 1 = some (recordOf 1 1 (.offered (some 1) 100000 none)) ∧
    (brim.stations.get 1).onOffer 1 = true ∧ (brim.stations.get 383).line = .idle ∧
    (recordOf 11 1 (.queued 100000 (some 100000) none false)).isQueued = true ∧
    brim.record 7 = some (recordOf 7 1 (.offered (some 7) 100001 none)) ∧ (brim.stations.get 7).onOffer 7 = true :=
  ⟨office_hunt_fits, by decide +kernel, by decide +kernel, by decide +kernel, by decide +kernel, by decide +kernel,
    by decide +kernel⟩

theorem witness_AnswerWithoutRecord :
    brim.record 21 = none ∧ (brim.stations.get 383).onOffer 21 = false ∧ (21#16 : CallRef) ∈ brim.hunt.closed ∧
    (brim.stations.get 383).line = .idle ∧ brim.record 2 = none ∧ (brim.stations.get 2).onOffer 2 = true ∧
    (9#16 : CallRef) ∉ brim.hunt.closed ∧ (brim.stations.get 5).line = .outOfService := by decide +kernel

/-- Stations that answer call 21, which is closed, by glare: OFFERED a call that is no hunt call, and a member. Stations that
answer call 9, which is not: superseding those offers, a ring, and a page source. -/
theorem witness_AnswerWithoutRecord_other_offer :
    (brim.stations.get 6).line = .offered ∧ (brim.stations.get 6).call = some 6 ∧ brim.isMember 6 6 = false ∧
    (brim.stations.get 6).onOffer 21 = false ∧ (brim.stations.get 1).line = .offered ∧
    (brim.stations.get 1).call = some 1 ∧ brim.isMember 1 1 = true ∧ brim.record 9 = none ∧
    (brim.stations.get 7).line = .ringing ∧ (brim.stations.get 7).call = some 7 ∧ brim.isMember 7 7 = true ∧
    (brim.stations.get 4).line = .feature ∧ (brim.stations.get 4).source = some 8 ∧
    (brim.paging.sessions.get 8).map (·.source) = some 4 := by decide +kernel

/-- The part with call 7 queued in orbit 9, call 2 OFFERED to station 10 while station 2 rings for it, and station 9 in a
feature that is no page. -/
def orbited : State :=
  { brim with
    stations := entries brim.stations [(9, onLine .feature none), (10, onLine .offered (some 2))]
    orbits := brim.orbits.put 9 (some ⟨7, 1, 5, 100000⟩)
    hunt := { brim.hunt with records := [recordOf 1 1 (.offered (some 1) 100000 none),
                recordOf 2 2 (.offered (some 10) 100000 none), recordOf 7 1 (.queued 100000 none (some 9) false)] } }

theorem orbited_hunt_fits : orbited.hunt.Fits := hunt_fits _ rfl (by decide +kernel)

/-- A call that ends, or is abandoned, in its orbit. -/
theorem witness_orbited :
    orbited.lane.phase = .inService ∧ orbited.Calm ∧ orbited.room .up 1 ∧ orbited.room .down 1 ∧
    orbited.record 7 = some (recordOf 7 1 (.queued 100000 none (some 9) false)) ∧
    (recordOf 7 1 (.queued 100000 none (some 9) false)).orbit = some 9 ∧
    (recordOf 7 1 (.queued 100000 none (some 9) false)).member = none ∧
    (recordOf 7 1 (.queued 100000 none (some 9) false)).isQueued = true := by
  simp only [State.room]; decide +kernel

/-- Late answers to call 7, in its orbit, and to call 2, at station 10, from a station of each line state. -/
theorem witness_AnswerDelivers_late :
    let r := recordOf 7 1 (.queued 100000 none (some 9) false)
    let u := (orbited.endBridge .up).recordGone r fun k => { k with answered := satInc k.answered }
    orbited.hunt.Fits ∧ orbited.record 7 = some r ∧ r.isQueued = true ∧
    orbited.record 2 = some (recordOf 2 2 (.offered (some 10) 100000 none)) ∧
    (recordOf 2 2 (.offered (some 10) 100000 none)).member = some 10 ∧ (orbited.stations.get 10).onOffer 2 = true ∧
    (orbited.stations.get 383).line = .idle ∧ (orbited.stations.get 0).line = .seized ∧
    (orbited.stations.get 3).line = .talking ∧ (orbited.stations.get 9).line = .feature ∧
    (u.stations.get 9).source = none ∧ (orbited.stations.get 5).line = .outOfService ∧
    (orbited.stations.get 1).line = .offered ∧ (orbited.stations.get 1).call = some 1 ∧ orbited.isMember 1 1 = true ∧
    (orbited.stations.get 2).line = .ringing ∧ (orbited.stations.get 2).call = some 2 ∧ orbited.isMember 2 2 = false ∧
    (orbited.stations.get 4).line = .feature ∧ (u.stations.get 4).source = some 8 ∧
    (u.paging.sessions.get 8).map (·.source) = some 4 :=
  ⟨orbited_hunt_fits, by decide +kernel⟩

theorem witness_RefusedDecided :
    brim.record 2 = none ∧ (2#16 : CallRef) ∉ brim.hunt.closed ∧ (brim.stations.get 383).onOffer 2 = false ∧
    (brim.stations.get 2).onOffer 2 = true ∧ brim.isMember 383 1 = false ∧ brim.record 1 ≠ none ∧
    (brim.stations.get 383).onOffer 1 = false := by decide +kernel

theorem witness_RefusedDecided_closed :
    let s : State := { brim with hunt := { brim.hunt with closed := [6] } }
    (6#16 : CallRef) ∈ s.hunt.closed ∧ s.isMember 6 6 = false ∧ (s.stations.get 6).onOffer 6 = true ∧
    s.isMember 1 1 = true ∧ (s.stations.get 1).onOffer 1 = true := by decide +kernel

/-! ### Witnesses: dialled features -/

theorem witness_LongestCodeMatches :
    brim.matchCode [10, 6, 6, 1] = some (⟨[10, 6, 6], .page, .urgent⟩, [1]) ∧
    brim.codes.get 2 = some ⟨[10, 6], .page, .normal⟩ ∧ [10, 6] <+: ([10, 6, 6, 1] : Digits) ∧ (Instr.dialled 0 0 [1]).wf = true ∧
    quiet.maint.mode = .transparent ∧ (brim.stations.get 383).line ≠ .seized ∧
    ∀ i e, i < 16 → quiet.codes.get i = some e → ¬ e.code <+: [1] := by
  refine ⟨by decide +kernel, by decide +kernel, by decide +kernel, by decide +kernel, by decide +kernel,
    by decide +kernel, fun i e h x => ?_⟩
  have y : ∀ i, i < 16 → quiet.codes.get i = none := by decide +kernel
  rw [y i h] at x; cases x

theorem witness_dialled_features :
    brim.maint.mode = .engaged ∧ (brim.stations.get 0).line = .seized ∧
    brim.matchCode [10, 6] = some (⟨[10, 6], .page, .normal⟩, []) ∧ argumentOk .page [] = false ∧
    brim.matchCode [10, 4, 1] = some (⟨[10, 4, 1], .logon, .normal⟩, []) ∧
    brim.matchCode [10, 4, 2] = some (⟨[10, 4, 2], .logoff, .normal⟩, []) := by decide +kernel

theorem witness_GroupStatusShown :
    office.room .down 2 ∧ office.matchCode [10, 4, 3, 3, 2] = some (⟨[10, 4, 3], .groupStatus, .normal⟩, [3, 2]) ∧
    argumentOk .groupStatus [3, 2] = true ∧ (office.activeGroup 32).fields.pilot ≠ none ∧
    argumentOk .groupStatus [3, 1] = true ∧ (office.activeGroup 31).fields.pilot = none := by
  simp only [State.room]; decide +kernel

theorem witness_GroupPickupDecided :
    brim.matchCode [10, 8] = some (⟨[10, 8], .groupPickup, .normal⟩, []) ∧
    (brim.stations.get 0).pickupGroup = some 63 ∧ brim.groupTarget 0 63 = some ⟨2, 2, 5, none⟩ ∧ brim.record 2 = none ∧
    (brim.stations.get 2).line = .ringing ∧ (brim.stations.get 2).call = some 2 ∧
    ({ brim with pickup := { brim.pickup with ringing := [] } } : State).groupTarget 0 63 = none := by decide +kernel

/-- A directed pickup of the hunt call that rings at station 7. -/
theorem witness_GroupPickupDecided_directed :
    brim.matchCode [10, 8, 8, 4] = some (⟨[10, 8, 8], .directedPickup, .normal⟩, [4]) ∧
    argumentOk .directedPickup [4] = true ∧ brim.directedTarget 63 [4] = some ⟨7, 7, 5, some 1⟩ ∧
    (brim.stations.get 7).line = .ringing ∧ (brim.stations.get 7).call = some 7 ∧
    brim.record 7 = some (recordOf 7 1 (.offered (some 7) 100001 none)) ∧
    (recordOf 7 1 (.offered (some 7) 100001 none)).member = some 7 ∧ 0 ∈ (brim.activeGroup 1).members ∧
    brim.hunt.Fits :=
  ⟨by decide +kernel, by decide +kernel, by decide +kernel, by decide +kernel, by decide +kernel, by decide +kernel,
    by decide +kernel, by decide +kernel, office_hunt_fits⟩

/-- Pickups of calls 2, which is OFFERED to another member, and 7, which is queued in an orbit. -/
theorem witness_GroupPickupDecided_elsewhere :
    orbited.groupTarget 0 63 = some ⟨2, 2, 5, none⟩ ∧ (orbited.stations.get 2).line = .ringing ∧
    (orbited.stations.get 2).call = some 2 ∧ orbited.record 2 = some (recordOf 2 2 (.offered (some 10) 100000 none)) ∧
    (recordOf 2 2 (.offered (some 10) 100000 none)).member = some 10 ∧ (orbited.stations.get 10).onOffer 2 = true ∧
    orbited.directedTarget 63 [4] = some ⟨7, 7, 5, some 1⟩ ∧ (orbited.stations.get 7).line = .ringing ∧
    (orbited.stations.get 7).call = some 7 ∧
    orbited.record 7 = some (recordOf 7 1 (.queued 100000 none (some 9) false)) ∧
    (orbited.stations.get 0).line = .seized ∧ (orbited.stations.get 0).pickupGroup = some 63 := by decide +kernel

theorem witness_PageDecided :
    let s : State := { office with lane := { office.lane with downQueue := cells 63 } }
    s.room .up 2 ∧ s.room .down 1 ∧ s.matchCode [10, 6, 9, 6, 3] = some (⟨[10, 6, 9], .page, .emergency⟩, [6, 3]) ∧
    argumentOk .page [6, 3] = true ∧ s.pageRefusal 0 63 .emergency = none ∧ s.freeSessionNumber = some 1 ∧
    s.resolveSet 63 = [1] ∧ (s.zones.get 1).claims = [] := by
  simp only [State.room]; decide +kernel

theorem witness_PageDecided_refused :
    brim.preannounce = none ∧ (brim.stations.get 0).talkSlot = some 511 ∧ brim.pageRefusal 0 62 .emergency = some .denied ∧
    (brim.stations.get 0).authority = .emergency ∧ (brim.stations.get 1).authority = .none ∧
    (∃ z ∈ (brim.paging.zoneSets.get 63).getD [], (brim.zones.get z).fields.enabled = true) ∧
    brim.paging.zoneSets.get 63 ≠ none ∧ brim.paging.sessions.get 1 = none ∧
    (∀ z ∈ ([2] : List Nat), (brim.zones.get z).fields.enabled = false) ∧
    ({ brim with paging := { brim.paging with sessions := Tab.all 1 8 (brim.paging.sessions.get 8) } } :
      State).pageRefusal 0 63 .emergency = some .noResource := by decide +kernel

/-! ### Witnesses: pilot calls -/

/-- A record list of 64 calls, none of which is call 9. -/
def manyRecords : List HuntRecord :=
  (List.range 64).map fun k => recordOf (BitVec.ofNat 16 (k + 100)) 1 (.queued 0 none none false)

theorem witness_PilotArrivalSentAway :
    (Instr.pilotArrival 65535 [9] [] .internal none).wf = true ∧ quiet.maint.mode = .transparent ∧
    brim.pilotGroup [9] = none ∧ brim.maint.mode = .engaged ∧ brim.pilotGroup [3] = some 32 ∧ brim.record 1 ≠ none ∧
    brim.record 9 = none := by decide +kernel

theorem witness_PilotArrivalSentAway_alarm_and_full :
    ({ brim with alarm := { brim.alarm with source := some .input } } : State).alarm.source ≠ none ∧
    (brim.activeGroup 32).fields.alarmDn = some [7] ∧ brim.alarm.source = none ∧
    ({ brim with hunt := { brim.hunt with records := manyRecords } } : State).record 9 = none ∧
    64 ≤ manyRecords.length := by decide +kernel

theorem witness_PilotArrivalTaken :
    (Instr.pilotArrival 9 [3] [1, 2, 3, 4, 5, 6, 7, 8] .external none).wf = true ∧ brim.hunt.records.length < 64 ∧
    brim.queue 32 = [] ∧ brim.select 32 [] = some (383, false) ∧ brim.queue 1 ≠ [] ∧
    (brim.queue 1).length < (brim.activeGroup 1).fields.capacity ∧ (∀ q ∈ brim.queue 1, q.arrival ≤ brim.clock) := by
  decide +kernel

theorem witness_PilotArrivalTaken_full_queue :
    let s : State := { brim with stations := brim.stations.put 383 (onLine .seized none) }
    s.pilotGroup [3] = some 32 ∧ s.select 32 [] = none ∧ (s.activeGroup 32).fields.capacity ≤ (s.queue 32).length := by
  decide +kernel

theorem witness_SelectionRules :
    (∃ n ∈ (brim.activeGroup 1).members, (brim.candidate n && !([] : List Nat).contains n) = true) ∧
    (∀ n ∈ (brim.activeGroup 1).members, (brim.candidate n && !List.contains [383] n) = false) ∧
    (∃ n ∈ (brim.activeGroup 1).members, brim.candidate n = true) ∧
    (∀ n ∈ (brim.activeGroup 2).members, brim.candidate n = false) := by decide +kernel

/-- The part with one call whose offer has ended. -/
def offerEnded (group : Nat) (retired : Option RetiredAction) : State :=
  { brim with hunt := { brim.hunt with records := [recordOf 9 group (.offered none 100000 retired)] } }

theorem offer_ended_fits (group : Nat) (retired : Option RetiredAction) : (offerEnded group retired).hunt.Fits :=
  hunt_fits _ rfl ⟨Nat.le_of_lt (by simp [offerEnded]), by simp [offerEnded], by simp [offerEnded, recordOf, HuntRecord.awaiting],
    by simp [offerEnded, brim, office],
    by simp [offerEnded, brim, office], List.Pairwise.nil, List.Pairwise.nil⟩

/-- An offer ended in group 1, which has a member free; in group 2, which has none; in group 3, not in use; and orphaned. -/
theorem witness_SelectionRules_reselect :
    (offerEnded 1 none).record 9 = some (recordOf 9 1 (.offered none 100000 none)) ∧ (offerEnded 1 none).hunt.Fits ∧
    (offerEnded 1 none).room .up 1 ∧ (offerEnded 1 none).select 1 [] = some (383, false) ∧
    ((offerEnded 1 none).activeGroup 1).fields.pilot ≠ none ∧ (offerEnded 2 none).select 2 [] = none ∧
    ((offerEnded 3 none).activeGroup 3).fields.pilot = none ∧
    (offerEnded 1 (some .refusedBusy)).record 9 = some (recordOf 9 1 (.offered none 100000 (some .refusedBusy))) ∧
    (offerEnded 1 (some (.divert [7]))).record 9 = some (recordOf 9 1 (.offered none 100000 (some (.divert [7])))) :=
  ⟨by decide +kernel, offer_ended_fits _ _, by simp only [State.room]; decide +kernel, by decide +kernel,
    by decide +kernel, by decide +kernel, by decide +kernel, by decide +kernel, by decide +kernel⟩

theorem witness_AbandonmentCancels :
    brim.record 9 = none ∧ brim.record 12 = some (recordOf 12 2 (.queued 100001 none none false)) ∧
    (recordOf 12 2 (.queued 100001 none none false)).member = none ∧
    (recordOf 12 2 (.queued 100001 none none false)).orbit = none ∧
    brim.record 1 = some (recordOf 1 1 (.offered (some 1) 100000 none)) ∧ (brim.stations.get 1).onOffer 1 = true := by
  decide +kernel

theorem witness_NoAnswerEndsOffer :
    brim.record 1 = some (recordOf 1 1 (.offered (some 1) 100000 none)) ∧ 100000 ≤ brim.clock ∧
    (brim.stations.get 1).onOffer 1 = true ∧ brim.record 7 = some (recordOf 7 1 (.offered (some 7) 100001 none)) ∧
    brim.clock < 100001 := by decide +kernel

theorem witness_MaximumWaitOverflows :
    brim.record 11 = some (recordOf 11 1 (.queued 100000 (some 100000) none false)) ∧ 100000 ≤ brim.clock ∧
    brim.record 12 = some (recordOf 12 2 (.queued 100001 none none false)) ∧ brim.clock < 100001 := by decide +kernel

theorem witness_OrbitsAnnounce :
    brim.orbits.get 9 = some ⟨11, 1, 5, 100000⟩ ∧ brim.orbits.get 1 = none ∧
    (∀ m, 1 ≤ m → m < 1 → brim.orbits.get m ≠ none) ∧
    ∀ n, 1 ≤ n → n ≤ 9 → (Tab.all 1 9 (some (⟨11, 1, 5, 100000⟩ : Orbit))).get n ≠ none := by
  refine ⟨by decide +kernel, by decide +kernel, fun m h k => by omega, fun n h k => ?_⟩
  rw [Tab.get_all _ ⟨h, by omega⟩]; exact Option.some_ne_none _

/-- The part with these records only. -/
def withRecords (l : List HuntRecord) : State := { brim with hunt := { brim.hunt with records := l } }

/-- An orbit that nothing awaits, and one that the second of three records awaits first. -/
theorem witness_OrbitsAnnounce_released :
    let late : HuntRecord := { recordOf 8 1 (.queued 0 none none true) with arrival := 51 }
    let first := recordOf 9 2 (.queued 0 none none true)
    let same := recordOf 10 32 (.queued 0 none none true)
    (∀ r ∈ brim.hunt.records, r.awaiting = false) ∧ (withRecords [late, first, same]).hunt.records = [late] ++ first :: [same] ∧
    first.awaiting = true ∧
    (∀ q ∈ [late], q.awaiting = true → first.arrival < q.arrival ∨ first.arrival = q.arrival ∧ first.group < q.group) ∧
    (∀ q ∈ [same], q.awaiting = true → ¬ (q.arrival < first.arrival ∨ q.arrival = first.arrival ∧ q.group < first.group)) := by
  decide +kernel

/-- The retrieval of orbit 9 by a member, and of orbit 1, which is free. -/
theorem witness_OrbitsAnnounce_retrieved :
    let r := recordOf 11 1 (.queued 100000 none (some 9) false)
    brim.matchCode [11, 5, 9] = some (⟨[11, 5], .orbitRetrieve, .normal⟩, [9]) ∧ argumentOk .orbitRetrieve [9] = true ∧
    brim.matchCode [11, 5, 1] = some (⟨[11, 5], .orbitRetrieve, .normal⟩, [1]) ∧ brim.orbits.get 1 = none ∧
    (withRecords [r]).record 11 = some r ∧ (withRecords [r]).orbits.get 9 = some ⟨11, 1, 5, 100000⟩ ∧
    (brim.activeGroup 1).fields.membersOnly = false ∧ 0 ∈ (brim.activeGroup 1).members ∧
    (brim.stations.get 0).line = .seized ∧ 100000 ≤ brim.clock := by decide +kernel

theorem witness_HeadCheckOffersHeads :
    (raised true).hunt.Fits ∧ (raised true).hunt.headChecks.head? = some 2 ∧
    (∀ r, ((raised true).queue 2).head? = some r → (raised true).select 2 r.tried = none) ∧
    (raised true).hunt.headChecks.head? ≠ some 32 :=
  ⟨raised_hunt_fits _, by decide +kernel,
    whatever (a := recordOf 12 2 (.queued 100001 none none false)) (by decide +kernel) (by decide +kernel),
    by decide +kernel⟩

/-- A head check of group 1, whose head is offered to station 383. -/
theorem witness_HeadCheckOffersHeads_offer :
    let s : State := { brim with hunt := { brim.hunt with headChecks := [1] } }
    let r := recordOf 11 1 (.queued 100000 (some 100000) none false)
    s.hunt.Fits ∧ s.hunt.headChecks.head? = some 1 ∧ (s.queue 1).head? = some r ∧ s.select 1 r.tried = some (383, false) ∧
    s.record 11 = some r ∧ r.orbit = none ∧ (s.stations.get 383).line = .idle ∧ s.room .down 1 :=
  ⟨hunt_fits _ rfl (by decide +kernel), by decide +kernel, by decide +kernel, by decide +kernel, by decide +kernel,
    by decide +kernel, by decide +kernel, by simp only [State.room]; decide +kernel⟩

/-- An offer of call 7, which holds orbit 9, to station 383. -/
theorem witness_HeadCheckOffersHeads_orbit :
    orbited.record 7 = some (recordOf 7 1 (.queued 100000 none (some 9) false)) ∧
    (recordOf 7 1 (.queued 100000 none (some 9) false)).orbit = some 9 ∧ (orbited.stations.get 383).line = .idle := by
  decide +kernel

/-- Station 383, free, and call 11 at the head of group 1's queue. -/
theorem witness_MemberAvailableTakesHead :
    (raised false).hunt.headChecks = [] ∧ (raised false).hunt.available.head? = some 383 ∧ (raised true).hunt.headChecks ≠ [] ∧
    brim.candidate 383 = true ∧ groupsOf brim.hunt.active 383 ≤ 4 ∧
    383 ∈ (brim.activeGroup 1).members ∧
    (brim.queue 1).head? = some (recordOf 11 1 (.queued 100000 (some 100000) none false)) ∧
    (∀ h, 1 ≤ h → h ≤ 32 → 383 ∈ (brim.activeGroup h).members → h = 1 ∨ brim.queue h = []) ∧
    ({ brim with stations := lines.put 383 (onLine .seized none) } : State).candidate 383 = false := by
  have k : ∀ h, h < 33 → 1 ≤ h → 383 ∈ (brim.activeGroup h).members → h = 1 ∨ brim.queue h = [] := by decide +kernel
  exact ⟨by decide +kernel, by decide +kernel, by decide +kernel, by decide +kernel, by decide +kernel, by decide +kernel,
    by decide +kernel, fun h a b c => k h (by omega) a c, by decide +kernel⟩

/-! ### Witnesses: commit and requests -/

/-- The part with a staged bank that a commit refuses: two groups with one pilot. -/
def spoiled : State :=
  { brim with hunt := { brim.hunt with staged := bank.put 31 (piloted [1] [9] 1), countdown := none } }

theorem witness_CommitExpiryReplacesBank :
    brim.hunt.countdown = some 100000 ∧ 100000 ≤ brim.clock ∧ validate brim.hunt.staged = none ∧
    ({ brim with clock := 99999 } : State).clock < 100000 ∧ quiet.hunt.records = [] ∧ brim.Calm := by decide +kernel

theorem witness_CommitRequests :
    validate brim.hunt.staged = none ∧ validate spoiled.hunt.staged = some ⟨.sharedPilot, some 31, some 1⟩ ∧
    brim.hunt.countdown = some 100000 ∧ spoiled.hunt.countdown = none := by decide +kernel

theorem witness_RefusedRequestChangesNothing :
    requestOf (.commit 9 [0, 0, 1]) = some (9, 4, [0, 0, 1]) ∧
    ((spoiled.endBridge .down).request 4 [0, 0, 1]).outcome = .refusedState ∧
    ((spoiled.endBridge .down).request 4 [0, 0, 1]).data ≠ [] ∧
    requestOf (.unknownRequest 9 24 []) = some (9, 24, []) ∧
    ((brim.endBridge .down).request 24 []).outcome = .unknownRequest := by decide +kernel

theorem witness_ReadRequestsAnswer :
    tableOf (1#8).toNat = some .station ∧ Table.station.holds (bytesNat [1, 127]) = true ∧
    brim.room .up (replyParts (brim.entryBytes .station 383)).length ∧
    brim.room .up (replyParts brim.statusBytes).length ∧ readView [3] = some .orbits ∧ View.orbits.accepted = true ∧
    ownerOf (3#8).toNat (24#8).toNat = some (.zone 24) ∧ requestKnown 24 = false := by
  simp only [State.room]; decide +kernel

theorem witness_ReadRequestsAnswer_long_view :
    readView [6, 0, 24] = some (.zoneLive 24) ∧ (View.zoneLive 24).accepted = true ∧
    quiet.room .up (replyParts (office.viewBytes (.zoneLive 24))).length ∧
    requestKnown 0 = false := by
  simp only [State.room]; decide +kernel

theorem office_prompts_fit : office.prompts.Fits := ⟨by decide +kernel, by decide +kernel⟩

theorem witness_PromptRequests :
    office.room .up 2 ∧ bytesNat [0x7F, 0xFF] = 32767 ∧ ([] : List Sample).length = (0#8).toNat ∧
    (List.replicate 25 (1#16)).length = (25#8).toNat ∧ (List.replicate 24 (1#16)).length = (24#8).toNat ∧
    office.prompts.Fits ∧ 1 ≤ (24#8).toNat ∧ bytesNat [0x7F, 0xE8] + (24#8).toNat ≤ 32768 ∧
    32768 < bytesNat [0x7F, 0xE9] + (24#8).toNat := by
  refine ⟨by simp only [State.room]; decide +kernel, by decide, by decide, by decide, by decide, office_prompts_fit,
    by decide, by decide, by decide⟩

theorem witness_WriteEntryStores :
    Table.zoneSet.readWrite [1, 24] = some (.list [24]) ∧ Table.zoneSet.readOnly = false ∧
    (brim.writeTable .zoneSet 63 (.list [24])).isSome = true ∧ brim.writeTable .zoneSet 0 (.list [24]) = none ∧
    Table.activeMembers.readWrite [0] = some (.list []) ∧ Table.activeMembers.readOnly = true := by decide +kernel

theorem witness_WriteEntryStores_lists :
    ([24] : List Nat) ≠ [] ∧ (List.range' 1 24).Nodup ∧ (List.range' 1 24).length ≤ 24 ∧
    (∀ z ∈ List.range' 1 24, 1 ≤ z ∧ z ≤ 24) ∧ (∀ h ∈ [1, 63, 2], 1 ≤ h ∧ h ≤ 63 ∧ h ≠ 62) ∧
    ¬ (∀ h ∈ [63], 1 ≤ h ∧ h ≤ 63 ∧ h ≠ 63) ∧ (∀ n ∈ [383, 0], n ≤ 383) ∧ ¬ (∀ n ∈ [384], n ≤ 383) := by decide +kernel

theorem witness_WriteEntryStores_zone :
    ZoneFields.reset.Fits ∧
    ZoneFields.reset.write 0x0800 [.num 1, .num 0, .num 0, .num 0, .num 60000, .num 0, .num 0, .num 0, .num 0, .num 0,
      .num 0, .num 0, .num 0, .num 0] = some { ZoneFields.reset with pageGain := 4095 } :=
  ⟨by constructor <;> decide, by decide⟩

/-- A mark map and fields that a write takes, and those that refuse it. -/
theorem witness_WriteEntryStores_fields :
    let live : List FieldValue := List.replicate 8 (.num 0)
    live.length = 8 ∧
    (brim.writeTable .station 383 (.fields 0xFC00 ([.text (some [9]) true, .num 511, .num 24, .num 255, .num 3, .num 1] ++
      live))).isSome = true ∧
    brim.writeTable .station 383 (.fields 0xFE00 ([.text none true, .num 511, .num 24, .num 255, .num 3, .num 1] ++
      live)) = none ∧
    (brim.writeTable .accessCode 15 (.fields 0xE000 [.text (some [11]) true, .num 6, .num 2])).isSome = true ∧
    (brim.writeTable .tone 15 (.fields 0x2000 [.num 0, .num 0, .num 1, .num 0, .num 0])).isSome = true ∧
    (brim.writeTable .promptDir 31 (.fields 0xC000 [.num 32767, .num 1])).isSome = true ∧
    brim.writeTable .promptDir 31 (.fields 0xC000 [.num 32767, .num 2]) = none ∧
    (brim.writeTable .pagingParams 0 (.fields 0x0200 (List.replicate 7 (.num 15)))).isSome = true ∧
    (brim.writeTable .stagedGroup 32 (.fields 0x0080 ([.text none true, .num 0, .num 0, .num 0, .num 0, .text none true,
      .text none true] ++ List.replicate 7 (.num 0)))).isSome = true := by decide +kernel

/-- Zones to enable, to disable and to keep, with and without an ACTIVE alarm over them. -/
theorem witness_WriteEntryStores_enabling :
    let s : State := { brim with alarm := { brim.alarm with source := some .request, scope := some [2], claimed := [24] } }
    (brim.zones.get 2).fields.enabled = false ∧ brim.alarm.source = none ∧ s.alarm.source ≠ none ∧
    s.maint.mode = .engaged ∧ 2 ∈ s.alarm.scope.getD [] ∧ 2 ∉ s.alarm.claimed ∧
    (brim.zones.get 1).fields.enabled = true ∧ (brim.zones.get 1).claims = [] ∧
    (brim.zones.get 24).fields.enabled = true ∧ (brim.zones.get 24).claims = claims24 ∧ claims24 ≠ [] ∧
    (∃ c ∈ claims24, c.claimant = .session 8) ∧ (∀ c ∈ claims24, c.claimant ≠ .session 1) ∧
    ¬ (∃ c ∈ claims24, c.claimant = .alarm) := by decide +kernel

theorem witness_ClearEntryEmpties :
    bytesNat [1, 127] = 383 ∧ bytesNat [0, 24] = 24 ∧ bytesNat [0, 63] = 63 ∧ bytesNat [0, 15] = 15 ∧
    bytesNat [0, 31] = 31 ∧ bytesNat [0, 0] = 0 ∧ bytesNat [0, 32] = 32 ∧ bytesNat [0, 1] = 1 := by decide

theorem witness_SetModeChangesMode :
    quiet.maint.mode = .transparent ∧ quiet.alarm.source = none ∧ quiet.room .up 1 ∧ office.maint.mode = .engaged ∧
    (∀ r ∈ office.hunt.records, 1 ≤ r.group ∧ r.group ≤ 32) ∧
    ({ quiet with alarm := { quiet.alarm with source := some .input } } : State).alarm.source ≠ none ∧
    office.Calm ∧ quiet.Calm ∧ (office.stations.get 4).source = some 8 ∧
    (office.paging.sessions.get 8).map (·.source) = some 4 := by
  simp only [State.room]; decide +kernel

/-- A RESTART in ENGAGED mode with queued calls, and one in TRANSPARENT mode. -/
theorem witness_RestartReturnsBlocks :
    office.lane.phase = .inService ∧ office.Calm ∧ office.hunt.Fits ∧ office.maint.mode = .engaged ∧
    (office.queue 1).length ≠ 0 ∧ quiet.lane.phase = .inService ∧ quiet.Calm ∧ quiet.maint.mode = .transparent :=
  ⟨rfl, by decide +kernel, office_hunt_fits, by decide +kernel, by decide +kernel, rfl, by decide +kernel, by decide +kernel⟩

theorem witness_StationRequests_member_and_source :
    (brim.stations.get 7).line = .ringing ∧ (brim.stations.get 7).call = some 7 ∧ (brim.stations.get 7).source = none ∧
    brim.isMember 7 7 = true ∧ (brim.stations.get 4).line = .feature ∧ (brim.stations.get 4).source = some 8 ∧
    (brim.paging.sessions.get 8).map (·.source) = some 4 := by decide +kernel

theorem witness_StationRequests :
    bytesNat [1, 128] = 384 ∧ bytesNat [1, 127] = 383 ∧ (brim.stations.get 5).line = .outOfService ∧
    (brim.stations.get 383).line = .idle ∧ (brim.stations.get 383).source = none ∧ (brim.stations.get 2).line = .ringing ∧
    (brim.stations.get 2).source = none ∧ (∀ c, (brim.stations.get 2).call = some c → brim.isMember 2 c = false) :=
  ⟨by decide, by decide, by decide +kernel, by decide +kernel, by decide +kernel, by decide +kernel, by decide +kernel,
    whatever (a := 2) (by decide +kernel) (by decide +kernel)⟩

/-- An alarm with a source and a level of ALARM_IN. -/
def alarm (source : Option AlarmSource) (line : Bool) : State :=
  { brim with alarm := { brim.alarm with source := source, line := line } }

theorem witness_alarm :
    (alarm none false).alarm.source = none ∧ (alarm (some .request) false).alarm.source = some .request ∧
    (alarm none true).alarm.line = true ∧ (alarm (some .request) false).alarm.line = false ∧
    (alarm (some .request) false).alarm.claimed = [] ∧ (alarm (some .input) true).paging.params.autoExit = false ∧
    ({ alarm (some .input) true with paging := { brim.paging with params :=
      { PagingParams.reset with autoExit := true } } } : State).paging.params.autoExit = true := by decide +kernel

/-- A scope of every zone, one of which is enabled, none with a claim. -/
theorem witness_AlarmRequests_scope :
    let s : State := { quiet with zones := quiet.zones.put 24 { Zone.reset with fields :=
      { ZoneFields.reset with enabled := true } } }
    (List.range' 1 24).Nodup ∧ (∀ z ∈ List.range' 1 24, 1 ≤ z ∧ z ≤ 24) ∧ s.paging.params.alarmSet = 0 ∧
    (s.zones.get 24).fields.enabled = true ∧ ∀ z ∈ List.range' 1 24, (s.zones.get z).claims = [] := by decide +kernel

theorem witness_CauseAndCounters :
    2 < (3#8).toNat ∧ ownerOf (1#8).toNat (0#8).toNat = some .lane ∧ ownerOf (2#8).toNat (32#8).toNat = some (.group 32) ∧
    ownerOf (2#8).toNat (33#8).toNat = none := by decide

theorem witness_AttentionRequests :
    (0xFF#8 ++ 0xFE#8 : BitVec 16).getLsbD 0 = false ∧ (0#8 ++ 1#8 : BitVec 16).getLsbD 0 = true := by decide

/-! ### Witnesses: deadlines, claims, frames and reports -/

theorem witness_DeadlinesTaken :
    (brim.stations.get 8).wrapUp = some 100000 ∧ 100000 ≤ brim.clock ∧ (brim.stations.get 383).wrapUp = none ∧
    ((brim.paging.sessions.get 8).map (·.deadline)) = some 100000 ∧ (brim.paging.sessions.get 1).isNone = true ∧
    (brim.zones.get 24).beacon.pattern ≠ .off ∧ (brim.zones.get 24).beacon.boundary ≤ brim.clock ∧
    (brim.zones.get 1).beacon.pattern = .off := by decide +kernel

/-- The claims of zone 24 have the form of a claim list. -/
theorem claims24_fit : ClaimsFit claims24 :=
  { short := by decide
    distinct := by decide
    ordered := by decide
    voiceFirst := by decide
    classes := by
      intro c h
      simp only [claims24, List.mem_cons, List.not_mem_nil, or_false] at h
      rcases h with rfl | rfl | rfl <;> rfl }

/-- The empty claim list has its form. -/
theorem noClaims_fit : ClaimsFit [] := ⟨by decide, by decide, by decide, by decide, fun _ h => by cases h⟩

/-- A session that ends while it holds zone 24, with room for its tone and without. -/
theorem witness_DeadlinesTaken_session :
    (brim.paging.sessions.get 8).map (·.zones) = some [(24, .held)] ∧ (brim.zones.get 24).claims = claims24 ∧
    ClaimsFit claims24 ∧ claims24.head?.map Claim.claimant = some (.session 8) ∧
    (∀ c ∈ (brim.zones.get 1).claims, c.claimant ≠ .session 8) ∧ brim.room .down 1 ∧ ¬ full.room .down 1 :=
  ⟨by decide +kernel, by decide +kernel, claims24_fit, by decide, by decide +kernel,
    by simp only [State.room]; decide +kernel, by simp only [State.room]; decide +kernel⟩

/-- The part with a page of class NORMAL over an orbit on zone 5, one of class EMERGENCY on zone 24, set 63 over these, a
disabled zone and zone 1, set 62 over zone 24, and a pre-announce prompt of 77 samples. -/
def paged : State :=
  { office with
    lane := { office.lane with downQueue := cells 63 }
    zones := office.zones.put 5 { Zone.reset with
      fields := { ZoneFields.reset with enabled := true }, claims := [⟨.session 2, 3, []⟩, ⟨.orbit 9, 4, [.tone 12 (some 9)]⟩] }
    prompts := { office.prompts with directory := office.prompts.directory.put 31 (some ⟨5, 77⟩) }
    paging := { office.paging with
      params := { office.paging.params with preannounce := some 31 }
      zoneSets := entries office.paging.zoneSets [(63, some [24, 1, 3, 5]), (62, some [24])]
      sessions := office.paging.sessions.put 2 (some
        { source := 30, cls := .normal, talkSlot := 9, zones := [(5, .held)], phase := .live, frames := 0, start := 5,
          deadline := 100000 }) } }

/-- An EMERGENCY page on set 63: zone 24's head is of its class, zone 5's yields, zone 1 has none, zone 3 is disabled. -/
theorem witness_PageDecided_zones :
    let zones := ((paged.paging.zoneSets.get 63).getD []).filter fun z => (paged.zones.get z).fields.enabled
    let claim : Claim := ⟨.session 1, 0, [.prompt 31]⟩
    paged.room .up 2 ∧ paged.room .down 1 ∧
    paged.matchCode [10, 6, 9, 6, 3] = some (⟨[10, 6, 9], .page, .emergency⟩, [6, 3]) ∧
    paged.pageRefusal 0 63 .emergency = none ∧ paged.paging.sessions.get 1 = none ∧
    (paged.stations.get 0).talkSlot = some 511 ∧ zones = [24, 1, 5] ∧ zones.Nodup ∧
    (∀ z ∈ zones, ClaimsFit (paged.zones.get z).claims ∧
      ∀ c ∈ (paged.zones.get z).claims, c.claimant ≠ .session 1) ∧
    ((paged.endBridge .up).requestClaim 24 claim).2 = false ∧ ((paged.endBridge .up).requestClaim 5 claim).2 = true ∧
    (placeVoice claim (paged.zones.get 5).claims).isSome = true ∧
    (paged.paging.sessions.get 2).map (·.zones) = some [(5, .held)] := by
  have h : ((paged.paging.zoneSets.get 63).getD []).filter (fun z => (paged.zones.get z).fields.enabled) = [24, 1, 5] := by
    decide +kernel
  refine ⟨by simp only [State.room]; decide +kernel, by simp only [State.room]; decide +kernel, by decide +kernel,
    by decide +kernel, by decide +kernel, by decide +kernel, h, by rw [h]; decide, ?_, by decide +kernel,
    by decide +kernel, by decide +kernel, by decide +kernel⟩
  rw [h]
  intro z k
  simp only [List.mem_cons, List.not_mem_nil, or_false] at k
  rcases k with rfl | rfl | rfl
  · rw [show (paged.zones.get 24).claims = claims24 by decide +kernel]
    exact ⟨claims24_fit, by decide⟩
  · rw [show (paged.zones.get 1).claims = [] by decide +kernel]
    exact ⟨noClaims_fit, by decide⟩
  · rw [show (paged.zones.get 5).claims = [⟨.session 2, 3, []⟩, ⟨.orbit 9, 4, [.tone 12 (some 9)]⟩] by decide +kernel]
    refine ⟨⟨by decide, by decide, by decide, by decide, fun c m => ?_⟩, by decide⟩
    simp only [List.mem_cons, List.not_mem_nil, or_false] at m
    rcases m with rfl | rfl <;> rfl

/-- An EMERGENCY page on set 62, whose one zone has a head of that class. -/
theorem witness_PageDecided_none_granted :
    paged.pageRefusal 0 62 .emergency = none ∧
    ((paged.paging.zoneSets.get 62).getD []).filter (fun z => (paged.zones.get z).fields.enabled) = [24] ∧
    (paged.zones.get 24).claims = claims24 ∧
    ¬ ∀ c rest, claims24 = c :: rest → 0 < c.cls :=
  ⟨by decide +kernel, by decide +kernel, by decide +kernel, fun h => by cases h _ _ rfl⟩

theorem witness_ClaimGrants :
    ClaimsFit claims24 ∧ ClaimsFit [] ∧ holdsClaim claims24 (.session 1) = false ∧
    (⟨.session 1, 0, []⟩ : Claim).isVoice = true ∧ placeVoice ⟨.session 1, 0, []⟩ claims24 = none ∧
    (placeVoice ⟨.session 1, 0, []⟩ []).isSome = true ∧ (⟨.orbit 1, 4, []⟩ : Claim).isVoice = false ∧
    (placeResumable ⟨.orbit 1, 4, []⟩ claims24).isSome = true :=
  ⟨claims24_fit, noClaims_fit, by decide, by decide, by decide, by decide, by decide, by decide⟩

/-- Requests at the part: over a voice head, which is lost with its session's only zone; onto a list of four, whose assist
claim is evicted; for a disabled zone; and where the claimant stands already. -/
theorem witness_ClaimGrants_requests :
    let low : List Claim := [⟨.session 8, 3, []⟩, ⟨.orbit 1, 4, []⟩]
    let four : List Claim := [⟨.orbit 1, 4, []⟩, ⟨.orbit 2, 4, []⟩, ⟨.orbit 3, 4, []⟩, ⟨.assist, 5, []⟩]
    let alarm : Claim := ⟨.alarm, 1, []⟩
    ClaimsFit low ∧ ClaimsFit four ∧ alarm.classFits ∧ (office.zones.get 24).fields.enabled = true ∧
    (office.zones.get 2).fields.enabled = false ∧ holdsClaim low .alarm = false ∧ holdsClaim low (.session 8) = true ∧
    placeResumable alarm low = some ⟨[alarm, ⟨.orbit 1, 4, []⟩], true, some ⟨.session 8, 3, []⟩, none⟩ ∧
    placeResumable alarm four = some ⟨alarm :: four.take 3, true, none, some ⟨.assist, 5, []⟩⟩ ∧
    (office.paging.sessions.get 8).map (·.zones) = some [(24, .held)] ∧ brim.room .down 1 := by
  refine ⟨⟨by decide, by decide, by decide, by decide, ?_⟩, ⟨by decide, by decide, by decide, by decide, ?_⟩, rfl,
    by decide +kernel, by decide +kernel, by decide, by decide, by decide, by decide, by decide +kernel,
    by simp only [State.room]; decide +kernel⟩
  · intro c h
    simp only [List.mem_cons, List.not_mem_nil, or_false] at h
    rcases h with rfl | rfl <;> rfl
  · intro c h
    simp only [List.mem_cons, List.not_mem_nil, or_false] at h
    rcases h with rfl | rfl | rfl | rfl <;> rfl

theorem witness_FrameFormation :
    (List.replicate 512 (0#16)).length = 512 ∧ office.lane.phase = .inService ∧
    (held .pinReset).lane.phase ≠ .inService ∧ (office.zones.get 24).fields.enabled = true ∧
    (office.zones.get 24).fields.outputSlot = 511 ∧ (office.zones.get 2).fields.enabled = false := by decide +kernel

/-- An enabled zone with these claims. -/
def claimed (l : List Claim) (completed : Bool) : Zone :=
  { Zone.reset with fields := { ZoneFields.reset with enabled := true }, claims := l, completed := completed }

/-- Zones with a LIVE head, one in PREANNOUNCE, a resumable one and none, and no report outstanding. -/
theorem witness_FrameFormation_voice :
    let x (p : SessionPhase) : Session := { source := 4, cls := .normal, talkSlot := 511, zones := [(24, .held)], phase := p,
                                            frames := 1, start := 5, deadline := 100000 }
    let s : State := { quiet with
      zones := entries quiet.zones [(1, claimed [⟨.session 1, 3, []⟩] false), (2, claimed [⟨.session 8, 3, []⟩] false),
        (23, claimed [⟨.orbit 9, 4, []⟩] false), (24, claimed [] false)]
      paging := { quiet.paging with
        sessions := entries quiet.paging.sessions [(1, some (x .live)), (8, some (x .preannounce))] } }
    let u := s.takeReports
    (u.zones.get 1).claims = [⟨.session 1, 3, []⟩] ∧ u.paging.sessions.get 1 = some (x .live) ∧
    (u.zones.get 2).claims = [⟨.session 8, 3, []⟩] ∧ u.paging.sessions.get 8 = some (x .preannounce) ∧
    (u.zones.get 23).claims = [⟨.orbit 9, 4, []⟩] ∧ (u.zones.get 24).claims = [] := by decide +kernel

theorem witness_ZoneFrameStages :
    let f : ZoneFields := { ZoneFields.reset with musicBase := 16, duckStep := 16 }
    (0 ≤ f.musicBase + f.duckStep ∧ f.musicBase ≤ 0 + f.duckStep) ∧ 16 + f.duckStep < 33 ∧ 0 + f.duckStep < 17 ∧
    Zone.reset.claims = [] ∧ Zone.reset.audio.blockCount < 63 ∧ claims24 ≠ [] := by decide

/-- A block's 64th frame, with a sense slot and without; prompt entries with samples, with none and empty; a prompt's last
sample and one played out; descriptors with and without cadence; a tone cycle's last frame. -/
theorem witness_ZoneFrameStages_ends :
    let f : ZoneFields := { ZoneFields.reset with senseSlot := some 0 }
    let pr : Prompts := { Prompts.reset with
      directory := (Prompts.reset.directory.put 0 (some ⟨32767, 1⟩)).put 31 (some ⟨0, 0⟩)
      tones := Prompts.reset.tones.put 15 (some ⟨0, 32767, 0, 1, 0⟩) }
    63 ≤ ({ Audio.reset with blockCount := 63 } : Audio).blockCount ∧ f.senseSlot ≠ none ∧ ZoneFields.reset.senseSlot = none ∧
    pr.directory.get 0 = some ⟨32767, 1⟩ ∧ 0 < 1 ∧ pr.directory.get 31 = some ⟨0, 0⟩ ∧ pr.directory.get 30 = none ∧
    (0 < 1 ∧ 0 + 1 = 1) ∧ 1 ≤ 1 ∧ (Step.prompt 31 :: [] ≠ []) ∧ pr.tones.get 0 = none ∧
    pr.tones.get 15 = some ⟨0, 32767, 0, 1, 0⟩ ∧ 0 < 0 + 1 ∧ (∃ l, some 1 = some l ∧ l ≤ 1) := by
  refine ⟨by decide, by decide, by decide, by decide +kernel, by decide, by decide +kernel, by decide +kernel, by decide,
    by decide, by decide, by decide +kernel, by decide +kernel, by decide, 1, rfl, by decide⟩

theorem witness_SampleArithmetic :
    (4095 ≤ 4095 ∧ (-32768 : Int) ≤ -32768 ∧ (-32768 : Int) ≤ 32767) ∧ (65535 ≤ 65535 ∧ 0 < 1) ∧ triangle 0 = -16384 ∧
    triangle 32768 = 16383 := by decide

theorem witness_NoiseBlockEnds :
    let f : ZoneFields := { ZoneFields.reset with enabled := true, senseSlot := some 511 }
    let zn : Zone := { Zone.reset with fields := f, audio := { Audio.reset with blockCount := 63 } }
    let s : State := { quiet with zones := quiet.zones.put 24 zn }
    (s.zones.get 24).fields.enabled = true ∧ (s.zones.get 24).claims = [] ∧ 63 ≤ (s.zones.get 24).audio.blockCount ∧
    (s.zones.get 24).fields.senseSlot ≠ none ∧ (s.zones.get 23).fields.enabled = false := by decide +kernel

theorem witness_PlayerStepsOn :
    let tone : Zone := { Zone.reset with player := ⟨1, [.tone 15 none], .tone 255 1 1 0 .on 0 0⟩ }
    let prompt (k : Nat) : Zone := { Zone.reset with player := ⟨1, [.prompt 31], .prompt 0 32768 k⟩ }
    let s : State := { quiet with zones := entries quiet.zones [(1, tone), (2, prompt 32768), (24, prompt 32767)] }
    (s.zones.get 1).player.steps = [.tone 15 none] ∧ (s.zones.get 1).player.cursor = .tone 255 1 1 0 .on 0 0 ∧
    (s.zones.get 2).player.cursor = .prompt 0 32768 32768 ∧ (s.zones.get 24).player.cursor = .prompt 0 32768 32767 ∧
    (s.zones.get 3).player.cursor = .fresh ∧ s.prompts.tones.get 15 = none := by decide +kernel

/-- The cycle starts: a finite step's and a repeating one's at the end of its round, by descriptors with on time 0 and
off time 0, and by an empty one. -/
theorem witness_PlayerStepsOn_starts :
    let pr : Prompts := { Prompts.reset with
      tones := (Prompts.reset.tones.put 15 (some ⟨1, 0, 0, 1, 0⟩)).put 0 (some ⟨65535, 32767, 10000, 0, 255⟩) }
    0 < 255 ∧ (Cursor.cycleDue 255 = .cycleDue 255 ∨ ∃ inc amp off part phase,
      Cursor.cycleDue 255 = .tone 255 inc amp off part 0 phase) ∧
    pr.tones.get 15 = some ⟨1, 0, 0, 1, 0⟩ ∧ 0 < 0 + 1 ∧ pr.tones.get 0 = some ⟨65535, 32767, 10000, 0, 255⟩ ∧
    0 < 10000 + 0 ∧ pr.tones.get 1 = none :=
  ⟨by decide, .inl rfl, by decide +kernel, by decide, by decide +kernel, by decide, by decide +kernel⟩

theorem witness_ZoneReportsTaken :
    (office.zones.get 24).completed = true ∧ ClaimsFit (office.zones.get 24).claims ∧ (office.zones.get 24).claims ≠ [] ∧
    office.assistCount 24 = 0 ∧ (office.zones.get 24).loudReport = true ∧ (office.zones.get 1).completed = false ∧
    (office.zones.get 1).loudReport = false ∧ office.Calm ∧ (office.zones.get 2).fields.enabled = false :=
  ⟨by decide +kernel, (by decide +kernel : (office.zones.get 24).claims = claims24) ▸ claims24_fit, by decide +kernel,
    by decide +kernel, by decide +kernel, by decide +kernel, by decide +kernel, by decide, by decide +kernel⟩

/-- A completion report beside an empty claim list. -/
theorem witness_ZoneReportsTaken_no_claim :
    let s : State := { quiet with zones := quiet.zones.put 24 { Zone.reset with completed := true, loudReport := true } }
    (s.zones.get 24).completed = true ∧ ClaimsFit (s.zones.get 24).claims ∧ (s.zones.get 24).claims = [] ∧
    (s.zones.get 24).loudReport = true ∧ s.Calm :=
  ⟨by decide +kernel, (by decide +kernel : ((quiet.zones.put 24
    { Zone.reset with completed := true, loudReport := true }).get 24).claims = []) ▸ noClaims_fit, by decide +kernel,
    by decide +kernel, by decide⟩

theorem witness_PreannounceCounts :
    let x (k : Nat) : Session := { source := 4, cls := .normal, talkSlot := 0, zones := [(24, .held)], phase := .preannounce,
                                   frames := k, start := 5, deadline := 100000 }
    let p : Paging := { office.paging with frameReport := some [1, 8]
                                           sessions := entries office.paging.sessions [(1, some (x 1)), (8, some (x 2))] }
    p.frameReport = some [1, 8] ∧ [1, 8].Nodup ∧ p.sessions.get 1 = some (x 1) ∧ p.sessions.get 8 = some (x 2) ∧
    office.paging.frameReport = none := by decide +kernel

/-! ### Witnesses: every step -/

/-- What holds of every entry of a table and of those set holds of every entry then. -/
theorem entries_all {lo n : Nat} {α : Type} [Inhabited α] {p : α → Prop} (l : List (Nat × α)) :
    ∀ t : Tab lo n α, (∀ j, p (t.get j)) → (∀ e ∈ l, p e.2) → ∀ j, p ((entries t l).get j) := by
  induction l with
  | nil => exact fun _ h _ => h
  | cons e l ih =>
    exact fun t h k => ih _ (Tab.forall_put h (k e (.head _))) fun x hx => k x (.tail _ hx)

/-- A zone with no count is in a good state where its claims are and a completion report stands for an ANNOUNCE head only. -/
theorem zone_fits (zn : Zone) (h : ClaimsFit zn.claims) (c : zn.completed = true → zn.announcing = true)
    (p : zn.preemptions = 0) (s : zn.saturations = 0) : zn.Fits :=
  ⟨h, c, by rw [p]; exact Nat.zero_le _, by rw [s]; exact Nat.zero_le _⟩

/-- One claim of its claimant's class is a claim list. -/
theorem oneClaim_fits (c : Claim) (h : c.classFits) : ClaimsFit [c] :=
  ⟨by simp [Config.claims], by simp, by simp, by simp, by simpa using h⟩

/-- The part in use: an alarm with its claim on zone 1, orbit 9 with its record and a completion report on zone 23, a page
on zone 24, and stations 2 and 7 that ring. -/
def whole : State :=
  { office with
    hunt := { office.hunt with records := office.hunt.records ++ [recordOf 13 2 (.queued 100001 none (some 9) false)] }
    orbits := State.reset.orbits.put 9 (some ⟨13, 2, 5, 100000⟩)
    zones := entries State.reset.zones
      [(1, claimed [⟨.alarm, 1, []⟩] false), (23, claimed [⟨.orbit 9, 4, []⟩] true), (24, claimed claims24 false)]
    alarm := { office.alarm with source := some .request, scope := some [1], claimed := [1] }
    pending := [.powerOn] }

theorem whole_path_fits : whole.PathFits :=
  ⟨⟨by decide +kernel, by decide +kernel, by decide +kernel, by constructor <;> exact Nat.zero_le _⟩,
    ⟨by decide +kernel, by decide +kernel⟩, office_prompts_fit⟩

theorem whole_calls_fit : whole.CallsFit :=
  ⟨hunt_fits _ rfl (by decide +kernel),
    entries_all (p := Station.Fits) _ _ (Tab.forall_all (p := Station.Fits) (Nat.zero_le _) (Nat.zero_le _)) (by
      intro e h
      simp only [List.mem_cons, List.not_mem_nil, or_false] at h
      rcases h with rfl | rfl | rfl | rfl | rfl | rfl | rfl | rfl | rfl <;> exact Nat.zero_le _),
    ⟨Nat.zero_le _, Nat.zero_le _⟩, Nat.zero_le _⟩

theorem whole_zones_fit : whole.ZonesFit :=
  entries_all (p := Zone.Fits) _ _
    (Tab.forall_all (p := Zone.Fits) (zone_fits _ noClaims_fit nofun rfl rfl) (zone_fits _ noClaims_fit nofun rfl rfl)) (by
      intro e h
      simp only [List.mem_cons, List.not_mem_nil, or_false] at h
      rcases h with rfl | rfl | rfl
      · exact zone_fits _ (oneClaim_fits _ rfl) nofun rfl rfl
      · exact zone_fits _ (oneClaim_fits _ rfl) (fun _ => rfl) rfl rfl
      · exact zone_fits _ claims24_fit nofun rfl rfl)

theorem whole_ringing_fits : whole.RingingFits := ⟨by decide +kernel, by decide +kernel, by decide +kernel⟩

theorem whole_orbits_fit : whole.OrbitsFit := by
  intro n o h
  change (State.reset.orbits.put 9 (some ⟨13, 2, 5, 100000⟩)).get n = some o at h
  rw [Tab.get_put] at h
  split at h
  · rename_i e
    cases h; cases e.1
    exact ⟨recordOf 13 2 (.queued 100001 none (some 9) false), by decide +kernel, rfl, rfl, rfl⟩
  · have k := Tab.forall_all (lo := 1) (n := 9) (p := fun o : Option Orbit => o = none) (a := none) rfl rfl n
    rw [show State.reset.orbits.get n = none from k] at h; cases h

theorem whole_claims_held : whole.ClaimsHeld := by
  refine ⟨by decide, fun z h => ?_, fun i x z h k => ?_⟩
  · cases List.mem_singleton.mp h
    exact ⟨by decide +kernel, by decide +kernel⟩
  · change (State.reset.paging.sessions.put 8 _).get i = some x at h
    rw [Tab.get_put] at h
    split at h
    · rename_i e
      cases h; cases e.1
      cases List.mem_singleton.mp k
      exact ⟨by decide +kernel, by decide +kernel⟩
    · have k := Tab.forall_all (lo := 1) (n := 8) (p := fun o : Option Session => o = none) (a := none) rfl rfl i
      rw [show State.reset.paging.sessions.get i = none from k] at h; cases h

theorem witness_EveryStepKeepsFits : whole.Fits ∧ ∃ t, step whole = .next t :=
  ⟨⟨whole_path_fits, whole_calls_fit, whole_zones_fit, whole_ringing_fits, whole_orbits_fit, whole_claims_held⟩, _, rfl⟩

/-- An exit of the alarm that has its claim on zone 1. -/
theorem witness_AlarmRequests_exit :
    let s : State := { whole with paging := { whole.paging with params := { whole.paging.params with autoExit := true } } }
    s.alarm.source = some .request ∧ 1 ∈ s.alarm.claimed ∧ (s.zones.get 1).claims = [⟨.alarm, 1, []⟩] ∧
    ClaimsFit [⟨.alarm, 1, []⟩] ∧ (∃ c ∈ [(⟨.alarm, 1, []⟩ : Claim)], c.claimant = .alarm) ∧ 24 ∉ s.alarm.claimed ∧
    s.paging.params.autoExit = true ∧ s.lane.phase = .inService ∧ s.Calm :=
  ⟨rfl, by decide, by decide +kernel, oneClaim_fits _ rfl, ⟨_, .head _, rfl⟩, by decide, rfl, rfl, by decide⟩

/-- ATTENTION_CLEAR of RESET clears the flag; ATTENTION_MASK_SET of it changes the mask. -/
theorem witness_FlagsClearedOnlyByRequest :
    (Instr.attentionClear 9 [0x80, 0]).wf = true ∧ hasFlag office.maint.flags .reset = true ∧
    hasFlag (after (.attentionClear 9 [0x80, 0]) office).maint.flags .reset = false ∧
    (after (.attentionMaskSet 9 [0x80, 0]) office).maint.mask ≠ office.maint.mask ∧
    hasFlag (0x80#8 ++ 0#8) .reset = true := by decide +kernel

/-- A command that is neither a write nor the end of a reset; a write that changes an entry; a commit that is due, and one
by a COMMIT of delay 0. -/
theorem witness_ConfigurationChangesOnlyByRequest :
    (Instr.clearEntry 9 [1, 0, 0]).wf = true ∧ Instr.commitExpiry.wf = true ∧ Instr.alarmInActive.wf = true ∧
    (office.stations.get 0).talkSlot = some 511 ∧
    ((after (.clearEntry 9 [1, 0, 0]) office).stations.get 0).talkSlot = none ∧
    office.hunt.countdown = some 100000 ∧ (Instr.commit 9 [0, 0, 0]).wf = true ∧
    cellOf office.lane.own (.commit 9 [0, 0, 0]) = some (.down, ⟨office.lane.own, 0, .maint 9 4 [0, 0, 0]⟩) := by
  decide +kernel

/-! ### What the review asked for: order of work, and values kept -/

/-- A COMMIT of delay 0 has replaced the bank before the next command (03, R52). -/
theorem test_commit_without_delay :
    let t := after (.commit 9 [0, 0, 0]) { brim with hunt := { brim.hunt with
      records := [], countdown := none, staged := bank.put 32 (piloted [5] [8] 1) } }
    (t.hunt.active.get 32).members = [8] ∧ t.hunt.countdown = none ∧ hasFlag t.maint.flags .commitDone = true := by
  decide +kernel

/-- The head check that earlier work raised acts before the next cell: station 383 is offered call 11, and only then its
OFF_HOOK is taken, which loses that offer to GLARE and leaves the call queued again (01, R4; 04, R77, R83). -/
theorem test_raised_before_next_cell :
    let t := after (.offHook 383 0) { quiet with
      maint := office.maint, stations := lines, hunt := { office.hunt with headChecks := [1], countdown := none } }
    t.lane.downQueue = [.known ⟨383, 11, .offer [1] [] .external (some 1)⟩] ∧ (t.stations.get 383).line = .seized ∧
    (t.record 11).map (·.tried) = some [383] ∧ t.lane.upQueue.length = 2 := by decide +kernel

/-- A damaged cell leaves with its line-code violation at the same bit (01, R5). -/
theorem test_violation_kept :
    (after (.outgoingSlot .up) (after (.damagedCell .up ⟨[0x45, 0x01], 13⟩) quiet)).lane.upOut =
      some ⟨[0x45, 0x01], some 13⟩ := by decide +kernel

/-- A station's ring assist reaches its zone's assist count at the next re-evaluation (02, R23; 07, R136). -/
theorem test_assist_count_held :
    let s : State := { quiet with
      stations := quiet.stations.put 2 { onLine .ringing (some 2) with ringAssist := true, homeZone := some 1 }
      zones := quiet.zones.put 1 { Zone.reset with fields := { ZoneFields.reset with enabled := true } }
      pickup := { quiet.pickup with ringing := [⟨2, 2, 5, none⟩] } }
    (s.zones.get 1).assist = 0 ∧ ((after (.ringStarted 3 9) s).zones.get 1).assist = 1 := by decide +kernel

/-- After a prompt's last frame READ_LIVE shows the tone step behind it in its cycle 1 (09, R170). -/
theorem test_next_step_shown :
    let pr : Prompts := { Prompts.reset with tones := Prompts.reset.tones.put 12 (some ⟨8192, 16384, 2, 1, 0⟩) }
    pr.ahead ⟨1, [.prompt 5, .tone 12 none], .prompt 0 3 3⟩ = ⟨2, [.tone 12 none], .tone 1 8192 16384 8 .on 16 0⟩ := by
  decide +kernel

/-- ALARM_CLEAR leaves each claimed zone to its other claims: the orbit's chime behind the alarm starts from its first step
and the beacon goes off (07, R128, R137; 10, R178). -/
theorem test_alarm_exit_leaves_claims :
    let chime : Claim := ⟨.orbit 9, 4, [.prompt 3, .tone 12 (some 9)]⟩
    let s : State := { quiet with
      zones := quiet.zones.put 1 { claimed [⟨.alarm, 1, []⟩, chime] false with beacon := ⟨.alarmFlash, true, 500⟩ }
      alarm := { quiet.alarm with source := some .request, claimed := [1] } }
    let t := after (.alarmClear 9 []) s
    (t.zones.get 1).claims = [chime] ∧ (t.zones.get 1).player = ⟨1, chime.content, .fresh⟩ ∧
    (t.zones.get 1).beacon = Beacon.off ∧ t.alarm.source = none := by decide +kernel

end Sys2Proof.Tests
end

section
/-! PROOFS. The classifier on cells of unknown kind (01, R6): which bytes are of none, and how such a cell passes. -/

namespace Sys2Proof.Machine

variable {s : State}

/-- The range test that the classifier makes holds of the codes of 12, R195, and of no other. -/
theorem codeKnown_iff (d : Dir) (code : Nat) : codeKnown d code = true ↔ code ∈ knownCodes d := by
  cases d <;>
    (simp only [codeKnown, knownCodes, Bool.and_eq_true, decide_eq_true_eq, List.mem_cons, List.not_mem_nil, or_false]
     omega)

/-- The kind is judged by the first byte alone, before any length or contents (01, R6). -/
theorem parseCell_unknown {d : Dir} {b : Byte} (rest : List Byte) (h : b.toNat / 4 ∉ knownCodes d) :
    parseCell d (b :: rest) = .unknown := by
  have hk : ¬ codeKnown d (b.toNat / 4) = true := fun k => h ((codeKnown_iff d _).mp k)
  simp only [parseCell, if_neg hk]

/-- Bytes of unknown kind arrive in service where nothing is raised: they end their direction's bridge and join its queue,
with no block between (01, R4, R6). -/
theorem State.arriveBytes_unknown {d : Dir} {bytes : List Byte} (hp : s.lane.phase = .inService) (hc : s.Calm)
    (hu : parseCell d bytes = .unknown) :
    s.arriveBytes d bytes = (s.endBridge d).join d (.raw ⟨bytes, none⟩) := by
  simp only [State.arriveBytes, if_pos hp, State.settle_of_calm hc, hu]

/-- The row of a cell of unknown kind is the arrival of its bytes. -/
theorem exec_unknownKindCell (d : Dir) (bytes : List Byte) :
    exec (.unknownKindCell d bytes) s = .next (s.arriveBytes d bytes) := rfl

/-- Settles O9: the classifier finds no kind, and the cell joins the queue as it came, which has room for it. -/
theorem unknownKindPasses : Obligations.UnknownKindPasses := by
  intro d b rest s hcode hphase hcalm hroom
  have hjoin := State.join_room (.raw ⟨b :: rest, none⟩) ((State.endBridge_room d d 1).mpr hroom)
  rw [exec_unknownKindCell, State.arriveBytes_unknown hphase hcalm (parseCell_unknown rest hcode), hjoin]

end Sys2Proof.Machine
end

section
/-! PROOFS. The mixer's sum and the tone player's samples (08, R148; 09, R163): the products at their extremes, rounding to
the nearest, and the frames of a tone cycle's on-part. -/

namespace Sys2Proof.Machine

/-! ### The accumulation (08, R147, R148) -/

theorem effectiveGain_le (gain boost : Nat) : effectiveGain gain boost ≤ 4095 := Nat.min_le_right _ _

/-- A 16-bit sample at a 12-bit gain lies between the products of the extremes. -/
theorem sample_mul_gain_bounds {x : Int} {gain : Nat} (hl : -32768 ≤ x) (hu : x ≤ 32767) (hg : gain ≤ 4095) :
    -134184960 ≤ x * gain ∧ x * gain ≤ 134180865 := by
  have hlow : -32768 * (gain : Int) ≤ x * gain := Int.mul_le_mul_of_nonneg_right hl (by omega)
  have hhigh : x * (gain : Int) ≤ 32767 * gain := Int.mul_le_mul_of_nonneg_right hu (by omega)
  constructor <;> omega

/-- The unclamped sample is the nearest to a 1024th of the accumulation, a half rounded upward. -/
theorem unclamped_rounds (a : Int) : 1024 * unclamped a ≤ a + 512 ∧ a + 512 < 1024 * (unclamped a + 1) := by
  unfold unclamped
  omega

/-- Three products at their extremes stay within the 32-bit accumulator, and their unclamped sample within its range. -/
theorem accumulation_bounds {p q r : Int} (hp : -134184960 ≤ p ∧ p ≤ 134180865) (hq : -134184960 ≤ q ∧ q ≤ 134180865)
    (hr : -134184960 ≤ r ∧ r ≤ 134180865) :
    p.natAbs ≤ 134184960 ∧ q.natAbs ≤ 134184960 ∧ r.natAbs ≤ 134184960 ∧ (p + q + r).natAbs ≤ 402554880 ∧
    (402554880 : Nat) < 2 ^ 31 ∧ -393120 ≤ unclamped (p + q + r) ∧ unclamped (p + q + r) ≤ 393108 := by
  have hround := unclamped_rounds (p + q + r)
  omega

/-! ### The tone sample (09, R163) -/

theorem triangle_bounds {phase : Nat} (h : phase ≤ 65535) : -16384 ≤ triangle phase ∧ triangle phase ≤ 16383 := by
  unfold triangle
  split <;> omega

/-- The tone sample is the nearest to a 16384th of the product, a half rounded upward. -/
theorem toneSample_rounds (phase amp : Nat) :
    16384 * toneSample phase amp ≤ triangle phase * amp + 8192 ∧
    triangle phase * amp + 8192 < 16384 * (toneSample phase amp + 1) := by
  unfold toneSample
  omega

/-- The product of triangle and amplitude lies between the products at the wave's two peaks. -/
theorem triangle_mul_bounds {phase : Nat} (amp : Nat) (h : phase ≤ 65535) :
    -16384 * (amp : Int) ≤ triangle phase * amp ∧ triangle phase * amp ≤ 16383 * (amp : Int) := by
  obtain ⟨hl, hu⟩ := triangle_bounds h
  exact ⟨Int.mul_le_mul_of_nonneg_right hl (by omega), Int.mul_le_mul_of_nonneg_right hu (by omega)⟩

/-- At the negative peak of the wave the sample is the amplitude's negative, with nothing to round. -/
theorem toneSample_of_triangle_low {phase : Nat} (amp : Nat) (h : triangle phase = -16384) :
    toneSample phase amp = -(amp : Int) := by
  have hround := toneSample_rounds phase amp
  rw [h] at hround
  omega

theorem neg_amp_le_toneSample {phase : Nat} (amp : Nat) (h : phase ≤ 65535) : -(amp : Int) ≤ toneSample phase amp := by
  have hround := toneSample_rounds phase amp
  have hprod := triangle_mul_bounds amp h
  omega

theorem toneSample_le {phase amp : Nat} (h : phase ≤ 65535) (ha : amp ≤ 32767) : toneSample phase amp ≤ 32765 := by
  have hround := toneSample_rounds phase amp
  have hprod := triangle_mul_bounds amp h
  omega

/-- The highest sample, reached at the positive peak of the wave. -/
theorem toneSample_of_triangle_high {phase : Nat} (h : triangle phase = 16383) : toneSample phase 32767 = 32765 := by
  have hround := toneSample_rounds phase 32767
  rw [h] at hround
  omega

theorem toneSample_zero_amp (phase : Nat) : toneSample phase 0 = 0 := by
  have hround := toneSample_rounds phase 0
  omega

/-! ### An on-frame of a tone cycle (09, R162, R163) -/

section OnFrame

variable (limit : Option Nat) (cycle inc amp offFrames left phase : Nat)

/-- Whatever follows the frame, its sample is the tone sample at the phase before it. -/
theorem playCycle_on_sample :
    (playCycle limit (.tone cycle inc amp offFrames .on left phase)).sample = toneSample phase amp := by
  simp only [playCycle]
  split_ifs <;> rfl

/-- While on-frames are left the cycle counts one down and its phase advances. -/
theorem playCycle_on_running (h : 1 < left) :
    (playCycle limit (.tone cycle inc amp offFrames .on left phase)).cursor =
      some (.tone cycle inc amp offFrames .on (left - 1) ((phase + inc) % 65536)) := by
  have hleft : 0 < left - 1 := by omega
  simp only [playCycle, if_pos hleft]

/-- In the on-part, into the off-part and at the cycle's end, the cursor that stays has the advanced phase. -/
theorem playCycle_on_phase {c i a o k p : Nat} {part : TonePart}
    (h : (playCycle limit (.tone cycle inc amp offFrames .on left phase)).cursor = some (.tone c i a o part k p)) :
    p = (phase + inc) % 65536 := by
  simp only [playCycle] at h
  split_ifs at h <;> cases h <;> rfl

end OnFrame

/-- Settles O52: the sum from the bounds of its three products, the tone sample from those of its one, each through its
rounding; the on-frame by the cases of its cycle. -/
theorem sampleArithmetic : Obligations.SampleArithmetic := by
  refine ⟨fun zn v t m => ?sum, by decide, fun limit cycle inc amp offFrames left phase hphase _ => ?onFrame,
    fun phase amp hphase => ?negativePeak⟩
  case sum =>
    obtain ⟨hlow, hhigh⟩ := unclamped_rounds (zn.accumulate v t m)
    exact ⟨rfl, hlow, hhigh, fun hgain hv hv' ht ht' hm hm' =>
      accumulation_bounds (sample_mul_gain_bounds hv hv' (effectiveGain_le _ _))
        (sample_mul_gain_bounds ht ht' (effectiveGain_le _ _)) (sample_mul_gain_bounds hm hm' hgain)⟩
  case onFrame =>
    intro tri r
    have htri : tri = triangle phase := rfl
    have hsample : r.sample = toneSample phase amp := playCycle_on_sample ..
    obtain ⟨hlow, hhigh⟩ := toneSample_rounds phase amp
    have hprod := triangle_mul_bounds amp hphase
    have hneg := neg_amp_le_toneSample amp hphase
    rw [htri, hsample]
    refine ⟨triangle_bounds hphase, hlow, hhigh, playCycle_on_running limit cycle inc amp offFrames left phase,
      fun _ _ _ _ _ _ _ => playCycle_on_phase limit cycle inc amp offFrames left phase, fun hamp => ?_, ?_, ?_⟩
    · have hpos := toneSample_le hphase hamp
      omega
    · rintro rfl
      exact ⟨toneSample_of_triangle_low 32767, toneSample_of_triangle_high, hneg, toneSample_le hphase le_rfl⟩
    · rintro rfl
      exact toneSample_zero_amp phase
  case negativePeak =>
    have hpeak : toneSample 0 amp = -(amp : Int) := toneSample_of_triangle_low amp rfl
    exact ⟨hpeak, hpeak ▸ neg_amp_le_toneSample amp hphase⟩

end Sys2Proof.Machine
end

section
/-! PROOFS. The Alarm Latch's requests (10): what the Zone Arbiter's operations make of one zone's record, the alarm's
claims as they are placed and as they are withdrawn, and the two requests through the Maintenance Responder. -/

namespace Sys2Proof.Machine

variable {s t : State}

/-! ### Changes of one zone -/

theorem State.modZone_self {z : Nat} {f : Zone → Zone} (h : f (s.zones.get z) = s.zones.get z) : s.modZone z f = s := by
  unfold State.modZone
  rw [h, Tab.put_get]

theorem State.modZone_congr {z : Nat} {f g : Zone → Zone} (h : f (s.zones.get z) = g (s.zones.get z)) :
    s.modZone z f = s.modZone z g := by
  unfold State.modZone
  rw [h]

/-- A zone with a claim is one of the part's. -/
theorem State.zone_range_of_claim {z : Nat} {c : Claim} (h : c ∈ (s.zones.get z).claims) : 1 ≤ z ∧ z < 1 + 24 := by
  by_contra hz
  rw [Tab.get_of_not_mem _ hz] at h
  exact List.not_mem_nil h

/-- A part with another record of one zone and nothing else changed. -/
def State.onlyZone (z : Nat) (s t : State) : Prop := ∃ x, t = s.modZone z fun _ => x

theorem State.onlyZone.refl (s : State) (z : Nat) : s.onlyZone z s := ⟨s.zones.get z, (State.modZone_self rfl).symm⟩

theorem State.onlyZone.trans {u : State} {z : Nat} (h : s.onlyZone z t) (k : t.onlyZone z u) : s.onlyZone z u := by
  obtain ⟨x, rfl⟩ := h
  obtain ⟨y, rfl⟩ := k
  exact ⟨y, State.modZone_modZone ..⟩

theorem State.modZone_onlyZone (s : State) (z : Nat) (f : Zone → Zone) : s.onlyZone z (s.modZone z f) := ⟨_, rfl⟩

theorem State.onlyZone.zonesOnly {z : Nat} (h : s.onlyZone z t) : s.zonesOnly t := by
  obtain ⟨x, rfl⟩ := h
  exact s.modZone_zonesOnly z _

theorem State.onlyZone.get_ne {y z : Nat} (h : s.onlyZone y t) (hz : y ≠ z) : t.zones.get z = s.zones.get z := by
  obtain ⟨x, rfl⟩ := h
  exact Tab.get_put_ne _ _ hz

section Folds

variable {g : State → Nat → State} (hg : ∀ (t : State) y, t.onlyZone y (g t y))
include hg

theorem foldl_onlyZone_zonesOnly (l : List Nat) : s.zonesOnly (l.foldl g s) :=
  foldl_kept (fun t y (ht : s.zonesOnly t) => ht.trans (hg t y).zonesOnly) l State.zonesOnly.rfl

/-- Work on other zones leaves a zone as it was. -/
theorem foldl_onlyZone_get_ne {z : Nat} {l : List Nat} (hz : z ∉ l) : (l.foldl g s).zones.get z = s.zones.get z := by
  induction l generalizing s with
  | nil => rfl
  | cons y l ih =>
    rw [List.mem_cons, not_or] at hz
    exact (ih hz.2).trans ((hg s y).get_ne (Ne.symm hz.1))

/-- A zone's record takes its new form where its number comes first, and work on it once more leaves that form. -/
theorem foldl_onlyZone_get {z : Nat} {b : Zone} {l : List Nat} (hl : z ∈ l)
    (hz : ∀ t, s.zonesOnly t → t.zones.get z = s.zones.get z ∨ t.zones.get z = b → (g t z).zones.get z = b) :
    (l.foldl g s).zones.get z = b := by
  have fold : ∀ (l : List Nat) (t : State), s.zonesOnly t →
      (z ∈ l ∧ t.zones.get z = s.zones.get z) ∨ t.zones.get z = b → (l.foldl g t).zones.get z = b := by
    intro l
    induction l with
    | nil =>
      intro t _ ht
      exact ht.resolve_left fun h => List.not_mem_nil h.1
    | cons y l ih =>
      intro t hs ht
      refine ih _ (hs.trans (hg t y).zonesOnly) ?_
      by_cases hy : y = z
      · subst hy
        exact .inr (hz t hs (ht.imp_left And.right))
      · rw [(hg t y).get_ne hy]
        exact ht.imp_left fun h => ⟨(List.mem_cons.mp h.1).resolve_left (Ne.symm hy), h.2⟩
  exact fold l s .rfl (.inl ⟨hl, rfl⟩)

end Folds

/-! ### Beacons and heads (07, R128, R137) -/

theorem State.beaconPattern_eq (s : State) (z : Nat) :
    s.beaconPattern z = shownPattern s.alarm.claimed z (s.zones.get z) := by
  simp only [State.beaconPattern, shownPattern, List.contains_iff_mem, Bool.not_eq_true', Bool.and_eq_true,
    List.isEmpty_eq_false_iff, ne_eq]

/-- A beacon that shows its pattern stays as it is. -/
theorem State.shows_of_shown {claimed : List Nat} {z : Nat} {x : Zone} (h : x.beacon.pattern = shownPattern claimed z x) :
    s.shows claimed z x = x := if_pos h

/-- The choice of a beacon changes the beacon alone, which then shows its pattern. -/
theorem State.shows_beacon (s : State) (claimed : List Nat) (z : Nat) (x : Zone) :
    ∃ b : Beacon, b.pattern = shownPattern claimed z x ∧ s.shows claimed z x = { x with beacon := b } := by
  unfold State.shows
  split
  · exact ⟨x.beacon, by assumption, rfl⟩
  · exact ⟨_, rfl, rfl⟩

@[simp] theorem State.shows_claims (s : State) (claimed : List Nat) (z : Nat) (x : Zone) :
    (s.shows claimed z x).claims = x.claims := by
  obtain ⟨b, -, e⟩ := s.shows_beacon claimed z x
  rw [e]

@[simp] theorem State.headed_claims (s : State) (z : Nat) (x : Zone) : (s.headed z x).claims = x.claims :=
  s.shows_claims ..

/-- A beacon that has been chosen is not changed by the same choice. -/
theorem State.shows_shows (s : State) (claimed : List Nat) (z : Nat) (x : Zone) :
    s.shows claimed z (s.shows claimed z x) = s.shows claimed z x := by
  obtain ⟨b, hb, e⟩ := s.shows_beacon claimed z x
  rw [e]
  exact State.shows_of_shown hb

theorem State.chooseBeacon_eq (s : State) (z : Nat) : s.chooseBeacon z = s.modZone z (s.shows s.alarm.claimed z) := by
  unfold State.chooseBeacon
  dsimp only
  rw [s.beaconPattern_eq]
  split
  · rename_i h
    exact (State.modZone_self (State.shows_of_shown h)).symm
  · rename_i h
    refine State.modZone_congr ?_
    unfold State.shows
    rw [if_neg h]
    cases shownPattern s.alarm.claimed z (s.zones.get z) <;> rfl

theorem State.headChange_eq (s : State) (z : Nat) : s.headChange z = s.modZone z (s.headed z) := by
  unfold State.headChange
  rw [State.chooseBeacon_eq, State.modZone_modZone]
  refine State.modZone_congr ?_
  unfold State.headed playerFor
  simp only [List.isEmpty_iff]
  rfl

theorem State.applyGrant_eq (s : State) (z : Nat) (g : Grant) : s.applyGrant z g = s.modZone z fun _ => s.granted z g := by
  unfold State.applyGrant State.granted
  cases g.first
  · rfl
  · simp only [if_true]
    rw [State.headChange_eq, State.modZone_modZone]
    refine State.modZone_congr ?_
    simp only [Bool.true_and, Bool.not_eq_true', List.isEmpty_eq_false_iff, ite_not]
    rfl

/-! ### A claim that leaves its zone (07, R128, R129) -/

/-- A zone record without a claimant's claim: where that was the head, the next one starts its content. -/
def State.claimGone (s : State) (z : Nat) (who : Claimant) (x : Zone) : Zone :=
  let left : Zone := { x with claims := x.claims.filter fun c => c.claimant ≠ who }
  if x.claims.head?.map Claim.claimant = some who then s.headed z left else left

@[simp] theorem State.claimGone_claims (s : State) (z : Nat) (who : Claimant) (x : Zone) :
    (s.claimGone z who x).claims = x.claims.filter fun c => c.claimant ≠ who := by
  unfold State.claimGone
  split
  · exact s.headed_claims ..
  · rfl

theorem State.removeClaim_eq {z : Nat} {who : Claimant} (h : holdsClaim (s.zones.get z).claims who = true) :
    s.removeClaim z who = s.modZone z (s.claimGone z who) := by
  unfold State.removeClaim
  dsimp only
  rw [if_pos h, State.headChange_eq, State.modZone_modZone]
  unfold State.claimGone
  cases hl : (s.zones.get z).claims with
  | nil => rw [hl] at h; cases h
  | cons c rest =>
    by_cases hc : c.claimant = who
    · simp only [hc, decide_true, if_true]
      exact State.modZone_congr (by simp only [hl, List.head?_cons, Option.map_some, hc, if_true]; rfl)
    · simp only [hc, decide_false, Bool.false_eq_true, if_false]
      exact State.modZone_congr (by simp only [hl, List.head?_cons, Option.map_some, Option.some.injEq, hc, if_false])

/-! ### The assist claim (07, R136) -/

/-- A claim of the lowest class is the assist claim. -/
theorem Claim.classFits.assist {c : Claim} (h : c.classFits) (h5 : 5 ≤ c.cls) : c.claimant = .assist := by
  unfold Claim.classFits at h
  split at h
  · simp only [Claim.isVoice, Bool.or_eq_true, beq_iff_eq] at h
    omega
  · omega
  · omega
  · assumption

theorem filter_claimant_lt {l : List Claim} {who : Claimant} :
    (l.filter fun c => c.claimant ≠ who).length < l.length ↔ holdsClaim l who = true := by
  simp [List.length_filter_lt_length_iff_exists, holdsClaim_iff]

/-- The assist claim is the head only where it stands alone, since every other class outranks its own. -/
theorem ClaimsFit.assist_head_iff {l : List Claim} (h : ClaimsFit l) (ha : holdsClaim l .assist = true) :
    l.head?.map Claim.claimant = some .assist ↔ (l.filter fun c => c.claimant ≠ .assist) = [] := by
  cases l with
  | nil => cases ha
  | cons c rest =>
    simp only [List.head?_cons, Option.map_some, Option.some.injEq, List.filter_eq_nil_iff, decide_eq_true_eq, not_not]
    refine ⟨fun hc d hd => (h.classes d hd).assist ?_, fun hall => hall c List.mem_cons_self⟩
    have h5 : c.cls = 5 := by
      have hfit := h.classes c List.mem_cons_self
      unfold Claim.classFits at hfit
      rwa [hc] at hfit
    exact le_of_head_le h.ordered (fun e he => by cases he; exact h5.ge) d hd

/-- A resumable claim of the lowest class goes behind the others, and is refused by a list of four (07, R127). -/
theorem ClaimsFit.placeResumable_lowest {c : Claim} {l : List Claim} (h : ClaimsFit l) (hc : c.cls = 5) :
    Machine.placeResumable c l =
      if l.length < 4 then some { claims := l ++ [c], first := l.isEmpty, lost := none, evicted := none } else none := by
  have hle : ∀ d ∈ l, decide (d.cls ≤ c.cls) = true := fun d hd =>
    decide_eq_true (hc ▸ (h.classes d hd).le_five)
  have htake : l.takeWhile (fun d => decide (d.cls ≤ c.cls)) = l := List.takeWhile_eq_self_iff.mpr hle
  have hdrop : l.dropWhile (fun d => decide (d.cls ≤ c.cls)) = [] := List.dropWhile_eq_nil_iff.mpr hle
  unfold Machine.placeResumable
  rw [htake, List.all_eq_true.mpr hle]
  by_cases hn : l = []
  · subst hn
    rfl
  · by_cases hs : l.length < 4
    · have hev : evictFifth (l ++ [c]) = (l ++ [c], none) :=
        evictFifth_short (by rw [List.length_append]; exact hs)
      simp [hn, hs, Config.claims, rankInsert, htake, hdrop, hev]
    · simp [hn, hs, Config.claims]

theorem State.assistWanted_iff (s : State) (z : Nat) :
    s.assistWanted z = true ↔ s.maint.mode = .engaged ∧ (s.zones.get z).fields.enabled = true ∧ 0 < s.assistCount z ∧
      (s.zones.get z).audio.loud = true := by
  simp only [State.assistWanted, State.zoneEnabled, Bool.and_eq_true, beq_iff_eq, decide_eq_true_eq, and_assoc]

/-- What becomes of a zone's own record, in the model's own words for what is wanted and what stands. -/
theorem State.assisted_zone (s : State) (z : Nat) :
    let x := s.zones.get z
    let y := { x with assist := s.assistCount z }
    let others := x.claims.filter fun c => c.claimant ≠ .assist
    s.assisted z x =
      if holdsClaim x.claims .assist = true then
        if s.assistWanted z = true then y
        else if others = [] then s.headed z { y with claims := [] } else { y with claims := others }
      else if s.assistWanted z = true ∧ x.claims.length < 4 then
        if x.claims = [] then s.headed z { y with claims := [s.assistClaim] }
        else { y with claims := x.claims ++ [s.assistClaim] }
      else y := by
  simp only [State.assisted, filter_claimant_lt, State.assistWanted_iff]
  rfl

/-- Where the assist claim stands and is not wanted, it goes, and with it the head where it was alone (07, R128, R136). -/
theorem State.removeAssist_eq {z : Nat} (hl : ClaimsFit (s.zones.get z).claims)
    (hp : holdsClaim (s.zones.get z).claims .assist = true) :
    s.removeClaim z .assist = s.modZone z fun x =>
      let others := x.claims.filter fun c => c.claimant ≠ .assist
      if others = [] then s.headed z { x with claims := [] } else { x with claims := others } := by
  rw [State.removeClaim_eq hp]
  refine State.modZone_congr ?_
  simp only [State.claimGone, hl.assist_head_iff hp]
  by_cases h : ((s.zones.get z).claims.filter fun c => c.claimant ≠ .assist) = []
  · rw [if_pos h, if_pos h, h]
  · rw [if_neg h, if_neg h]

/-- Where the assist claim joins a list as its lowest, it is the head of an empty one (07, R127, R128). -/
theorem State.applyGrant_lowest (s : State) (z : Nat) (c : Claim) :
    s.applyGrant z { claims := (s.zones.get z).claims ++ [c], first := (s.zones.get z).claims.isEmpty, lost := none,
                     evicted := none } =
      s.modZone z fun x =>
        if x.claims = [] then s.headed z { x with claims := [c] } else { x with claims := x.claims ++ [c] } := by
  rw [State.applyGrant_eq]
  refine State.modZone_congr ?_
  by_cases h : (s.zones.get z).claims = [] <;> simp [State.granted, h]

/-- The re-evaluation of a zone's assist claim is the one that the statements speak of (07, R136). -/
theorem State.reevaluateAssist_eq {z : Nat} (hz : 1 ≤ z ∧ z < 1 + 24) (hl : ClaimsFit (s.zones.get z).claims) :
    s.reevaluateAssist z = s.modZone z (s.assisted z) := by
  have hcount : s.countAssist z = s.modZone z fun x => { x with assist := s.assistCount z } := rfl
  have hx : (s.countAssist z).zones.get z = { s.zones.get z with assist := s.assistCount z } := Tab.get_put_same _ _ hz
  have hclaims : ((s.countAssist z).zones.get z).claims = (s.zones.get z).claims := by rw [hx]
  have hwant : (s.countAssist z).assistWanted z = s.assistWanted z := by
    rw [Bool.eq_iff_iff, State.assistWanted_iff, State.assistWanted_iff, hx]
    rfl
  rw [show s.modZone z (s.assisted z) = s.modZone z fun _ => s.assisted z (s.zones.get z) from rfl, s.assisted_zone z]
  unfold State.reevaluateAssist
  simp only [hclaims, hwant]
  by_cases hp : holdsClaim (s.zones.get z).claims .assist = true
  · by_cases hw : s.assistWanted z = true
    · simp only [hp, hw, if_true]
      exact hcount.trans (State.modZone_congr rfl)
    · simp only [hp, hw, if_true, Bool.false_eq_true, if_false]
      rw [State.removeAssist_eq (hclaims ▸ hl) (hclaims ▸ hp), hcount, State.modZone_modZone]
      exact State.modZone_congr rfl
  · rw [show (s.countAssist z).assistClaim = s.assistClaim from rfl, hl.placeResumable_lowest rfl]
    have hstays : s.countAssist z = s.modZone z fun _ => { s.zones.get z with assist := s.assistCount z } :=
      hcount.trans (State.modZone_congr rfl)
    by_cases hw : s.assistWanted z = true
    · by_cases hs : (s.zones.get z).claims.length < 4
      · have hgrant := (s.countAssist z).applyGrant_lowest z s.assistClaim
        rw [hclaims] at hgrant
        simp only [hp, hw, hs, and_self, if_true, Bool.false_eq_true, if_false, hgrant]
        rw [hcount, State.modZone_modZone]
        exact State.modZone_congr rfl
      · simpa only [hp, hw, hs, and_false, if_true, Bool.false_eq_true, if_false] using hstays
    · simpa only [hp, hw, Bool.false_eq_true, false_and, if_false] using hstays

/-- The re-evaluation changes no claim but the assist claim. -/
theorem State.assisted_others (s : State) (z : Nat) (x : Zone) :
    ((s.assisted z x).claims.filter fun c => c.claimant ≠ .assist) = x.claims.filter fun c => c.claimant ≠ .assist := by
  unfold State.assisted
  dsimp only
  split_ifs with _ _ hall _ hnone
  · rfl
  · rw [s.headed_claims, hall]
    rfl
  · rw [List.filter_filter]
    simp only [Bool.and_self]
  · rw [s.headed_claims, hnone]
    rfl
  · rw [List.filter_append]
    exact List.append_nil _
  · rfl

/-! ### The alarm's claims withdrawn (10, R178) -/

/-- A zone record that the alarm's claim has left, before its beacon is chosen again. -/
def State.alarmGone (s : State) (z : Nat) (x : Zone) : Zone := s.assisted z (s.claimGone z .alarm x)

theorem State.alarmGone_others (s : State) (z : Nat) (x : Zone) :
    ((s.alarmGone z x).claims.filter fun c => c.claimant ≠ .assist) =
      (x.claims.filter fun c => c.claimant ≠ .alarm).filter fun c => c.claimant ≠ .assist := by
  rw [State.alarmGone, s.assisted_others, s.claimGone_claims]

theorem State.alarmGone_no_alarm (s : State) (z : Nat) (x : Zone) :
    ∀ c ∈ (s.alarmGone z x).claims, c.claimant ≠ .alarm := by
  intro c hc halarm
  have hmem : c ∈ (s.alarmGone z x).claims.filter fun c => c.claimant ≠ .assist :=
    List.mem_filter.mpr ⟨hc, by rw [halarm]; rfl⟩
  rw [s.alarmGone_others] at hmem
  have hleft := List.of_mem_filter (List.mem_of_mem_filter hmem)
  simp [halarm] at hleft

theorem State.withdrawClaim_of_absent {z : Nat} {who : Claimant} (h : ∀ c ∈ (s.zones.get z).claims, c.claimant ≠ who) :
    s.withdrawClaim z who = s := by
  have hn : ¬ holdsClaim (s.zones.get z).claims who = true := fun hp => by
    obtain ⟨c, hc, hw⟩ := holdsClaim_iff.mp hp
    exact h c hc hw
  exact if_neg hn

theorem State.withdrawAlarmClaim_eq {z : Nat} (hl : ClaimsFit (s.zones.get z).claims)
    (h : ∃ c ∈ (s.zones.get z).claims, c.claimant = .alarm) : s.withdrawClaim z .alarm = s.modZone z (s.alarmGone z) := by
  have hholds := holdsClaim_iff.mpr h
  obtain ⟨c, hc, -⟩ := h
  have hz := State.zone_range_of_claim hc
  have hleft : (s.modZone z (s.claimGone z .alarm)).zones.get z = s.claimGone z .alarm (s.zones.get z) :=
    Tab.get_put_same _ _ hz
  have hfit : ClaimsFit ((s.modZone z (s.claimGone z .alarm)).zones.get z).claims := by
    rw [hleft, s.claimGone_claims]
    exact hl.remove .alarm
  unfold State.withdrawClaim
  rw [if_pos hholds, State.removeClaim_eq hholds, State.reevaluateAssist_eq hz hfit, State.modZone_modZone]
  rfl

theorem State.chooseBeacon_onlyZone (s : State) (z : Nat) : s.onlyZone z (s.chooseBeacon z) := by
  rw [s.chooseBeacon_eq]
  exact s.modZone_onlyZone z _

theorem State.applyGrant_onlyZone (s : State) (z : Nat) (g : Grant) : s.onlyZone z (s.applyGrant z g) := by
  rw [s.applyGrant_eq]
  exact s.modZone_onlyZone z _

theorem State.removeClaim_onlyZone (s : State) (z : Nat) (who : Claimant) : s.onlyZone z (s.removeClaim z who) := by
  by_cases h : holdsClaim (s.zones.get z).claims who = true
  · rw [State.removeClaim_eq h]
    exact s.modZone_onlyZone z _
  · rw [show s.removeClaim z who = s from if_neg h]
    exact .refl s z

theorem State.reevaluateAssist_onlyZone (s : State) (z : Nat) : s.onlyZone z (s.reevaluateAssist z) := by
  have hcount : s.onlyZone z (s.countAssist z) := s.modZone_onlyZone z _
  refine hcount.trans ?_
  unfold State.reevaluateAssist
  dsimp only
  split
  · split
    · exact .refl _ z
    · split
      · exact .refl _ z
      · exact State.applyGrant_onlyZone _ z _
  · split
    · exact State.removeClaim_onlyZone _ z _
    · exact .refl _ z

theorem State.withdrawClaim_onlyZone (s : State) (z : Nat) (who : Claimant) : s.onlyZone z (s.withdrawClaim z who) := by
  unfold State.withdrawClaim
  split
  · exact (s.removeClaim_onlyZone z who).trans (State.reevaluateAssist_onlyZone _ z)
  · exact .refl s z

/-- The part with the alarm's claims withdrawn, its claimed list and scope gone, and the beacons not yet chosen again. -/
def State.alarmUnclaimed (s : State) : State :=
  (s.alarm.claimed.foldl (fun t z => t.withdrawClaim z .alarm) s).modAlarm fun a => { a with claimed := [], scope := none }

theorem State.withdrawAlarm_fold (s : State) :
    s.withdrawAlarm = s.alarm.claimed.foldl (fun t z => t.chooseBeacon z) s.alarmUnclaimed := rfl

theorem State.alarmUnclaimed_rest (s : State) :
    s.alarmUnclaimed = { s with
      zones := s.alarmUnclaimed.zones, alarm := { s.alarm with claimed := [], scope := none } } := by
  have h : s.zonesOnly (s.alarm.claimed.foldl (fun t z => t.withdrawClaim z .alarm) s) :=
    foldl_onlyZone_zonesOnly (fun t z => t.withdrawClaim_onlyZone z .alarm) _
  unfold State.alarmUnclaimed
  rw [h]
  rfl

/-- The withdrawal of the alarm's claims changes zones, and empties the claimed list and the scope. -/
theorem State.withdrawAlarm_rest (s : State) :
    s.withdrawAlarm = { s with
      zones := s.withdrawAlarm.zones, alarm := { s.alarm with claimed := [], scope := none } } := by
  have h : s.alarmUnclaimed.zonesOnly s.withdrawAlarm :=
    foldl_onlyZone_zonesOnly (fun t z => t.chooseBeacon_onlyZone z) _
  rw [State.zonesOnly, s.alarmUnclaimed_rest] at h
  exact h

theorem State.withdrawAlarm_get_ne {z : Nat} (hz : z ∉ s.alarm.claimed) :
    s.withdrawAlarm.zones.get z = s.zones.get z := by
  have hbeacon : s.withdrawAlarm.zones.get z = s.alarmUnclaimed.zones.get z :=
    foldl_onlyZone_get_ne (fun t z => t.chooseBeacon_onlyZone z) hz
  exact hbeacon.trans (foldl_onlyZone_get_ne (fun t z => t.withdrawClaim_onlyZone z .alarm) hz)

theorem State.alarmUnclaimed_get {z : Nat} (hz : z ∈ s.alarm.claimed) (hl : ClaimsFit (s.zones.get z).claims)
    (h : ∃ c ∈ (s.zones.get z).claims, c.claimant = .alarm) :
    s.alarmUnclaimed.zones.get z = s.alarmGone z (s.zones.get z) := by
  refine foldl_onlyZone_get (fun t z => t.withdrawClaim_onlyZone z .alarm) hz fun t ht hzone => ?_
  rcases hzone with hbefore | hafter
  · have hrange := h.elim fun _ hc => State.zone_range_of_claim hc.1
    rw [State.withdrawAlarmClaim_eq (hbefore ▸ hl) (hbefore ▸ h), ht]
    exact (Tab.get_put_same _ _ hrange).trans (congrArg _ hbefore)
  · rw [State.withdrawClaim_of_absent (hafter ▸ s.alarmGone_no_alarm z _), hafter]

theorem State.withdrawAlarm_get {z : Nat} (hz : z ∈ s.alarm.claimed) (hl : ClaimsFit (s.zones.get z).claims)
    (h : ∃ c ∈ (s.zones.get z).claims, c.claimant = .alarm) :
    s.withdrawAlarm.zones.get z = s.shows [] z (s.alarmGone z (s.zones.get z)) := by
  have hrange := h.elim fun _ hc => State.zone_range_of_claim hc.1
  have hgone := State.alarmUnclaimed_get hz hl h
  rw [s.withdrawAlarm_fold]
  refine foldl_onlyZone_get (fun t z => t.chooseBeacon_onlyZone z) hz fun t ht hzone => ?_
  have hchosen : (t.chooseBeacon z).zones.get z = s.shows [] z (t.zones.get z) := by
    rw [t.chooseBeacon_eq, ht, s.alarmUnclaimed_rest]
    exact Tab.get_put_same _ _ hrange
  rcases hzone with hbefore | hafter
  · rw [hchosen, hbefore, hgone]
  · rw [hchosen, hafter, s.shows_shows]

/-- What the withdrawal leaves of the zones is what the statements say an exit leaves. -/
theorem State.withdrawAlarm_left (s : State) : s.leftByAlarm s.withdrawAlarm.zones := by
  refine fun z => ⟨fun hz => State.withdrawAlarm_get_ne hz, fun hz hl h => ?_⟩
  have hget := State.withdrawAlarm_get hz hl h
  refine ⟨hget, ?_, ?_⟩
  · rw [hget, s.shows_claims]
    exact s.alarmGone_no_alarm z _
  · rw [hget, s.shows_claims]
    exact s.alarmGone_others z _

theorem State.exitAlarm_eq (s : State) :
    s.exitAlarm =
      ({ s with zones := s.withdrawAlarm.zones
                alarm := { source := none, scope := none, claimed := [], line := s.alarm.line } } : State).setFlag
        .alarmCleared := by
  unfold State.exitAlarm
  conv_lhs => rw [s.withdrawAlarm_rest]
  rfl

/-! ### The alarm's claims placed (10, R174) -/

/-- Every claim is granted on an empty list, and is its head (07, R126, R127). -/
theorem place_nil (c : Claim) : (if c.isVoice then placeVoice c [] else placeResumable c []) =
    some { claims := [c], first := true, lost := none, evicted := none } := by
  split <;> rfl

theorem State.requestClaim_empty {z : Nat} (c : Claim) (he : s.zoneEnabled z = true)
    (hl : (s.zones.get z).claims = []) :
    s.requestClaim z c = (s.modZone z fun x => s.headed z { x with claims := [c] }, true) := by
  unfold State.requestClaim
  dsimp only
  rw [hl, place_nil, he]
  simp only [holdsClaim, List.any_nil, Bool.not_true, Bool.or_self, Bool.false_eq_true, if_false, State.settleGrant,
    Option.isSome_none, Prod.mk.injEq, and_true]
  rw [s.applyGrant_eq]
  exact State.modZone_congr (by simp only [State.granted, hl, if_true])

/-- An empty zone's record as the alarm takes it: its claim the head, its tone at the beginning, its beacon ALARM_FLASH from
now (07, R128, R137; 10, R174). -/
def State.alarmTaken (s : State) (c : Claim) (x : Zone) : Zone :=
  { x with claims := [c], player := ⟨1, c.content, .fresh⟩, completed := false
           beacon := { pattern := .alarmFlash, line := true, boundary := s.clock + 500 } }

theorem shownPattern_ne_alarmFlash {claimed : List Nat} {z : Nat} {x : Zone} (hz : z ∉ claimed) :
    shownPattern claimed z x ≠ .alarmFlash := by
  unfold shownPattern
  rw [if_neg hz]
  split_ifs <;> nofun

/-- A beacon that turns to ALARM_FLASH begins with its on-phase now (07, R137). -/
theorem State.shows_alarmFlash {claimed : List Nat} {z : Nat} {x : Zone} (he : x.fields.enabled = true)
    (hz : z ∈ claimed) (hb : x.beacon.pattern ≠ .alarmFlash) :
    s.shows claimed z x = { x with beacon := { pattern := .alarmFlash, line := true, boundary := s.clock + 500 } } := by
  have hflash : shownPattern claimed z x = .alarmFlash := by
    simp only [shownPattern, he, hz, Bool.true_eq_false, if_false, if_true]
  unfold State.shows
  rw [hflash, if_neg hb]
  rfl

/-- A zone outside the claimed list shows another pattern, so that its beacon begins anew as the zone joins it. -/
theorem State.shows_headed_alarm {claimed : List Nat} {c : Claim} {z : Nat} {x : Zone} (he : x.fields.enabled = true)
    (hc : c.content ≠ []) (hz : z ∉ s.alarm.claimed) (hz' : z ∈ claimed) :
    s.shows claimed z (s.headed z { x with claims := [c] }) = s.alarmTaken c x := by
  unfold State.headed
  simp only [hc, if_false]
  obtain ⟨b, hb, e⟩ := s.shows_beacon s.alarm.claimed z
    { x with claims := [c], completed := false, player := ⟨1, c.content, .fresh⟩ }
  have hother : b.pattern ≠ .alarmFlash := hb ▸ shownPattern_ne_alarmFlash hz
  rw [e]
  exact State.shows_alarmFlash he hz' hother

/-- The alarm takes an empty zone that is enabled and not yet in its claimed list. -/
theorem State.claimAlarm_empty {c : Claim} {z : Nat} (hc : c.content ≠ []) (he : s.zoneEnabled z = true)
    (hl : (s.zones.get z).claims = []) (hz : z ∉ s.alarm.claimed) :
    s.claimAlarm c z = { s with
      zones := s.zones.put z (s.alarmTaken c (s.zones.get z))
      alarm := { s.alarm with claimed := s.alarm.claimed ++ [z] } } := by
  have hrange := State.zone_range he
  unfold State.claimAlarm
  rw [State.requestClaim_empty c he hl]
  simp only [if_true]
  rw [State.chooseBeacon_eq]
  unfold State.modAlarm State.modZone
  dsimp only
  rw [Tab.get_put_same _ _ hrange, Tab.put_put]
  rw [← State.shows_headed_alarm he hc hz (List.mem_append_right s.alarm.claimed (List.mem_singleton_self z))]
  rfl

/-- The alarm takes every zone of a list of empty, enabled zones in its order. -/
theorem State.claimAlarm_fold {c : Claim} (hc : c.content ≠ []) (l : List Nat) (hn : l.Nodup)
    (hl : ∀ z ∈ l, s.zoneEnabled z = true ∧ (s.zones.get z).claims = [] ∧ z ∉ s.alarm.claimed) :
    ∃ zs, l.foldl (fun t z => t.claimAlarm c z) s =
        { s with zones := zs, alarm := { s.alarm with claimed := s.alarm.claimed ++ l } } ∧
      (∀ z ∈ l, zs.get z = s.alarmTaken c (s.zones.get z)) ∧ ∀ z, z ∉ l → zs.get z = s.zones.get z := by
  induction l generalizing s with
  | nil => exact ⟨s.zones, by simp only [List.foldl_nil, List.append_nil], nofun, fun _ _ => rfl⟩
  | cons y l ih =>
    obtain ⟨hyl, hn⟩ := List.nodup_cons.mp hn
    obtain ⟨he, hempty, hy⟩ := hl y List.mem_cons_self
    have hstep := State.claimAlarm_empty hc he hempty hy
    have hother {z : Nat} (h : y ≠ z) : ((s.claimAlarm c y).zones.get z) = s.zones.get z := by
      rw [hstep]
      exact Tab.get_put_ne _ _ h
    have hsame : (s.claimAlarm c y).zones.get y = s.alarmTaken c (s.zones.get y) := by
      rw [hstep]
      exact Tab.get_put_same _ _ (State.zone_range he)
    have hrestEmpty : ∀ z ∈ l, (s.claimAlarm c y).zoneEnabled z = true ∧ ((s.claimAlarm c y).zones.get z).claims = [] ∧
        z ∉ (s.claimAlarm c y).alarm.claimed := by
      intro z hz
      have hne : y ≠ z := fun e => hyl (e ▸ hz)
      obtain ⟨h1, h2, h3⟩ := hl z (List.mem_cons_of_mem y hz)
      refine ⟨by rw [State.zoneEnabled, hother hne]; exact h1, by rw [hother hne]; exact h2, ?_⟩
      rw [hstep]
      exact fun h => (List.mem_append.mp h).elim h3 fun h => hne (List.mem_singleton.mp h).symm
    obtain ⟨zs, hfold, htaken, hrest⟩ := ih hn hrestEmpty
    refine ⟨zs, ?_, fun z hz => ?_, fun z hz => ?_⟩
    · rw [List.foldl_cons, hfold, hstep]
      simp only [List.append_assoc, List.singleton_append]
    · by_cases hzl : z ∈ l
      · have hne : y ≠ z := fun e => hyl (e ▸ hzl)
        rw [htaken z hzl, hother hne, hstep]
        rfl
      · obtain rfl := (List.mem_cons.mp hz).resolve_right hzl
        rw [hrest z hzl, hsame]
    · rw [List.mem_cons, not_or] at hz
      rw [hrest z hz.2, hother (Ne.symm hz.1)]

/-- The alarm's claims on empty lists are all granted: the claimed list is the enabled zones of the scope (10, R174). -/
theorem State.placeAlarm_empty (hn : s.alarmScope.Nodup)
    (hl : ∀ z ∈ s.alarmScope, s.zoneEnabled z = true → (s.zones.get z).claims = []) :
    ∃ zs, s.placeAlarm = { s with
        zones := zs
        alarm := { s.alarm with scope := some s.alarmScope, claimed := s.alarmScope.filter s.zoneEnabled } } ∧
      (∀ z ∈ s.alarmScope, s.zoneEnabled z = true → zs.get z = s.alarmTaken s.alarmClaim (s.zones.get z)) ∧
      ∀ z, z ∉ s.alarmScope.filter s.zoneEnabled → zs.get z = s.zones.get z := by
  let u := s.modAlarm fun a => { a with scope := some s.alarmScope, claimed := [] }
  have hempty : ∀ z ∈ s.alarmScope.filter s.zoneEnabled,
      u.zoneEnabled z = true ∧ (u.zones.get z).claims = [] ∧ z ∉ u.alarm.claimed := by
    intro z hz
    obtain ⟨hscope, he⟩ := List.mem_filter.mp hz
    exact ⟨he, hl z hscope he, List.not_mem_nil⟩
  have hsound : s.alarmClaim.content ≠ [] := List.cons_ne_nil _ _
  obtain ⟨zs, hfold, htaken, hrest⟩ := State.claimAlarm_fold hsound _ (hn.filter _) hempty
  exact ⟨zs, hfold, fun z hz he => htaken z (List.mem_filter.mpr ⟨hz, he⟩), hrest⟩

/-! ### What flags and claims leave of the latch (11, R192) -/

theorem State.setFlag_alarm (s : State) (f : Flag) : (s.setFlag f).alarm = s.alarm :=
  ((KeptLanes.rest s).setFlag ⟨rfl, rfl, rfl⟩ f).2.1

theorem State.setFlag_mode (s : State) (f : Flag) : (s.setFlag f).maint.mode = s.maint.mode :=
  have kept : KeptLanes fun t => t.maint.mode = s.maint.mode := ⟨fun h _ => h, fun _ h => h⟩
  kept.setFlag rfl f

/-- Cells and flags leave a flag that is set. -/
theorem KeptLanes.flagSet (f : Flag) : KeptLanes fun t => hasFlag t.maint.flags f = true where
  lane h _ := h
  flag g h := by
    unfold hasFlag at h ⊢
    rw [State.modMaint_maint, BitVec.getLsbD_or, h, Bool.true_or]

theorem State.setFlag_hasFlag (s : State) (f : Flag) : hasFlag (s.setFlag f).maint.flags f = true := by
  unfold State.setFlag
  split
  · assumption
  · dsimp only
    split
    · exact hasFlag_or ..
    · exact (KeptLanes.flagSet f).join (hasFlag_or ..) _ _

/-- What lost claims report leaves the latch its source (10, R175). -/
theorem State.reportLoss_source (s : State) (z : Nat) (c : Claim) : (s.reportLoss z c).alarm.source = s.alarm.source := by
  unfold State.reportLoss
  split
  · rw [(s.sessionLost_counts _ z).2.1]
  · rfl
  · rfl
  · rfl

theorem State.settleGrant_source (s : State) (z : Nat) (g : Grant) : (s.settleGrant z g).alarm.source = s.alarm.source := by
  have hreport (o : Option Claim) (t : State) :
      (match o with | some c => t.reportLoss z c | none => t).alarm.source = t.alarm.source := by
    cases o
    · rfl
    · exact State.reportLoss_source ..
  have hreports := (hreport g.evicted _).trans (hreport g.lost s)
  unfold State.settleGrant
  dsimp only
  split
  · rw [State.reevaluateAssist_zonesOnly z]
    exact hreports
  · exact hreports

theorem State.claimAlarm_source (s : State) (c : Claim) (z : Nat) : (s.claimAlarm c z).alarm.source = s.alarm.source := by
  have hrequest : (s.requestClaim z c).1.alarm.source = s.alarm.source := by
    rcases s.requestClaim_cases z c with e | ⟨g, -, -, -, e⟩
    · rw [e]
    · rw [e, State.settleGrant_source, s.applyGrant_eq]
      rfl
  unfold State.claimAlarm
  dsimp only
  split
  · rw [State.chooseBeacon_eq]
    exact hrequest
  · exact hrequest

theorem State.placeAlarm_source (s : State) : s.placeAlarm.alarm.source = s.alarm.source :=
  @foldl_kept (fun t => t.alarm.source = s.alarm.source) _ _ (fun t z ht => (t.claimAlarm_source _ z).trans ht) _ _ rfl

theorem State.enterAlarm_source (s : State) (a : AlarmSource) : (s.enterAlarm a).alarm.source = some a := by
  have hflag : ((s.modAlarm fun x => { x with source := some a }).setFlag .alarmEntered).alarm.source = some a := by
    rw [State.setFlag_alarm]
    rfl
  unfold State.enterAlarm
  dsimp only
  split
  · rw [State.placeAlarm_source, hflag]
  · exact hflag

/-! ### The requests (10, R173, R177; 11, R181) -/

/-- A request but COMMIT arrives in service where nothing is raised: the down bridge ends, the request is taken, and its
reply is sent. -/
theorem State.arriveRequest_eq {kind : Byte} (tag : Byte) (args : List Byte) (hp : s.lane.phase = .inService)
    (hc : s.Calm) (hk : kind ≠ 4#8) :
    s.arriveRequest tag kind args = State.reply tag ((s.endBridge .down).request kind.toNat args) := by
  unfold State.arriveRequest
  rw [State.arrive_ok .down _ hp hc rfl]
  simp only [State.classify, State.endBridge_own, decide_true, if_true, State.maintain, State.commitNow, hk, false_and,
    if_false]

theorem exec_alarmStart (tag : Byte) (hp : s.lane.phase = .inService) (hc : s.Calm) :
    exec (.alarmStart tag []) s = .next (State.reply tag ((s.endBridge .down).requestAlarmStart [])) :=
  congrArg _ (State.arriveRequest_eq tag [] hp hc (by decide))

theorem exec_alarmClear (tag : Byte) (hp : s.lane.phase = .inService) (hc : s.Calm) :
    exec (.alarmClear tag []) s = .next (State.reply tag ((s.endBridge .down).requestAlarmClear [])) :=
  congrArg _ (State.arriveRequest_eq tag [] hp hc (by decide))

theorem alarmBytes_idle {a : Alarm} (h : a.source = none) : alarmBytes a = [0#8, 255#8] := by
  rw [alarmBytes, h]
  rfl

theorem alarmBytes_input {a : Alarm} (h : a.source = some .input) : alarmBytes a = [1#8, 0#8] := by
  rw [alarmBytes, h]
  rfl

theorem alarmBytes_request {a : Alarm} (h : a.source = some .request) : alarmBytes a = [1#8, 1#8] := by
  rw [alarmBytes, h]
  rfl

theorem State.requestAlarmStart_idle (h : s.alarm.source = none) :
    s.requestAlarmStart [] = ⟨s.enterAlarm .request, .done, [1#8, 1#8]⟩ := by
  simp only [State.requestAlarmStart, fixedArgs, h, Option.isNone_none, if_true, done,
    alarmBytes_request (s.enterAlarm_source .request)]

theorem State.requestAlarmStart_active {a : AlarmSource} (h : s.alarm.source = some a) :
    s.requestAlarmStart [] = ⟨s, .done, alarmBytes s.alarm⟩ := by
  simp only [State.requestAlarmStart, fixedArgs, h, Option.isNone_some, Bool.false_eq_true, if_false, done]

theorem State.requestAlarmClear_refused (h : s.alarm.line = true) :
    s.requestAlarmClear [] = ⟨s, .refusedState, []⟩ := by
  simp only [State.requestAlarmClear, fixedArgs, h, if_true, refuseState]

theorem State.requestAlarmClear_idle (hline : s.alarm.line = false) (h : s.alarm.source = none) :
    s.requestAlarmClear [] = ⟨s, .done, [0#8, 255#8]⟩ := by
  simp only [State.requestAlarmClear, fixedArgs, hline, h, Option.isSome_none, Bool.false_eq_true, if_false, done,
    alarmBytes_idle]

theorem State.exitAlarm_alarm (s : State) :
    s.exitAlarm.alarm = { source := none, scope := none, claimed := [], line := s.alarm.line } := by
  rw [s.exitAlarm_eq, State.setFlag_alarm]

theorem State.requestAlarmClear_active (hline : s.alarm.line = false) (h : s.alarm.source ≠ none) :
    s.requestAlarmClear [] = ⟨s.exitAlarm, .done, [0#8, 255#8]⟩ := by
  simp only [State.requestAlarmClear, fixedArgs, hline, Option.isSome_iff_ne_none.mpr h, Bool.false_eq_true, if_false,
    if_true, done, State.exitAlarm_alarm, alarmBytes_idle]

/-- An exit with no zone claimed leaves the zones as they are. -/
theorem State.exitAlarm_unclaimed (h : s.alarm.claimed = []) :
    s.exitAlarm =
      ({ s with alarm := { source := none, scope := none, claimed := [], line := s.alarm.line } } : State).setFlag
        .alarmCleared := by
  have hzones : s.withdrawAlarm.zones = s.zones := by
    simp only [State.withdrawAlarm, h, List.foldl_nil, State.modAlarm_zones]
  rw [s.exitAlarm_eq, hzones]

/-- The entry of an IDLE latch, by the mode it finds (10, R173, R174). -/
theorem State.enterAlarm_eq (s : State) (a : AlarmSource) :
    s.enterAlarm a =
      let entered := ({ s with alarm := { s.alarm with source := some a } } : State).setFlag .alarmEntered
      if s.maint.mode = .engaged then entered.placeAlarm else entered := by
  unfold State.enterAlarm
  dsimp only
  rw [State.setFlag_mode]
  rfl

/-- Settles O44: the claims are placed zone by zone and withdrawn zone by zone, and each request is its case of the latch and
the line. -/
theorem alarmRequests : Obligations.AlarmRequests := by
  refine ⟨fun s => ⟨rfl, fun hn _ hl => State.placeAlarm_empty hn hl⟩,
    fun s => ⟨_, s.withdrawAlarm_left, s.exitAlarm_eq⟩, ?requests⟩
  intro tag s hp hc hroom b entered reply
  have hstart : exec (.alarmStart tag []) s = .next (State.reply tag (b.requestAlarmStart [])) :=
    exec_alarmStart tag hp hc
  have hclear : exec (.alarmClear tag []) s = .next (State.reply tag (b.requestAlarmClear [])) :=
    exec_alarmClear tag hp hc
  have hreply (o : ReplyOutcome) {data : List Byte} (hd : data.length ≤ 2) :
      State.reply tag ⟨b, o, data⟩ = b.queued .up [replyCell s.lane.own tag o data] :=
    State.reply_one (hd.trans (by decide)) ((State.endBridge_room ..).mpr hroom)
  refine ⟨fun h => ?entered, fun a h => ?active, fun h => ?refused, fun hline h => ?idle, fun hline h => ?exits⟩
  case entered =>
    have hidle : b.alarm.source = none := h
    rw [hstart, State.requestAlarmStart_idle hidle, State.enterAlarm_eq]
    rfl
  case active =>
    have hactive : b.alarm.source = some a := h
    rw [hstart, State.requestAlarmStart_active hactive]
    cases a with
    | input => rw [alarmBytes_input hactive, hreply .done le_rfl]
    | request => rw [alarmBytes_request hactive, hreply .done le_rfl]
  case refused =>
    have hlevel : b.alarm.line = true := h
    rw [hclear, State.requestAlarmClear_refused hlevel, hreply .refusedState (List.length_nil.trans_le (Nat.zero_le 2))]
  case idle =>
    have hlevel : b.alarm.line = false := hline
    rw [hclear, State.requestAlarmClear_idle hlevel h, hreply .done le_rfl]
  case exits =>
    have hlevel : b.alarm.line = false := hline
    have hunclaimed (hnone : b.alarm.claimed = []) := State.exitAlarm_unclaimed hnone
    rw [hclear, State.requestAlarmClear_active hlevel h]
    exact ⟨rfl, hlevel ▸ b.exitAlarm_alarm, State.setFlag_hasFlag .., fun hnone => hlevel ▸ hunclaimed hnone⟩

end Sys2Proof.Machine
end

section
/-! PROOFS. A good state is kept by every step (O57, O58): every command but the resets' keeps its five parts, the resets
set them anew, and an idle part takes one of those commands or lets a millisecond pass. -/

namespace Sys2Proof.Machine

variable {s t : State}

/-- What all five parts of a good state keep, a good state keeps. -/
theorem State.Fits.keptAll (f : State → State) (hf : ∀ {P : State → Prop}, KeptAll P → P s → P (f s)) (h : s.Fits) :
    (f s).Fits := by
  obtain ⟨path, calls, ringing, orbits, held⟩ := State.fits_iff.mp h
  exact State.fits_iff.mpr ⟨hf State.PathFits.commands.all path, hf State.CallsFit.commands.all calls,
    hf State.RingingFits.commands.all ringing, hf State.OrbitsStand.commands.all orbits,
    hf State.Held.commands.all held⟩

/-- Every command but the resets' keeps a good state. -/
theorem State.Fits.exec {i : Instr} (h : s.Fits) (hi : Instr.isReset i = false) (he : Machine.exec i s = .next t) :
    t.Fits := by
  obtain ⟨path, calls, ringing, orbits, held⟩ := State.fits_iff.mp h
  exact State.fits_iff.mpr ⟨State.PathFits.commands.exec path hi he, State.CallsFit.commands.exec calls hi he,
    State.RingingFits.commands.exec ringing hi he, State.OrbitsStand.commands.exec orbits hi he,
    State.Held.commands.exec held hi he⟩

/-- The end of a reset leaves a good state, whatever it found (11, R186). -/
theorem State.endReset_fits (s : State) (cause : ResetCause) (straps : BitVec 4) {pr : Prompts} (hp : pr.Fits) :
    (s.endReset cause straps pr).Fits :=
  (s.blocksReset_fits cause straps hp).keptAll (fun u => u.setResetFlag.readAlarmLine) fun k h =>
    k.readAlarmLine (k.setResetFlag h)

theorem Prompts.reset_fits : Prompts.reset.Fits := ⟨rfl, Nat.zero_le _⟩

theorem Prompts.pinKept_fits {p : Prompts} (h : p.Fits) : p.pinKept.Fits := ⟨h.memory, Nat.zero_le _⟩

/-- The commands of the resets keep a good state: they begin one, end one, or find none to end. -/
theorem State.Fits.execReset {i : Instr} (h : s.Fits) (hi : Instr.isReset i = true) (he : Machine.exec i s = .next t) :
    t.Fits := by
  cases i with
  | powerOn => exact next_kept he (State.holdReset_fits h _)
  | powerOnResetEnd straps => exact next_kept he (ite_kept (s.endReset_fits _ _ Prompts.reset_fits) h)
  | resetNAssert => exact next_kept he (ite_kept (State.holdReset_fits h _) h)
  | resetNRelease straps =>
    exact next_kept he (ite_kept (s.endReset_fits _ _ (Prompts.pinKept_fits h.path.prompts)) h)
  | _ => exact Bool.noConfusion (show false = true from hi)

/-- Every command keeps a good state. -/
theorem State.Fits.execAny {i : Instr} (h : s.Fits) (he : Machine.exec i s = .next t) : t.Fits := by
  cases hi : Instr.isReset i
  · exact h.exec hi he
  · exact h.execReset hi he

/-- Settles O57: a step is a command, taken from the queue or the part's own, or a tick of the clock. -/
theorem everyStepKeepsFits : Obligations.EveryStepKeepsFits := by
  intro s t h hs
  unfold step at hs
  split at hs
  case h_1 c rest _ => exact (h.elsewhere (t := s.withPending rest) rfl).execAny hs
  case h_2 =>
    split at hs
    case h_1 => exact h.execAny hs
    case h_2 => exact next_kept hs (h.elsewhere rfl)

/-- Settles O58: right after power-on every block is at its reset values. -/
theorem resetFits : Obligations.ResetFits := by
  have h := (State.reset.blocksReset_fits .power 0#4 Prompts.reset_fits).keptAll State.setResetFlag fun k h =>
    k.setResetFlag h
  exact h.elsewhere (t := State.reset) rfl

end Sys2Proof.Machine
end

section
/-! PROOFS. What a command is: a cell of a known kind arrives whole (01, R4), and a command either brings a request to the
part or does what the ordinary moves do. -/

namespace Sys2Proof.Machine

variable {P : State → Prop} {s t : State} {i : Instr}

/-- A row that brings a cell of a known kind is that cell's arrival. -/
theorem exec_cellOf {d : Dir} {c : Cell} (h : cellOf s.lane.own i = some (d, c)) : exec i s = .next (s.arrive d c) := by
  cases i <;> cases h <;> rfl

/-- A MAINT cell comes down (12, R195). -/
theorem cellOf_maint_down {own eq : Equip} {d : Dir} {call : CallRef} {tag kind : Byte} {args : List Byte}
    (h : cellOf own i = some (d, ⟨eq, call, .maint tag kind args⟩)) : d = .down := by
  cases i <;> cases h <;> rfl

/-- Only rows of cells bring requests. -/
theorem Instr.brings_of_no_cell {own : Equip} (h : cellOf own i = none) (h1 : ∀ d b, i ≠ .malformedCell d b)
    (h2 : ∀ d b, i ≠ .unknownKindCell d b) (kind : Byte) : Instr.brings i kind = false := by
  cases i with
  | malformedCell d b => exact absurd rfl (h1 d b)
  | unknownKindCell d b => exact absurd rfl (h2 d b)
  | _ => cases h <;> rfl

/-- What settling leaves of the lanes' numbers and phase. -/
theorem Free.lanePart (s : State) : Free fun t => t.lane.own = s.lane.own ∧ t.lane.phase = s.lane.phase where
  assist _ := id
  zone h _ := h
  lane {u f} h hf := by
    show (f u.lane).own = _ ∧ (f u.lane).phase = _
    rw [hf.rest]
    exact h
  flag _ h := h
  source _ h := h
  paging h _ := h
  alarm h _ := h
  station h _ := h
  hunt h _ := h
  orbit h := h
  pickup h _ := h

theorem State.settle_own (s : State) : s.settle.lane.own = s.lane.own := ((Free.lanePart s).kept.settle ⟨rfl, rfl⟩).1

/-- A request arrives at the part (01, R10; 11, R181). -/
theorem State.arrive_request (hp : s.lane.phase = .inService) (call : CallRef) (tag kind : Byte) (args : List Byte) :
    s.arrive .down ⟨s.lane.own, call, .maint tag kind args⟩ = (s.settle.endBridge .down).maintain tag kind args := by
  unfold State.arrive
  rw [if_pos hp]
  simp only [show cellOk ⟨s.lane.own, call, .maint tag kind args⟩ = true from rfl, if_true, State.classify,
    State.endBridge_own, State.settle_own, decide_true]

/-- A cell that is no request to the part keeps what the events keep. -/
theorem KeptEvents.arriveElse (k : KeptEvents P) (h : P s) (d : Dir) (c : Cell)
    (hn : ∀ tag kind args, c.body = .maint tag kind args → c.eq = s.lane.own → s.lane.phase ≠ .inService) :
    P (s.arrive d c) := by
  by_cases hb : ∃ tag kind args, c.body = .maint tag kind args
  · obtain ⟨tag, kind, args, hb⟩ := hb
    have h1 := k.endBridge (k.settle h) d
    unfold State.arrive
    split
    · rename_i hp
      have he : c.eq ≠ (s.settle.endBridge d).lane.own := by
        rw [State.endBridge_own, State.settle_own]
        exact fun e => hn tag kind args hb e hp
      refine ite_kept ?_ (k.forwardBad h1 d _)
      simp only [State.classify, hb, he, decide_false, Bool.false_eq_true, if_false]
      exact k.pass h1 _ _
    · exact k.copySlot h d _
  · exact k.arrive h d c fun tag kind args e => absurd ⟨tag, kind, args, e⟩ hb

/-- Bytes that make no cell keep what the events keep (01, R6, R7). -/
theorem KeptEvents.arriveNoCell (k : KeptEvents P) (h : P s) (d : Dir) (bytes : List Byte)
    (hn : ∀ c, parseCell d bytes ≠ .ok c) : P (s.arriveBytes d bytes) := by
  have h1 := k.endBridge (k.settle h) d
  unfold State.arriveBytes
  refine ite_kept ?_ (k.copySlot h d _)
  dsimp only
  split
  · exact k.join h1 _ _
  · exact k.forwardBad h1 d _
  · rename_i c hc
    exact absurd hc (hn c)

/-- A command but the resets' is a request to the part, or keeps what every event keeps. -/
theorem exec_request_or_kept (hw : i.wf = true) (hr : Instr.isReset i = false) (he : exec i s = .next t) :
    (∃ call tag kind args, s.lane.phase = .inService ∧
      cellOf s.lane.own i = some (.down, ⟨s.lane.own, call, .maint tag kind args⟩) ∧
      t = (s.settle.endBridge .down).maintain tag kind args) ∨
    ∀ {P : State → Prop}, KeptEvents P → (i = .commitExpiry → CommitKept P) →
      (∀ d, i = .outgoingSlot d → P s → P (s.outgoingSlot d)) → P s → P t := by
  cases hcell : cellOf s.lane.own i with
  | none =>
    refine .inr fun k hc ho h => ?_
    by_cases h1 : ∃ d b, i = .malformedCell d b
    · obtain ⟨d, b, rfl⟩ := h1
      have hbad : parseCell d b = .malformed := eq_of_beq (Bool.and_eq_true_iff.mp hw).2
      exact next_kept he (k.arriveNoCell h d b fun c => by rw [hbad]; nofun)
    · by_cases h2 : ∃ d b, i = .unknownKindCell d b
      · obtain ⟨d, b, rfl⟩ := h2
        have hunknown : parseCell d b = .unknown := eq_of_beq (Bool.and_eq_true_iff.mp hw).2
        exact next_kept he (k.arriveNoCell h d b fun c => by rw [hunknown]; nofun)
      · have hnone := Instr.brings_of_no_cell hcell (fun d b e => h1 ⟨d, b, e⟩) fun d b e => h2 ⟨d, b, e⟩
        exact k.exec h hr hc (fun d e => ho d e h) (fun tag kind args hb => by rw [hnone kind] at hb; cases hb) he
  | some dc =>
    obtain ⟨d, c⟩ := dc
    rw [exec_cellOf hcell] at he
    by_cases hq : s.lane.phase = .inService ∧ c.eq = s.lane.own ∧ ∃ tag kind args, c.body = .maint tag kind args
    · obtain ⟨hp, heq, tag, kind, args, hb⟩ := hq
      obtain ⟨eq, call, body⟩ := c
      dsimp only at heq hb
      subst heq hb
      obtain rfl := cellOf_maint_down hcell
      rw [State.arrive_request hp] at he
      cases he
      exact .inl ⟨call, tag, kind, args, hp, rfl, rfl⟩
    · exact .inr fun k _ _ h => next_kept he (k.arriveElse h d c fun tag kind args hb heq hp =>
        hq ⟨hp, heq, tag, kind, args, hb⟩)

end Sys2Proof.Machine
end

section
/-! PROOFS. What only some requests change (11, R183 to R194; 03, R52, R55): the flags, the mask, the configuration and the
active bank, over every command (O59, O60). -/

namespace Sys2Proof.Machine

variable {P : State → Prop} {s t : State} {i : Instr}

/-! ### Requests that write no table and no mask -/

/-- A property that the requests keep which write no table and no mask, RESTART apart: beside what events change, the mode,
the cause, the flags, the countdown, counters at 0, prompt memory and its write address, and a zone or an orbit at the end
of a teardown. -/
structure FreeRequests (P : State → Prop) : Prop extends FreeEvents P where
  mode : ∀ {s : State} (m : Mode), P s → P (s.modMaint fun x => { x with mode := m })
  cause : ∀ {s : State} (c : ResetCause), P s → P (s.modMaint fun x => { x with cause := c })
  clear : ClearKept P
  countdown : ∀ {s : State} (d : Option Nat), P s → P (s.modHunt fun h => { h with countdown := d })
  silent : ∀ {s : State} (z : Nat), P s → P (s.modZone z Zone.silent)
  zoneCounters : ∀ {s : State} (z : Nat), P s → P (s.modZone z fun zn => { zn with saturations := 0, preemptions := 0 })
  samples : ∀ {s : State} {f : Prompts → Prompts}, P s → (f s.prompts).directory = s.prompts.directory →
    (f s.prompts).tones = s.prompts.tones → P (s.modPrompts f)

theorem FreeRequests.moves (k : FreeRequests P) : Kept P := k.toFree.kept

theorem FreeRequests.teardown (k : FreeRequests P) (h : P s) : P s.teardown := by
  have h1 := k.moves.teardownHunt (fun g ht => k.hunt ht (.filterRecords _)) (k.mode .transparent h)
  have h2 := k.moves.reevaluateAll (k.moves.withdrawAlarm (k.moves.teardownSessions h1))
  exact foldl_kept (P := P) (fun _ _ ht => k.orbit ht) _ (foldl_kept (P := P) (fun _ z ht => k.silent z ht) _ h2)

theorem FreeRequests.becomeTransparent (k : FreeRequests P) (h : P s) : P s.becomeTransparent := by
  unfold State.becomeTransparent
  exact ite_kept (k.teardown h) h

theorem FreeRequests.becomeEngaged (k : FreeRequests P) (h : P s) : P s.becomeEngaged := by
  have h1 := k.mode .engaged h
  unfold State.becomeEngaged
  exact ite_kept h (k.moves.reevaluateAll (ite_kept (k.moves.placeAlarm h1) h1))

theorem FreeRequests.setMode (k : FreeRequests P) (h : P s) (args : List Byte) : P (s.setMode args).state := by
  unfold State.setMode
  split
  · exact k.becomeTransparent h
  · exact k.becomeEngaged h
  · exact h

theorem FreeRequests.requestCommit (k : FreeRequests P) (h : P s) (args : List Byte) : P (s.requestCommit args).state := by
  unfold State.requestCommit
  split
  · split
    · exact h
    · exact k.countdown _ h
  · exact h

theorem FreeRequests.cancelCommit (k : FreeRequests P) (h : P s) (args : List Byte) : P (s.cancelCommit args).state := by
  unfold State.cancelCommit
  split
  · split
    · exact k.countdown _ h
    · exact h
  · exact h

theorem FreeRequests.requestAvailability (k : FreeRequests P) (h : P s) (args : List Byte) :
    P (s.requestAvailability args).state := by
  unfold State.requestAvailability
  split
  · split
    · exact ite_kept (k.moves.setAvailable h _) (k.moves.setUnavailable h _)
    · exact h
  · exact h

theorem FreeRequests.requestService (k : FreeRequests P) (h : P s) (args : List Byte) :
    P (s.requestService args).state := by
  unfold State.requestService
  split
  · split
    · exact ite_kept (k.moves.serviceIn h _) (k.moves.serviceOut h _)
    · exact h
  · exact h

theorem FreeRequests.requestAlarmStart (k : FreeRequests P) (h : P s) (args : List Byte) :
    P (s.requestAlarmStart args).state := by
  unfold State.requestAlarmStart
  split
  · exact ite_kept (k.moves.enterAlarm h _) h
  · exact h

theorem FreeRequests.requestAlarmClear (k : FreeRequests P) (h : P s) (args : List Byte) :
    P (s.requestAlarmClear args).state := by
  unfold State.requestAlarmClear
  split
  · split
    · exact h
    · exact ite_kept (k.moves.exitAlarm h) h
  · exact h

theorem FreeRequests.promptAddress (k : FreeRequests P) (h : P s) (args : List Byte) : P (s.promptAddress args).state := by
  unfold State.promptAddress
  split
  · split
    · exact k.samples (f := fun p => { p with address := _ }) h rfl rfl
    · exact h
  · exact h

/-- Samples stored leave the directory and the tones alone (09, R166). -/
theorem Prompts.store_tables (xs : List Sample) (p : Prompts) :
    (p.store xs).directory = p.directory ∧ (p.store xs).tones = p.tones := by
  induction xs generalizing p with
  | nil => exact ⟨rfl, rfl⟩
  | cons x xs ih =>
    unfold Prompts.store
    split
    · exact ih _
    · exact ⟨rfl, rfl⟩

theorem FreeRequests.promptWrite (k : FreeRequests P) (h : P s) (args : List Byte) : P (s.promptWrite args).state := by
  unfold State.promptWrite
  split
  · rename_i xs _
    split
    · obtain ⟨hd, ht⟩ := s.prompts.store_tables (xs.map (BitVec.ofNat 16))
      have h1 : P (s.modPrompts fun p => p.store (xs.map (BitVec.ofNat 16))) := k.samples h hd ht
      exact ite_kept (k.moves.setFlag h1 _) h1
    · exact h
  · exact h

theorem FreeRequests.writeResetCause (k : FreeRequests P) (h : P s) (args : List Byte) :
    P (s.writeResetCause args).state := by
  unfold State.writeResetCause
  split
  · split
    · exact k.cause _ h
    · exact h
  · exact h

theorem FreeRequests.clearCounters (k : FreeRequests P) (h : P s) (o : Owner) : P (s.clearCounters o) := by
  have h0 : CounterFits 0 := Nat.zero_le _
  unfold State.clearCounters
  split
  · exact k.moves.laneCounters h fun _ => ⟨h0, h0, h0, h0⟩
  · exact k.moves.groupCounters h _ fun _ _ => ⟨h0, h0, h0, h0, h0, h0, h0⟩
  · exact k.zoneCounters _ h
  · exact k.pickup h ⟨rfl, fun _ => ⟨h0, h0⟩⟩
  · exact k.paging h ⟨rfl, rfl, fun _ => h0⟩

theorem FreeRequests.requestClearCounters (k : FreeRequests P) (h : P s) (args : List Byte) :
    P (s.requestClearCounters args).state := by
  unfold State.requestClearCounters
  split
  · split
    · exact k.clearCounters h _
    · exact h
  · exact h

/-- The requests that may write a table or the mask, and RESTART (11, R183, R185, R194). -/
def writingKinds : List Nat := [2, 3, 7, 22, 23]

theorem FreeRequests.request (k : FreeRequests P) (h : P s) {kind : Nat} (args : List Byte) (hk : kind ∉ writingKinds) :
    P (s.request kind args).state := by
  unfold State.request
  split
  case h_2 => exact absurd (by decide) hk
  case h_3 => exact absurd (by decide) hk
  case h_7 => exact absurd (by decide) hk
  case h_22 => exact absurd (by decide) hk
  case h_23 => exact absurd (by decide) hk
  · exact (State.readEntry_state s args).symm ▸ h
  · exact k.requestCommit h args
  · exact k.cancelCommit h args
  · exact k.setMode h args
  · exact k.requestAvailability h args
  · exact k.requestService h args
  · exact k.requestAlarmStart h args
  · exact k.requestAlarmClear h args
  · exact k.promptAddress h args
  · exact k.promptWrite h args
  · exact (State.promptRead_state s args).symm ▸ h
  · exact (State.readStatus_state s args).symm ▸ h
  · exact k.writeResetCause h args
  · exact (State.readLive_state s args).symm ▸ h
  · exact (State.readCounters_state s args).symm ▸ h
  · exact k.requestClearCounters h args
  · exact (State.attentionRead_state s args).symm ▸ h
  · exact State.attentionClear_kept k.clear h args
  · exact h

/-- What a request keeps, its reply and the commit behind it keep (11, R181; 03, R52). -/
theorem KeptEvents.maintainOf (k : KeptEvents P) {tag kind : Byte} {args : List Byte}
    (h : P (s.request kind.toNat args).state) (hn : kind = 4#8 → CommitKept P) : P (s.maintain tag kind args) := by
  have h1 := k.sendParts tag (s.request kind.toNat args).outcome (replyParts (s.request kind.toNat args).data).length
    (replyParts (s.request kind.toNat args).data) 1 h
  unfold State.maintain State.commitNow
  dsimp only
  split
  · rename_i hk
    exact k.commitExpiry h1 (hn hk.1)
  · exact h1

/-! ### The mask (11, R194) -/

theorem FreeRequests.mask (s : State) : FreeRequests fun t => t.maint.mask = s.maint.mask where
  assist _ := id
  zone h _ := h
  lane h _ := h
  flag _ h := h
  source _ h := h
  paging h _ := h
  alarm h _ := h
  station h _ := h
  hunt h _ := h
  orbit h := h
  pickup h _ := h
  lines h _ := h
  audio h _ _ := h
  highway h := h
  alarmLine _ h := h
  countdownOff h := h
  mode _ h := h
  cause _ h := h
  clear _ h _ := h
  countdown _ h := h
  silent _ h := h
  zoneCounters _ h := h
  samples h _ _ := h

/-- A zone enabled or disabled stays in a good state (07, R120, R121). -/
theorem Zone.Fits.restarted {zn : Zone} (h : zn.Fits) (f : ZoneFields) : (Zone.restarted f zn).Fits :=
  ⟨ClaimsFit.nil, fun y => absurd (show false = true from y) (by decide), h.preemptions, h.saturations⟩

theorem Free.configureZone (k : Free P) (hz : FreeZone P) (h : P s) (z : Nat) (f : ZoneFields) : P (s.configureZone z f) := by
  unfold State.configureZone
  split
  · exact k.kept.alarmReaches (hz h fun x => x.restarted f) z
  · exact k.toFreeClaims.disableZone hz h z f
  · exact hz h fun x => ⟨x.claims, x.completed, x.preemptions, x.saturations⟩

/-- The configuration of a zone leaves the mask alone. -/
theorem State.configureZone_mask (s : State) (z : Nat) (f : ZoneFields) :
    (s.configureZone z f).maint.mask = s.maint.mask :=
  (FreeRequests.mask s).toFree.configureZone (fun h _ => h) rfl z f

theorem State.writeTable_mask {t : Table} {n : Nat} {w : EntryWrite} {u : State} (h : s.writeTable t n w = some u) :
    u.maint.mask = s.maint.mask := by
  unfold State.writeTable at h
  split at h
  · cases h
  · split at h
    case h_2 =>
      split at h
      · split at h
        · cases h
        · cases h; exact s.configureZone_mask _ _
      · cases h
    case h_4 =>
      split at h
      · split at h
        · cases h
        · cases h; rfl
      · cases h
    case h_11 => cases h
    all_goals first
      | (obtain ⟨x, -, rfl⟩ := Option.map_eq_some_iff.mp h; rfl)
      | (split at h <;> cases h; rfl)

theorem State.clearTable_mask {t : Table} {n : Nat} {u : State} (h : s.clearTable t n = some u) :
    u.maint.mask = s.maint.mask := by
  unfold State.clearTable at h
  split at h
  · cases h
  · split at h
    case h_2 => cases h; exact s.configureZone_mask _ _
    case h_3 => split at h <;> cases h; rfl
    all_goals cases h <;> rfl

theorem State.writeEntry_mask (s : State) (args : List Byte) : (s.writeEntry args).state.maint.mask = s.maint.mask := by
  unfold State.writeEntry
  split
  · split
    · rfl
    · split
      · rfl
      · split
        · rfl
        · split
          · rfl
          · rename_i hw
            exact State.writeTable_mask hw
  · rfl

theorem State.clearEntry_mask (s : State) (args : List Byte) : (s.clearEntry args).state.maint.mask = s.maint.mask := by
  unfold State.clearEntry
  split
  · split
    · rfl
    · split
      · rfl
      · split
        · rfl
        · rename_i hw
          exact State.clearTable_mask hw
  · rfl

/-- Only RESTART and the two mask requests change the mask (11, R185, R194). -/
theorem State.request_mask (s : State) {kind : Nat} (args : List Byte) (h : kind ≠ 7 ∧ kind ≠ 22 ∧ kind ≠ 23) :
    (s.request kind args).state.maint.mask = s.maint.mask := by
  by_cases h2 : kind = 2
  · exact h2 ▸ s.writeEntry_mask args
  · by_cases h3 : kind = 3
    · exact h3 ▸ s.clearEntry_mask args
    · refine (FreeRequests.mask s).request rfl args ?_
      simp only [writingKinds, List.mem_cons, List.not_mem_nil, or_false, not_or]
      exact ⟨h2, h3, h⟩

/-! ### The flags (11, R192, R194) -/

/-- A flag that is set stays so over every event. -/
theorem FreeEvents.flagSet (f : Flag) : FreeEvents fun t => hasFlag t.maint.flags f = true where
  assist _ := id
  zone h _ := h
  lane h _ := h
  flag g h := (KeptLanes.flagSet f).flag g h
  source _ h := h
  paging h _ := h
  alarm h _ := h
  station h _ := h
  hunt h _ := h
  orbit h := h
  pickup h _ := h
  lines h _ := h
  audio h _ _ := h
  highway h := h
  alarmLine _ h := h
  countdownOff h := h

/-- A change that keeps every flag that is set keeps this one. -/
theorem hasFlag_of_and {x y : BitVec 16} {f : Flag} (hxy : x &&& y = x) (h : hasFlag x f = true) : hasFlag y f = true := by
  unfold hasFlag at *
  have hbit : (x &&& y).getLsbD (flagIndex f) = true := by rw [hxy]; exact h
  rw [BitVec.getLsbD_and, Bool.and_eq_true] at hbit
  exact hbit.2

theorem FreeAll.flagSet (f : Flag) : FreeAll fun t => hasFlag t.maint.flags f = true where
  toFreeEvents := .flagSet f
  maint h _ hg := hasFlag_of_and hg h
  stationAny h _ := h
  code h := h
  zoneAny h _ := h
  huntAny h _ _ := h
  pickupAny h _ := h
  pagingAny h _ := h
  prompts h _ := h
  restart h := h

/-- A flag set has the two bytes that name it (11, R194; 12, R195). -/
theorem flagSet_bytes {args : List Byte} {x : BitVec 16} (h : flagSet args = some x) :
    ∃ x1 x2 : Byte, args = [x1, x2] ∧ x = x1 ++ x2 := by
  unfold flagSet at h
  match args with
  | [] => exact nomatch h
  | [_] => exact nomatch h
  | _ :: _ :: _ :: _ => simp [fixedArgs] at h
  | [x1, x2] =>
    refine ⟨x1, x2, rfl, ?_⟩
    simp only [fixedArgs, List.length_cons, List.length_nil, List.take, List.drop, Nat.lt_irrefl, if_false,
      Option.map_some] at h
    split at h
    · cases h
      apply BitVec.eq_of_toNat_eq
      simp only [bytesNat, List.foldl_cons, List.foldl_nil, BitVec.toNat_ofNat, BitVec.toNat_append]
      rw [← Nat.shiftLeft_add_eq_or_of_lt x2.isLt, Nat.shiftLeft_eq]
      omega
    · cases h

/-- A flag that an ATTENTION_CLEAR takes away is one that it names (11, R194). -/
theorem State.attentionClear_flag {f : Flag} {args : List Byte} (h : hasFlag s.maint.flags f = true)
    (hn : ∀ x1 x2 : Byte, args = [x1, x2] → hasFlag (x1 ++ x2) f = false) :
    hasFlag (s.attentionClear args).state.maint.flags f = true := by
  unfold State.attentionClear
  split
  · rename_i x hx
    obtain ⟨x1, x2, ha, rfl⟩ := flagSet_bytes hx
    have hnot := hn x1 x2 ha
    show hasFlag (s.maint.flags &&& ~~~ (x1 ++ x2)) f = true
    unfold hasFlag at *
    rw [BitVec.getLsbD_and, h, BitVec.getLsbD_not, hnot]
    cases f <;> rfl
  · exact h

/-! ### Resets (11, R186) -/

/-- The commands of the resets end one, or leave the Maintenance Responder and the active bank as they are. -/
theorem exec_reset (hr : Instr.isReset i = true) (he : exec i s = .next t) :
    ((∃ straps, i = .powerOnResetEnd straps) ∧ s.lane.phase = .powerReset ∨
      (∃ straps, i = .resetNRelease straps) ∧ s.lane.phase = .pinReset) ∨
    t = s ∨ ∃ p, t = s.holdReset p := by
  have hnext {a : State} (h : (.next a : Result) = .next t) : t = a := by cases h; rfl
  cases i with
  | powerOn => exact .inr (.inr ⟨_, hnext he⟩)
  | powerOnResetEnd straps =>
    by_cases hp : s.lane.phase = .powerReset
    · exact .inl (.inl ⟨⟨straps, rfl⟩, hp⟩)
    · exact .inr (.inl ((hnext he).trans (if_neg hp)))
  | resetNAssert =>
    by_cases hp : s.lane.phase = .inService
    · exact .inr (.inr ⟨_, (hnext he).trans (if_pos hp)⟩)
    · exact .inr (.inl ((hnext he).trans (if_neg hp)))
  | resetNRelease straps =>
    by_cases hp : s.lane.phase = .pinReset
    · exact .inl (.inr ⟨⟨straps, rfl⟩, hp⟩)
    · exact .inr (.inl ((hnext he).trans (if_neg hp)))
  | _ => exact Bool.noConfusion (show false = true from hr)

theorem exec_reset_maint (hr : Instr.isReset i = true) (he : exec i s = .next t) :
    ((∃ straps, i = .powerOnResetEnd straps) ∧ s.lane.phase = .powerReset ∨
      (∃ straps, i = .resetNRelease straps) ∧ s.lane.phase = .pinReset) ∨ t.maint = s.maint := by
  rcases exec_reset hr he with hended | rfl | ⟨p, rfl⟩
  · exact .inl hended
  · exact .inr rfl
  · exact .inr rfl

/-- An outgoing slot is the lane's alone. -/
theorem State.outgoingSlot_rest (s : State) (d : Dir) : s.outgoingSlot d = { s with lane := (s.outgoingSlot d).lane } := by
  unfold State.outgoingSlot
  split <;> rfl

/-- Settles O59: a command is an end of a reset, a request, or what keeps flags and mask; and of the requests only
ATTENTION_CLEAR takes flags away, only RESTART and the mask requests change the mask. -/
theorem flagsClearedOnlyByRequest : Obligations.FlagsClearedOnlyByRequest := by
  intro c s t hw he ended brings
  cases hr : Instr.isReset c
  case true =>
    rcases exec_reset_maint hr he with hended | hmaint
    · exact ⟨fun _ _ _ => .inl hended, fun _ => .inl hended⟩
    · rw [hmaint]
      exact ⟨fun f h h' => absurd (h.symm.trans h') (by decide), fun h => absurd rfl h⟩
  case false =>
    have hslot (d : Dir) : (s.outgoingSlot d).maint = s.maint := by rw [s.outgoingSlot_rest d]
    rcases exec_request_or_kept hw hr he with ⟨call, tag, kind, args, hp, hcell, rfl⟩ | hkept
    · have hb : brings kind args := ⟨hp, call, tag, hcell⟩
      refine ⟨fun f h h' => ?flags, fun h => ?mask⟩
      case flags =>
        refine .inr (by_contra fun hno => ?_)
        have kept := (FreeAll.flagSet f).kept
        have h1 := kept.endBridge (kept.settle h) .down
        have h2 : hasFlag (((s.settle.endBridge .down).maintain tag kind args)).maint.flags f = true := by
          by_cases hk : kind = 21#8
          · subst hk
            refine kept.toKeptEvents.maintainOf (State.attentionClear_flag h1 fun x1 x2 e => ?_) (fun _ _ h => h)
            subst e
            exact Bool.eq_false_iff.mpr fun hx => hno ⟨x1, x2, hb, hx⟩
          · exact kept.maintain h1 tag kind args (fun e => absurd (BitVec.eq_of_toNat_eq (e.trans rfl)) hk) fun _ _ h => h
        exact absurd (h2.symm.trans h') (by decide)
      case mask =>
        refine .inr ⟨args, by_contra fun hno => h ?_⟩
        have kept := (FreeRequests.mask s).toFreeEvents.kept
        have h1 : (s.settle.endBridge .down).maint.mask = s.maint.mask := kept.endBridge (kept.settle rfl) .down
        have hkind {n : Nat} {b : Byte} (hb' : b.toNat = n) (hne : ¬ brings b args) : kind.toNat ≠ n :=
          fun e => hne ((BitVec.eq_of_toNat_eq (e.trans hb'.symm) : kind = b) ▸ hb)
        simp only [not_or] at hno
        obtain ⟨h22, h23, h7⟩ := hno
        exact kept.maintainOf ((State.request_mask _ args ⟨hkind rfl h7, hkind rfl h22, hkind rfl h23⟩).trans h1)
          fun _ _ h => h
    · refine ⟨fun f h h' => ?_, fun h => absurd ?_ h⟩
      · have h1 := hkept (FreeAll.flagSet f).kept.toKeptEvents (fun _ _ h => h)
          (fun d _ h => by rw [hslot]; exact h) h
        exact absurd (h1.symm.trans h') (by decide)
      · exact hkept (FreeRequests.mask s).toFreeEvents.kept (fun _ _ h => h) (fun d _ _ => by rw [hslot]) rfl

end Sys2Proof.Machine
end

section
/-! PROOFS. The configuration and the active bank over every command (O60; 03, R46, R52, R57; 11, R183). -/

namespace Sys2Proof.Machine

variable {P : State → Prop} {s t : State} {i : Instr}

/-! ### The configuration -/

/-- The configuration fields of a station record (02, 2.1). -/
def Station.config (st : Station) : Option Digits × Option Nat × Option Nat × Option Nat × Authority × Bool :=
  (st.dn, st.talkSlot, st.homeZone, st.pickupGroup, st.authority, st.ringAssist)

theorem StationChange.config {a b : Station} (h : StationChange a b) : b.config = a.config := by
  simp only [Station.config, h.dn, h.talkSlot, h.homeZone, h.pickupGroup, h.authority, h.ringAssist]

/-- Two parts with one configuration (11, R183). -/
structure State.SameConfig (s t : State) : Prop where
  staged : t.hunt.staged = s.hunt.staged
  codes : t.codes = s.codes
  partners : t.pickup.partners = s.pickup.partners
  zoneSets : t.paging.zoneSets = s.paging.zoneSets
  params : t.paging.params = s.paging.params
  directory : t.prompts.directory = s.prompts.directory
  tones : t.prompts.tones = s.prompts.tones
  stations : ∀ n, (t.stations.get n).config = (s.stations.get n).config
  zones : ∀ z, (t.zones.get z).fields = (s.zones.get z).fields

theorem State.SameConfig.refl (s : State) : s.SameConfig s := ⟨rfl, rfl, rfl, rfl, rfl, rfl, rfl, fun _ => rfl, fun _ => rfl⟩

/-- A change of one record that leaves a reading of it leaves that reading of every record. -/
theorem Tab.read_put {lo n : Nat} {α β : Type} [Inhabited α] {read : α → β} {tab : Tab lo n α} {j : Nat} {a : α}
    (h : read a = read (tab.get j)) (m : Nat) : read ((tab.put j a).get m) = read (tab.get m) := by
  rw [Tab.get_put]
  split
  · rename_i hj
    rw [← hj.1, h]
  · rfl

/-- A map that leaves a reading of every record leaves it of every number. -/
theorem Tab.read_map {lo n : Nat} {α β : Type} [Inhabited α] {read : α → β} {f : α → α} (tab : Tab lo n α)
    (h : ∀ a, read (f a) = read a) (m : Nat) : read ((tab.map f).get m) = read (tab.get m) := by
  by_cases hm : lo ≤ m ∧ m < lo + n
  · rw [Tab.get_map _ _ hm, h]
  · rw [Tab.get_of_not_mem _ hm, Tab.get_of_not_mem _ hm]

theorem State.SameConfig.modZone {z : Nat} {f : Zone → Zone} (h : s.SameConfig t)
    (hf : (f (t.zones.get z)).fields = (t.zones.get z).fields) : s.SameConfig (t.modZone z f) :=
  { h with zones := fun m => (Tab.read_put (read := Zone.fields) hf m).trans (h.zones m) }

theorem State.SameConfig.modStation {n : Nat} {f : Station → Station} (h : s.SameConfig t)
    (hf : (f (t.stations.get n)).config = (t.stations.get n).config) : s.SameConfig (t.modStation n f) :=
  { h with stations := fun m => (Tab.read_put (read := Station.config) hf m).trans (h.stations m) }

/-- Every request but a table's writes leaves the configuration alone, RESTART and the mask requests among them. -/
theorem FreeRequests.config (s : State) : FreeRequests s.SameConfig where
  assist _ := id
  zone h hf := h.modZone hf.fields
  lane h _ := { h with }
  flag _ h := { h with }
  source _ h := h.modStation rfl
  paging h hf := { h with zoneSets := hf.zoneSets.trans h.zoneSets, params := hf.params.trans h.params }
  alarm h _ := { h with }
  station h hf := h.modStation hf.config
  hunt h hf := { h with staged := hf.staged.trans h.staged }
  orbit h := { h with }
  pickup h hf := { h with partners := hf.partners.trans h.partners }
  lines h _ := { h with }
  audio h hf _ := h.modZone hf
  highway h := { h with }
  alarmLine _ h := { h with }
  countdownOff h := { h with }
  mode _ h := { h with }
  cause _ h := { h with }
  clear _ h _ := { h with }
  countdown _ h := { h with }
  silent _ h := h.modZone rfl
  zoneCounters _ h := h.modZone rfl
  samples h hd ht := { h with directory := hd.trans h.directory, tones := ht.trans h.tones }

theorem State.SameConfig.modMaint (h : s.SameConfig t) (f : Maint → Maint) : s.SameConfig (t.modMaint f) := { h with }

theorem State.SameConfig.restartBlocks (h : s.SameConfig t) : s.SameConfig t.restartBlocks :=
  { h with
    stations := fun n => (Tab.read_map (read := Station.config) (f := Station.restarted) t.stations (fun _ => rfl) n).trans (h.stations n)
    zones := fun z => (Tab.read_map (read := Zone.fields) (f := Zone.emptied) t.zones (fun _ => rfl) z).trans (h.zones z) }

theorem State.SameConfig.restart (h : s.SameConfig t) : s.SameConfig t.restart := by
  have kept := (FreeRequests.config s).moves
  have hblocks := (((FreeRequests.config s).becomeTransparent h).restartBlocks).modMaint fun m => { m with cause := .restart }
  have hreset := hblocks.modMaint fun m =>
    { m with flags := m.flags ||| flagMask .reset, mask := m.mask &&& ~~~ flagMask .reset }
  have hflag : s.SameConfig
      (t.becomeTransparent.restartBlocks.modMaint fun m => { m with cause := .restart }).setResetFlag :=
    ite_kept hreset (kept.join hreset _ _)
  exact ite_kept (kept.enterAlarm hflag _) hflag

theorem State.SameConfig.attentionMaskSet (h : s.SameConfig t) (args : List Byte) :
    s.SameConfig (t.attentionMaskSet args).state := by
  unfold State.attentionMaskSet
  split
  · rename_i x _
    exact h.modMaint fun m => { m with mask := m.mask ||| x }
  · exact h

theorem State.SameConfig.attentionMaskClear (h : s.SameConfig t) (args : List Byte) :
    s.SameConfig (t.attentionMaskClear args).state := by
  unfold State.attentionMaskClear
  split
  · rename_i x _
    have h1 := h.modMaint fun m => { m with mask := m.mask &&& ~~~ x }
    exact ite_kept h1 ((FreeRequests.config s).moves.join h1 _ _)
  · exact h

theorem State.SameConfig.requestRestart (h : s.SameConfig t) (args : List Byte) :
    s.SameConfig (t.requestRestart args).state := by
  unfold State.requestRestart
  split
  · exact h.restart
  · exact h

/-- Only WRITE_ENTRY and CLEAR_ENTRY change the configuration (11, R183). -/
theorem State.SameConfig.request (h : s.SameConfig t) {kind : Nat} (args : List Byte) (hk : kind ≠ 2 ∧ kind ≠ 3) :
    s.SameConfig (t.request kind args).state := by
  by_cases h7 : kind = 7
  · exact h7 ▸ h.requestRestart args
  by_cases h22 : kind = 22
  · exact h22 ▸ h.attentionMaskSet args
  by_cases h23 : kind = 23
  · exact h23 ▸ h.attentionMaskClear args
  refine (FreeRequests.config s).request h args ?_
  simp only [writingKinds, List.mem_cons, List.not_mem_nil, or_false, not_or]
  exact ⟨hk.1, hk.2, h7, h22, h23⟩

/-- The begin of a reset leaves the configuration alone (01, R20). -/
theorem State.holdReset_config (s : State) (p : Phase) : s.SameConfig (s.holdReset p) :=
  { State.SameConfig.refl s with zones := fun z => (s.holdReset_zones p z).2.1 }

theorem State.SameConfig.maintain (h : s.SameConfig t) {tag kind : Byte} (args : List Byte) (hk : kind ≠ 2#8 ∧ kind ≠ 3#8) :
    s.SameConfig (t.maintain tag kind args) := by
  have hne {n : Nat} {b : Byte} (hb : b.toNat = n) (h : kind ≠ b) : kind.toNat ≠ n :=
    fun e => h (BitVec.eq_of_toNat_eq (e.trans hb.symm))
  exact (FreeRequests.config s).toFreeEvents.kept.maintainOf (h.request args ⟨hne rfl hk.1, hne rfl hk.2⟩)
    fun _ _ h => { h with }

/-- A command that neither ends a reset nor writes a table leaves the configuration alone. -/
theorem exec_config (hw : i.wf = true) (he : exec i s = .next t)
    (hended : ¬ ((∃ straps, i = .powerOnResetEnd straps) ∨ ∃ straps, i = .resetNRelease straps))
    (hwrites : ¬ (s.lane.phase = .inService ∧ ∃ call tag kind args, (kind = 2#8 ∨ kind = 3#8) ∧
      cellOf s.lane.own i = some (.down, ⟨s.lane.own, call, .maint tag kind args⟩))) : s.SameConfig t := by
  cases hr : Instr.isReset i
  case true =>
    rcases exec_reset hr he with (⟨h, -⟩ | ⟨h, -⟩) | rfl | ⟨p, rfl⟩
    · exact absurd (.inl h) hended
    · exact absurd (.inr h) hended
    · exact .refl _
    · exact s.holdReset_config p
  case false =>
    have kept := (FreeRequests.config s).toFreeEvents.kept
    rcases exec_request_or_kept hw hr he with ⟨call, tag, kind, args, hp, hcell, rfl⟩ | hkept
    · exact (kept.endBridge (kept.settle (.refl s)) .down).maintain args
        ⟨fun e => hwrites ⟨hp, call, tag, kind, args, .inl e, hcell⟩,
          fun e => hwrites ⟨hp, call, tag, kind, args, .inr e, hcell⟩⟩
    · exact hkept kept (fun _ _ h => { h with }) (fun d _ h => by rw [s.outgoingSlot_rest d]; exact { h with }) (.refl s)

/-! ### The active bank (03, R57) -/

/-- Everything but a commit leaves the active bank alone. -/
theorem FreeAll.activeBank (s : State) : FreeAll fun t => t.hunt.active = s.hunt.active where
  assist _ := id
  zone h _ := h
  lane h _ := h
  flag _ h := h
  source _ h := h
  paging h _ := h
  alarm h _ := h
  station h _ := h
  hunt h hf := hf.active.trans h
  orbit h := h
  pickup h _ := h
  lines h _ := h
  audio h _ _ := h
  highway h := h
  alarmLine _ h := h
  countdownOff h := h
  maint h _ _ := h
  stationAny h _ := h
  code h := h
  zoneAny h _ := h
  huntAny h hf _ := hf.trans h
  pickupAny h _ := h
  pagingAny h _ := h
  prompts h _ := h
  restart h := h

/-- What moves leave of a commit's basis: both banks, the countdown and the clock. -/
theorem Free.commitBasis (s : State) : Free fun t => t.hunt.staged = s.hunt.staged ∧ t.hunt.active = s.hunt.active ∧
    t.hunt.countdown = s.hunt.countdown ∧ t.clock = s.clock where
  assist _ := id
  zone h _ := h
  lane h _ := h
  flag _ h := h
  source _ h := h
  paging h _ := h
  alarm h _ := h
  station h _ := h
  hunt h hf := ⟨hf.staged.trans h.1, hf.active.trans h.2.1, hf.countdown.trans h.2.2.1, h.2.2.2⟩
  orbit h := h
  pickup h _ := h

/-- A commit makes the staged bank the active one (03, R57). -/
theorem State.commit_active (s : State) : s.commit.hunt.active = s.hunt.staged :=
  (FreeAll.activeBank (s.modHunt fun h => { h with active := h.staged })).toFree.kept.commit rfl

/-- The expiry of the countdown leaves the active bank, or finds the countdown due and makes the staged bank the active
one (03, R55). -/
theorem State.commitExpiry_active (s : State) : s.commitExpiry.hunt.active = s.hunt.active ∨
    s.commitExpiry.hunt.active = s.hunt.staged ∧ duePast s.clock s.hunt.countdown = true := by
  unfold State.commitExpiry
  split
  · rename_i hdue
    dsimp only
    split
    · exact .inl ((FreeAll.activeBank s).toFree.kept.setFlag (s := s.modHunt fun h => { h with countdown := none }) rfl _)
    · exact .inr ⟨State.commit_active _, hdue⟩
  · exact .inl rfl

theorem duePast_iff {now : Nat} {d : Option Nat} : duePast now d = true ↔ ∃ t, d = some t ∧ t ≤ now := by
  cases d <;> simp [duePast]

/-- Three bytes that spell 0 are 0. -/
theorem bytes_of_zero {args : List Byte} {d : Nat} (h : fixedArgs [3] args = some [d]) (hd : d = 0) :
    args = [0#8, 0#8, 0#8] := by
  match args with
  | [] => exact nomatch h
  | [_] => exact nomatch h
  | [_, _] => exact nomatch h
  | _ :: _ :: _ :: _ :: _ => simp [fixedArgs] at h
  | [a, b, c] =>
    simp only [fixedArgs, List.length_cons, List.length_nil, List.take, List.drop, Nat.lt_irrefl, if_false,
      Option.map_some, bytesNat, List.foldl_cons, List.foldl_nil, Option.some.injEq, List.cons.injEq, and_true] at h
    have hzero (x : Byte) (hx : x.toNat = 0) : x = 0#8 := BitVec.eq_of_toNat_eq hx
    rw [hzero a (by omega), hzero b (by omega), hzero c (by omega)]

/-- A COMMIT with a delay above 0 leaves no expiry that is due (03, R52). -/
theorem State.requestCommit_not_due {args : List Byte} (ho : (s.requestCommit args).outcome = .done)
    (ha : args ≠ [0#8, 0#8, 0#8]) :
    duePast (s.requestCommit args).state.clock (s.requestCommit args).state.hunt.countdown = false := by
  unfold State.requestCommit at ho ⊢
  split
  · rename_i delay hdelay
    simp only [hdelay] at ho
    split
    · rename_i hinvalid
      simp only [hinvalid] at ho
      cases ho
    · have hpos : delay ≠ 0 := fun h0 => ha (bytes_of_zero hdelay h0)
      exact decide_eq_false (by simp only [done, State.modHunt, Config.commitDelayMax]; omega)
  · rename_i hform
    split at ho
    · exact absurd (by assumption) (hform _)
    · cases ho

/-- A request changes the active bank only as a COMMIT of delay 0, to the staged bank (03, R52, R57). -/
theorem State.maintain_active (s : State) (tag kind : Byte) (args : List Byte) :
    (s.maintain tag kind args).hunt.active = s.hunt.active ∨
      (s.maintain tag kind args).hunt.active = s.hunt.staged ∧ kind = 4#8 ∧ args = [0#8, 0#8, 0#8] := by
  have kept := (FreeAll.activeBank s).kept
  by_cases hk : kind = 4#8
  · subst hk
    by_cases hd : (s.requestCommit args).outcome = .done
    · have hmaintain : s.maintain tag 4#8 args = (State.reply tag (s.requestCommit args)).commitExpiry := by
        show (State.reply tag (s.requestCommit args)).commitNow 4#8 (s.requestCommit args).outcome = _
        rw [hd]
        rfl
      have hbasis := (Free.commitBasis (s.requestCommit args).state).kept.sendParts tag (s.requestCommit args).outcome
        (replyParts (s.requestCommit args).data).length (replyParts (s.requestCommit args).data) 1 ⟨rfl, rfl, rfl, rfl⟩
      change (State.reply tag (s.requestCommit args)).hunt.staged = _ ∧
        (State.reply tag (s.requestCommit args)).hunt.active = _ ∧
        (State.reply tag (s.requestCommit args)).hunt.countdown = _ ∧
        (State.reply tag (s.requestCommit args)).clock = _ at hbasis
      obtain ⟨hstaged, hactive, hcount, hclock⟩ := hbasis
      rw [hmaintain]
      rcases State.commitExpiry_active (State.reply tag (s.requestCommit args)) with h | ⟨h, hdue⟩
      · exact .inl (h.trans (hactive.trans (kept.requestCommit rfl args)))
      · refine .inr ⟨h.trans (hstaged.trans ((FreeRequests.config s).requestCommit (.refl s) args).staged), rfl, ?_⟩
        by_contra ha
        rw [hcount, hclock, State.requestCommit_not_due hd ha] at hdue
        cases hdue
    · refine .inl ?_
      have hrequest : (s.request (4#8 : Byte).toNat args).state.hunt.active = s.hunt.active := kept.requestCommit rfl args
      unfold State.maintain State.commitNow
      rw [if_neg fun h => hd h.2]
      exact kept.sendParts tag _ _ _ _ hrequest
  · by_cases h21 : kind.toNat = 21
    · exact .inl (kept.maintain rfl tag kind args (fun _ _ _ h _ => h) fun e => absurd e hk)
    · exact .inl (kept.maintain rfl tag kind args (fun e => absurd e h21) fun e => absurd e hk)

/-- Settles O60: the configuration by its own statement; the active bank by the resets, the expiry that is due and the
COMMIT of delay 0, which alone commit. -/
theorem configurationChangesOnlyByRequest : Obligations.ConfigurationChangesOnlyByRequest := by
  intro c s t hw he ended writes config
  refine ⟨fun hended hwrites => ?config, ?active⟩
  case config =>
    have h := exec_config hw he hended hwrites
    exact ⟨h.staged, h.codes, h.partners, h.zoneSets, h.params, h.directory, h.tones, h.stations, h.zones⟩
  case active =>
    cases hr : Instr.isReset c
    case true =>
      rcases exec_reset hr he with (⟨h, -⟩ | ⟨h, -⟩) | rfl | ⟨p, rfl⟩
      · exact .inr (.inl (.inl h))
      · exact .inr (.inl (.inr h))
      · exact .inl rfl
      · exact .inl rfl
    case false =>
      have kept := (FreeAll.activeBank s).kept
      obtain ⟨hstaged, hactive, hcount, hclock⟩ := (Free.commitBasis s).kept.settle ⟨rfl, rfl, rfl, rfl⟩
      rcases exec_request_or_kept hw hr he with ⟨call, tag, kind, args, hp, hcell, rfl⟩ | hkept
      · rcases State.maintain_active (s.settle.endBridge .down) tag kind args with h | ⟨h, rfl, rfl⟩
        · exact .inl (h.trans hactive)
        · exact .inr (.inr ⟨h.trans hstaged, hp, .inr ⟨call, tag, hcell⟩⟩)
      · by_cases hc : c = .commitExpiry
        · subst hc
          by_cases hp : s.lane.phase = .inService
          · have hstate : exec .commitExpiry s = .next s.settle.commitExpiry := congrArg _ (if_pos hp)
            obtain rfl : s.settle.commitExpiry = t := by
              rw [hstate] at he
              cases he
              rfl
            rcases s.settle.commitExpiry_active with h | ⟨h, hdue⟩
            · exact .inl (h.trans hactive)
            · rw [hcount, hclock] at hdue
              exact .inr (.inr ⟨h.trans hstaged, hp, .inl ⟨rfl, duePast_iff.mp hdue⟩⟩)
          · have hstate : exec .commitExpiry s = .next s := congrArg _ (if_neg hp)
            rw [hstate] at he
            cases he
            exact .inl rfl
        · exact .inl (hkept kept.toKeptEvents (fun e => absurd e hc)
            (fun d _ h => by rw [s.outgoingSlot_rest d]) rfl)

end Sys2Proof.Machine
end

section
/-! PROOFS. The queue of commands, the resets, the slots and the cells that no block follows (O1, O3 to O8, O10; 01; 11,
R186). -/

namespace Sys2Proof.Machine

variable {s : State} {i : Instr}

/-- Settles O1. -/
theorem stepTakesFrontCommand : Obligations.StepTakesFrontCommand := by
  intro c rest s h
  unfold step
  rw [h]
  rfl

/-! ### Resets (01, R20, R21; 11, R186) -/

/-- Settles O3: the begin of a reset is what the statement writes out; RESET_N asserts one in service. -/
theorem resetHoldBegins : Obligations.ResetHoldBegins := by
  intro s held
  have hassert (h : s.lane.phase = .inService) : s.assertReset = s.holdReset .pinReset := if_pos h
  exact ⟨rfl, fun h => congrArg _ (hassert h)⟩

/-- With every block at its reset values, RESET goes from clear to set, unmasked, and its cell finds an empty queue. -/
theorem State.blocksReset_setResetFlag (s : State) (cause : ResetCause) (straps : BitVec 4) (pr : Prompts) :
    (s.blocksReset cause straps pr).setResetFlag = s.afterReset cause straps pr := by
  have hflags : 0#16 ||| flagMask .reset = 0x8000#16 := by decide
  have hmask : 0x7FFE#16 &&& ~~~ flagMask .reset = 0x7FFE#16 := by decide
  have hshown : 0x8000#16 &&& ~~~ 0x7FFE#16 = 0x8000#16 := by decide
  have hclear : hasFlag 0#16 .reset = false := by decide
  unfold State.setResetFlag
  simp only [State.blocksReset, State.modMaint, hclear, hflags, hmask, Bool.false_and, Bool.false_eq_true, if_false]
  rw [State.join_of_free _ rfl]
  simp only [attentionCell, hshown]
  rfl

/-- After a reset ALARM_ENTERED is masked, and the mode is TRANSPARENT (11, R186; 10, R171). -/
theorem State.afterReset_enterAlarm (s : State) (cause : ResetCause) (straps : BitVec 4) (pr : Prompts) :
    let t := s.afterReset cause straps pr
    t.enterAlarm .input =
      { t with alarm := { t.alarm with source := some .input }, maint := { t.maint with flags := 0x8080#16 } } := by
  intro t
  have hset : 0x8000#16 ||| flagMask .alarmEntered = 0x8080#16 := by decide
  have hclear : hasFlag 0x8000#16 .alarmEntered = false := by decide
  have hmasked : hasFlag 0x7FFE#16 .alarmEntered = true := by decide
  have hflag : (t.modAlarm fun a => { a with source := some .input }).setFlag .alarmEntered =
      { t with alarm := { t.alarm with source := some .input }, maint := { t.maint with flags := 0x8080#16 } } := by
    rw [State.setFlag_of_masked (s := t.modAlarm fun a => { a with source := some .input }) hclear hmasked, ← hset]
    rfl
  unfold State.enterAlarm
  rw [hflag]
  exact if_neg (show ¬ Mode.transparent = Mode.engaged from nofun)

theorem State.endReset_eq (s : State) (cause : ResetCause) (straps : BitVec 4) (pr : Prompts) :
    let t := s.afterReset cause straps pr
    s.endReset cause straps pr =
      if s.alarm.line then
        { t with alarm := { t.alarm with source := some .input }, maint := { t.maint with flags := 0x8080#16 } }
      else t := by
  unfold State.endReset State.readAlarmLine
  rw [State.blocksReset_setResetFlag, State.afterReset_enterAlarm]
  rfl

/-- Settles O4: the end of each reset is its values, RESET set, and ALARM_IN read. -/
theorem resetEndSetsEveryBlock : Obligations.ResetEndSetsEveryBlock := by
  intro straps s alarmed
  have hpower (h : s.lane.phase = .powerReset) : s.powerOnEnd straps = s.endReset .power straps Prompts.reset := if_pos h
  have hpin (h : s.lane.phase = .pinReset) : s.releaseReset straps = s.endReset .pin straps s.prompts.pinKept := if_pos h
  refine ⟨fun h => congrArg Host.Outcome.next ?_, fun h => congrArg Host.Outcome.next ?_⟩
  · exact (hpower h).trans (s.endReset_eq _ _ _)
  · exact (hpin h).trans (s.endReset_eq .pin straps s.prompts.pinKept)

/-! ### While a reset holds (01, R20) -/

theorem State.inService_held (h : s.lane.phase ≠ .inService) (f : State → State) : s.inService f = s := if_neg h

theorem State.arrive_held (h : s.lane.phase ≠ .inService) (d : Dir) (c : Cell) :
    s.arrive d c = s.copySlot d (some ⟨cellBytes c, none⟩) := if_neg h

/-- A row of a cell of a known kind carries that cell's bytes. -/
theorem carriedBy_of_known (own : Equip) (h1 : ∀ d c, i ≠ .damagedCell d c) (h2 : ∀ d b, i ≠ .malformedCell d b)
    (h3 : ∀ d b, i ≠ .unknownKindCell d b) :
    carriedBy own i = (cellOf own i).map fun e => (e.1, ⟨cellBytes e.2, none⟩) := by
  cases i with
  | damagedCell d c => exact absurd rfl (h1 d c)
  | malformedCell d b => exact absurd rfl (h2 d b)
  | unknownKindCell d b => exact absurd rfl (h3 d b)
  | _ => rfl

/-- What a row of a cell carries. -/
theorem carriedBy_cases {own : Equip} {d : Dir} {w : WireCell} (h : carriedBy own i = some (d, w)) :
    (∃ cell, i = .damagedCell d cell ∧ w = cell.onWire) ∨
      (∃ bytes, (i = .malformedCell d bytes ∨ i = .unknownKindCell d bytes) ∧ w = ⟨bytes, none⟩) ∨
      ∃ c, cellOf own i = some (d, c) ∧ w = ⟨cellBytes c, none⟩ := by
  by_cases h1 : ∃ e cell, i = .damagedCell e cell
  · obtain ⟨e, cell, rfl⟩ := h1
    cases h
    exact .inl ⟨cell, rfl, rfl⟩
  by_cases h2 : ∃ e bytes, i = .malformedCell e bytes
  · obtain ⟨e, bytes, rfl⟩ := h2
    cases h
    exact .inr (.inl ⟨bytes, .inl rfl, rfl⟩)
  by_cases h3 : ∃ e bytes, i = .unknownKindCell e bytes
  · obtain ⟨e, bytes, rfl⟩ := h3
    cases h
    exact .inr (.inl ⟨bytes, .inr rfl, rfl⟩)
  rw [carriedBy_of_known own (fun e c hi => h1 ⟨e, c, hi⟩) (fun e b hi => h2 ⟨e, b, hi⟩) fun e b hi => h3 ⟨e, b, hi⟩] at h
  obtain ⟨⟨e, c⟩, hc, he⟩ := Option.map_eq_some_iff.mp h
  cases he
  exact .inr (.inr ⟨c, hc, rfl⟩)

/-- Settles O5: every arrival is copied, and the part's own events and the outgoing slots wait for service. -/
theorem resetBridgesAndWaits : Obligations.ResetBridgesAndWaits := by
  intro c s hp
  refine ⟨fun d w hw => ?cell, fun he => ?event⟩
  case cell =>
    rcases carriedBy_cases hw with ⟨cell, rfl, rfl⟩ | ⟨bytes, rfl | rfl, rfl⟩ | ⟨c, hc, rfl⟩
    · exact congrArg _ (if_neg hp)
    · exact congrArg _ (if_neg hp)
    · exact congrArg _ (if_neg hp)
    · exact (exec_cellOf hc).trans (congrArg _ (State.arrive_held hp d c))
  case event =>
    cases c with
    | outgoingSlot d => exact congrArg _ (if_neg hp)
    | _ => first
      | exact congrArg _ (State.inService_held hp _)
      | exact Bool.noConfusion (show false = true from he)

/-! ### Slots (01, R17, R20, R21) -/

/-- A slot put in its place is read back, and every other slot is as it was (01, R20). -/
theorem slotSample_putSlot (k slot : Nat) (x : Sample) (out : List (Nat × Sample)) :
    slotSample k (putSlot slot x out) = if k = slot then some x else slotSample k out := by
  unfold slotSample
  induction out with
  | nil =>
    by_cases h : k = slot
    · simp [putSlot, h]
    · simp [putSlot, h, Ne.symm h]
  | cons e out ih =>
    obtain ⟨j, y⟩ := e
    unfold putSlot
    by_cases h1 : slot < j
    · by_cases h : k = slot
      · simp [h1, h]
      · simp [h1, h, Ne.symm h]
    · by_cases h2 : slot = j
      · subst h2
        by_cases h : k = slot
        · simp [h]
        · simp [h, Ne.symm h]
      · rw [if_neg h1, if_neg h2, List.find?_cons, List.find?_cons]
        by_cases h3 : j = k
        · have hk : k ≠ slot := fun e => h2 (e.symm.trans h3.symm)
          simp [h3, hk]
        · simp only [h3, decide_false]
          exact ih

/-- Settles O6: by the phase of the direction's bridge; on the highway the slot is put in its place. -/
theorem bridgeCopiesSlots : Obligations.BridgeCopiesSlots := by
  intro s
  refine ⟨fun w => congrArg Host.Outcome.next ?down, fun w => congrArg Host.Outcome.next ?up,
    fun slot x h => congrArg Host.Outcome.next ?off, fun slot x h => ?on⟩
  case down =>
    show s.bridgeSlot (.lane .down w) = _
    obtain ⟨⟨_, bridge⟩⟩ := s
    cases bridge <;> rfl
  case up =>
    show s.bridgeSlot (.lane .up w) = _
    obtain ⟨⟨_, _, bridge⟩⟩ := s
    cases bridge <;> rfl
  case off =>
    show s.bridgeSlot (.highway slot x) = s
    unfold State.bridgeSlot
    rw [h]
  case on =>
    refine ⟨putSlot slot.toNat x s.highwayOut, congrArg Host.Outcome.next ?_, ?_, fun k hk => ?_⟩
    · show s.bridgeSlot (.highway slot x) = _
      unfold State.bridgeSlot
      cases hb : s.lane.bridgeHighway
      · exact absurd hb h
      · rfl
      · rfl
    · rw [slotSample_putSlot, if_pos rfl]
    · rw [slotSample_putSlot, if_neg hk]

/-- Settles O7: the oldest cell leaves its queue and stands in the slot. -/
theorem outgoingSlotSendsOldest : Obligations.OutgoingSlotSendsOldest :=
  fun _ h => ⟨congrArg _ (if_pos h), congrArg _ (if_pos h)⟩

/-! ### Bad cells (01, R5, R7) -/

/-- The arrival of a damaged or malformed cell in service where nothing is raised. -/
theorem exec_badCell {d : Dir} {bytes : List Byte} {w : WireCell}
    (h : (∃ cell, i = .damagedCell d cell ∧ w = cell.onWire) ∨
      i = .malformedCell d bytes ∧ i.wf = true ∧ w = ⟨bytes, none⟩)
    (hp : s.lane.phase = .inService) (hc : s.Calm) : exec i s = .next ((s.endBridge d).forwardBad d (.raw w)) := by
  rcases h with ⟨cell, rfl, rfl⟩ | ⟨rfl, hw, rfl⟩
  · show Host.Outcome.next (s.arriveDamaged d cell.bytes cell.violation) = _
    rw [State.arriveDamaged, if_pos hp, State.settle_of_calm hc]
    rfl
  · have hbad : parseCell d bytes = .malformed := eq_of_beq (Bool.and_eq_true_iff.mp hw).2
    show Host.Outcome.next (s.arriveBytes d bytes) = _
    rw [State.arriveBytes, if_pos hp, State.settle_of_calm hc]
    simp only [hbad]

/-- The flag's cell takes at most one place. -/
theorem State.raised_length (s : State) (f : Flag) : (s.raised f).length ≤ 1 := by
  unfold State.raised
  split
  · exact Nat.zero_le _
  · exact le_rfl

theorem State.room_of_queued_raised {s : State} {f : Flag} (h : s.room .up 2) : (s.queued .up (s.raised f)).room .up 1 :=
  State.room_queued (State.room_mono h (Nat.add_le_add_right (s.raised_length f) 1))

/-- Settles O8: counted, flagged with the flag's cell, and then in the queue as it came. -/
theorem badCellsForwarded : Obligations.BadCellsForwarded := by
  refine ⟨fun _ => rfl, fun c d bytes w s h hp hc hdown hup => ?_⟩
  rw [exec_badCell h hp hc]
  let counted := (s.endBridge d).modLaneCounters fun k => { k with malformed := satInc k.malformed }
  have hcountedUp : counted.room .up 2 := (State.endBridge_room d .up 2).mpr hup
  have hflag : counted.setFlag .malformedCell = (counted.flagged .malformedCell).queued .up (counted.raised .malformedCell) :=
    State.setFlag_room (State.room_mono hcountedUp (by decide))
  have hraised : counted.raised .malformedCell = s.raised .malformedCell := by cases d <;> rfl
  have hroom : ((counted.flagged .malformedCell).queued .up (counted.raised .malformedCell)).room d 1 := by
    cases d
    · exact hdown
    · exact State.room_of_queued_raised (s := counted) (f := .malformedCell) hcountedUp
  unfold State.forwardBad
  rw [hflag, State.join_room _ hroom, hraised]

/-! ### Cells that no block follows (01, R8 to R14) -/

/-- A row's cell comes in its kind's direction (12, R195). -/
theorem cellOf_dir {own : Equip} {d : Dir} {c : Cell} (h : cellOf own i = some (d, c)) : d = bodyDir c.body := by
  cases i <;> cases h <;> rfl

/-- A row's cell of good form in service where nothing is raised: its bridge ends, and it is classified (01, R4). -/
theorem exec_cell {d : Dir} {c : Cell} (h : cellOf s.lane.own i = some (d, c)) (hp : s.lane.phase = .inService)
    (hc : s.Calm) (ho : cellOk c = true) : exec i s = .next ((s.endBridge d).classify c) := by
  rw [exec_cellOf h, State.arrive_ok d c hp hc ho]

/-- The classifier passes an untouched cell (01, R8 to R14). -/
theorem State.classify_untouched {c : Cell} (h : untouched s.lane.own c = true) :
    s.classify c = s.join (bodyDir c.body) (.known c) := by
  obtain ⟨eq, call, body⟩ := c
  unfold State.classify
  cases body with
  | tone | display | engage | divert => rfl
  | callEnd => exact Bool.noConfusion (show false = true from h)
  | offer | withdraw =>
    simp only [untouched, Bool.and_eq_true, decide_eq_true_eq, Bool.not_eq_true'] at h
    obtain ⟨hown, htracked⟩ := h
    simp only [hown, htracked, decide_false, Bool.false_eq_true, if_false]
    rfl
  | maint | maintReply | attention =>
    have hown : eq ≠ s.lane.own := of_decide_eq_true h
    simp only [hown, decide_false, Bool.false_eq_true, if_false]
    rfl
  | offHook | onHook | ringStarted | dialled | answered | refused =>
    simp only [untouched, Bool.not_eq_true'] at h
    simp only [h, Bool.false_eq_true, if_false]
    rfl

/-- A reply or an ATTENTION up with the part's own number (01, R14). -/
def ownReport (own : Equip) (c : Cell) : Prop :=
  (∃ tag o part count data, c = ⟨own, c.call, .maintReply tag o part count data⟩) ∨
    ∃ flags unmasked, c = ⟨own, c.call, .attention flags unmasked⟩

/-- The classifier passes such a cell and counts it as unexpected (01, R14). -/
theorem State.classify_ownReport {c : Cell} (h : ownReport s.lane.own c) :
    s.classify c = s.unexpected.join .up (.known c) ∧ bodyDir c.body = .up := by
  rcases h with ⟨tag, o, part, count, data, hc⟩ | ⟨flags, unmasked, hc⟩ <;>
  · rw [hc]
    simp only [State.classify, decide_true, if_true]
    exact ⟨rfl, rfl⟩

/-- Settles O10: both kinds of cell pass, and the queue has room. -/
theorem untouchedCellsPass : Obligations.UntouchedCellsPass := by
  intro i d c s hp hc hcell hok hroom
  rw [exec_cell hcell hp hc hok]
  refine ⟨fun hu => congrArg _ ?_, fun hown => congrArg _ ?_⟩
  · rw [State.classify_untouched (by rw [State.endBridge_own]; exact hu), ← cellOf_dir hcell]
    exact State.join_room _ ((State.endBridge_room ..).mpr hroom)
  · obtain ⟨hclass, hdir⟩ := (s.endBridge d).classify_ownReport (c := c) (by rw [State.endBridge_own]; exact hown)
    rw [hclass, ← hdir, ← cellOf_dir hcell]
    exact State.join_room _ ((State.endBridge_room (s := s) d d 1).mpr hroom)

end Sys2Proof.Machine
end

section
/-! PROOFS. The maintenance requests that refuse, clear, mask and write (O36, O38, O40, O46, O47; 11; 12, R197, R198). -/

namespace Sys2Proof.Machine

variable {s : State} {i : Instr} {tag kind : Byte} {args : List Byte}

/-! ### A request and its reply (11, R181) -/

/-- A row of a request is its arrival at the part. -/
theorem exec_request (h : requestOf i = some (tag, kind, args)) : exec i s = .next (s.arriveRequest tag kind args) := by
  cases i <;> cases h <;> rfl

/-- A request in service, where nothing is raised, is taken behind the end of the down bridge. -/
theorem exec_maintain (h : requestOf i = some (tag, kind, args)) (hp : s.lane.phase = .inService) (hc : s.Calm) :
    exec i s = .next ((s.endBridge .down).maintain tag kind args) := by
  rw [exec_request h, State.arriveRequest, State.arrive_ok .down _ hp hc rfl]
  simp only [State.classify, State.endBridge_own, decide_true, if_true]

/-- A request but COMMIT is answered, and that is all. -/
theorem exec_reply (h : requestOf i = some (tag, kind, args)) (hp : s.lane.phase = .inService) (hc : s.Calm)
    (hk : kind ≠ 4#8) : exec i s = .next (State.reply tag ((s.endBridge .down).request kind.toNat args)) := by
  rw [exec_request h, State.arriveRequest_eq tag args hp hc hk]

/-- A request but COMMIT that leaves room for its one reply cell. -/
theorem exec_replyOne {a : Answer} (h : requestOf i = some (tag, kind, args)) (hp : s.lane.phase = .inService)
    (hc : s.Calm) (hk : kind ≠ 4#8) (ha : (s.endBridge .down).request kind.toNat args = a)
    (hd : a.data.length ≤ Config.replyBytes) (hr : a.state.room .up 1) :
    exec i s = .next (a.state.queued .up [replyCell a.state.lane.own tag a.outcome a.data]) := by
  rw [exec_reply h hp hc hk, ha, State.reply_one hd hr]

/-! ### Refusals (11, R181, R182) -/

/-- An answer that is not DONE changes nothing and carries no data. -/
def Answer.RefusesBare (a : Answer) (s : State) : Prop := a.outcome ≠ .done → a.state = s ∧ a.data = []

theorem Answer.refusesBare_done (t : State) (data : List Byte) : (done t data).RefusesBare s := fun h => absurd rfl h
theorem Answer.refusesBare_argument : (refuseArgument s).RefusesBare s := fun _ => ⟨rfl, rfl⟩
theorem Answer.refusesBare_state : (refuseState s).RefusesBare s := fun _ => ⟨rfl, rfl⟩

/-- Every request but COMMIT, branch by branch: done, or refused bare. -/
theorem State.request_refusesBare {k : Nat} (hk : k ≠ 4) : (s.request k args).RefusesBare s := by
  have hd := Answer.refusesBare_done (s := s)
  have ha := Answer.refusesBare_argument (s := s)
  have hs := Answer.refusesBare_state (s := s)
  have hu : Answer.RefusesBare ⟨s, .unknownRequest, []⟩ s := fun _ => ⟨rfl, rfl⟩
  unfold State.request State.readEntry State.writeEntry State.clearEntry State.cancelCommit State.setMode
    State.requestRestart State.requestAvailability State.requestService State.requestAlarmStart
    State.requestAlarmClear State.promptAddress State.promptWrite State.promptRead State.readStatus
    State.writeResetCause State.readLive State.readCounters State.requestClearCounters State.attentionRead
    State.attentionClear State.attentionMaskSet State.attentionMaskClear
  split
  case h_4 => exact absurd rfl hk
  all_goals
    repeat' split
    all_goals first | exact hu | exact ha | exact hs | exact hd _ _

/-- A COMMIT that is refused changes nothing, and carries data as REFUSED_STATE alone (03, R52). -/
theorem State.requestCommit_refused (h : (s.requestCommit args).outcome ≠ .done) :
    (s.requestCommit args).state = s ∧ (s.requestCommit args).data.length ≤ 4 ∧
      ((s.requestCommit args).data ≠ [] → (s.requestCommit args).outcome = .refusedState) := by
  revert h
  unfold State.requestCommit
  split
  · split
    · exact fun _ => ⟨rfl, le_rfl, fun _ => rfl⟩
    · exact fun h => absurd rfl h
  · exact fun _ => ⟨rfl, Nat.zero_le _, fun h => absurd rfl h⟩

/-- A request that is not done changes nothing, and carries data as a refused COMMIT alone. -/
theorem State.request_refused (h : (s.request kind.toNat args).outcome ≠ .done) :
    (s.request kind.toNat args).state = s ∧ (s.request kind.toNat args).data.length ≤ 4 ∧
      ((s.request kind.toNat args).data ≠ [] → kind = 4#8 ∧ (s.request kind.toNat args).outcome = .refusedState) := by
  by_cases hk : kind = 4#8
  · subst hk
    obtain ⟨hstate, hdata, hout⟩ := State.requestCommit_refused h
    exact ⟨hstate, hdata, fun hne => ⟨rfl, hout hne⟩⟩
  · obtain ⟨hstate, hdata⟩ := State.request_refusesBare (fun e => hk (BitVec.eq_of_toNat_eq e)) h
    exact ⟨hstate, hdata ▸ Nat.zero_le _, fun hne => absurd hdata hne⟩

/-- Settles O36: a refused answer leaves the part as it was, and its reply is one cell. -/
theorem refusedRequestChangesNothing : Obligations.RefusedRequestChangesNothing := by
  intro i tag kind args s hreq hp hc hroom b a hne
  obtain ⟨hstate, hlen, hdata⟩ := State.request_refused hne
  have hr : a.state.room .up 1 := hstate ▸ (State.endBridge_room ..).mpr hroom
  refine ⟨?_, hdata⟩
  rw [exec_maintain hreq hp hc, State.maintain]
  show Host.Outcome.next ((State.reply tag a).commitNow kind a.outcome) = _
  rw [State.commitNow, if_neg fun h => hne h.2, State.reply_one (hlen.trans (by decide)) hr, hstate]
  rfl

/-! ### Reset cause and counters (11, R187, R191) -/

@[simp] theorem bytesNat_one (v : Byte) : bytesNat [v] = v.toNat := by
  simp [bytesNat]

theorem natBytes_one_toNat (v : Byte) : natBytes 1 v.toNat = [v] := by
  simp [natBytes]

theorem fixedArgs_one (v : Byte) : fixedArgs [1] [v] = some [v.toNat] := by
  simp [fixedArgs]

theorem fixedArgs_one_one (o v : Byte) : fixedArgs [1, 1] [o, v] = some [o.toNat, v.toNat] := by
  simp [fixedArgs]

/-- The counters of one owner fill one reply cell. -/
theorem State.counterBytes_length (s : State) (o : Owner) : (counterBytes (s.counters o)).length ≤ Config.replyBytes := by
  cases o <;> exact Nat.le_of_ble_eq_true rfl

/-- Clearing counters leaves the queues and the part's number. -/
theorem State.clearCounters_lane (s : State) (o : Owner) :
    (s.clearCounters o).lane.upQueue = s.lane.upQueue ∧ (s.clearCounters o).lane.own = s.lane.own := by
  cases o <;> exact ⟨rfl, rfl⟩

/-- Settles O46: the three values of a cause, the refusal of another, and each owner's clear. -/
theorem causeAndCounters : Obligations.CauseAndCounters := by
  intro tag s hp hc hroom b
  have hr : b.room .up 1 := (State.endBridge_room ..).mpr hroom
  refine ⟨fun v c h => ?cause, fun v h => ?other, fun o j owner h => ?clear⟩
  case cause =>
    have hv : resetCauses[v.toNat]? = some c := by
      rcases h with ⟨rfl, rfl⟩ | ⟨rfl, rfl⟩ | ⟨rfl, rfl⟩ <;> rfl
    refine exec_replyOne (tag := tag) (args := [v]) (a := ⟨{ b with maint := { s.maint with cause := c } }, .done, [v]⟩)
      rfl hp hc (by decide) ?_ (by decide : 1 ≤ _) hr
    show State.writeResetCause [v] b = _
    simp only [State.writeResetCause, fixedArgs_one, hv, natBytes_one_toNat]
    rfl
  case other =>
    have hv : resetCauses[v.toNat]? = none := List.getElem?_eq_none h
    refine exec_replyOne (tag := tag) (args := [v]) (a := refuseArgument b) rfl hp hc (by decide) ?_
      (Nat.zero_le _) hr
    show State.writeResetCause [v] b = _
    simp only [State.writeResetCause, fixedArgs_one, hv]
  case clear =>
    obtain ⟨hqueue, hown⟩ := b.clearCounters_lane owner
    have hroomAfter : (b.clearCounters owner).room .up 1 := by
      show (b.clearCounters owner).lane.upQueue.length + 1 ≤ _
      rw [hqueue]
      exact hr
    rw [exec_replyOne (tag := tag) (args := [o, j]) (a := done (b.clearCounters owner) (counterBytes (s.counters owner)))
      rfl hp hc (by decide) ?_ (s.counterBytes_length owner) hroomAfter]
    · cases owner <;> rfl
    · show State.requestClearCounters [o, j] b = _
      simp only [State.requestClearCounters, fixedArgs_one_one, h]
      cases owner <;> rfl

/-! ### Attention (11, R193, R194) -/

theorem bytesNat_two (a b : Byte) : bytesNat [a, b] = (a ++ b : BitVec 16).toNat := by
  rw [BitVec.toNat_append, ← Nat.shiftLeft_add_eq_or_of_lt b.isLt, Nat.shiftLeft_eq]
  simp [bytesNat]

theorem fixedArgs_two (a b : Byte) : fixedArgs [2] [a, b] = some [bytesNat [a, b]] := by
  simp [fixedArgs]

/-- A flag set is refused for its unused bit alone (11, R194). -/
theorem flagSet_pair (x1 x2 : Byte) :
    flagSet [x1, x2] = if (x1 ++ x2 : BitVec 16).getLsbD 0 then none else some (x1 ++ x2) := by
  unfold flagSet
  simp only [fixedArgs_two, bytesNat_two, BitVec.ofNat_toNat, BitVec.setWidth_eq, BitVec.getLsbD, Nat.testBit_zero]
  rcases Nat.mod_two_eq_zero_or_one (x1 ++ x2 : BitVec 16).toNat with h | h <;> simp [h]

theorem flagBytes_length (x : BitVec 16) : (flagBytes x).length ≤ Config.replyBytes := Nat.le_of_ble_eq_true rfl

/-- Settles O47: the flag set is read, then each request changes flags or mask alone. -/
theorem attentionRequests : Obligations.AttentionRequests := by
  intro tag x1 x2 s hp hc hroom b x reply unmasked
  have hr : b.room .up 2 := (State.endBridge_room ..).mpr hroom
  have hr1 : b.room .up 1 := (Nat.le_succ _).trans hr
  have hlen (v : BitVec 16) : (natBytes 2 v.toNat).length ≤ Config.replyBytes := flagBytes_length v
  refine ⟨fun hx => ?known, fun hx i hi => ?unused⟩
  case known =>
    have hset : flagSet [x1, x2] = some x := by rw [flagSet_pair, if_neg (by rw [hx]; nofun)]
    refine ⟨?clear, ?mask, ?unmask⟩
    case clear =>
      refine exec_replyOne (tag := tag) (args := [x1, x2]) (a := done { b with maint := { s.maint with flags := s.maint.flags &&& ~~~ x } }
        (natBytes 2 (s.maint.flags &&& ~~~ x).toNat)) rfl hp hc (by decide) ?_ (hlen _) hr1
      show State.attentionClear [x1, x2] b = _
      simp only [State.attentionClear, hset]
      rfl
    case mask =>
      refine exec_replyOne (tag := tag) (args := [x1, x2]) (a := done { b with maint := { s.maint with mask := s.maint.mask ||| x } }
        (natBytes 2 (s.maint.mask ||| x).toNat)) rfl hp hc (by decide) ?_ (hlen _) hr1
      show State.attentionMaskSet [x1, x2] b = _
      simp only [State.attentionMaskSet, hset]
      rfl
    case unmask =>
      let u : State := { b with maint := { s.maint with mask := unmasked } }
      let cells : List LaneCell :=
        if s.maint.flags &&& s.maint.mask &&& x = 0#16 then []
        else [.known ⟨s.lane.own, 0#16, .attention s.maint.flags (s.maint.flags &&& ~~~ unmasked)⟩]
      have hcells : cells.length ≤ 1 := by
        dsimp only [cells]
        split
        · exact Nat.zero_le _
        · exact le_rfl
      have hanswer : b.request 23 [x1, x2] = done (u.queued .up cells) (natBytes 2 unmasked.toNat) := by
        show State.attentionMaskClear [x1, x2] b = _
        simp only [State.attentionMaskClear, hset]
        dsimp only [cells]
        by_cases h : s.maint.flags &&& s.maint.mask &&& x = 0#16
        · have h' : b.maint.flags &&& b.maint.mask &&& x = 0#16 := h
          rw [if_pos h, if_pos h', State.queued_nil]
          rfl
        · have h' : ¬ b.maint.flags &&& b.maint.mask &&& x = 0#16 := h
          have hu : u.room .up 1 := hr1
          rw [if_neg h, if_neg h', ← State.join_room _ hu]
          rfl
      have hra : (u.queued .up cells).room .up 1 :=
        State.room_queued (State.room_mono hr (Nat.add_le_add_right hcells 1) : u.room .up (cells.length + 1))
      refine (exec_replyOne (tag := tag) (kind := 23#8) (args := [x1, x2]) rfl hp hc (by decide) hanswer (hlen _) hra).trans ?_
      show Host.Outcome.next ((u.queued .up cells).queued .up [reply unmasked]) = _
      rw [State.queued_queued]
  case unused =>
    have hset : flagSet [x1, x2] = none := by rw [flagSet_pair, if_pos hx]
    have hbare (j : Instr) (kind : Byte) (h : requestOf j = some (tag, kind, [x1, x2])) (hk : kind ≠ 4#8)
        (ha : b.request kind.toNat [x1, x2] = refuseArgument b) :
        exec j s = .next (b.queued .up [replyCell s.lane.own tag .refusedArgument []]) :=
      exec_replyOne h hp hc hk ha (Nat.zero_le _) hr1
    simp only [List.mem_cons, List.not_mem_nil, or_false] at hi
    rcases hi with rfl | rfl | rfl
    · refine hbare _ _ rfl (by decide) ?_
      show State.attentionClear [x1, x2] b = _
      simp only [State.attentionClear, hset]
    · refine hbare _ _ rfl (by decide) ?_
      show State.attentionMaskSet [x1, x2] b = _
      simp only [State.attentionMaskSet, hset]
    · refine hbare _ _ rfl (by decide) ?_
      show State.attentionMaskClear [x1, x2] b = _
      simp only [State.attentionMaskClear, hset]

end Sys2Proof.Machine
end

section
/-! PROOFS. The prompt requests (O38; 09, R166, R167; 11, R181). -/

namespace Sys2Proof.Machine

variable {s : State} {tag : Byte}

/-! ### Operands -/

theorem fixedArgs_two_one (a b c : Byte) : fixedArgs [2, 1] [a, b, c] = some [bytesNat [a, b], c.toNat] := by
  simp [fixedArgs]

/-- Items of two bytes are read back as they were written (12, R195, R197). -/
theorem readItems_words (xs : List Sample) :
    readItems 2 xs.length (xs.flatMap fun x => natBytes 2 x.toNat) = some (xs.map BitVec.toNat) := by
  induction xs with
  | nil => rfl
  | cons x xs ih =>
    have hx : bytesNat [BitVec.ofNat 8 (x.toNat / 256), BitVec.ofNat 8 x.toNat] = x.toNat := by
      simp only [bytesNat, List.foldl_cons, List.foldl_nil, BitVec.toNat_ofNat]
      have := x.isLt
      omega
    have hbytes : natBytes 2 x.toNat = [BitVec.ofNat 8 (x.toNat / 256), BitVec.ofNat 8 x.toNat] := by
      simp [natBytes]
    simp only [List.flatMap_cons, hbytes, List.length_cons, readItems, List.cons_append, List.nil_append, List.take,
      List.drop, hx]
    rw [if_neg (by omega), ih]
    rfl

/-- A list of samples behind its count. -/
theorem readList_words {n : Byte} {xs : List Sample} (h : xs.length = n.toNat) :
    readList 2 (n :: xs.flatMap fun x => natBytes 2 x.toNat) = some (xs.map BitVec.toNat) := by
  rw [readList, ← h, readItems_words]

/-! ### Samples stored (09, R166) -/

/-- Samples are stored from the write address on, as many as the memory has addresses for, and nothing else changes. -/
theorem Prompts.store_eq (xs : List Sample) (p : Prompts) (hp : p.Fits) :
    ∃ memory,
      p.store xs = { p with memory := memory, address := p.address + min xs.length (32768 - p.address) } ∧
      (∀ k, k < min xs.length (32768 - p.address) → memRead memory (p.address + k) = xs.getD k 0#16) ∧
      ∀ a, a < p.address ∨ p.address + min xs.length (32768 - p.address) ≤ a → memRead memory a = memRead p.memory a := by
  induction xs generalizing p with
  | nil => exact ⟨p.memory, by simp [Prompts.store], by simp, fun _ _ => rfl⟩
  | cons x xs ih =>
    unfold Prompts.store
    have hconfig : Config.promptSamples = 32768 := rfl
    by_cases hroom : p.address < Config.promptSamples
    · rw [if_pos hroom]
      rw [hconfig] at hroom
      obtain ⟨m, heq, hin, hout⟩ := ih { p with memory := memWrite p.memory p.address x, address := p.address + 1 }
        ⟨memWrite_wf hp.memory hroom, hroom⟩
      dsimp only at heq hin hout
      have hcount : p.address + 1 + min xs.length (32768 - (p.address + 1)) =
          p.address + min (x :: xs).length (32768 - p.address) := by
        rw [List.length_cons]
        omega
      rw [hcount] at heq hout
      refine ⟨m, heq, fun k hk => ?_, fun a ha => ?_⟩
      · cases k with
        | zero =>
          rw [Nat.add_zero, hout _ (.inl (Nat.lt_succ_self _))]
          exact memRead_memWrite_same p.address x hp.memory
        | succ k =>
          rw [List.length_cons] at hk
          rw [← Nat.add_assoc, Nat.add_right_comm, hin k (by omega)]
          rfl
      · rw [List.length_cons] at ha
        rw [hout a (by rw [List.length_cons]; omega), memRead_memWrite_ne x (by omega)]
    · rw [if_neg hroom]
      have hfull : 32768 - p.address = 0 := by omega
      exact ⟨p.memory, by simp [hfull], by simp [hfull], fun _ _ => rfl⟩

theorem natBytes_length (k n : Nat) : (natBytes k n).length = k := by
  induction k with
  | zero => rfl
  | succ k ih => rw [natBytes, List.length_cons, ih]

/-- The samples of an answer fill one reply cell. -/
theorem flatMap_words_length (l : List Nat) : (l.flatMap (natBytes 2)).length = 2 * l.length := by
  induction l with
  | nil => rfl
  | cons n l ih =>
    rw [List.flatMap_cons, List.length_append, ih, natBytes_length, List.length_cons]
    omega

/-- Settles O38: the argument forms, the samples stored, and the samples read. -/
theorem promptRequests : Obligations.PromptRequests := by
  intro tag s hp hc hroom b refused carried
  have hr : b.room .up 2 := (State.endBridge_room ..).mpr hroom
  have hr1 : b.room .up 1 := State.room_mono hr (by decide)
  have hbare (i : Instr) (kind : Byte) (args : List Byte) (h : requestOf i = some (tag, kind, args)) (hk : kind ≠ 4#8)
      (ha : b.request kind.toNat args = refuseArgument b) : exec i s = refused :=
    exec_replyOne h hp hc hk ha (Nat.zero_le _) hr1
  refine ⟨fun a1 a2 => ?address, fun n xs hn hbad => ?badCount, fun n xs hn hne hle hfit => ?written,
    fun a1 a2 n => ⟨fun hbad => ?badRead, fun h1 h2 h3 h4 => ?read⟩⟩
  case address =>
    by_cases h : bytesNat [a1, a2] ≤ 32767
    · rw [if_pos h]
      refine exec_replyOne (tag := tag) (args := [a1, a2])
        (a := done { b with prompts := { s.prompts with address := bytesNat [a1, a2] } } (natBytes 2 (bytesNat [a1, a2])))
        rfl hp hc (by decide) ?_ (by decide : 2 ≤ _) hr1
      show State.promptAddress [a1, a2] b = _
      simp only [State.promptAddress, fixedArgs_two]
      exact if_pos (Nat.lt_succ_of_le h)
    · rw [if_neg h]
      refine hbare _ 12#8 [a1, a2] rfl (by decide) ?_
      show State.promptAddress [a1, a2] b = _
      simp only [State.promptAddress, fixedArgs_two]
      exact if_neg fun e => h (Nat.le_of_lt_succ e)
  case badCount =>
    refine hbare _ 13#8 (carried n xs) rfl (by decide) ?_
    show State.promptWrite (n :: _) b = _
    have hcount : ¬ (decide (1 ≤ xs.length) && decide (xs.length ≤ 24)) = true := by
      rw [Bool.and_eq_true, decide_eq_true_eq, decide_eq_true_eq]
      rintro ⟨h1, h24⟩
      rcases hbad with rfl | h
      · exact absurd h1 (by decide)
      · omega
    simp only [State.promptWrite, readList_words hn, List.length_map]
    exact if_neg hcount
  case written =>
    obtain ⟨memory, heq, hin, hout⟩ := s.prompts.store_eq xs hfit
    refine ⟨memory, ?_, hin, hout⟩
    set first := s.prompts.address
    set stored := min xs.length (32768 - first)
    let t : State := { b with prompts := { s.prompts with memory := memory, address := first + stored } }
    let t1 := if stored < xs.length then (t.flagged .promptOverrun).queued .up (s.raised .promptOverrun) else t
    show exec _ s = .next (t1.queued .up [replyCell s.lane.own tag .done (natBytes 1 stored ++ natBytes 2 (first + stored))])
    have hanswer : b.request 13 (carried n xs) = done t1 (natBytes 1 stored ++ natBytes 2 (first + stored)) := by
      have hstore : (b.modPrompts fun p => p.store xs) = t := by
        show ({ b with prompts := s.prompts.store xs } : State) = t
        rw [heq]
      have hcount : (decide (1 ≤ xs.length) && decide (xs.length ≤ 24)) = true := by
        rw [Bool.and_eq_true, decide_eq_true_eq, decide_eq_true_eq]
        exact ⟨List.length_pos_iff.mpr hne, hle⟩
      have hsamples : (xs.map BitVec.toNat).map (BitVec.ofNat 16) = xs := by
        rw [List.map_map]
        exact (List.map_congr_left fun (x : Sample) _ => (BitVec.ofNat_toNat 16 x).trans (BitVec.setWidth_eq x)).trans xs.map_id
      have hstored : t.prompts.address - b.prompts.address = stored := Nat.add_sub_cancel_left ..
      have hflag : t.setFlag .promptOverrun = (t.flagged .promptOverrun).queued .up (s.raised .promptOverrun) :=
        State.setFlag_room (s := t) hr1
      show State.promptWrite (n :: _) b = _
      simp only [State.promptWrite, readList_words hn, List.length_map, hcount, if_true, hsamples, hstore, hstored, hflag]
      rfl
    have hdata : (natBytes 1 stored ++ natBytes 2 (first + stored)).length ≤ Config.replyBytes := by
      rw [List.length_append, natBytes_length, natBytes_length]
      decide
    have hra : t1.room .up 1 := by
      dsimp only [t1]
      split
      · exact State.room_of_queued_raised (s := s) hroom
      · exact hr1
    have hown : t1.lane.own = s.lane.own := by
      dsimp only [t1]
      split <;> rfl
    rw [exec_replyOne (tag := tag) (kind := 13#8) rfl hp hc (by decide) hanswer hdata hra]
    rw [← hown]
    rfl
  case badRead =>
    refine hbare _ 14#8 [a1, a2, n] rfl (by decide) ?_
    show State.promptRead [a1, a2, n] b = _
    simp only [State.promptRead, fixedArgs_two_one]
    refine if_neg ?_
    simp only [Bool.and_eq_true, decide_eq_true_eq]
    have hmax : Config.promptSamples = 32768 := rfl
    omega
  case read =>
    refine exec_replyOne (tag := tag) (args := [a1, a2, n])
      (a := done b (natBytes 2 s.prompts.address ++
            (List.range n.toNat).flatMap fun k => natBytes 2 (memRead s.prompts.memory (bytesNat [a1, a2] + k)).toNat))
      rfl hp hc (by decide) ?_ ?_ hr1
    · show State.promptRead [a1, a2, n] b = _
      simp only [State.promptRead, fixedArgs_two_one]
      have hok : (decide (1 ≤ n.toNat) && decide (n.toNat ≤ 24) && decide (bytesNat [a1, a2] < Config.promptSamples) &&
          decide (bytesNat [a1, a2] + n.toNat ≤ Config.promptSamples)) = true := by
        simp only [Bool.and_eq_true, decide_eq_true_eq]
        have hmax : Config.promptSamples = 32768 := rfl
        omega
      rw [if_pos hok, List.range'_eq_map_range, List.flatMap_map]
      rfl
    · have hlen := flatMap_words_length ((List.range n.toNat).map fun k => (memRead s.prompts.memory (bytesNat [a1, a2] + k)).toNat)
      rw [List.flatMap_map, List.length_map, List.length_range] at hlen
      show (natBytes 2 _ ++ _).length ≤ 56
      rw [List.length_append, hlen]
      show 2 + _ ≤ _
      omega

end Sys2Proof.Machine
end

section
/-! PROOFS. Table entries cleared, and the stations' requests (O40, O43; 02, R34, R35; 11, R183). -/

namespace Sys2Proof.Machine

variable {s : State} {tag : Byte}

/-! ### CLEAR_ENTRY (11, R183) -/

theorem fixedArgs_one_two (t a b : Byte) : fixedArgs [1, 2] [t, a, b] = some [t.toNat, bytesNat [a, b]] := by
  simp [fixedArgs]

theorem State.clearEntry_done {t i1 i2 : Byte} {table : Table} {s1 : State} (ht : tableOf t.toNat = some table)
    (hw : table.readOnly = false) (h : s.clearTable table (bytesNat [i1, i2]) = some s1) :
    s.clearEntry [t, i1, i2] = done s1 (s1.entryBytes table (bytesNat [i1, i2])) := by
  simp only [State.clearEntry, fixedArgs_one_two, ht, hw, h, Bool.false_eq_true, if_false]

theorem State.clearEntry_refused {t i1 i2 : Byte} {table : Table} (ht : tableOf t.toNat = some table)
    (hw : table.readOnly = false) (h : s.clearTable table (bytesNat [i1, i2]) = none) :
    s.clearEntry [t, i1, i2] = refuseArgument s := by
  simp only [State.clearEntry, fixedArgs_one_two, ht, hw, h, Bool.false_eq_true, if_false]

theorem State.clearEntry_readOnly {t i1 i2 : Byte} {table : Table} (ht : tableOf t.toNat = some table)
    (hw : table.readOnly = true) : s.clearEntry [t, i1, i2] = refuseState s := by
  simp only [State.clearEntry, fixedArgs_one_two, ht, hw, if_true]

/-- Settles O40: each table's entry is cleared, and the tables that no request clears refuse. -/
theorem clearEntryEmpties : Obligations.ClearEntryEmpties := by
  intro tag i1 i2 s hp hc hroom b i clears staged
  have hr : b.room .up 1 := (State.endBridge_room ..).mpr hroom
  have hclears {t : Byte} {table : Table} {s1 : State} (ht : tableOf t.toNat = some table)
      (hw : table.readOnly = false) (h : b.clearTable table i = some s1) : clears t table s1 :=
    (exec_reply (kind := 3#8) (args := [t, i1, i2]) rfl hp hc (by decide)).trans
      (congrArg (fun a => Host.Outcome.next (State.reply tag a)) (State.clearEntry_done ht hw h))
  have hbare {t : Byte} {a : Answer} (ha : b.clearEntry [t, i1, i2] = a) (hs : a.state = b) (hd : a.data = []) :
      exec (.clearEntry tag [t, i1, i2]) s = .next (b.queued .up [replyCell s.lane.own tag a.outcome []]) := by
    obtain ⟨u, o, data⟩ := a
    obtain rfl : u = b := hs
    obtain rfl : data = [] := hd
    exact exec_replyOne (kind := 3#8) (args := [t, i1, i2]) rfl hp hc (by decide) ha (Nat.zero_le _) hr
  -- an index in its table's range
  have hholds {table : Table} {s1 : State} (hi : table.holds i = true)
      (h : (if (!table.holds i) = true then none else some s1) = b.clearTable table i) :
      b.clearTable table i = some s1 := by
    rw [← h, hi]
    rfl
  refine ⟨fun h => ?station, fun h1 h2 => ?zone, fun h1 h2 => ⟨?zoneSet, ?partners⟩, fun h => ⟨?code, ?tone⟩,
    fun h => ?prompt, fun h => ?params, fun h1 h2 => ⟨?group, ?members⟩, fun h => ?set0, fun t ht => ?active⟩
  case station => exact hclears rfl rfl (hholds (decide_eq_true h) rfl)
  case zone => exact hclears rfl rfl (hholds (by simp [Table.holds, h1, h2]) rfl)
  case zoneSet =>
    refine hclears rfl rfl ?_
    have hi : i ≠ 0 := by omega
    have hheld : Table.zoneSet.holds i = true := decide_eq_true h2
    simp only [State.clearTable, hheld, hi, Bool.not_true, Bool.false_eq_true, if_false]
    rfl
  case partners => exact hclears rfl rfl (hholds (by simp [Table.holds, h1, h2]) rfl)
  case code => exact hclears rfl rfl (hholds (decide_eq_true h) rfl)
  case tone => exact hclears rfl rfl (hholds (decide_eq_true h) rfl)
  case prompt => exact hclears rfl rfl (hholds (decide_eq_true h) rfl)
  case params => exact hclears rfl rfl (hholds (decide_eq_true h) rfl)
  case group => exact hclears rfl rfl (hholds (by simp [Table.holds, h1, h2]) rfl)
  case members => exact hclears rfl rfl (hholds (by simp [Table.holds, h1, h2]) rfl)
  case set0 =>
    refine hbare (State.clearEntry_refused rfl rfl ?_) rfl rfl
    show b.clearTable .zoneSet i = none
    rw [h]
    rfl
  case active =>
    rcases ht with rfl | rfl
    · exact hbare (State.clearEntry_readOnly rfl rfl) rfl rfl
    · exact hbare (State.clearEntry_readOnly rfl rfl) rfl rfl

end Sys2Proof.Machine
end

section
/-! PROOFS. What the work on calls leaves of a station: its source session only ever ends (07, R130, R135). -/

namespace Sys2Proof.Machine

variable {P : State → Prop} {s : State}

/-- A property that the work on claims keeps, and any change of the Hunt Controller or of an orbit. -/
structure KeptOrbits (P : State → Prop) : Prop extends KeptClaims P where
  hunt : ∀ {s : State} (f : Hunt → Hunt), P s → P (s.modHunt f)
  orbit : ∀ {s : State} (n : Nat) (o : Option Orbit), P s → P (s.setOrbit n o)

/-- A property that an offer to an IDLE station keeps too. -/
structure KeptCalls (P : State → Prop) : Prop extends KeptOrbits P where
  offered : ∀ {s : State} {n : Nat} (c : CallRef), P s → (s.stations.get n).line = .idle →
    P (s.modStation n fun st => { st with line := .offered, call := some c })

/-! ### Orbits, records and queues -/

theorem KeptOrbits.groupCounters (k : KeptOrbits P) (h : P s) (g : Nat) (f : GroupCounters → GroupCounters) :
    P (s.modGroupCounters g f) := k.hunt _ h

theorem KeptOrbits.chimeOrbit (k : KeptOrbits P) (h : P s) (n : Nat) : P (s.chimeOrbit n) := by
  unfold State.chimeOrbit
  split
  · exact h
  · exact k.orbit _ _ (foldl_kept (P := P) (fun _ z ht => k.requestClaim ht z (by rfl)) _ h)

theorem KeptOrbits.assignOrbit (k : KeptOrbits P) (h : P s) (n : Nat) (r : HuntRecord) : P (s.assignOrbit n r) :=
  k.chimeOrbit (k.hunt _ (k.orbit _ _ h)) n

theorem KeptOrbits.requestOrbit (k : KeptOrbits P) (h : P s) (c : CallRef) : P (s.requestOrbit c) := by
  unfold State.requestOrbit
  split
  · exact h
  · refine ite_kept h ?_
    split
    · exact k.assignOrbit h _ _
    · exact ite_kept h (k.setFlag (k.hunt _ h) _)

theorem KeptOrbits.releaseOrbit (k : KeptOrbits P) (h : P s) (n : Nat) (on : Bool) : P (s.releaseOrbit n on) := by
  have h1 : P ((zoneNumbers.foldl (fun t z => t.withdrawClaim z (.orbit n)) s).setOrbit n none) :=
    k.orbit _ _ (foldl_kept (P := P) (fun _ z ht => k.withdrawClaim ht z id) _ h)
  unfold State.releaseOrbit
  refine ite_kept ?_ h1
  split
  · exact k.assignOrbit h1 _ _
  · exact h1

theorem KeptOrbits.removeRecord (k : KeptOrbits P) (h : P s) (c : CallRef) (down : Bool) : P (s.removeRecord c down) := by
  have hraise {t : State} {b : Bool} {g : Nat} (ht : P t) : P (if b then t.raiseHeadCheck g else t) :=
    ite_kept (k.hunt _ ht) ht
  have hclose {t : State} (ht : P t) : P (if down then t else t.closeCall c) := ite_kept ht (k.hunt _ ht)
  unfold State.removeRecord
  split
  · exact h
  · refine hraise (hclose ?_)
    split
    · exact k.releaseOrbit (k.hunt _ h) _ _
    · exact k.hunt _ h

theorem KeptOrbits.sendAway (k : KeptOrbits P) (h : P s) (c : CallRef) (g : Nat) (b : Body) : P (s.sendAway c g b) :=
  k.groupCounters (k.setFlag (k.removeRecord (k.sendOwn h c b) c false) _) g _

theorem KeptOrbits.detachTried (k : KeptOrbits P) (h : P s) (c : CallRef) (n : Nat) : P (s.detachTried c n) := by
  unfold State.detachTried State.modRecord
  exact k.hunt _ h

theorem KeptOrbits.enterQueue (k : KeptOrbits P) (h : P s) (r : HuntRecord) : P (s.enterQueue r) := by
  unfold State.enterQueue
  exact ite_kept (k.hunt _ (k.hunt _ h)) (k.hunt _ h)

theorem KeptOrbits.maximumWait (k : KeptOrbits P) (h : P s) (c : CallRef) : P (s.maximumWait c) := by
  unfold State.maximumWait
  split
  · exact h
  · exact k.setFlag (k.sendAway h _ _ _) _

theorem KeptOrbits.askIfDue (k : KeptOrbits P) (h : P s) (c : CallRef) : P (s.askIfDue c) := by
  unfold State.askIfDue
  split
  · exact ite_kept (k.requestOrbit h c) h
  · exact h

theorem KeptOrbits.requeue (k : KeptOrbits P) (h : P s) (r : HuntRecord) : P (s.requeue r) := by
  have h1 : P ((s.enterQueue r).sendOwn r.call .ringStarted) := k.join (k.enterQueue h r) _ _
  unfold State.requeue
  refine k.askIfDue ?_ _
  have h2 {t : State} {o : Option HuntRecord} (ht : P t) (g : Nat) :
      P (match o with | some last => t.overflow last.call g | none => t) := by
    split
    · exact k.sendAway ht _ _ _
    · exact ht
  have h3 {t : State} {o : Option HuntRecord} (ht : P t) :
      P (match o with | some x => if duePast t.clock x.waitDeadline then t.maximumWait r.call else t | none => t) := by
    split
    · exact ite_kept (k.maximumWait ht _) ht
    · exact ht
  exact h3 (ite_kept (h2 h1 _) h1)

/-! ### Offers -/

theorem KeptCalls.trackOffer (k : KeptCalls P) (h : P s) (n : Nat) (c : CallRef) : P (s.trackOffer n c) := by
  unfold State.trackOffer
  split
  · rename_i hi
    unfold State.changeStation
    exact ite_kept (k.hunt _ (k.offered c h hi)) (k.offered c h hi)
  · exact h

theorem KeptCalls.offerTo (k : KeptCalls P) (h : P s) (c : CallRef) (n : Nat) (b : Bool) : P (s.offerTo c n b) := by
  have hraise {t : State} {b : Bool} {g : Nat} (ht : P t) : P (if b then t.raiseHeadCheck g else t) :=
    ite_kept (k.hunt _ ht) ht
  unfold State.offerTo
  split
  · exact h
  · refine k.join (k.trackOffer (k.groupCounters (k.hunt _ (hraise ?_)) _ _) _ _) _ _
    split
    · exact k.releaseOrbit (k.hunt _ h) _ _
    · exact k.hunt _ h

theorem KeptCalls.reselect (k : KeptCalls P) (h : P s) (c : CallRef) : P (s.reselect c) := by
  unfold State.reselect
  split
  · exact h
  · split
    · exact k.sendAway h _ _ _
    · refine ite_kept (k.sendAway h _ _ _) ?_
      split
      · exact k.offerTo h _ _ _
      · exact k.requeue h _

end Sys2Proof.Machine
end

section
/-! PROOFS. The stations' maintenance requests (O43; 02, R33 to R37; 05, R93). -/

namespace Sys2Proof.Machine

variable {s : State} {tag : Byte}

/-! ### A station out of service (02, R34) -/

/-- A station that is out of service, and the source of no session where `bare` says so. -/
def State.isOut (n : Nat) (bare : Bool) (s : State) : Prop :=
  (s.stations.get n).line = .outOfService ∧ (bare = true → (s.stations.get n).source = none)

/-- The work on claims leaves a station out of service. -/
theorem FreeClaims.isOut (n : Nat) (bare : Bool) : FreeClaims (State.isOut n bare) where
  assist _ := id
  zone h _ := h
  lane h _ := h
  flag _ h := h
  source {t} m h := by
    refine ⟨?_, fun hb => ?_⟩
    · exact (Tab.read_put (read := Station.line) (j := m) (a := { t.stations.get m with source := none }) rfl n).trans h.1
    · show ((t.stations.put m _).get n).source = none
      rw [Tab.get_put]
      split
      · rfl
      · exact h.2 hb
  paging h _ := h
  alarm h _ := h

/-- The work on calls leaves a station out of service. -/
theorem KeptCalls.isOut (n : Nat) (bare : Bool) : KeptCalls (State.isOut n bare) where
  toKeptClaims := (FreeClaims.isOut n bare).kept
  hunt _ h := h
  orbit _ _ h := h
  offered {t m} c h hm := by
    have hne : m ≠ n := by
      rintro rfl
      exact nomatch hm.symm.trans h.1
    have hget : (t.modStation m fun st => { st with line := .offered, call := some c }).stations.get n =
        t.stations.get n := Tab.get_put_ne _ _ hne
    unfold State.isOut
    rw [hget]
    exact h

theorem State.sourceDeparted_none {n : Nat} (h : (s.stations.get n).source = none) (quiet : Bool) :
    s.sourceDeparted n quiet = s := by
  unfold State.sourceDeparted
  rw [h]

theorem State.sourceDeparted_own {n i : Nat} {x : Session} (h : (s.stations.get n).source = some i)
    (hx : s.paging.sessions.get i = some x) (hn : x.source = n) (quiet : Bool) :
    s.sourceDeparted n quiet = s.endSession i quiet := by
  unfold State.sourceDeparted
  simp only [h, hx, hn, if_true]

/-- A change of one station that keeps its ring assist and its home zone commutes with a departure from RINGING. -/
theorem State.ringingRemove_modStation (n m : Nat) {f : Station → Station}
    (ha : (f (s.stations.get m)).ringAssist = (s.stations.get m).ringAssist)
    (hh : (f (s.stations.get m)).homeZone = (s.stations.get m).homeZone) :
    (s.modStation m f).ringingRemove n = (s.ringingRemove n).modStation m f := by
  have hsame : s.SameAssist (s.modStation m f) :=
    { zones := rfl, ringing := rfl, mode := rfl, tone := rfl, claimed := rfl, clock := rfl
      assist := fun j => (Tab.read_put (read := Station.ringAssist) ha j).symm
      home := fun j => (Tab.read_put (read := Station.homeZone) hh j).symm }
  rw [State.ringingRemove_zonesOnly, State.ringingRemove_zonesOnly n s, ← (hsame.ringingRemove n).zones]
  rfl

/-- A departure from RINGING leaves the stations. -/
theorem State.ringingRemove_stations (n : Nat) (s : State) : (s.ringingRemove n).stations = s.stations := by
  rw [State.ringingRemove_zonesOnly]

theorem State.ringingRemove_lane (n : Nat) (s : State) : (s.ringingRemove n).lane = s.lane := by
  rw [State.ringingRemove_zonesOnly]

/-- A station put in place of its record, whatever it was. -/
theorem State.changeStation_raise {n : Nat} (hn : n < 384) (f : Station → Station) :
    s.changeStation n f =
      { s with stations := s.stations.put n (f (s.stations.get n))
               hunt := s.hunt.raiseIf (!(s.stations.get n).candidate && (f (s.stations.get n)).candidate) n } := by
  cases h : (s.stations.get n).candidate with
  | false => exact State.changeStation_eq hn f h
  | true =>
    have hwas : s.candidate n = true := by simp [State.candidate, h, Config.stations, hn]
    unfold State.changeStation
    simp only [hwas]
    rfl

/-! ### STATION_AVAILABILITY (02, R35) -/

theorem State.setAvailable_eq {n : Nat} (hn : n < 384) :
    s.setAvailable n =
      { s with stations := s.stations.put n { s.stations.get n with available := true, strikes := 0 }
               hunt := s.hunt.raiseIf ((s.stations.get n).line = .idle && (s.stations.get n).wrapUp.isNone &&
                 !(s.stations.get n).available) n } := by
  unfold State.setAvailable
  rw [State.changeStation_raise hn]
  congr 2
  simp only [Station.candidate]
  cases (s.stations.get n).available
  · simp
  · cases (s.stations.get n).wrapUp.isNone <;> simp

theorem State.setUnavailable_eq {n : Nat} (hn : n < 384) :
    s.setUnavailable n = { s with stations := s.stations.put n { s.stations.get n with available := false } } :=
  State.changeStation_quiet hn _ (by simp [Station.candidate])

/-! ### STATION_SERVICE (02, R34) -/

theorem State.serviceIn_out {n : Nat} (hn : n < 384) (h : (s.stations.get n).line = .outOfService) :
    s.serviceIn n =
      { s with stations := s.stations.put n { s.stations.get n with line := .idle, lastIdle := s.clock }
               hunt := s.hunt.raiseIf ((s.stations.get n).available && (s.stations.get n).wrapUp.isNone) n } := by
  unfold State.serviceIn
  rw [if_pos h, State.changeStation_eq hn _ (by simp [Station.candidate, h])]
  congr 2

theorem State.serviceIn_in {n : Nat} (h : (s.stations.get n).line ≠ .outOfService) : s.serviceIn n = s := if_neg h

theorem State.serviceOut_out {n : Nat} (h : (s.stations.get n).line = .outOfService) : s.serviceOut n = s := if_pos h

/-- What every station taken out of service loses last (02, R34). -/
def State.cleared (n : Nat) (s : State) : State :=
  s.modStation n fun st => { st with call := none, deliveredBy := none, wrapUp := none }

/-- A station with its line out of service, before it leaves what it did. -/
def State.takenOut (n : Nat) (s : State) : State :=
  { s with stations := s.stations.put n { s.stations.get n with line := .outOfService } }

/-- A station out of service whose ring, where it rang, is over. -/
def State.takenOff (n : Nat) (s : State) : State :=
  if (s.stations.get n).line = .ringing then (s.takenOut n).ringingRemove n else s.takenOut n

theorem State.takenOut_get {n : Nat} (hn : n < 384) (s : State) :
    (s.takenOut n).stations.get n = { s.stations.get n with line := .outOfService } := State.get_put_station hn _

theorem State.takenOff_rest (n : Nat) (s : State) :
    (s.takenOff n).stations = (s.takenOut n).stations ∧ (s.takenOff n).hunt = s.hunt ∧ (s.takenOff n).lane = s.lane ∧
      (s.takenOff n).paging = s.paging := by
  unfold State.takenOff
  split
  · rw [State.ringingRemove_zonesOnly]
    exact ⟨rfl, rfl, rfl, rfl⟩
  · exact ⟨rfl, rfl, rfl, rfl⟩

theorem State.takenOff_isOut {n : Nat} (hn : n < 384) {bare : Bool}
    (hsrc : bare = true → (s.stations.get n).source = none) : (s.takenOff n).isOut n bare := by
  unfold State.isOut
  rw [(s.takenOff_rest n).1, State.takenOut_get hn]
  exact ⟨rfl, hsrc⟩

theorem State.takenOff_member (n : Nat) (c : CallRef) : (s.takenOff n).isMember n c = s.isMember n c := by
  unfold State.isMember State.record
  rw [(s.takenOff_rest n).2.1]

theorem State.takenOut_cleared {n : Nat} (hn : n < 384) (s : State) :
    (s.takenOut n).cleared n =
      { s with stations := s.stations.put n { s.stations.get n with
          line := .outOfService, call := none, deliveredBy := none, wrapUp := none } } := by
  unfold State.cleared State.modStation
  rw [State.takenOut_get hn]
  simp only [State.takenOut, Tab.put_put]

/-- The ring's end and the last losses may be taken in either order. -/
theorem State.takenOff_cleared (n : Nat) (s : State) :
    (s.takenOff n).cleared n =
      if (s.stations.get n).line = .ringing then ((s.takenOut n).cleared n).ringingRemove n
      else (s.takenOut n).cleared n := by
  unfold State.takenOff
  split
  · exact ((s.takenOut n).ringingRemove_modStation n n rfl rfl).symm
  · rfl

/-- A station goes out of service: it leaves what it did, then loses its call, its delivered-by group and its wrap-up. -/
theorem State.serviceOut_eq {n : Nat} (hn : n < 384) (h : (s.stations.get n).line ≠ .outOfService) :
    s.serviceOut n =
      ((if (s.stations.get n).line = .offered ∨ (s.stations.get n).line = .ringing then
          match (s.stations.get n).call with | some c => (s.takenOff n).offerLost n c | none => s.takenOff n
        else s.takenOff n).sourceDeparted n false).cleared n := by
  unfold State.serviceOut
  rw [if_neg h, State.changeStation_quiet hn _ (by simp [Station.candidate])]
  simp only [Bool.or_eq_true, decide_eq_true_eq]
  rfl

/-- A station that goes out of service with no offer that a hunt record follows. -/
theorem State.serviceOut_unfollowed {n : Nat} (hn : n < 384) (h : (s.stations.get n).line ≠ .outOfService)
    (hnot : (s.stations.get n).line = .offered ∨ (s.stations.get n).line = .ringing →
      ∀ c, (s.stations.get n).call = some c → s.isMember n c = false) :
    s.serviceOut n = ((s.takenOff n).sourceDeparted n false).cleared n := by
  rw [State.serviceOut_eq hn h]
  split
  · rename_i hl
    split
    · rename_i c hc
      rw [State.offerLost_not ((State.takenOff_member n c).trans (hnot hl c hc))]
    · rfl
  · rfl

/-- A hunt member that goes out of service: its call is selected for anew. -/
theorem State.serviceOut_member {n : Nat} {c : CallRef} (hn : n < 384)
    (hl : (s.stations.get n).line = .offered ∨ (s.stations.get n).line = .ringing)
    (hc : (s.stations.get n).call = some c) (hm : s.isMember n c = true) :
    s.serviceOut n = ((((s.takenOff n).detachTried c n).reselect c).sourceDeparted n false).cleared n := by
  rw [State.serviceOut_eq hn (by rcases hl with h | h <;> rw [h] <;> nofun), if_pos hl]
  simp only [hc]
  rw [State.offerLost_member ((State.takenOff_member n c).trans hm)]

/-! ### The requests (11, R181) -/

theorem State.requestAvailability_eq (n1 n2 : Byte) {v : Byte} (hv : v.toNat ≤ 1) (hn : bytesNat [n1, n2] < 384) :
    s.requestAvailability [n1, n2, v] =
      (let s1 := if v.toNat = 1 then s.setAvailable (bytesNat [n1, n2]) else s.setUnavailable (bytesNat [n1, n2])
       let st := s1.stations.get (bytesNat [n1, n2])
       done s1 (enumByte [true, false] st.available ++ natBytes 1 st.strikes)) := by
  unfold State.requestAvailability
  rw [fixedArgs_two_one]
  exact if_pos (by rw [decide_eq_true hv, decide_eq_true (show _ < Config.stations from hn)]; rfl)

theorem State.requestService_eq (n1 n2 : Byte) {v : Byte} (hv : v.toNat ≤ 1) (hn : bytesNat [n1, n2] < 384) :
    s.requestService [n1, n2, v] =
      (let s1 := if v.toNat = 1 then s.serviceIn (bytesNat [n1, n2]) else s.serviceOut (bytesNat [n1, n2])
       done s1 (enumByte lineStates (s1.stations.get (bytesNat [n1, n2])).line)) := by
  unfold State.requestService
  rw [fixedArgs_two_one]
  exact if_pos (by rw [decide_eq_true hv, decide_eq_true (show _ < Config.stations from hn)]; rfl)

/-- A station number above 383 is refused (11, R182). -/
theorem State.stationRequest_refused (n1 n2 v : Byte) (hn : 384 ≤ bytesNat [n1, n2]) :
    s.requestAvailability [n1, n2, v] = refuseArgument s ∧ s.requestService [n1, n2, v] = refuseArgument s := by
  have hlt : ¬ bytesNat [n1, n2] < Config.stations := Nat.not_lt.mpr hn
  unfold State.requestAvailability State.requestService
  rw [fixedArgs_two_one]
  simp only [hlt, decide_false, Bool.and_false, Bool.false_eq_true, if_false, and_self]

/-- Settles O43: by availability and by the line of the station, with its source session and its hunt membership. -/
theorem stationRequests : Obligations.StationRequests := by
  intro tag n1 n2 s hp hc hroom n st b reply out
  have hr : b.room .up 1 := (State.endBridge_room ..).mpr hroom
  refine ⟨fun hn i hi => ?range, fun hn => ?station⟩
  case range =>
    have hbare (j : Instr) (kind v : Byte) (h : requestOf j = some (tag, kind, [n1, n2, v])) (hk : kind ≠ 4#8)
        (ha : b.request kind.toNat [n1, n2, v] = refuseArgument b) :
        exec j s = .next (b.queued .up [replyCell s.lane.own tag .refusedArgument []]) :=
      exec_replyOne h hp hc hk ha (Nat.zero_le _) hr
    simp only [List.mem_cons, List.not_mem_nil, or_false] at hi
    rcases hi with rfl | rfl | rfl | rfl
    · exact hbare _ 8#8 1#8 rfl (by decide) (State.stationRequest_refused n1 n2 1#8 hn).1
    · exact hbare _ 8#8 0#8 rfl (by decide) (State.stationRequest_refused n1 n2 0#8 hn).1
    · exact hbare _ 9#8 0#8 rfl (by decide) (State.stationRequest_refused n1 n2 0#8 hn).2
    · exact hbare _ 9#8 1#8 rfl (by decide) (State.stationRequest_refused n1 n2 1#8 hn).2
  case station =>
    have hget (x : Station) (u : State) : (u.stations.put n x).get n = x := State.get_put_station hn x
    have hone {i : Instr} {kind : Byte} {args : List Byte} {t : State} {data : List Byte}
        (h : requestOf i = some (tag, kind, args)) (hk : kind ≠ 4#8) (ha : b.request kind.toNat args = done t data)
        (hd : data.length ≤ Config.replyBytes) (hq : t.lane = b.lane) :
        exec i s = .next (t.queued .up (reply data)) := by
      have hra : t.room .up 1 := by
        unfold State.room
        rw [hq]
        exact hr
      rw [exec_replyOne h hp hc hk ha hd hra]
      show Host.Outcome.next (t.queued .up [replyCell t.lane.own tag .done data]) = _
      rw [hq]
      rfl
    have hin {t : State} {data : List Byte} (h : b.serviceIn n = t)
        (hd : enumByte lineStates (t.stations.get n).line = data) :
        b.request (9#8).toNat [n1, n2, 1#8] = done t data := by
      subst h hd
      exact State.requestService_eq n1 n2 (v := 1#8) le_rfl hn
    have hout {t : State} (h : b.serviceOut n = t) (hl : (t.stations.get n).line = .outOfService) :
        b.request (9#8).toNat [n1, n2, 0#8] = done t [6#8] := by
      have hdata : enumByte lineStates (t.stations.get n).line = [6#8] := by
        rw [hl]
        rfl
      rw [← hdata, ← h]
      exact State.requestService_eq n1 n2 (v := 0#8) (Nat.zero_le _) hn
    have houtOne {t : State} (h : b.serviceOut n = t) (hq : t.lane = b.lane)
        (hl : (t.stations.get n).line = .outOfService) :
        exec (.stationServiceOut tag [n1, n2, 0#8]) s = .next (t.queued .up (reply [6#8])) := by
      exact hone (kind := 9#8) rfl (by decide) (hout h hl) (Nat.le_of_ble_eq_true rfl) hq
    have havail {v : Byte} {t : State} {x : Station} {data : List Byte} (hv : v.toNat ≤ 1)
        (h : (if v.toNat = 1 then b.setAvailable n else b.setUnavailable n) = t) (hx : t.stations.get n = x)
        (hd : enumByte [true, false] x.available ++ natBytes 1 x.strikes = data) :
        b.request (8#8).toNat [n1, n2, v] = done t data := by
      subst h hx hd
      exact State.requestAvailability_eq n1 n2 hv hn
    refine ⟨?available, ?unavailable, fun hl => ⟨?already, ?back⟩, fun hl => ?inService, fun hl hsrc => ?plain,
      fun hl hsrc hnot => ?offer, ?taken⟩
    case available =>
      exact hone (kind := 8#8) rfl (by decide) (havail (v := 1#8) le_rfl (State.setAvailable_eq hn) (hget _ b)
        (show enumByte [true, false] true ++ natBytes 1 0 = [0#8, 0#8] from rfl))
        (Nat.le_of_ble_eq_true rfl) rfl
    case unavailable =>
      exact hone (kind := 8#8) rfl (by decide)
        (havail (v := 0#8) (Nat.zero_le _) (State.setUnavailable_eq hn) (hget _ b)
          (show enumByte [true, false] false ++ natBytes 1 st.strikes = 1#8 :: natBytes 1 st.strikes from rfl)) (Nat.le_of_ble_eq_true rfl) rfl
    case already => exact houtOne (State.serviceOut_out hl) rfl hl
    case back =>
      refine hone (kind := 9#8) rfl (by decide) (hin (State.serviceIn_out hn hl) ?_) (Nat.le_of_ble_eq_true rfl) rfl
      exact (congrArg (enumByte lineStates) (congrArg Station.line (hget { st with line := .idle, lastIdle := s.clock } s))).trans
        (show enumByte lineStates .idle = [0#8] from rfl)
    case inService =>
      exact hone (kind := 9#8) rfl (by decide) (hin (State.serviceIn_in hl) rfl) (Nat.le_of_ble_eq_true rfl) rfl
    case plain =>
      have hring : (b.stations.get n).line ≠ .ringing := by
        rcases hl with h | h | h | h <;> rw [show (b.stations.get n).line = _ from h] <;> nofun
      have hs : b.serviceOut n = { b with stations := s.stations.put n out } := by
        rw [State.serviceOut_unfollowed (s := b) hn ?_ ?_,
          State.sourceDeparted_none ((State.takenOff_isOut (s := b) hn fun _ => hsrc).2 rfl),
          State.takenOff_cleared, if_neg hring, State.takenOut_cleared hn]
        · rfl
        · rcases hl with h | h | h | h <;> rw [show (b.stations.get n).line = _ from h] <;> nofun
        · rcases hl with h | h | h | h <;> rw [show (b.stations.get n).line = _ from h] <;> nofun
      exact houtOne hs rfl (congrArg Station.line (hget _ s))
    case offer =>
      have hs : b.serviceOut n = (if st.line = LineState.ringing then
          State.ringingRemove n { b with stations := s.stations.put n out } else { b with stations := s.stations.put n out }) := by
        rw [State.serviceOut_unfollowed (s := b) hn ?_ fun _ => hnot,
          State.sourceDeparted_none ((State.takenOff_isOut (s := b) hn fun _ => hsrc).2 rfl), State.takenOff_cleared,
          State.takenOut_cleared hn]
        · rfl
        · rcases hl with h | h <;> rw [show (b.stations.get n).line = _ from h] <;> nofun
      refine houtOne hs ?_ ?_
      · split
        · rw [State.ringingRemove_zonesOnly]
        · rfl
      · split
        · rw [State.ringingRemove_stations]
          exact congrArg Station.line (hget _ s)
        · exact congrArg Station.line (hget _ s)
    case taken =>
      have hreply {u : State} (h : b.serviceOut n = u.cleared n) (hu : u.isOut n false) :
          exec (.stationServiceOut tag [n1, n2, 0#8]) s = .next (State.reply tag ⟨u.cleared n, .done, [6#8]⟩) := by
        have hline : ((u.cleared n).stations.get n).line = .outOfService :=
          (congrArg Station.line (hget _ u)).trans hu.1
        rw [exec_reply (kind := 9#8) (args := [n1, n2, 0#8]) rfl hp hc (by decide), hout h hline]
        rfl
      refine ⟨fun c hl hsrc hcall hm => ?_, fun i x hl hi hx hown => ?_⟩
      · have hbare := (KeptCalls.isOut n true).reselect ((KeptCalls.isOut n true).detachTried
          (State.takenOff_isOut (s := b) hn fun _ => hsrc) c n) c
        refine hreply ?_ ⟨hbare.1, nofun⟩
        rw [State.serviceOut_member (s := b) hn hl hcall hm]
        exact congrArg _ (State.sourceDeparted_none (hbare.2 rfl) false)
      · have hring : ¬ (b.stations.get n).line = .ringing := by
          rw [show (b.stations.get n).line = _ from hl]
          nofun
        have hs := State.serviceOut_unfollowed (s := b) hn (by rw [show (b.stations.get n).line = _ from hl]; nofun)
          (by rw [show (b.stations.get n).line = _ from hl]; nofun)
        have hoff : b.takenOff n = b.takenOut n := if_neg hring
        have hsource : ((b.takenOut n).stations.get n).source = some i := by
          rw [State.takenOut_get hn]
          exact hi
        rw [hoff, State.sourceDeparted_own hsource hx hown] at hs
        have hout : (b.takenOut n).isOut n false := hoff ▸ State.takenOff_isOut hn nofun
        exact hreply hs ((FreeClaims.isOut n false).endSession hout i false)

end Sys2Proof.Machine
end

section
/-! PROOFS. The level of ALARM_IN followed (O45; 10, R172, R176). -/

namespace Sys2Proof.Machine

variable {s : State}

theorem State.inService_settle_of_calm (h : s.Calm) : s.inService State.settle = s := by
  unfold State.inService
  split
  · exact State.settle_of_calm h
  · rfl

theorem exec_alarmInActive (h : s.Calm) : exec .alarmInActive s = .next s.alarmInActive :=
  congrArg (fun t => Host.Outcome.next (State.alarmInActive t)) (State.inService_settle_of_calm h)

theorem exec_alarmInInactive (h : s.Calm) : exec .alarmInInactive s = .next s.alarmInInactive :=
  congrArg (fun t => Host.Outcome.next (State.alarmInInactive t)) (State.inService_settle_of_calm h)

/-- Settles O45: by the level of the line, the phase and the latch. -/
theorem alarmInputFollowed : Obligations.AlarmInputFollowed := by
  intro s hc level entered
  rw [exec_alarmInActive hc, exec_alarmInInactive hc]
  refine ⟨fun h => ?sameUp, fun h => ?sameDown, fun h ho => ?followed, fun h hp hi => ?enters, fun h ho => ?stays,
    fun h hp hi ha => ?exits⟩
  case sameUp => exact congrArg _ (if_pos h)
  case sameDown => exact congrArg _ (if_pos (by rw [h]; rfl))
  case followed =>
    rw [State.alarmInActive, if_neg (by rw [h]; nofun)]
    refine congrArg _ (if_neg ?_)
    rcases ho with hp | hi
    · simp [hp]
    · simp [hi]
  case enters =>
    rw [State.alarmInActive, if_neg (by rw [h]; nofun)]
    refine (congrArg _ (if_pos ?_)).trans ?_
    · simp [hp, hi]
    · rw [State.enterAlarm_eq]
      rfl
  case stays =>
    rw [State.alarmInInactive, if_neg (by rw [h]; nofun)]
    refine congrArg _ (if_neg ?_)
    rcases ho with hp | hi | ha
    · simp [hp]
    · simp [hi]
    · simp [ha]
  case exits =>
    obtain ⟨zs, hleft, hexit⟩ := alarmRequests.2.1 (level false)
    refine ⟨zs, hleft, ?_⟩
    rw [State.alarmInInactive, if_neg (by rw [h]; nofun)]
    refine (congrArg _ (if_pos ?_)).trans (congrArg _ hexit)
    simp [hp, hi, ha]

end Sys2Proof.Machine
end

section
/-! PROOFS. The noise estimator, a zone's frame and the content player (O51, O53, O54; 08, R141 to R154; 09, R161 to
R169). -/

namespace Sys2Proof.Machine

variable {s : State}

/-- An event of the frame machinery in service. -/
theorem State.inService_of (h : s.lane.phase = .inService) (f : State → State) : s.inService f = f s := if_pos h

/-! ### The noise estimator (08, R151 to R154) -/

theorem levelAfter_none {f : ZoneFields} (h : f.senseSlot = none) (level sum : Nat) : levelAfter f level sum = 0 := by
  simp [levelAfter, h]

/-- A sixteenth of the way from a level to a mean, truncated toward the level, never falls below 0. -/
theorem sixteenth_nonneg (level mean : Nat) : 0 ≤ (level : Int) + Int.tdiv ((mean : Int) - level) 16 := by
  rcases le_total (level : Int) mean with h | h
  · have := Int.tdiv_nonneg (sub_nonneg.mpr h) (by decide : (0 : Int) ≤ 16)
    omega
  · have hneg : Int.tdiv ((mean : Int) - level) 16 = -(((level : Int) - mean) / 16) := by
      rw [← neg_sub, Int.neg_tdiv, Int.tdiv_eq_ediv_of_nonneg (sub_nonneg.mpr h)]
    rw [hneg]
    omega

theorem levelAfter_some {f : ZoneFields} (h : f.senseSlot ≠ none) (level sum : Nat) :
    (levelAfter f level sum : Int) = level + Int.tdiv ((sum / 64 : Nat) - (level : Int)) 16 := by
  unfold levelAfter
  rw [if_neg (by rwa [Option.isNone_iff_eq_none])]
  exact Int.toNat_of_nonneg (sixteenth_nonneg ..)

/-- The sum of a block behind a quiet frame. -/
def blockSumAfter (f : ZoneFields) (sense : Int) (a : Audio) : Nat :=
  a.blockSum + (if f.senseSlot.isSome then sense.natAbs else 0)

/-- A quiet frame that is not a block's 64th. -/
theorem quietFrame_within {f : ZoneFields} {a : Audio} (sense : Int) (h : a.blockCount < 63) :
    quietFrame f sense a = { a with blockSum := blockSumAfter f sense a, blockCount := a.blockCount + 1 } :=
  if_neg (show ¬ 64 ≤ a.blockCount + 1 by omega)

/-- The quiet frame that is a block's 64th. -/
theorem quietFrame_ends {f : ZoneFields} {a : Audio} (sense : Int) (h : 63 ≤ a.blockCount) :
    quietFrame f sense a =
      (let level := levelAfter f a.noise (blockSumAfter f sense a)
       { a with noise := level, blockSum := 0, blockCount := 0, boost := boostFor f level
                loud := loudFor f level a.loud }) :=
  if_pos (show 64 ≤ a.blockCount + 1 by omega)

/-- The estimator's own stage in an enabled, quiet zone whose block has one frame to go (08, R152). -/
theorem State.noiseBlockEnd_ends {z : Nat} (sense : Sample) (hen : (s.zones.get z).fields.enabled = true)
    (hno : (s.zones.get z).claims = []) (hcount : 63 ≤ (s.zones.get z).audio.blockCount) :
    s.noiseBlockEnd z sense =
      (let a := quietFrame (s.zones.get z).fields sense.toInt (s.zones.get z).audio
       s.modZone z fun zn => { zn with audio := a, loudReport := zn.loudReport || a.loud != zn.audio.loud }) := by
  have h64 : Config.blockFrames ≤ (s.zones.get z).audio.blockCount + 1 := Nat.succ_le_succ hcount
  unfold State.noiseBlockEnd
  exact if_pos (by rw [hen, hno, decide_eq_true h64]; rfl)

/-- Everywhere else no block ends. -/
theorem State.noiseBlockEnd_elsewhere {z : Nat} (sense : Sample) (h : (s.zones.get z).fields.enabled = false ∨
    (s.zones.get z).claims ≠ [] ∨ (s.zones.get z).audio.blockCount < 63) : s.noiseBlockEnd z sense = s := by
  unfold State.noiseBlockEnd
  refine if_neg ?_
  rcases h with h | h | h
  · simp [h]
  · simp [h]
  · have h64 : ¬ Config.blockFrames ≤ (s.zones.get z).audio.blockCount + 1 :=
      fun e => absurd (Nat.le_of_succ_le_succ e) (Nat.not_le.mpr h)
    simp [h64]

/-- Settles O53: the estimator's own stage where a block ends, and nothing elsewhere. -/
theorem noiseBlockEnds : Obligations.NoiseBlockEnds := by
  intro z sense s hp zn f
  have hexec : exec (.noiseBlockEnd z sense) s = .next (s.noiseBlockEnd z sense) :=
    congrArg _ (State.inService_of hp _)
  refine ⟨fun hen hno hcount => ?ends, fun h => hexec.trans (congrArg _ (State.noiseBlockEnd_elsewhere sense h))⟩
  refine ⟨levelAfter f zn.audio.noise (blockSumAfter f sense.toInt zn.audio), fun hs => levelAfter_none hs _ _,
    fun hs => ?_, ?_⟩
  · rw [levelAfter_some hs, blockSumAfter, if_pos (Option.isSome_iff_ne_none.mpr hs)]
  · rw [hexec, State.noiseBlockEnd_ends sense hen hno hcount, quietFrame_ends _ hcount]
    rfl

/-! ### The content player (08, R144; 09, R161 to R169) -/

/-- A tone step whose cursor stands behind a cycle starts the next one in its next frame. -/
theorem Prompts.playTone_ended (pr : Prompts) (d : Nat) (limit : Option Nat) {cur : Cursor} {e : Nat}
    (h : cur.ended = some e) :
    pr.playTone d limit cur = playCycle limit (startCycle (nextCycle limit e (pr.tones.get d)) (pr.tones.get d)) := by
  simp only [Prompts.playTone, h, Prompts.startNext]

theorem Prompts.playTone_within (pr : Prompts) (d : Nat) (limit : Option Nat) {cur : Cursor} (h : cur.ended = none) :
    pr.playTone d limit cur = playCycle limit cur := by
  simp only [Prompts.playTone, h]

theorem Prompts.play_tone (pr : Prompts) (n d : Nat) (limit : Option Nat) (rest : List Step) (cur : Cursor) :
    pr.play ⟨n, .tone d limit :: rest, cur⟩ = afterFrame n (.tone d limit) rest (pr.playTone d limit cur) := by
  simp only [Prompts.play, Prompts.playSteps]

/-- A cycle start of a descriptor that is not empty gives frames to play. -/
theorem startCycle_some (cycle : Nat) (y : Tone) :
    startCycle cycle (some y) =
      if 0 < y.onTime then .tone cycle y.increment y.amplitude (8 * y.offTime) .on (8 * y.onTime) 0
      else .tone cycle y.increment y.amplitude 0 .off (8 * y.offTime) 0 := rfl

theorem startCycle_ended (cycle : Nat) {d : Option Tone} (h : ∀ y, d = some y → 0 < y.onTime + y.offTime) :
    (startCycle cycle d).ended = none := by
  cases d with
  | none => rfl
  | some y =>
    have := h y rfl
    rw [startCycle_some]
    split
    · exact if_pos (by omega)
    · exact if_pos (by omega)

/-- A tone step that stands behind a cycle plays the next one from its start. -/
theorem Prompts.play_cycleStart (pr : Prompts) (n d : Nat) (limit : Option Nat) (rest : List Step) {cur : Cursor} {e : Nat}
    (he : cur.ended = some e) (hd : ∀ y, pr.tones.get d = some y → 0 < y.onTime + y.offTime) :
    pr.play ⟨n, .tone d limit :: rest, cur⟩ =
      pr.play ⟨n, .tone d limit :: rest, startCycle (nextCycle limit e (pr.tones.get d)) (pr.tones.get d)⟩ := by
  rw [Prompts.play_tone, Prompts.play_tone, Prompts.playTone_ended pr d limit he,
    Prompts.playTone_within pr d limit (startCycle_ended _ hd)]

/-- The cycle that follows cycle `e`: a repeating step returns to 1 behind its round. -/
theorem nextCycle_eq (limit : Option Nat) {e : Nat} (he : 0 < e) (d : Option Tone) :
    nextCycle limit e d = if limit = none ∧ roundLength d ≤ e then 1 else e + 1 := by
  unfold nextCycle
  rw [if_neg (Nat.pos_iff_ne_zero.mp he)]
  cases limit with
  | none => simp
  | some _ => simp

/-- Settles O54: the next cycle's start, and the two rows that move a player on. -/
theorem playerStepsOn : Obligations.PlayerStepsOn := by
  refine ⟨fun pr n d limit rest cycle cur hc hcur => ?cycle, fun z s hp => ?rows⟩
  case cycle =>
    intro x round next steps
    have hended : cur.ended = some cycle := by
      rcases hcur with rfl | ⟨inc, amp, off, part, phase, rfl⟩
      · rfl
      · rfl
    have hnext : nextCycle limit cycle x = next := by
      rw [nextCycle_eq limit hc]
      rfl
    refine ⟨fun hx => ?_, fun y hx hpos => ?_⟩
    · have hx' : pr.tones.get d = none := hx
      rw [Prompts.play_cycleStart pr n d limit rest hended (by rw [hx']; nofun), show nextCycle limit cycle _ = next from hnext,
        hx']
      rfl
    · have hx' : pr.tones.get d = some y := hx
      rw [Prompts.play_cycleStart pr n d limit rest hended (by rw [hx']; rintro _ ⟨⟩; exact hpos),
        show nextCycle limit cycle _ = next from hnext, hx', startCycle_some]
  case rows =>
    intro zn put
    have hcycle : exec (.toneCycleEnd z) s = .next (s.modZone z fun zn => { zn with player := zn.player.passCycle }) :=
      congrArg _ (State.inService_of hp _)
    have hprompt : exec (.promptStepEnd z) s = .next (s.modZone z fun zn => { zn with player := zn.player.passPrompt }) :=
      congrArg _ (State.inService_of hp _)
    have hstays {f : Zone → Zone} (h : f (s.zones.get z) = s.zones.get z) :
        Host.Outcome.next (s.modZone z f) = (.next s : Host.Outcome State Fault Refusal) :=
      congrArg _ (State.modZone_self h)
    have hput {f : Zone → Zone} {p : Player} (h : f (s.zones.get z) = { zn with player := p }) :
        Host.Outcome.next (s.modZone z f) = (.next (put p) : Host.Outcome State Fault Refusal) :=
      congrArg _ (State.modZone_congr (g := fun _ => { zn with player := p }) h)
    have hplayer {p : Player} (h : p = zn.player) : ({ zn with player := p } : Zone) = zn := by rw [h]
    rw [hcycle, hprompt]
    refine ⟨fun d limit rest cycle inc amp off part phase hsteps hcur => hput ?_, fun hno => hstays (hplayer ?_),
      fun e rest start length hsteps k hcur => ⟨fun hk => hput ?_, fun hk => hstays (hplayer ?_)⟩,
      fun hno => hstays (hplayer ?_)⟩
    · show ({ zn with player := zn.player.passCycle } : Zone) = _
      simp only [Player.passCycle, hsteps, hcur]
    · unfold Player.passCycle
      split
      · rename_i hcur
        exact (hno _ _ _ _ _ _ hcur).elim
      · rfl
    · show ({ zn with player := zn.player.passPrompt } : Zone) = _
      simp only [Player.passPrompt, hsteps, hcur, if_neg (Nat.not_lt.mpr hk), List.isEmpty_iff]
    · show zn.player.passPrompt = _
      simp only [Player.passPrompt, hsteps, hcur, if_pos hk]
    · unfold Player.passPrompt
      split
      · rename_i hcur
        exact (hno _ _ _ hcur).elim
      · rfl

end Sys2Proof.Machine
end

section
/-! PROOFS. The stages of a zone's frame (O51; 08, R141 to R154; 09, R161 to R169). -/

namespace Sys2Proof.Machine

variable {s : State}

/-! ### A zone's frame (08, R141) -/

theorem clampSample_eq (x : Int) : clampSample x = if x < -32768 then -32768 else if 32767 < x then 32767 else x := by
  unfold clampSample
  split
  · omega
  · split <;> omega

/-- A duck step reaches a target within its reach, and else goes its whole length toward it (08, R150). -/
theorem rampStep_cases (gain target step : Nat) :
    (gain ≤ target + step → target ≤ gain + step → rampStep gain target step = target) ∧
      (target + step < gain → rampStep gain target step + step = gain) ∧
      (gain + step < target → rampStep gain target step = gain + step) := by
  unfold rampStep
  refine ⟨fun h1 h2 => ?_, fun h => ?_, fun h => ?_⟩
  · split
    · rw [if_pos (by omega)]
    · rw [if_pos (by omega)]
  · rw [if_neg (by omega), if_neg (by omega)]
    omega
  · rw [if_pos (by omega), if_neg (by omega)]

theorem Zone.announcing_iff (zn : Zone) : zn.announcing = true ↔ ∃ c rest, zn.claims = c :: rest ∧ c.cls = 4 := by
  unfold Zone.announcing
  cases h : zn.claims with
  | nil => simp
  | cons c rest => simp

/-- The estimator in a frame of a quiet zone, or under a head (08, R151). -/
theorem Zone.estimate_quiet {zn : Zone} (sense : Int) (h : zn.claims = []) :
    zn.estimate sense = quietFrame zn.fields sense zn.audio := by
  unfold Zone.estimate
  rw [h]
  rfl

theorem Zone.estimate_headed {zn : Zone} (sense : Int) (h : zn.claims ≠ []) :
    zn.estimate sense = { zn.audio with blockSum := 0, blockCount := 0 } := by
  unfold Zone.estimate
  rw [if_neg (by rwa [List.isEmpty_iff])]

theorem Zone.musicTarget_eq (zn : Zone) :
    zn.musicTarget = if zn.claims = [] then zn.fields.musicBase else zn.fields.musicDuck := by
  unfold Zone.musicTarget
  simp only [List.isEmpty_iff]

/-! ### Prompt steps (09, R169) -/

theorem Prompts.play_promptAt (pr : Prompts) (n e : Nat) (rest : List Step) {start length k : Nat} (h : k < length) :
    pr.play ⟨n, .prompt e :: rest, .prompt start length k⟩ =
      afterFrame n (.prompt e) rest (pr.playSample start length k) := by
  simp only [Prompts.play, Prompts.playSteps, if_pos h]

theorem Prompts.play_promptOver (pr : Prompts) (n e : Nat) (rest : List Step) {start length k : Nat} (h : length ≤ k) :
    pr.play ⟨n, .prompt e :: rest, .prompt start length k⟩ =
      if rest = [] then ⟨0, Player.empty, true⟩ else pr.play ⟨n + 1, rest, .fresh⟩ := by
  simp only [Prompts.play, Prompts.playSteps, if_neg (Nat.not_lt.mpr h), List.isEmpty_iff]

theorem Prompts.play_promptBegins {pr : Prompts} {e : Nat} {x : PromptEntry} (h : pr.stretch e = some x) (n : Nat)
    (rest : List Step) :
    pr.play ⟨n, .prompt e :: rest, .fresh⟩ = afterFrame n (.prompt e) rest (pr.playSample x.start x.length 0) := by
  simp only [Prompts.play, Prompts.playSteps, h]

theorem Prompts.play_promptSkipped {pr : Prompts} {e : Nat} (h : pr.stretch e = none) (n : Nat) (rest : List Step) :
    pr.play ⟨n, .prompt e :: rest, .fresh⟩ =
      if rest = [] then ⟨0, Player.empty, true⟩ else pr.play ⟨n + 1, rest, .fresh⟩ := by
  simp only [Prompts.play, Prompts.playSteps, h, List.isEmpty_iff]

theorem Prompts.stretch_some {pr : Prompts} {e : Nat} {x : PromptEntry} (h : pr.directory.get e = some x)
    (hx : 0 < x.length) : pr.stretch e = some x := by
  simp only [Prompts.stretch, h, if_neg (Nat.pos_iff_ne_zero.mp hx)]

theorem Prompts.stretch_none {pr : Prompts} {e : Nat} (h : ∀ x, pr.directory.get e = some x → x.length = 0) :
    pr.stretch e = none := by
  unfold Prompts.stretch
  split
  · rename_i x hx
    rw [if_pos (h x hx)]
  · rfl

/-- A prompt step's frame: it goes on with the next sample, unless its last sample was the content's last. -/
theorem afterFrame_prompt (n : Nat) (step : Step) (rest : List Step) (x : Int) (start length k : Nat) :
    afterFrame n step rest ⟨x, some (.prompt start length k)⟩ =
      if length ≤ k ∧ rest = [] then ⟨x, Player.empty, true⟩
      else ⟨x, ⟨n, step :: rest, .prompt start length k⟩, false⟩ := by
  simp only [afterFrame, Bool.and_eq_true, decide_eq_true_eq, List.isEmpty_iff]

theorem afterFrame_sample (n : Nat) (step : Step) (rest : List Step) (r : Played) :
    (afterFrame n step rest r).sample = r.sample := by
  unfold afterFrame
  repeat' split
  all_goals rfl

/-- A step that has ended gives way to the next one, or ends the content. -/
theorem afterFrame_ended (n : Nat) (step : Step) (rest : List Step) {r : Played} (h : r.cursor = none) :
    afterFrame n step rest r =
      if rest = [] then ⟨r.sample, Player.empty, true⟩ else ⟨r.sample, ⟨n + 1, rest, .fresh⟩, false⟩ := by
  simp only [afterFrame, h, List.isEmpty_iff]

theorem afterFrame_cycle (n : Nat) (step : Step) (rest : List Step) {r : Played} {cycle i a o k q : Nat} {p : TonePart}
    (h : r.cursor = some (.tone cycle i a o p k q)) :
    afterFrame n step rest r = ⟨r.sample, ⟨n, step :: rest, .tone cycle i a o p k q⟩, false⟩ := by
  simp only [afterFrame, h]

/-! ### Tone steps (09, R161 to R164) -/

/-- The sample of a frame of a cycle: the triangle's in the on-part (09, R163). -/
def cycleSample (part : TonePart) (phase amp : Nat) : Int := match part with | .on => toneSample phase amp | _ => 0

theorem cycleSample_silent {part : TonePart} (h : part ≠ .on) (phase amp : Nat) : cycleSample part phase amp = 0 := by
  cases part with
  | on => exact absurd rfl h
  | off => rfl
  | void => rfl

/-- One frame of a cycle in progress: its sample, and whether the step ends with it. -/
theorem playCycle_tone (limit : Option Nat) (cycle inc amp off : Nat) (part : TonePart) (left phase : Nat) :
    let r := playCycle limit (.tone cycle inc amp off part left phase)
    let last : Prop := left ≤ 1 ∧ (part = .on → off = 0) ∧ ∃ l, limit = some l ∧ l ≤ cycle
    r.sample = cycleSample part phase amp ∧ (last → r.cursor = none) ∧
      (¬ last → ∃ i a o p k q, r.cursor = some (.tone cycle i a o p k q)) := by
  intro r last
  have hlast : lastCycle limit cycle = true ↔ ∃ l, limit = some l ∧ l ≤ cycle := by
    cases limit <;> simp [lastCycle]
  let phase1 : Nat := match part with | .on => (phase + inc) % 65536 | _ => phase
  have hr : r =
      if 0 < left - 1 then ⟨cycleSample part phase amp, some (.tone cycle inc amp off part (left - 1) phase1)⟩
      else if part = .on && 0 < off then
        ⟨cycleSample part phase amp, some (.tone cycle inc amp 0 .off off phase1)⟩
      else if lastCycle limit cycle then ⟨cycleSample part phase amp, none⟩
      else ⟨cycleSample part phase amp, some (.tone cycle inc amp 0 part 0 phase1)⟩ := rfl
  by_cases hmore : 0 < left - 1
  · rw [hr, if_pos hmore]
    exact ⟨rfl, fun h => by omega, fun _ => ⟨_, _, _, _, _, _, rfl⟩⟩
  · rw [if_neg hmore] at hr
    by_cases hoff : part = .on ∧ 0 < off
    · rw [if_pos (by simpa using hoff)] at hr
      rw [hr]
      exact ⟨rfl, fun h => absurd (h.2.1 hoff.1) (Nat.pos_iff_ne_zero.mp hoff.2), fun _ => ⟨_, _, _, _, _, _, rfl⟩⟩
    · rw [if_neg (by simpa using hoff)] at hr
      have hover : left ≤ 1 ∧ (part = .on → off = 0) :=
        ⟨by omega, fun h => Nat.eq_zero_of_not_pos fun e => hoff ⟨h, e⟩⟩
      by_cases hl : lastCycle limit cycle = true
      · rw [if_pos hl] at hr
        rw [hr]
        exact ⟨rfl, fun _ => rfl, fun h => absurd ⟨hover.1, hover.2, hlast.mp hl⟩ h⟩
      · rw [if_neg hl] at hr
        rw [hr]
        exact ⟨rfl, fun h => absurd (hlast.mpr h.2.2) hl, fun _ => ⟨_, _, _, _, _, _, rfl⟩⟩

/-- Settles O51: the stages of one frame by the model's own pieces, then the player step by step. -/
theorem zoneFrameStages : Obligations.ZoneFrameStages := by
  refine ⟨fun zn pr engaged v m sense => ?zone, fun pr n rest => ?player⟩
  case zone =>
    intro r f played x y target before after
    have hy : clampSample x = y := clampSample_eq x
    have htarget : zn.musicTarget = target := zn.musicTarget_eq
    have hafter : after = rampStep before target f.duckStep := htarget ▸ rfl
    obtain ⟨hreach, hdown, hup⟩ := rampStep_cases before target f.duckStep
    have haudio : r.zone.audio = { zn.estimate sense with musicGain := after } := rfl
    have hloud : r.zone.loudReport = (zn.loudReport || r.zone.audio.loud != zn.audio.loud) := rfl
    have hcompleted : r.zone.completed = (zn.completed || (played.complete && zn.announcing)) := rfl
    refine ⟨fun he => ?engaged, fun he => ?transparent, fun h1 h2 => hafter.trans (hreach h1 h2),
      fun h => hafter ▸ hdown h, fun h => hafter.trans (hup h), fun h => ?headed, fun h => ?quiet, ?loud, ?completed, rfl⟩
    case engaged =>
      subst he
      have hsat : r.saturated = (clampSample x != x) := rfl
      have hcount : r.zone.saturations = if (clampSample x != x) = true then satInc zn.saturations else zn.saturations := rfl
      simp only [hsat, hcount, hy, bne_iff_ne]
      exact ⟨hy ▸ rfl, trivial, rfl⟩
    case transparent =>
      subst he
      exact ⟨rfl, rfl, rfl⟩
    case headed =>
      rw [haudio, Zone.estimate_headed sense h]
    case quiet =>
      have hsum : blockSumAfter f sense zn.audio = zn.audio.blockSum + if f.senseSlot = none then 0 else sense.natAbs := by
        unfold blockSumAfter
        cases f.senseSlot <;> rfl
      rw [haudio, Zone.estimate_quiet sense h, ← hsum]
      refine ⟨fun hc => ?_, fun hc => ?_⟩
      · rw [quietFrame_within sense hc]
      · refine ⟨levelAfter f zn.audio.noise (blockSumAfter f sense zn.audio), fun hs => levelAfter_none hs _ _,
          fun hs => levelAfter_some hs _ _, ?_⟩
        rw [quietFrame_ends sense hc]
        rfl
    case loud =>
      rw [hloud, Bool.or_eq_true, bne_iff_ne]
    case completed =>
      rw [hcompleted, Bool.or_eq_true, Bool.and_eq_true, Zone.announcing_iff]
  case player =>
    intro ends passed
    refine ⟨rfl, fun e => ⟨fun x hx hpos => ?begins, fun h => ?skipped, fun start length k => ⟨fun hk => ?sample,
      fun hk => ?goesOn, fun hk hr => ?lastSample, fun hk => ?playedOut⟩⟩, fun d limit => ⟨fun hd => ?void, fun y hy hpos => ?tone,
      fun cycle inc amp off part left phase hleft => ?frame⟩⟩
    case begins =>
      rw [Prompts.play_promptBegins (Prompts.stretch_some hx hpos), Prompts.play_promptAt _ _ _ _ hpos]
    case skipped => exact Prompts.play_promptSkipped (Prompts.stretch_none h) n rest
    case sample =>
      rw [Prompts.play_promptAt pr n e rest hk, Prompts.playSample, afterFrame_prompt]
      split <;> rfl
    case goesOn =>
      rw [Prompts.play_promptAt pr n e rest (by omega), Prompts.playSample, afterFrame_prompt, if_neg ?_]
      · exact ⟨rfl, rfl⟩
      · rintro ⟨hle, hr⟩
        rcases hk with hk | ⟨_, hr'⟩
        · omega
        · exact hr' hr
    case lastSample =>
      rw [Prompts.play_promptAt pr n e rest (by omega), Prompts.playSample, afterFrame_prompt, if_pos ⟨hk.ge, hr⟩]
      exact ⟨rfl, rfl⟩
    case playedOut => exact Prompts.play_promptOver pr n e rest hk
    case void =>
      rw [Prompts.play_cycleStart pr n d limit rest (e := 0) rfl (by rw [hd]; nofun), hd]
      rfl
    case tone =>
      rw [Prompts.play_cycleStart pr n d limit rest (e := 0) rfl (by rw [hy]; rintro _ ⟨⟩; exact hpos), hy,
        startCycle_some]
      rfl
    case frame =>
      intro f last
      obtain ⟨hsample, hends, hstays⟩ := playCycle_tone limit cycle inc amp off part left phase
      let played := playCycle limit (.tone cycle inc amp off part left phase)
      have hwithin : (Cursor.tone cycle inc amp off part left phase).ended = none := if_pos hleft
      have hf : f = afterFrame n (.tone d limit) rest played := by
        show pr.play _ = _
        rw [Prompts.play_tone, Prompts.playTone_within pr d limit hwithin]
      have hfsample : f.sample = cycleSample part phase amp := by
        rw [hf, afterFrame_sample, hsample]
      refine ⟨fun h => ?_, fun h => hfsample.trans (cycleSample_silent h phase amp), fun h => ?_, fun h => ?_⟩
      · rw [hfsample, h]
        rfl
      · have hnone := hends ⟨h.1.le, h.2⟩
        rw [hf, afterFrame_ended n _ rest hnone]
        by_cases hr : rest = []
        · rw [if_pos hr]
          exact ⟨(if_pos hr).symm, fun _ => hr, fun _ => rfl⟩
        · rw [if_neg hr]
          exact ⟨(if_neg hr).symm, nofun, fun e => absurd e hr⟩
      · obtain ⟨i, a, o, p, k, q, hcur⟩ := hstays fun e => h ⟨by omega, e.2⟩
        rw [hf, afterFrame_cycle n _ rest hcur]
        exact ⟨rfl, rfl, rfl⟩

end Sys2Proof.Machine
end

section
/-! PROOFS. The mixer's reports, and what re-evaluations and withdrawals make of a zone (O55, O56; 07, R128, R129, R133,
R136; 08, R142, R145). -/

namespace Sys2Proof.Machine

variable {s t : State}

/-! ### Work zone by zone -/

/-- A zone's record takes its new form where its number comes, once. -/
theorem foldl_onlyZone_get_once {g : State → Nat → State} (hg : ∀ (t : State) y, t.onlyZone y (g t y)) {z : Nat} {b : Zone}
    {l : List Nat} (hn : l.Nodup) (hl : z ∈ l)
    (hz : ∀ t, s.zonesOnly t → t.zones.get z = s.zones.get z → (g t z).zones.get z = b) :
    (l.foldl g s).zones.get z = b := by
  obtain ⟨l1, l2, rfl⟩ := List.append_of_mem hl
  obtain ⟨-, hn2, hdis⟩ := List.nodup_append.mp hn
  have h1 : z ∉ l1 := fun h => hdis z h z List.mem_cons_self rfl
  rw [List.foldl_append, List.foldl_cons, foldl_onlyZone_get_ne hg (List.nodup_cons.mp hn2).1]
  exact hz _ (foldl_onlyZone_zonesOnly hg l1) (foldl_onlyZone_get_ne hg h1)

theorem mem_zoneNumbers {z : Nat} : z ∈ zoneNumbers ↔ 1 ≤ z ∧ z < 1 + 24 := List.mem_range'_1

theorem zoneNumbers_nodup : zoneNumbers.Nodup := List.nodup_range'

/-- A zone outside the table reads as a disabled one. -/
theorem State.zone_outside {z : Nat} (hz : ¬ (1 ≤ z ∧ z < 1 + 24)) : s.zones.get z = default := Tab.get_of_not_mem _ hz

theorem State.modZone_outside {z : Nat} (hz : ¬ (1 ≤ z ∧ z < 1 + 24)) (f : Zone → Zone) : s.modZone z f = s := by
  unfold State.modZone
  rw [Tab.put_of_not_mem _ _ hz]

theorem State.modZone_get {z : Nat} (hz : 1 ≤ z ∧ z < 1 + 24) (f : Zone → Zone) :
    (s.modZone z f).zones.get z = f (s.zones.get z) := Tab.get_put_same _ _ hz

theorem State.mem_enabledZones {z : Nat} : z ∈ s.enabledZones ↔ (s.zones.get z).fields.enabled = true := by
  unfold State.enabledZones
  rw [List.mem_filter, mem_zoneNumbers]
  exact ⟨fun h => h.2, fun h => ⟨State.zone_range h, h⟩⟩

/-! ### Re-evaluations (07, R136) -/

/-- A re-evaluation outside the table changes nothing. -/
theorem State.reevaluateAssist_outside {z : Nat} (hz : ¬ (1 ≤ z ∧ z < 1 + 24)) : s.reevaluateAssist z = s := by
  have hcount : s.countAssist z = s := State.modZone_outside hz _
  have hwant : s.assistWanted z = false := by
    rw [Bool.eq_false_iff]
    intro h
    exact hz (State.zone_range ((s.assistWanted_iff z).mp h).2.1)
  unfold State.reevaluateAssist
  simp only [hcount, hwant, State.zone_outside hz]
  rfl

theorem State.reevaluateAssist_put (z : Nat) (hl : ClaimsFit (s.zones.get z).claims) :
    s.reevaluateAssist z = s.modZone z (s.assisted z) := by
  by_cases hz : 1 ≤ z ∧ z < 1 + 24
  · exact State.reevaluateAssist_eq hz hl
  · rw [State.reevaluateAssist_outside hz, State.modZone_outside hz]

/-- A re-evaluation of every enabled zone, zone by zone. -/
theorem State.reevaluateAll_get (s : State) (z : Nat) :
    ((s.zones.get z).fields.enabled = true → ClaimsFit (s.zones.get z).claims →
      s.reevaluateAll.zones.get z = s.assisted z (s.zones.get z)) ∧
    ((s.zones.get z).fields.enabled = false → s.reevaluateAll.zones.get z = s.zones.get z) := by
  have hg := fun (t : State) y => t.reevaluateAssist_onlyZone y
  refine ⟨fun hen hl => ?_, fun hdis => foldl_onlyZone_get_ne hg fun h => ?_⟩
  · refine foldl_onlyZone_get_once hg (zoneNumbers_nodup.filter _) (State.mem_enabledZones.mpr hen) fun t ht hz => ?_
    rw [State.reevaluateAssist_put z (hz ▸ hl), State.modZone_get (State.zone_range hen), hz, ht]
    rfl
  · rw [State.mem_enabledZones, hdis] at h
    cases h

/-! ### Withdrawals (07, R128, R129) -/

/-- A claim that stands is withdrawn: it leaves, and the assist claim is re-evaluated. -/
theorem State.withdrawClaim_eq {z : Nat} {who : Claimant} (hl : ClaimsFit (s.zones.get z).claims)
    (h : holdsClaim (s.zones.get z).claims who = true) :
    s.withdrawClaim z who = s.modZone z fun x => s.assisted z (s.claimGone z who x) := by
  obtain ⟨c, hc, -⟩ := holdsClaim_iff.mp h
  have hz := State.zone_range_of_claim hc
  have hfit : ClaimsFit ((s.modZone z (s.claimGone z who)).zones.get z).claims := by
    rw [State.modZone_get hz, s.claimGone_claims]
    exact hl.remove who
  unfold State.withdrawClaim
  rw [if_pos h, State.removeClaim_eq h, State.reevaluateAssist_put z hfit, State.modZone_modZone]
  rfl

/-- Without its head's claim a list is its rest. -/
theorem ClaimsFit.filter_head {c : Claim} {rest : List Claim} (h : ClaimsFit (c :: rest)) :
    ((c :: rest).filter fun d => d.claimant ≠ c.claimant) = rest := by
  have hn := List.nodup_cons.mp h.distinct
  rw [List.filter_cons_of_neg (by simp), List.filter_eq_self]
  exact fun d hd => decide_eq_true fun e => hn.1 (e ▸ List.mem_map_of_mem hd)

/-- The head claim is withdrawn: the next one starts its content. -/
theorem State.withdrawClaim_head {z : Nat} {c : Claim} {rest : List Claim} (hz : (s.zones.get z).claims = c :: rest)
    (hl : ClaimsFit (s.zones.get z).claims) :
    s.withdrawClaim z c.claimant = s.modZone z fun x => s.assisted z (s.headed z { x with claims := rest }) := by
  have hholds : holdsClaim (s.zones.get z).claims c.claimant = true :=
    holdsClaim_iff.mpr ⟨c, hz ▸ List.mem_cons_self, rfl⟩
  rw [State.withdrawClaim_eq hl hholds]
  refine State.modZone_congr ?_
  unfold State.claimGone
  rw [hz] at hl ⊢
  simp only [List.head?_cons, Option.map_some, if_true, hl.filter_head]

/-- Settles O55: the re-evaluation zone by zone, then each report as a withdrawal or a re-evaluation of its zone. -/
theorem zoneReportsTaken : Obligations.ZoneReportsTaken := by
  refine ⟨fun s => ⟨s.reevaluateAll.zones, s.reevaluateAll_zonesOnly, fun z => s.reevaluateAll_get z⟩, fun z s => ?_⟩
  intro zn put
  refine ⟨fun hl => State.reevaluateAssist_put z hl, fun hp hc => ?_⟩
  have hcompletion : exec (.contentCompletion z) s = .next (s.contentCompletion z) :=
    congrArg _ (State.afterRaised_of_calm _ hp hc)
  have hloud : exec (.loudChange z) s = .next (s.loudChange z) := congrArg _ (State.afterRaised_of_calm _ hp hc)
  rw [hcompletion, hloud]
  refine ⟨fun hl => ⟨fun hdone => ⟨fun c rest hcl => congrArg _ ?head, fun hno => congrArg _ ?none⟩,
    fun hl => congrArg _ ?loud⟩, fun h => congrArg _ (if_neg (by rw [h]; nofun)),
    fun h => congrArg _ (if_neg (by rw [h]; nofun))⟩
  case head =>
    let s1 : State := s.modZone z fun zn => { zn with completed := false }
    have hz := State.zone_range_of_claim (s := s) (z := z) (c := c) (hcl ▸ List.mem_cons_self)
    have hget : s1.zones.get z = { zn with completed := false } := State.modZone_get hz _
    have htaken : s.contentCompletion z = s1.withdrawClaim z c.claimant := by
      unfold State.contentCompletion
      simp only [show (s.zones.get z).completed = true from hdone, if_true, show (s.zones.get z).claims = _ from hcl]
      rfl
    have hclaims : (s1.zones.get z).claims = c :: rest := by rw [hget]; exact hcl
    rw [htaken, State.withdrawClaim_head hclaims (by rw [hget]; exact hl), State.modZone_modZone]
    rfl
  case none =>
    unfold State.contentCompletion
    simp only [show (s.zones.get z).completed = true from hdone, if_true, show (s.zones.get z).claims = _ from hno]
    rfl
  case loud =>
    have hz : 1 ≤ z ∧ z < 1 + 24 := by
      by_contra hz
      have hl : (s.zones.get z).loudReport = true := hl
      rw [State.zone_outside hz] at hl
      cases hl
    let s1 : State := s.modZone z fun zn => { zn with loudReport := false }
    have hget : s1.zones.get z = { zn with loudReport := false } := State.modZone_get hz _
    have htaken : s.loudChange z = (s1.reevaluateAssist z).chooseBeacon z := if_pos hl
    rw [htaken, State.reevaluateAssist_put z (by rw [hget]; assumption), State.chooseBeacon_eq, State.modZone_modZone,
      State.modZone_modZone]
    rfl

end Sys2Proof.Machine
end

section
/-! PROOFS. The frame-formed report (O56; 07, R133; 08, R142, R145). -/

namespace Sys2Proof.Machine

variable {s t : State}

/-! ### A session becomes LIVE (08, R145) -/

/-- A session as it becomes LIVE. -/
def Session.live (x : Session) : Session := { x with phase := .live, frames := 0 }

/-- A zone with its player emptied. -/
def Zone.still (zn : Zone) : Zone := { zn with player := Player.empty }

/-- The players of these zones emptied, and nothing else changed. -/
theorem State.stilled_get (l : List (Nat × HoldStatus)) (s : State) (z : Nat) :
    let t := l.foldl (fun t e => t.modZone e.1 Zone.still) s
    s.zonesOnly t ∧ (z ∈ l.map Prod.fst → t.zones.get z = (s.zones.get z).still) ∧
      (z ∉ l.map Prod.fst → t.zones.get z = s.zones.get z) := by
  induction l generalizing s with
  | nil => exact ⟨.rfl, nofun, fun _ => rfl⟩
  | cons e l ih =>
    obtain ⟨h1, hin, hout⟩ := ih (s.modZone e.1 Zone.still)
    refine ⟨(s.modZone_zonesOnly _ _).trans h1, fun hz => ?_, fun hz => ?_⟩
    · have hget : (s.modZone e.1 Zone.still).zones.get z = s.zones.get z ∨
          (s.modZone e.1 Zone.still).zones.get z = (s.zones.get z).still := by
        by_cases he : e.1 = z
        · subst he
          by_cases hr : 1 ≤ e.1 ∧ e.1 < 1 + 24
          · exact .inr (State.modZone_get hr _)
          · exact .inl (by rw [State.modZone_outside hr])
        · exact .inl (Tab.get_put_ne _ _ he)
      by_cases hl : z ∈ l.map Prod.fst
      · rcases hget with h | h
        · exact (hin hl).trans (congrArg Zone.still h)
        · exact (hin hl).trans (by rw [h]; rfl)
      · obtain rfl : z = e.1 := (List.mem_cons.mp hz).resolve_right hl
        rw [List.foldl_cons, hout hl]
        by_cases hr : 1 ≤ e.1 ∧ e.1 < 1 + 24
        · exact State.modZone_get hr _
        · rw [State.modZone_outside hr, State.zone_outside hr]
          rfl
    · rw [List.map_cons, List.mem_cons, not_or] at hz
      exact (hout hz.2).trans (Tab.get_put_ne _ _ (Ne.symm hz.1))

theorem mem_held {l : List (Nat × HoldStatus)} {z : Nat} :
    z ∈ (l.filter fun e => e.2 = HoldStatus.held).map Prod.fst ↔ (z, HoldStatus.held) ∈ l := by
  rw [List.mem_map]
  constructor
  · rintro ⟨⟨y, h⟩, hm, rfl⟩
    obtain ⟨hm, hh⟩ := List.mem_filter.mp hm
    exact (of_decide_eq_true hh : h = _) ▸ hm
  · exact fun h => ⟨(z, .held), List.mem_filter.mpr ⟨h, rfl⟩, rfl⟩

/-- A session becomes LIVE, and the zones it holds carry no prompt step. -/
theorem State.goLive_eq {i : Nat} {x : Session} (hx : s.paging.sessions.get i = some x) :
    ∃ zs, s.goLive i =
        { s with zones := zs, paging := { s.paging with sessions := s.paging.sessions.put i (some x.live) } } ∧
      ∀ z, ((z, HoldStatus.held) ∈ x.zones → zs.get z = (s.zones.get z).still) ∧
        ((z, HoldStatus.held) ∉ x.zones → zs.get z = s.zones.get z) := by
  have hlive : s.goLive i = (x.zones.filter fun e => e.2 = HoldStatus.held).foldl
      (fun t e => t.modZone e.1 Zone.still) (s.setSession i (some x.live)) := by
    unfold State.goLive
    simp only [hx]
    rfl
  refine ⟨(s.goLive i).zones, ?_, fun z => ?_⟩
  · rw [hlive]
    exact (State.stilled_get _ _ 0).1
  · rw [hlive, ← mem_held]
    exact (State.stilled_get _ _ z).2

/-! ### The frame-formed report (08, R142) -/

/-- A session in the frame-formed report: one still in PREANNOUNCE counts down, and is LIVE at the end of its count. -/
def Session.lowered (x : Session) : Session :=
  if x.phase = .preannounce then (if x.frames ≤ 1 then x.live else { x with frames := x.frames - 1 }) else x

/-- A session that the frame-formed report makes LIVE while it holds a zone. -/
def Session.livens (x : Session) (z : Nat) : Prop :=
  x.phase = .preannounce ∧ x.frames ≤ 1 ∧ (z, HoldStatus.held) ∈ x.zones

/-- A part with other zones and sessions, and nothing else changed. -/
def State.sessionsOnly (s t : State) : Prop :=
  t = { s with zones := t.zones, paging := { s.paging with sessions := t.paging.sessions } }

/-- What one step of the frame-formed report does. -/
theorem State.lowerCount_eq (s : State) (i : Nat) :
    s.sessionsOnly (s.lowerCount i) ∧
      (∀ j, j ≠ i → (s.lowerCount i).paging.sessions.get j = s.paging.sessions.get j) ∧
      (s.lowerCount i).paging.sessions.get i = (s.paging.sessions.get i).map Session.lowered ∧
      ∀ z, (∃ x, s.paging.sessions.get i = some x ∧ x.livens z) ∧ (s.lowerCount i).zones.get z = (s.zones.get z).still ∨
        (s.lowerCount i).zones.get z = s.zones.get z ∧ ∀ x, s.paging.sessions.get i = some x → ¬ x.livens z := by
  have hsome {x : Session} (hx : s.paging.sessions.get i = some x) : s.lowerCount i =
      if x.phase = .preannounce then
        if x.frames ≤ 1 then s.goLive i else s.setSession i (some { x with frames := x.frames - 1 })
      else s := by
    simp only [State.lowerCount, hx]
  cases hx : s.paging.sessions.get i with
  | none =>
    have hnone : s.lowerCount i = s := by simp only [State.lowerCount, hx]
    rw [hnone]
    exact ⟨rfl, fun _ _ => rfl, hx, fun z => .inr ⟨rfl, nofun⟩⟩
  | some x =>
    have hi : 1 ≤ i ∧ i < 1 + 8 := by
      by_contra hi
      rw [Tab.get_of_not_mem _ hi] at hx
      cases hx
    by_cases hpre : x.phase = .preannounce
    · rw [hsome hx, if_pos hpre]
      by_cases hlast : x.frames ≤ 1
      · obtain ⟨zs, hlive, hzs⟩ := State.goLive_eq hx
        rw [if_pos hlast, hlive]
        refine ⟨rfl, fun j hj => Tab.get_put_ne _ _ (Ne.symm hj), (Tab.get_put_same _ _ hi).trans ?_, fun z => ?_⟩
        · rw [Option.map_some, Session.lowered, if_pos hpre, if_pos hlast]
        · by_cases hz : (z, HoldStatus.held) ∈ x.zones
          · exact .inl ⟨⟨x, rfl, hpre, hlast, hz⟩, (hzs z).1 hz⟩
          · exact .inr ⟨(hzs z).2 hz, fun y hy h => hz (by cases hy; exact h.2.2)⟩
      · rw [if_neg hlast]
        refine ⟨rfl, fun j hj => Tab.get_put_ne _ _ (Ne.symm hj), (Tab.get_put_same _ _ hi).trans ?_, fun z => ?_⟩
        · rw [Option.map_some, Session.lowered, if_pos hpre, if_neg hlast]
        · exact .inr ⟨rfl, fun y hy h => hlast (by cases hy; exact h.2.1)⟩
    · rw [hsome hx, if_neg hpre]
      refine ⟨rfl, fun _ _ => rfl, ?_, fun z => .inr ⟨rfl, fun y hy h => hpre (by cases hy; exact h.1)⟩⟩
      rw [hx, Option.map_some, Session.lowered, if_neg hpre]

theorem State.sessionsOnly.trans {u : State} (h : s.sessionsOnly t) (k : t.sessionsOnly u) : s.sessionsOnly u := by
  unfold State.sessionsOnly at *
  rw [k, h]

/-- The whole report: each session that it names, once. -/
theorem State.lowerCounts_eq {l : List Nat} (hl : l.Nodup) (s : State) :
    let t := l.foldl (fun t i => t.lowerCount i) s
    s.sessionsOnly t ∧ (∀ i, i ∉ l → t.paging.sessions.get i = s.paging.sessions.get i) ∧
      (∀ i ∈ l, t.paging.sessions.get i = (s.paging.sessions.get i).map Session.lowered) ∧
      ∀ z, (∃ i ∈ l, ∃ x, s.paging.sessions.get i = some x ∧ x.livens z) ∧ t.zones.get z = (s.zones.get z).still ∨
        t.zones.get z = s.zones.get z ∧ ∀ i ∈ l, ∀ x, s.paging.sessions.get i = some x → ¬ x.livens z := by
  induction l generalizing s with
  | nil => exact ⟨rfl, fun _ _ => rfl, nofun, fun z => .inr ⟨rfl, nofun⟩⟩
  | cons i l ih =>
    obtain ⟨hi, hl⟩ := List.nodup_cons.mp hl
    obtain ⟨hrest, hothers, hown, hzones⟩ := s.lowerCount_eq i
    obtain ⟨hrest', hothers', hown', hzones'⟩ := ih hl (s.lowerCount i)
    have hkept (j : Nat) (hj : j ∈ l) : (s.lowerCount i).paging.sessions.get j = s.paging.sessions.get j :=
      hothers j fun e => hi (e ▸ hj)
    refine ⟨hrest.trans hrest', fun j hj => ?_, fun j hj => ?_, fun z => ?_⟩
    · rw [List.mem_cons, not_or] at hj
      exact (hothers' j hj.2).trans (hothers j hj.1)
    · rcases List.mem_cons.mp hj with rfl | hj
      · exact (hothers' _ hi).trans hown
      · exact (hown' j hj).trans (congrArg _ (hkept j hj))
    · rcases hzones z with ⟨⟨x, hx, hz⟩, hget⟩ | ⟨hget, hno⟩
      · refine .inl ⟨⟨i, List.mem_cons_self, x, hx, hz⟩, ?_⟩
        rcases hzones' z with ⟨-, hget'⟩ | ⟨hget', -⟩
        · exact hget'.trans (by rw [hget]; rfl)
        · exact hget'.trans hget
      · rcases hzones' z with ⟨⟨j, hj, x, hx, hz⟩, hget'⟩ | ⟨hget', hno'⟩
        · exact .inl ⟨⟨j, List.mem_cons_of_mem _ hj, x, hkept j hj ▸ hx, hz⟩, hget'.trans (congrArg Zone.still hget)⟩
        · refine .inr ⟨hget'.trans hget, fun j hj x hx => ?_⟩
          rcases List.mem_cons.mp hj with rfl | hj
          · exact hno x hx
          · exact hno' j hj x ((hkept j hj).trans hx)

/-- Settles O56: the report session by session, then the end of one session's count. -/
theorem preannounceCounts : Obligations.PreannounceCounts := by
  intro s hp hc report
  have hformed : exec .frameFormed s = .next s.frameFormed := congrArg _ (State.afterRaised_of_calm _ hp hc)
  have hend (i : Nat) : exec (.preannounceEnd i) s = .next (s.preannounceEnd i) :=
    congrArg _ (State.afterRaised_of_calm _ hp hc)
  refine ⟨fun l hl hn => ?report, fun h => ?none, fun i => ⟨fun x hx hpre hcount => ?ends, fun h => ?stays⟩⟩
  case report =>
    obtain ⟨hrest, hothers, hown, hzones⟩ := State.lowerCounts_eq hn s
    have htaken : s.frameFormed =
        (l.foldl (fun t i => t.lowerCount i) s).modPaging fun p => { p with frameReport := none } := by
      unfold State.frameFormed
      rw [show s.paging.frameReport = some l from hl]
    set t := l.foldl (fun t i => t.lowerCount i) s
    refine ⟨t.paging.sessions, t.zones, hformed.trans (congrArg _ ?_), hothers, hown, fun z => ?_⟩
    · rw [htaken, hrest]
      rfl
    · rcases hzones z with hlive | ⟨hget, hno⟩
      · exact .inl hlive
      · exact .inr ⟨hget, fun i hi x hx hpre hlast hz => hno i hi x hx ⟨hpre, hlast, hz⟩⟩
  case none =>
    rw [hformed]
    unfold State.frameFormed
    rw [show s.paging.frameReport = none from h]
  case ends =>
    obtain ⟨zs, hlive, hzs⟩ := State.goLive_eq hx
    refine ⟨zs, (hend i).trans (congrArg _ ?_), fun z => ?_⟩
    · unfold State.preannounceEnd
      have hdue : (decide (x.phase = .preannounce) && (decide (x.frames = 0) || (decide (x.frames = 1) &&
          (s.paging.frameReport.getD []).contains i))) = true := by
        rw [decide_eq_true hpre, Bool.true_and]
        rcases hcount with h | ⟨h, l, hl, hm⟩
        · simp [h]
        · simp [h, show s.paging.frameReport = some l from hl, hm]
      simp only [hx, hdue, if_true, hlive]
      rfl
    · by_cases hz : (z, HoldStatus.held) ∈ x.zones
      · rw [if_pos hz]
        exact (hzs z).1 hz
      · rw [if_neg hz]
        exact (hzs z).2 hz
  case stays =>
    rw [hend]
    refine congrArg _ ?_
    unfold State.preannounceEnd
    cases hx : s.paging.sessions.get i with
    | none => rfl
    | some x =>
      refine if_neg fun hdue => ?_
      simp only [Bool.and_eq_true, Bool.or_eq_true, decide_eq_true_eq] at hdue
      obtain ⟨hpre, hcount⟩ := hdue
      rcases h x hx hpre with hmore | ⟨hone, hno⟩
      · omega
      · rcases hcount with hzero | ⟨-, hm⟩
        · omega
        · cases hr : s.paging.frameReport with
          | none => rw [hr] at hm; cases hm
          | some l =>
            rw [hr] at hm
            exact hno l hr (by simpa using hm)

end Sys2Proof.Machine
end

section
/-! PROOFS. What cells and flags change of the part, and the end of a session (01, R16, R18; 07, R128, R135). -/

namespace Sys2Proof.Machine

variable {s t : State}

/-! ### Cells and flags change the lanes and the flags alone -/

/-- A part with the lanes and the maintenance block of another. -/
def State.lanesOf (s t : State) : State := { s with lane := t.lane, maint := t.maint }

theorem State.lanesOf_self (s : State) : s.lanesOf s = s := rfl

/-- Two parts with the same lanes and the same maintenance block. -/
structure State.SameLanes (s t : State) : Prop where
  lane : s.lane = t.lane
  maint : s.maint = t.maint

theorem State.SameLanes.lanesOf_eq (h : s.SameLanes t) : s.lanesOf t = s := by
  unfold State.lanesOf
  rw [← h.lane, ← h.maint]

theorem State.lanesOf_sameLanes (s t : State) : (s.lanesOf t).SameLanes t := ⟨rfl, rfl⟩

theorem State.SameLanes.noteOverflow (h : s.SameLanes t) : s.noteOverflow = s.lanesOf t.noteOverflow := by
  rw [← h.lanesOf_eq]
  unfold State.noteOverflow
  simp only [apply_ite (s.lanesOf t).lanesOf]
  rfl

/-- What a joining cell does follows from the lanes and the maintenance block alone. -/
theorem State.SameLanes.join (h : s.SameLanes t) (d : Dir) (c : LaneCell) : s.join d c = s.lanesOf (t.join d c) := by
  have hover : (s.countDiscard d).noteOverflow = s.lanesOf (t.countDiscard d).noteOverflow := by
    have hsame : (s.countDiscard d).SameLanes (t.countDiscard d) := by
      rw [← h.lanesOf_eq]
      exact ⟨rfl, rfl⟩
    rw [hsame.noteOverflow]
    rfl
  have hpush : s.push d c = s.lanesOf (t.push d c) := by
    rw [← h.lanesOf_eq]
    rfl
  unfold State.join State.queueFree
  rw [h.lane]
  split
  · exact hpush
  · exact hover

/-- What the work of a flag does follows from the lanes and the maintenance block alone. -/
theorem State.SameLanes.setFlag (h : s.SameLanes t) (f : Flag) : s.setFlag f = s.lanesOf (t.setFlag f) := by
  have hsame : (s.modMaint fun m => { m with flags := m.flags ||| flagMask f }).SameLanes
      (t.modMaint fun m => { m with flags := m.flags ||| flagMask f }) := by
    rw [← h.lanesOf_eq]
    exact ⟨rfl, rfl⟩
  have hcell : attentionCell (s.modMaint fun m => { m with flags := m.flags ||| flagMask f }) =
      attentionCell (t.modMaint fun m => { m with flags := m.flags ||| flagMask f }) := by
    rw [← h.lanesOf_eq]
    rfl
  unfold State.setFlag
  dsimp only
  rw [hsame.maint, h.maint]
  split
  · exact h.lanesOf_eq.symm
  · split
    · exact hsame.lanesOf_eq.symm
    · rw [hcell, hsame.join]
      rfl

/-- A cell leaves the rest of the part alone. -/
theorem State.join_rest (s : State) (d : Dir) (c : LaneCell) : s.join d c = s.lanesOf (s.join d c) :=
  State.SameLanes.join ⟨rfl, rfl⟩ d c

theorem State.setFlag_rest (s : State) (f : Flag) : s.setFlag f = s.lanesOf (s.setFlag f) :=
  State.SameLanes.setFlag ⟨rfl, rfl⟩ f

theorem State.discarded_eq (d : Dir) (s : State) : s.discarded d = (s.countDiscard d).noteOverflow := by
  unfold State.discarded State.noteOverflow
  dsimp only
  by_cases hflag : hasFlag s.maint.flags .laneOverflow = true
  · exact (if_pos hflag).trans (if_pos hflag).symm
  refine (if_neg hflag).trans (Eq.trans ?_ (if_neg hflag).symm)
  by_cases hmask : hasFlag s.maint.mask .laneOverflow = true
  · exact (if_pos hmask).trans (if_pos hmask).symm
  refine (if_neg hmask).trans (Eq.trans ?_ (if_neg hmask).symm)
  have hup : ((s.countDiscard d).lane.queue .up) = s.lane.upQueue := by cases d <;> rfl
  have hfree : ((s.countDiscard d).flagged .laneOverflow).queueFree .up =
      Decidable.decide (s.lane.upQueue.length < Config.queueCells) := by
    rw [← hup]
    rfl
  have hraised : s.raised .laneOverflow = [.known (attentionCell ((s.countDiscard d).flagged .laneOverflow))] := by
    unfold State.raised
    rw [if_neg (by simp [hflag, hmask])]
    cases d <;> rfl
  by_cases hroom : s.lane.upQueue.length < Config.queueCells
  · rw [if_pos hroom, hraised]
    exact (if_pos (hfree.trans (decide_eq_true hroom))).symm
  · rw [if_neg hroom]
    exact (if_neg (by rw [Bool.not_eq_true]; exact hfree.trans (decide_eq_false hroom))).symm

/-- A cell at a full queue is discarded. -/
theorem State.join_full {d : Dir} (c : LaneCell) (h : ¬ s.room d 1) : s.join d c = s.discarded d := by
  rw [State.join_of_full c (State.full_of_not_room h), State.discarded_eq]

theorem State.SameLanes.discarded (h : s.SameLanes t) (d : Dir) : s.discarded d = s.lanesOf (t.discarded d) := by
  have hsame : (s.countDiscard d).SameLanes (t.countDiscard d) := by
    rw [← h.lanesOf_eq]
    exact ⟨rfl, rfl⟩
  rw [State.discarded_eq, State.discarded_eq, hsame.noteOverflow]
  rfl

end Sys2Proof.Machine
end

section
/-! PROOFS. Claims withdrawn from zone after zone, the end of a session, and the deadlines of lines, sessions and beacons
(O48; 02, R37, R38; 07, R128, R134, R135, R137). -/

namespace Sys2Proof.Machine

variable {s t : State}

/-! ### What a re-evaluation adds -/

theorem placeResumable_sub {c d : Claim} {l : List Claim} {g : Grant} (h : placeResumable c l = some g)
    (hd : d ∈ g.claims) : d = c ∨ d ∈ l := by
  unfold placeResumable at h
  dsimp only at h
  split at h
  · cases h
    exact overHead_mem.mp (.inl (evictFifth_mem.mp (.inl hd)))
  · split at h
    · cases h
    · cases h
      have hm := evictFifth_mem.mp (Or.inl (b := (evictFifth (rankInsert c l)).2 = some d) hd)
      exact List.mem_cons.mp ((rankInsert_perm c l).mem_iff.mp hm)

/-- A re-evaluation brings no claim but the assist claim (07, R136). -/
theorem State.reevaluateAssist_sub {z : Nat} {c : Claim} (hc : c ∈ ((s.reevaluateAssist z).zones.get z).claims) :
    c ∈ (s.zones.get z).claims ∨ c.claimant = .assist := by
  by_cases hz : 1 ≤ z ∧ z < 1 + 24
  swap
  · rw [State.reevaluateAssist_outside hz] at hc
    exact .inl hc
  have hcount : ((s.countAssist z).zones.get z).claims = (s.zones.get z).claims := by
    rw [show s.countAssist z = s.modZone z _ from rfl, State.modZone_get hz]
  rw [← hcount]
  unfold State.reevaluateAssist at hc
  generalize s.countAssist z = u at hc ⊢
  dsimp only at hc
  split at hc
  · split at hc
    · exact .inl hc
    · split at hc
      · exact .inl hc
      · rename_i g hg
        rw [State.applyGrant_eq, State.modZone_get hz] at hc
        have hclaims : (u.granted z g).claims = g.claims := by
          unfold State.granted
          dsimp only
          split
          · exact u.headed_claims ..
          · rfl
        rw [hclaims] at hc
        exact (placeResumable_sub hg hc).elim (fun e => .inr (congrArg Claim.claimant e)) .inl
  · split at hc
    · rename_i hp
      rw [State.removeClaim_eq hp, State.modZone_get hz, u.claimGone_claims] at hc
      exact .inl (List.mem_filter.mp hc).1
    · exact .inl hc

/-- A claimant that withdraws has no claim at the zone any more (07, R129). -/
theorem State.withdrawClaim_gone {z : Nat} {who : Claimant} (hw : who ≠ .assist) {c : Claim}
    (hc : c ∈ ((s.withdrawClaim z who).zones.get z).claims) : c.claimant ≠ who := by
  unfold State.withdrawClaim at hc
  split at hc
  · rename_i hp
    obtain ⟨d, hd, -⟩ := holdsClaim_iff.mp hp
    have hz := State.zone_range_of_claim hd
    rcases State.reevaluateAssist_sub hc with hin | ha
    · rw [State.removeClaim_eq hp, State.modZone_get hz, s.claimGone_claims, List.mem_filter] at hin
      exact of_decide_eq_true hin.2
    · exact fun e => hw (e ▸ ha)
  · rename_i hp
    exact fun e => hp (holdsClaim_iff.mpr ⟨c, hc, e⟩)

/-! ### A claimant leaves zone after zone (06, R110; 07, R135) -/

/-- A claimant's claims are withdrawn from the zones of a list in turn. -/
def State.leaveZones (who : Claimant) (l : List Nat) (s : State) : State := l.foldl (fun t z => t.withdrawClaim z who) s

section LeaveZones

variable {who : Claimant} {l : List Nat} {z : Nat}

theorem State.leaveZones_zonesOnly (who : Claimant) (l : List Nat) (s : State) : s.zonesOnly (s.leaveZones who l) :=
  foldl_onlyZone_zonesOnly (fun t y => t.withdrawClaim_onlyZone y who) l

theorem State.leaveZones_get_ne (hz : z ∉ l) : (s.leaveZones who l).zones.get z = s.zones.get z :=
  foldl_onlyZone_get_ne (fun t y => t.withdrawClaim_onlyZone y who) hz

theorem State.leaveZones_absent (h : ∀ c ∈ (s.zones.get z).claims, c.claimant ≠ who) :
    (s.leaveZones who l).zones.get z = s.zones.get z := by
  by_cases hz : z ∈ l
  · refine foldl_onlyZone_get (fun t y => t.withdrawClaim_onlyZone y who) hz fun t _ ht => ?_
    have ht : t.zones.get z = s.zones.get z := ht.elim id id
    rw [State.withdrawClaim_of_absent (ht ▸ h), ht]
  · exact State.leaveZones_get_ne hz

/-- Every zone of the list that has the claim loses it, and its assist claim is re-evaluated. -/
theorem State.leaveZones_holds (hz : z ∈ l) (hw : who ≠ .assist) (hl : ClaimsFit (s.zones.get z).claims)
    (h : holdsClaim (s.zones.get z).claims who = true) :
    (s.leaveZones who l).zones.get z = s.assisted z (s.claimGone z who (s.zones.get z)) := by
  refine foldl_onlyZone_get (fun t y => t.withdrawClaim_onlyZone y who) hz fun t hs ht => ?_
  rcases ht with ht | ht
  · obtain ⟨c, hc, -⟩ := holdsClaim_iff.mp h
    rw [State.withdrawClaim_eq (ht ▸ hl) (ht ▸ h), State.modZone_get (State.zone_range_of_claim hc), ht, hs]
    rfl
  · rw [State.withdrawClaim_of_absent (fun c hc e => ?_), ht]
    rw [ht] at hc
    have hmem : c ∈ (s.assisted z (s.claimGone z who (s.zones.get z))).claims.filter fun d => d.claimant ≠ .assist :=
      List.mem_filter.mpr ⟨hc, decide_eq_true (e ▸ hw)⟩
    rw [s.assisted_others, s.claimGone_claims] at hmem
    exact of_decide_eq_true (List.mem_filter.mp (List.mem_filter.mp hmem).1).2 e

/-- Where the claim was the head, the next one starts its content. -/
theorem State.leaveZones_head {c : Claim} {rest : List Claim} (hz : z ∈ l) (hw : who ≠ .assist)
    (hl : ClaimsFit (s.zones.get z).claims) (hcl : (s.zones.get z).claims = c :: rest) (hc : c.claimant = who) :
    (s.leaveZones who l).zones.get z = s.assisted z (s.headed z { s.zones.get z with claims := rest }) := by
  have hholds : holdsClaim (s.zones.get z).claims who = true := holdsClaim_iff.mpr ⟨c, hcl ▸ List.mem_cons_self, hc⟩
  rw [State.leaveZones_holds hz hw hl hholds]
  subst hc
  unfold State.claimGone
  rw [hcl] at hl ⊢
  simp only [List.head?_cons, Option.map_some, if_true, hl.filter_head]

/-- No zone of the list has the claim any more. -/
theorem State.leaveZones_gone (hz : z ∈ l) (hw : who ≠ .assist) :
    ∀ c ∈ ((s.leaveZones who l).zones.get z).claims, c.claimant ≠ who := by
  obtain ⟨l1, l2, rfl⟩ := List.append_of_mem hz
  have hsplit : s.leaveZones who (l1 ++ z :: l2) = ((s.leaveZones who l1).withdrawClaim z who).leaveZones who l2 := by
    unfold State.leaveZones
    rw [List.foldl_append, List.foldl_cons]
  have hgone : ∀ c ∈ (((s.leaveZones who l1).withdrawClaim z who).zones.get z).claims, c.claimant ≠ who :=
    fun c hc => State.withdrawClaim_gone hw hc
  rw [hsplit, State.leaveZones_absent hgone]
  exact hgone

end LeaveZones

/-! ### The end of a session (07, R135) -/

/-- The zones that a session holds, in its order. -/
def Session.heldZones (x : Session) : List Nat := (x.zones.filter fun e => e.2 = HoldStatus.held).map Prod.fst

/-- The part with the zones that a session leaves behind. -/
def State.sessionLeft (i : Nat) (x : Session) (s : State) : State := s.leaveZones (.session i) x.heldZones

theorem State.sessionLeft_zones (i : Nat) (x : Session) (s : State) : s.leftBySession i x (s.sessionLeft i x).zones := by
  intro z
  refine ⟨fun h => State.leaveZones_get_ne (mt mem_held.mp h), fun h hl =>
    ⟨fun c rest hcl hc => State.leaveZones_head (mem_held.mpr h) nofun hl hcl hc, State.leaveZones_absent⟩⟩

theorem State.endSession_eq {i : Nat} {x : Session} (hx : s.paging.sessions.get i = some x) (quiet : Bool) :
    s.endSession i quiet =
      (if quiet then s.sessionLeft i x else (s.sessionLeft i x).sendTone x.source .ended).freeSession i := by
  unfold State.endSession State.sessionLeft State.leaveZones Session.heldZones
  rw [hx, List.foldl_map]

/-- A session is free, and its source's source session absent. -/
theorem State.freeSession_eq {i : Nat} {x : Session} (hx : s.paging.sessions.get i = some x) :
    s.freeSession i = s.freed i x s.zones := by
  unfold State.freeSession
  rw [hx]
  rfl

theorem State.freeSession_lanesOf {i : Nat} {x : Session} (hx : s.paging.sessions.get i = some x) :
    (s.lanesOf t).freeSession i = (s.freed i x s.zones).lanesOf t :=
  State.freeSession_eq (s := s.lanesOf t) hx

theorem State.endSession_quiet {i : Nat} {x : Session} (hx : s.paging.sessions.get i = some x) :
    s.endSession i true = s.freed i x (s.sessionLeft i x).zones := by
  have hleft := s.leaveZones_zonesOnly (.session i) x.heldZones
  rw [State.endSession_eq hx, if_pos rfl, State.freeSession_eq (x := x) (by rw [State.sessionLeft, hleft]; exact hx)]
  unfold State.sessionLeft
  rw [hleft]
  rfl

/-- A session that ends with its tone ends as one that ends quietly, behind the cell. -/
theorem State.endSession_toned {i : Nat} {x : Session} (hx : s.paging.sessions.get i = some x) :
    s.endSession i false = (s.freed i x (s.sessionLeft i x).zones).sendTone x.source .ended := by
  have hleft := s.leaveZones_zonesOnly (.session i) x.heldZones
  have hsame : (s.sessionLeft i x).SameLanes s := by
    unfold State.sessionLeft
    rw [hleft]
    exact ⟨rfl, rfl⟩
  have hfreed : (s.freed i x (s.sessionLeft i x).zones).SameLanes s := ⟨rfl, rfl⟩
  rw [State.endSession_eq hx, if_neg Bool.false_ne_true]
  unfold State.sendTone
  rw [hsame.join, hfreed.join]
  unfold State.sessionLeft
  rw [hleft]
  exact State.freeSession_lanesOf hx

/-- TONE(ENDED) to a session's source (07, R135). -/
abbrev endedTone (x : Session) : LaneCell := .known ⟨BitVec.ofNat 10 x.source, 0#16, .tone 4#8⟩

/-! ### Deadlines (02, R38; 07, R134, R137) -/

theorem State.wrapUpExpiry_due {n d : Nat} (hn : n < 384) (hw : (s.stations.get n).wrapUp = some d)
    (hd : d ≤ s.clock) :
    s.wrapUpExpiry n =
      { s with stations := s.stations.put n { s.stations.get n with wrapUp := none }
               hunt := s.hunt.raiseIf ((s.stations.get n).line = .idle && (s.stations.get n).available) n } := by
  have hdue : s.wrapUpExpiry n = s.changeStation n fun st => { st with wrapUp := none } := by
    unfold State.wrapUpExpiry
    rw [hw]
    exact if_pos (decide_eq_true hd)
  have hbusy : (s.stations.get n).candidate = false := by
    unfold Station.candidate
    simp [hw]
  rw [hdue, State.changeStation_eq hn _ hbusy]
  simp [Station.candidate]

theorem State.wrapUpExpiry_early {n : Nat} (h : ∀ d, (s.stations.get n).wrapUp = some d → s.clock < d) :
    s.wrapUpExpiry n = s := by
  refine if_neg ?_
  cases hw : (s.stations.get n).wrapUp with
  | none => exact Bool.false_ne_true
  | some d => simpa [duePast] using h d hw

theorem State.beaconPhaseChange_due {z : Nat} (hp : (s.zones.get z).beacon.pattern ≠ .off)
    (hb : (s.zones.get z).beacon.boundary ≤ s.clock) :
    s.beaconPhaseChange z =
      let b := (s.zones.get z).beacon
      let phase := if b.line then (patternTimes b.pattern).2 else (patternTimes b.pattern).1
      { s with zones := s.zones.put z
                 { s.zones.get z with beacon := { b with line := !b.line, boundary := b.boundary + phase } } } := by
  unfold State.beaconPhaseChange
  exact if_pos (by simp [hp, hb])

theorem State.beaconPhaseChange_early {z : Nat}
    (h : (s.zones.get z).beacon.pattern = .off ∨ s.clock < (s.zones.get z).beacon.boundary) :
    s.beaconPhaseChange z = s := by
  unfold State.beaconPhaseChange
  refine if_neg ?_
  rcases h with h | h
  · simp [h]
  · simp [Nat.not_le.mpr h]

/-- Settles O48: the end of a session as its claims withdrawn zone by zone, and each deadline come or not come. -/
theorem deadlinesTaken : Obligations.DeadlinesTaken := by
  refine ⟨?ends, fun s hp hc => ⟨?wrapUpDue, ?wrapUpEarly, ?sessionDue, ?sessionEarly, fun z => ⟨?beaconDue, ?beaconEarly⟩⟩⟩
  case ends =>
    intro i x s hx
    exact ⟨(s.sessionLeft i x).zones, s.sessionLeft_zones i x, State.endSession_quiet hx,
      fun h => (State.endSession_toned hx).trans (State.join_room _ h),
      fun h => (State.endSession_toned hx).trans (State.join_full _ h),
      fun z hz => State.leaveZones_gone (mem_held.mpr hz) nofun⟩
  case wrapUpDue =>
    intro n d hn hw hd
    exact congrArg _ ((State.afterRaised_of_calm _ hp hc).trans (State.wrapUpExpiry_due hn hw hd))
  case wrapUpEarly =>
    intro n h
    exact congrArg _ ((State.afterRaised_of_calm _ hp hc).trans (State.wrapUpExpiry_early h))
  case sessionDue =>
    intro i x hx hd
    have hends : exec (.sessionDeadline i) s = .next (s.endSession i false) := by
      refine congrArg _ ((State.afterRaised_of_calm _ hp hc).trans ?_)
      unfold State.sessionDeadline
      rw [hx]
      exact if_pos hd
    refine ⟨hends, fun h => ⟨_, s.sessionLeft_zones i x, ?_⟩⟩
    rw [hends, State.endSession_toned hx]
    exact congrArg _ (State.join_room _ h)
  case sessionEarly =>
    intro i h
    refine congrArg _ ((State.afterRaised_of_calm _ hp hc).trans ?_)
    unfold State.sessionDeadline
    split
    · rename_i x hx
      exact if_neg (Nat.not_le.mpr (h x hx))
    · rfl
  case beaconDue =>
    intro hoff hb phase
    refine congrArg _ ((State.afterRaised_of_calm _ hp hc).trans ((State.beaconPhaseChange_due hoff hb).trans ?_))
    have hphase : (if (s.zones.get z).beacon.line then (patternTimes (s.zones.get z).beacon.pattern).2
        else (patternTimes (s.zones.get z).beacon.pattern).1) = phase := by
      unfold phase
      revert hoff
      generalize (s.zones.get z).beacon = b
      rcases b with ⟨p, l, -⟩
      cases p with
      | off => exact fun hoff => absurd rfl hoff
      | callFlash => cases l <;> exact fun _ => rfl
      | alarmFlash => cases l <;> exact fun _ => rfl
    rw [← hphase]
  case beaconEarly =>
    intro h
    exact congrArg _ ((State.afterRaised_of_calm _ hp hc).trans (State.beaconPhaseChange_early h))

end Sys2Proof.Machine
end

section
/-! PROOFS. How claims are granted, what a grant takes away, and what the part does with it (O49; 07, R125 to R129). -/

namespace Sys2Proof.Machine

variable {s t : State} {c : Claim} {l : List Claim} {g : Grant}

/-! ### The list before the eviction (07, R126, R127) -/

theorem evictFifth_eq (h : l.length ≤ 5) : evictFifth l = (l.take 4, l[4]?) := by
  unfold evictFifth
  have hfour : Config.claims = 4 := rfl
  split
  · have hlen : l.length = 5 := by omega
    rw [List.dropLast_eq_take, List.getLast?_eq_getElem?, hlen]
  · rw [List.take_of_length_le (by omega), List.getElem?_eq_none (by omega)]

/-- A claim put at its place in a list that it does not head keeps the form, but for one claim too many. -/
theorem ClaimsFit.rankInsert (h : ClaimsFit l) (hn : holdsClaim l c.claimant = false) (hc : c.classFits)
    (hv : c.isVoice = false) (hhead : (l.takeWhile fun d => d.cls ≤ c.cls) ≠ []) : ClaimsFive (rankInsert c l) := by
  have hp := rankInsert_perm c l
  refine ⟨?_, ?_, rankInsert_pairwise h.ordered, ?_, fun x hx => ?_⟩
  · rw [hp.length_eq]
    exact Nat.succ_le_succ h.short
  · rw [(hp.map _).nodup_iff, List.map_cons, List.nodup_cons]
    exact ⟨not_holdsClaim hn, h.distinct⟩
  · intro x hx
    cases l with
    | nil => exact absurd rfl hhead
    | cons e rest =>
      have hk : decide (e.cls ≤ c.cls) = true := by
        by_contra hk
        exact hhead (List.takeWhile_cons_of_neg hk)
      have hsplit : (Machine.rankInsert c (e :: rest)).tail = Machine.rankInsert c rest := by
        simp [Machine.rankInsert, hk]
      rw [hsplit] at hx
      rcases List.mem_cons.mp ((rankInsert_perm c rest).subset hx) with rfl | hx
      · exact hv
      · exact h.voiceFirst x hx
  · rcases List.mem_cons.mp (hp.subset hx) with rfl | hx
    · exact hc
    · exact h.classes x hx

/-- A grant puts in force the first four of a list with the new claim, and evicts the fifth. -/
structure Granted (c : Claim) (l : List Claim) (g : Grant) (p : List Claim) : Prop where
  five : ClaimsFive p
  claims : g.claims = p.take 4
  evicted : g.evicted = p[4]?
  mem : ∀ d, d ∈ p ∨ g.lost = some d ↔ d = c ∨ d ∈ l
  lost : ∀ d, g.lost = some d → l.head? = some d ∧ d.isVoice = true

theorem overHead_lost : (overHead c l).2 = l.head?.filter Claim.isVoice := by
  cases l with
  | nil => rfl
  | cons d rest =>
    unfold overHead
    by_cases hv : d.isVoice = true <;> simp [hv, Option.filter]

/-- A new head stands over what is left of the list (07, R126). -/
theorem overHead_list : (overHead c l).1 = c :: (if (l.head?.filter Claim.isVoice) = none then l else l.tail) := by
  cases l with
  | nil => rfl
  | cons d rest =>
    unfold overHead
    by_cases hv : d.isVoice = true <;> simp [hv, Option.filter]

theorem ClaimsFit.granted_first (h : ClaimsFit l) (hn : holdsClaim l c.claimant = false) (hc : c.classFits)
    (hr : ∀ d ∈ l, c.cls ≤ d.cls) (hg : g.claims = (evictFifth (Machine.overHead c l).1).1)
    (hlost : g.lost = (Machine.overHead c l).2) (he : g.evicted = (evictFifth (Machine.overHead c l).1).2) :
    Granted c l g (Machine.overHead c l).1 := by
  have hfive := h.overHead hn hc hr
  refine ⟨hfive, ?_, ?_, fun d => by rw [hlost]; exact overHead_mem, fun d hd => ?_⟩
  · rw [hg, evictFifth_eq hfive.short]
  · rw [he, evictFifth_eq hfive.short]
  · rw [hlost, overHead_lost] at hd
    obtain ⟨hd, hv⟩ := Option.filter_eq_some_iff.mp hd
    exact ⟨hd, hv⟩

theorem ClaimsFit.granted_behind (h : ClaimsFit l) (hn : holdsClaim l c.claimant = false) (hc : c.classFits)
    (hv : c.isVoice = false) (hhead : (l.takeWhile fun d => d.cls ≤ c.cls) ≠ [])
    (hg : g.claims = (evictFifth (Machine.rankInsert c l)).1) (hlost : g.lost = none)
    (he : g.evicted = (evictFifth (Machine.rankInsert c l)).2) : Granted c l g (Machine.rankInsert c l) := by
  have hfive := h.rankInsert hn hc hv hhead
  refine ⟨hfive, ?_, ?_, fun d => ?_, fun d hd => ?_⟩
  · rw [hg, evictFifth_eq hfive.short]
  · rw [he, evictFifth_eq hfive.short]
  · rw [hlost, (rankInsert_perm c l).mem_iff, List.mem_cons]
    simp
  · rw [hlost] at hd
    cases hd

/-! ### Voice requests (07, R126) -/

/-- A voice request is refused by a head that it does not outrank. -/
theorem placeVoice_none : placeVoice c l = none ↔ ∃ h rest, l = h :: rest ∧ h.cls ≤ c.cls := by
  cases l with
  | nil => simp [placeVoice]
  | cons d rest =>
    by_cases hd : c.cls < d.cls
    · simp [placeVoice, hd]
    · simp only [placeVoice, hd, decide_false, Bool.false_eq_true, if_false, true_iff]
      exact ⟨d, rest, rfl, Nat.not_lt.mp hd⟩

/-- In a list of the form, all but a voice head are resumable. -/
theorem ClaimsFit.resumable (h : ClaimsFit l) :
    (if (l.head?.filter Claim.isVoice) = none then l else l.tail) = l.filter fun d => !d.isVoice := by
  cases l with
  | nil => rfl
  | cons d rest =>
    have hrest : (rest.filter fun d => !d.isVoice) = rest :=
      List.filter_eq_self.mpr fun x hx => by rw [h.voiceFirst x hx]; rfl
    by_cases hv : d.isVoice = true <;> simp [hv, hrest, Option.filter]

theorem ClaimsFit.voice_outranks (h : ClaimsFit l) (hg : Machine.placeVoice c l = some g) : ∀ d ∈ l, c.cls ≤ d.cls := by
  refine le_of_head_le h.ordered fun d hd => ?_
  by_contra hlt
  rw [placeVoice_none.mpr ?_] at hg
  · cases hg
  · obtain ⟨rest, rfl⟩ := List.head?_eq_some_iff.mp hd
    exact ⟨d, rest, rfl, by omega⟩

theorem ClaimsFit.granted_voice (h : ClaimsFit l) (hn : holdsClaim l c.claimant = false) (hc : c.classFits)
    (hg : Machine.placeVoice c l = some g) : Granted c l g (Machine.overHead c l).1 := by
  have he := placeVoice_eq hg
  exact h.granted_first hn hc (h.voice_outranks hg) (congrArg Grant.claims he) (congrArg Grant.lost he)
    (congrArg Grant.evicted he)

/-! ### Resumable requests (07, R127) -/

/-- A claim heads a list of the form where it outranks all of it. -/
theorem ClaimsFit.heads_iff (h : ClaimsFit l) :
    (l.takeWhile fun d => d.cls ≤ c.cls) = [] ↔ ∀ d ∈ l, c.cls < d.cls := by
  constructor
  · intro he
    refine le_of_head_le (k := c.cls + 1) h.ordered fun d hd => ?_
    obtain ⟨rest, rfl⟩ := List.head?_eq_some_iff.mp hd
    by_contra hlt
    rw [List.takeWhile_cons_of_pos (by simpa using hlt)] at he
    cases he
  · intro hall
    cases l with
    | nil => rfl
    | cons d rest => exact List.takeWhile_cons_of_neg (by simpa using hall d List.mem_cons_self)

/-- The cases of a resumable request: the head, a refusal, or a place behind. -/
theorem placeResumable_first (h : (l.takeWhile fun d => d.cls ≤ c.cls) = []) :
    placeResumable c l = some { claims := (evictFifth (overHead c l).1).1, first := true, lost := (overHead c l).2,
                                evicted := (evictFifth (overHead c l).1).2 } := by
  unfold placeResumable
  rw [h]
  rfl

theorem placeResumable_refused (h : (l.takeWhile fun d => d.cls ≤ c.cls) ≠ [])
    (hfull : Config.claims ≤ l.length ∧ ∀ d ∈ l, d.cls ≤ c.cls) : placeResumable c l = none := by
  unfold placeResumable
  rw [if_neg (by simpa using h)]
  exact if_pos (by simpa using hfull)

theorem placeResumable_behind (h : (l.takeWhile fun d => d.cls ≤ c.cls) ≠ [])
    (hfull : ¬ (Config.claims ≤ l.length ∧ ∀ d ∈ l, d.cls ≤ c.cls)) :
    placeResumable c l = some { claims := (evictFifth (rankInsert c l)).1, first := false, lost := none,
                                evicted := (evictFifth (rankInsert c l)).2 } := by
  unfold placeResumable
  rw [if_neg (by simpa using h)]
  exact if_neg (by simpa using hfull)

theorem ClaimsFit.granted_resumable (h : ClaimsFit l) (hn : holdsClaim l c.claimant = false) (hc : c.classFits)
    (hv : c.isVoice = false) (hg : Machine.placeResumable c l = some g) : ∃ p, Granted c l g p := by
  by_cases hhead : (l.takeWhile fun d => d.cls ≤ c.cls) = []
  · rw [placeResumable_first hhead] at hg
    cases hg
    exact ⟨_, h.granted_first hn hc (fun d hd => (h.heads_iff.mp hhead d hd).le) rfl rfl rfl⟩
  · by_cases hfull : Config.claims ≤ l.length ∧ ∀ d ∈ l, d.cls ≤ c.cls
    · rw [placeResumable_refused hhead hfull] at hg
      cases hg
    · rw [placeResumable_behind hhead hfull] at hg
      cases hg
      exact ⟨_, h.granted_behind hn hc hv hhead rfl rfl rfl⟩

theorem ClaimsFit.placeResumable_none (h : ClaimsFit l) :
    Machine.placeResumable c l = none ↔ l.length = 4 ∧ ∀ d ∈ l, d.cls ≤ c.cls := by
  have hfour : Config.claims = 4 := rfl
  have hshort := h.short
  by_cases hhead : (l.takeWhile fun d => d.cls ≤ c.cls) = []
  · rw [placeResumable_first hhead]
    simp only [reduceCtorEq, false_iff, not_and]
    intro hlen hall
    cases l with
    | nil => cases hlen
    | cons d rest =>
      exact absurd (h.heads_iff.mp hhead d List.mem_cons_self) (Nat.not_lt.mpr (hall d List.mem_cons_self))
  · by_cases hfull : Config.claims ≤ l.length ∧ ∀ d ∈ l, d.cls ≤ c.cls
    · rw [placeResumable_refused hhead hfull]
      exact iff_of_true rfl ⟨by omega, hfull.2⟩
    · rw [placeResumable_behind hhead hfull]
      exact iff_of_false nofun fun hk => hfull ⟨by omega, hk.2⟩

/-- Behind the claims that a new claim does not outrank stand those it outranks. -/
theorem ClaimsFit.outranked (h : ClaimsFit l) : ∀ d ∈ l.dropWhile (fun d => d.cls ≤ c.cls), c.cls < d.cls := by
  refine le_of_head_le (k := c.cls + 1) (h.ordered.sublist (List.dropWhile_sublist _)) fun d hd => ?_
  have hnot := List.head?_dropWhile_not (fun d : Claim => decide (d.cls ≤ c.cls)) l
  rw [hd] at hnot
  simpa using hnot

/-! ### What a grant leaves and what it takes away -/

/-- A fifth claim is an orbit's or the assist's: a voice claim stands first, and the alarm has one claim alone (07, R125). -/
theorem ClaimsFive.fifth {p : List Claim} (h : ClaimsFive p) {d : Claim} (hd : p[4]? = some d) :
    d.claimant = .assist ∨ ∃ n, d.claimant = .orbit n := by
  obtain ⟨hlen, rfl⟩ := List.getElem?_eq_some_iff.mp hd
  have hresumable : ∀ k (hk : k + 1 < p.length), p[k + 1].isVoice = false := fun k hk =>
    h.voiceFirst _ (List.mem_iff_getElem.mpr ⟨k, by rw [List.length_tail]; omega, List.getElem_tail ..⟩)
  have hfit := h.classes p[4] (List.getElem_mem hlen)
  unfold Claim.classFits at hfit
  split at hfit
  · rw [hresumable 3 hlen] at hfit
    cases hfit
  · exact .inr ⟨_, by assumption⟩
  · rename_i halarm
    have hle : p[1].cls ≤ p[4].cls := List.pairwise_iff_getElem.mp h.ordered 1 4 (by omega) hlen (by omega)
    have hother : p[1].claimant ≠ p[4].claimant := by
      have hn := (List.nodup_iff_injective_getElem.mp h.distinct).ne (a₁ := ⟨1, by simp; omega⟩)
        (a₂ := ⟨4, by simp; omega⟩) (by simp)
      simpa using hn
    have hfit1 := h.classes p[1] (List.getElem_mem _)
    unfold Claim.classFits at hfit1
    split at hfit1
    · rw [hresumable 0 (by omega)] at hfit1
      cases hfit1
    · omega
    · rename_i halarm1
      exact absurd (halarm1.trans halarm.symm) hother
    · omega
  · exact .inl (by assumption)

theorem Granted.evicted_ne {p : List Claim} (hp : Granted c l g p) (hin : c ∈ g.claims) : g.evicted ≠ some c := by
  intro he
  rw [hp.evicted] at he
  obtain ⟨hlen, he⟩ := List.getElem?_eq_some_iff.mp he
  rw [hp.claims] at hin
  have hn : (p.take 4 ++ p.drop 4).Nodup := by
    rw [List.take_append_drop]
    exact List.Nodup.of_map _ hp.five.distinct
  refine (List.nodup_append.mp hn).2.2 c hin c ?_ rfl
  rw [← he]
  exact List.mem_iff_getElem.mpr ⟨0, by rw [List.length_drop]; omega, by simp⟩

/-- The claims that stood are those that stay, the lost head and the evicted fifth (07, R126, R127). -/
theorem Granted.leaves {p : List Claim} (hp : Granted c l g p) (hn : holdsClaim l c.claimant = false)
    (hin : c ∈ g.claims) (d : Claim) :
    d ∈ l ↔ (d ∈ g.claims ∧ d ≠ c) ∨ g.lost = some d ∨ g.evicted = some d := by
  have hnew : c ∉ l := fun h => not_holdsClaim hn (List.mem_map_of_mem h)
  have hmem : d ∈ g.claims ∨ g.evicted = some d ↔ d ∈ p := by
    have h := evictFifth_mem (d := d) (l := p)
    rwa [evictFifth_eq hp.five.short, ← hp.claims, ← hp.evicted] at h
  have hold := hp.mem d
  constructor
  · intro hd
    have hne : d ≠ c := fun e => hnew (e ▸ hd)
    rcases hold.mpr (.inr hd) with h | h
    · exact (hmem.mpr h).elim (fun h => .inl ⟨h, hne⟩) fun h => .inr (.inr h)
    · exact .inr (.inl h)
  · rintro (⟨hd, hne⟩ | hlost | he)
    · exact (hold.mp (.inl (hmem.mp (.inl hd)))).resolve_left hne
    · exact List.mem_of_mem_head? (hp.lost d hlost).1
    · exact (hold.mp (.inl (hmem.mp (.inr he)))).resolve_left fun e => hp.evicted_ne hin (e ▸ he)

theorem Granted.lost_session {p : List Claim} (hp : Granted c l g p) (h : ClaimsFit l) {d : Claim}
    (hd : g.lost = some d) : l.head? = some d ∧ ∃ i, d.claimant = .session i := by
  obtain ⟨hhead, hv⟩ := hp.lost d hd
  refine ⟨hhead, ?_⟩
  have hfit := h.classes d (List.mem_of_mem_head? hhead)
  unfold Claim.classFits at hfit
  split at hfit
  · exact ⟨_, by assumption⟩
  all_goals simp [Claim.isVoice, hfit] at hv

/-! ### A request at the part (07, R126 to R129, R134, R135) -/

theorem State.requestClaim_refused {z : Nat}
    (h : (s.zones.get z).fields.enabled = false ∨ holdsClaim (s.zones.get z).claims c.claimant = true ∨
      (if c.isVoice = true then placeVoice c (s.zones.get z).claims else placeResumable c (s.zones.get z).claims) = none) :
    s.requestClaim z c = (s, false) := by
  rcases s.requestClaim_cases z c with e | ⟨g, hen, hn, hg, -⟩
  · exact e
  · rcases h with h | h | h
    · rw [State.zoneEnabled, h] at hen
      cases hen
    · rw [h] at hn
      cases hn
    · rw [h] at hg
      cases hg

theorem State.requestClaim_granted {z : Nat} (hen : (s.zones.get z).fields.enabled = true)
    (hn : holdsClaim (s.zones.get z).claims c.claimant = false)
    (hg : (if c.isVoice = true then placeVoice c (s.zones.get z).claims else placeResumable c (s.zones.get z).claims) =
      some g) :
    s.requestClaim z c = (State.settleGrant z g (s.modZone z fun _ => s.granted z g), true) := by
  unfold State.requestClaim
  simp only [State.zoneEnabled, hen, hn, Bool.not_true, Bool.or_self, Bool.false_eq_true, if_false, hg,
    State.applyGrant_eq]

/-- The loss of an orbit's or the assist's claim changes nothing of its claimant (07, R129). -/
theorem State.reportLoss_evicted {z : Nat} {d : Claim} (h : d.claimant = .assist ∨ ∃ n, d.claimant = .orbit n) :
    s.reportLoss z d = s := by
  unfold State.reportLoss
  rcases h with h | ⟨n, h⟩ <;> rw [h]

/-- A list with a zone LOST in it (07, R134). -/
abbrev lostAt (z : Nat) (zs : List (Nat × HoldStatus)) : List (Nat × HoldStatus) :=
  zs.map fun e => if e.1 = z then (z, HoldStatus.lost) else e

theorem State.sessionLost_holds {i z : Nat} {x : Session} (hx : s.paging.sessions.get i = some x)
    (h : ∃ e ∈ lostAt z x.zones, e.2 = HoldStatus.held) :
    s.sessionLost i z = s.setSession i (some { x with zones := lostAt z x.zones }) := by
  unfold State.sessionLost
  rw [hx]
  refine if_pos ?_
  obtain ⟨e, he, hh⟩ := h
  exact List.any_eq_true.mpr ⟨e, he, decide_eq_true hh⟩

/-- A session that holds no zone any more ends with TONE(ENDED) to its source (07, R134, R135). -/
theorem State.sessionLost_ends {i z : Nat} {x : Session} (hx : s.paging.sessions.get i = some x)
    (h : ∀ e ∈ lostAt z x.zones, e.2 = HoldStatus.lost) :
    s.sessionLost i z = (s.freed i x s.zones).sendTone x.source .ended := by
  have hi : 1 ≤ i ∧ i < 1 + 8 := by
    by_contra hi
    rw [Tab.get_of_not_mem _ hi] at hx
    cases hx
  let y : Session := { x with zones := lostAt z x.zones }
  have hends : s.sessionLost i z = ((s.setSession i (some y)).sendTone x.source .ended).freeSession i := by
    unfold State.sessionLost
    rw [hx]
    refine if_neg ?_
    simp only [List.any_eq_true, decide_eq_true_eq, not_exists, not_and]
    intro e he hh
    exact nomatch (h e he).symm.trans hh
  have hset : (s.setSession i (some y)).SameLanes s := ⟨rfl, rfl⟩
  have hfreed : (s.freed i x s.zones).SameLanes s := ⟨rfl, rfl⟩
  have hy : (s.setSession i (some y)).paging.sessions.get i = some y := Tab.get_put_same _ _ hi
  rw [hends]
  unfold State.sendTone
  rw [hset.join, hfreed.join]
  rw [State.freeSession_lanesOf hy]
  unfold State.freed State.lanesOf State.setSession State.modPaging
  rw [Tab.put_put]

/-- What a grant takes away is reported, and the zone's assist claim re-evaluated where a claim left (07, R129). -/
theorem State.settleGrant_kept {z : Nat} (hlost : g.lost = none)
    (he : ∀ d, g.evicted = some d → d.claimant = .assist ∨ ∃ n, d.claimant = .orbit n) :
    s.settleGrant z g = if g.evicted = none then s else s.reevaluateAssist z := by
  unfold State.settleGrant
  simp only [hlost]
  cases h : g.evicted with
  | none => rfl
  | some d =>
    simp only [State.reportLoss_evicted (he d h)]
    rfl

theorem State.settleGrant_lost {z : Nat} {d : Claim} (hlost : g.lost = some d)
    (he : ∀ d, g.evicted = some d → d.claimant = .assist ∨ ∃ n, d.claimant = .orbit n) :
    s.settleGrant z g = (s.reportLoss z d).reevaluateAssist z := by
  unfold State.settleGrant
  simp only [hlost]
  cases h : g.evicted with
  | none => rfl
  | some e =>
    simp only [State.reportLoss_evicted (he e h)]
    rfl

theorem ClaimsFit.granted (h : ClaimsFit l) (hn : holdsClaim l c.claimant = false) (hc : c.classFits)
    (hg : (if c.isVoice = true then Machine.placeVoice c l else Machine.placeResumable c l) = some g) :
    ∃ p, Granted c l g p := by
  split at hg
  · exact ⟨_, h.granted_voice hn hc hg⟩
  · rename_i hv
    exact h.granted_resumable hn hc (eq_false_of_ne_true hv) hg

/-- A resumable grant stands between the claims it does not outrank and those it outranks (07, R127). -/
theorem ClaimsFit.resumable_place (h : ClaimsFit l) (hn : holdsClaim l c.claimant = false) (hc : c.classFits)
    (hv : c.isVoice = false) (hg : Machine.placeResumable c l = some g) :
    (g.first = true ↔ ∀ d ∈ l, c.cls < d.cls) ∧
    (g.lost = if g.first = true then l.head?.filter Claim.isVoice else none) ∧
    ∃ before behind, (if g.lost = none then l else l.tail) = before ++ behind ∧ (∀ d ∈ before, d.cls ≤ c.cls) ∧
      (∀ d ∈ behind, c.cls < d.cls) ∧ (before = [] ↔ g.first = true) ∧ g.claims = (before ++ c :: behind).take 4 ∧
      g.evicted = (before ++ c :: behind)[4]? := by
  have hheads := h.heads_iff (c := c)
  by_cases hhead : (l.takeWhile fun d => d.cls ≤ c.cls) = []
  · have hgrant := h.granted_first (g := g) hn hc (fun d hd => (hheads.mp hhead d hd).le)
    rw [placeResumable_first hhead] at hg
    cases hg
    have hp := hgrant rfl rfl rfl
    have hbase : ∀ d ∈ (if (Machine.overHead c l).2 = none then l else l.tail), d ∈ l := by
      intro d hd
      split at hd
      · exact hd
      · exact List.mem_of_mem_tail hd
    refine ⟨iff_of_true rfl (hheads.mp hhead), overHead_lost, [], _, rfl, nofun, fun d hd => hheads.mp hhead d (hbase d hd),
      iff_of_true rfl rfl, ?_, ?_⟩
    · rw [hp.claims, overHead_list, overHead_lost]
      rfl
    · rw [hp.evicted, overHead_list, overHead_lost]
      rfl
  · by_cases hfull : Config.claims ≤ l.length ∧ ∀ d ∈ l, d.cls ≤ c.cls
    · rw [placeResumable_refused hhead hfull] at hg
      cases hg
    · have hgrant := h.granted_behind (g := g) hn hc hv hhead
      rw [placeResumable_behind hhead hfull] at hg
      cases hg
      have hp := hgrant rfl rfl rfl
      exact ⟨iff_of_false nofun fun hall => hhead (hheads.mpr hall), rfl, l.takeWhile _, l.dropWhile _,
        List.takeWhile_append_dropWhile.symm, fun d hd => by simpa using List.mem_takeWhile_imp hd, h.outranked,
        iff_of_false hhead nofun, hp.claims, hp.evicted⟩

/-- Settles O49: the list before the eviction for each kind of request, and the losses reported at the part. -/
theorem claimGrants : Obligations.ClaimGrants := by
  refine ⟨fun c l hl hc hn => ⟨fun _ => ⟨placeVoice_none, fun g hg => ?voice⟩,
    fun hv => ⟨hl.placeResumable_none, fun g hg => hl.resumable_place hn hc hv hg⟩, fun g hg => ?both⟩,
    fun z c s => ⟨fun h => State.requestClaim_refused h, fun g hen hn hl hc hg => ⟨fun hlost => ?kept, ?lost⟩⟩⟩
  case voice =>
    have he := placeVoice_eq hg
    have hp := hl.granted_voice hn hc hg
    have hlist : (overHead c l).1 = c :: l.filter fun d => !d.isVoice := by rw [overHead_list, hl.resumable]
    exact ⟨congrArg Grant.first he, (congrArg Grant.lost he).trans overHead_lost,
      hp.claims.trans (congrArg _ hlist), hp.evicted.trans (by rw [hlist]; rfl)⟩
  case both =>
    have hg : (if c.isVoice = true then placeVoice c l else placeResumable c l) = some g := by
      rcases hg with ⟨hg, hv⟩ | ⟨hg, hv⟩
      · rw [if_pos hv, hg]
      · rw [if_neg (by simp [hv]), hg]
    obtain ⟨p, hp⟩ := hl.granted hn hc hg
    have hin := hl.place_new hg
    refine ⟨?_, hin, fun d hd => hp.lost_session hl hd, fun d hd => hp.five.fifth (hp.evicted ▸ hd), hp.leaves hn hin⟩
    have hfit := hp.five.evict
    rwa [evictFifth_eq hp.five.short, ← hp.claims] at hfit
  case kept =>
    obtain ⟨p, hp⟩ := hl.granted hn hc hg
    rw [State.requestClaim_granted hen hn hg,
      State.settleGrant_kept hlost fun d hd => hp.five.fifth (hp.evicted ▸ hd)]
    rfl
  case lost =>
    intro d i x hlost hi hx left
    obtain ⟨p, hp⟩ := hl.granted hn hc hg
    let t : State := s.modZone z fun _ => s.granted z g
    have hreport : t.reportLoss z d = t.sessionLost i z := by
      unfold State.reportLoss
      rw [hi]
    have hrequest : s.requestClaim z c = ((t.sessionLost i z).reevaluateAssist z, true) := by
      rw [State.requestClaim_granted hen hn hg,
        State.settleGrant_lost hlost fun d hd => hp.five.fifth (hp.evicted ▸ hd), hreport]
    rw [hrequest]
    refine ⟨fun h => ?_, fun h hroom => ?_⟩
    · rw [State.sessionLost_holds (s := t) hx h]
      rfl
    · rw [State.sessionLost_ends (s := t) hx h]
      unfold State.sendTone
      rw [State.join_room _ (by exact hroom)]
      rfl

end Sys2Proof.Machine
end

section
/-! PROOFS. The formation of a frame: every enabled zone through its frame, and the slots that leave (O50; 08, R140 to
R143, R156, R157). -/

namespace Sys2Proof.Machine

variable {s t u : State}

/-! ### Flags beside other changes -/

theorem State.setFlag_setFlag (f : Flag) : (s.setFlag f).setFlag f = s.setFlag f :=
  State.setFlag_of_set (State.setFlag_hasFlag ..)

/-- A flag set and a zone changed are independent. -/
theorem State.setFlag_modZone (f : Flag) (z : Nat) (h : Zone → Zone) :
    (s.modZone z h).setFlag f = (s.setFlag f).modZone z h := by
  have hsame : (s.modZone z h).SameLanes s := ⟨rfl, rfl⟩
  rw [hsame.setFlag, State.setFlag_rest s f]
  rfl

/-- A flag set does not depend on the highway's bridge. -/
theorem State.setFlag_bridge (f : Flag) :
    ({ s with lane := { s.lane with bridgeHighway := .off } } : State).setFlag f =
      (s.setFlag f).modLane fun l => { l with bridgeHighway := .off } := by
  have hdiscard (t : State) : (t.modLane fun l => { l with bridgeHighway := .off }).noteOverflow =
      t.noteOverflow.modLane fun l => { l with bridgeHighway := .off } := by
    unfold State.noteOverflow
    simp only [apply_ite (State.modLane fun l => { l with bridgeHighway := .off })]
    rfl
  unfold State.setFlag State.join
  simp only [apply_ite (State.modLane fun l => { l with bridgeHighway := .off }), ← hdiscard]
  rfl

/-! ### The zones of a frame (08, R141, R143) -/

/-- What a frame makes of a zone of the part. -/
def State.formedFrame (tap : List Sample) (z : Nat) (s : State) : ZoneFrame :=
  (s.zones.get z).frame s.prompts (s.maint.mode == .engaged) (optionalSample tap (s.voiceSlot (s.zones.get z)))
    (optionalSample tap (s.zones.get z).fields.musicSlot) (optionalSample tap (s.zones.get z).fields.senseSlot)

/-- The part with ZONE_SATURATION set where a sample was clamped. -/
def State.saturatedIf (b : Bool) (s : State) : State := if b then s.setFlag .zoneSaturation else s

/-- The part with each zone of a list as its frame leaves it. -/
def State.framed (tap : List Sample) (l : List Nat) (s : State) : Tab 1 24 Zone :=
  l.foldl (fun zs z => zs.put z (s.formedFrame tap z).zone) s.zones

/-- The samples that the zones of a list form, each with its slot. -/
def State.formedSamples (tap : List Sample) (l : List Nat) (s : State) : List (Nat × Sample) :=
  l.filterMap fun z => (s.formedFrame tap z).out.map fun x => ((s.zones.get z).fields.outputSlot, x)

theorem State.saturatedIf_rest (b : Bool) (s : State) : s.saturatedIf b = s.lanesOf (s.saturatedIf b) := by
  cases b
  · rfl
  · exact State.setFlag_rest ..

theorem State.saturatedIf_mode (b : Bool) (s : State) : (s.saturatedIf b).maint.mode = s.maint.mode := by
  cases b
  · rfl
  · exact State.setFlag_mode ..

theorem State.saturatedIf_modZone (b : Bool) (z : Nat) (h : Zone → Zone) :
    (s.saturatedIf b).modZone z h = (s.modZone z h).saturatedIf b := by
  cases b
  · rfl
  · exact (State.setFlag_modZone ..).symm

theorem State.saturatedIf_saturatedIf (a b : Bool) : (s.saturatedIf a).saturatedIf b = s.saturatedIf (a || b) := by
  cases a <;> cases b
  · rfl
  · rfl
  · rfl
  · exact State.setFlag_setFlag _

/-- A zone's frame in a part whose other zones have gone through theirs, with its flag set or not. -/
theorem State.zoneFrame_eq (tap : List Sample) {z : Nat} (b : Bool) {zs : Tab 1 24 Zone}
    (hz : zs.get z = u.zones.get z) :
    (State.saturatedIf b { u with zones := zs }).zoneFrame tap z =
      (State.saturatedIf (b || (u.formedFrame tap z).saturated) { u with zones := zs.put z (u.formedFrame tap z).zone },
        (u.formedFrame tap z).out.map fun x => ((u.zones.get z).fields.outputSlot, x)) := by
  let v : State := { u with zones := zs }
  have hformed : (v.saturatedIf b).formedFrame tap z = u.formedFrame tap z := by
    unfold State.formedFrame
    rw [State.saturatedIf_mode, v.saturatedIf_rest b]
    simp only [State.lanesOf, v, hz]
    rfl
  have hslot : ((v.saturatedIf b).zones.get z).fields.outputSlot = (u.zones.get z).fields.outputSlot := by
    rw [v.saturatedIf_rest b]
    exact congrArg (fun x => x.fields.outputSlot) hz
  have hunfold : (v.saturatedIf b).zoneFrame tap z =
      (((v.saturatedIf b).modZone z fun _ => ((v.saturatedIf b).formedFrame tap z).zone).saturatedIf
          ((v.saturatedIf b).formedFrame tap z).saturated,
        ((v.saturatedIf b).formedFrame tap z).out.map fun x =>
          (((v.saturatedIf b).zones.get z).fields.outputSlot, x)) := rfl
  rw [hunfold, hformed, hslot, State.saturatedIf_modZone, State.saturatedIf_saturatedIf]
  rfl

/-- The zones of a list go through their frames: each once, from the record it had (08, R141). -/
theorem State.formZones_eq (tap : List Sample) {l : List Nat} (hn : l.Nodup) (b : Bool) {zs : Tab 1 24 Zone}
    (hz : ∀ z ∈ l, zs.get z = u.zones.get z) :
    State.formZones tap l (State.saturatedIf b { u with zones := zs }) =
      (State.saturatedIf (b || l.any fun z => (u.formedFrame tap z).saturated)
        { u with zones := l.foldl (fun zs z => zs.put z (u.formedFrame tap z).zone) zs }, u.formedSamples tap l) := by
  induction l generalizing b zs with
  | nil =>
    rw [List.any_nil, Bool.or_false]
    rfl
  | cons z l ih =>
    obtain ⟨hnot, hn⟩ := List.nodup_cons.mp hn
    have hrest : ∀ y ∈ l, (zs.put z (u.formedFrame tap z).zone).get y = u.zones.get y := by
      intro y hy
      have hne : z ≠ y := fun e => hnot (e ▸ hy)
      rw [Tab.get_put_ne _ _ hne]
      exact hz y (List.mem_cons_of_mem _ hy)
    unfold State.formZones
    simp only [State.zoneFrame_eq tap b (hz z List.mem_cons_self), ih hn _ hrest]
    rw [List.any_cons, Bool.or_assoc]
    unfold State.formedSamples
    rw [List.filterMap_cons]
    cases (u.formedFrame tap z).out <;> rfl

/-- Values put under the numbers of a list: each number has its own. -/
theorem foldl_put_get {α : Type} [Inhabited α] {lo n : Nat} (f : Nat → α) (l : List Nat) (zs : Tab lo n α) (z : Nat) :
    (z ∈ l → lo ≤ z ∧ z < lo + n → (l.foldl (fun t y => t.put y (f y)) zs).get z = f z) ∧
    (z ∉ l → (l.foldl (fun t y => t.put y (f y)) zs).get z = zs.get z) := by
  induction l generalizing zs with
  | nil => exact ⟨nofun, fun _ => rfl⟩
  | cons y l ih =>
    obtain ⟨hin, hout⟩ := ih (zs.put y (f y))
    rw [List.foldl_cons, List.mem_cons, not_or]
    refine ⟨fun hz hr => ?_, fun hz => (hout hz.2).trans (Tab.get_put_ne _ _ (Ne.symm hz.1))⟩
    by_cases hl : z ∈ l
    · exact hin hl hr
    · have hy : z = y := hz.resolve_right hl
      subst hy
      rw [hout hl, Tab.get_put_same _ _ hr]

/-! ### The slots that leave (08, R140) -/

theorem find_zipIdx {α β : Type} (f : α → Nat → β) (l : List α) (n k : Nat) :
    (((l.zipIdx n).map fun e => (e.2, f e.1 e.2)).find? fun e => e.1 = k) =
      if n ≤ k then l[k - n]?.map fun x => (k, f x k) else none := by
  induction l generalizing n with
  | nil => simp
  | cons x l ih =>
    rw [List.zipIdx_cons, List.map_cons, List.find?_cons]
    by_cases hk : n = k
    · subst hk
      simp
    · simp only [hk, decide_false, ih]
      by_cases hlt : n ≤ k
      · rw [if_pos hlt, if_pos (by omega), show k - n = k - (n + 1) + 1 by omega, List.getElem?_cons_succ]
      · rw [if_neg hlt, if_neg (by omega)]

/-- What a slot carries when the frame leaves: the sample formed for it, else what came in (08, R140). -/
theorem slotSample_outgoing {formed : List (Nat × Sample)} {shelf : List Sample} (hl : shelf.length = 512) {k : Nat}
    (hk : k < 512) :
    slotSample k (outgoingFrame formed shelf) =
      some (((formed.find? fun o => o.1 = k).map Prod.snd).getD (shelf.getD k 0#16)) := by
  have hpad : padFrame shelf = shelf := by
    unfold padFrame
    rw [hl, List.take_append_of_le_length hl.ge, List.take_of_length_le hl.le]
  have hout : outgoingFrame formed shelf = (shelf.zipIdx.map fun e =>
      (e.2, ((formed.find? fun o => o.1 = e.2).map Prod.snd).getD e.1)) := by
    unfold outgoingFrame
    rw [hpad]
    refine List.map_congr_left fun e _ => ?_
    cases formed.find? fun o => o.1 = e.2 <;> rfl
  unfold slotSample
  rw [hout, find_zipIdx (fun x j => ((formed.find? fun o => o.1 = j).map Prod.snd).getD x), if_pos (Nat.zero_le k),
    Nat.sub_zero, List.getElem?_eq_getElem (hl ▸ hk), List.getD_eq_getElem?_getD, List.getElem?_eq_getElem (hl ▸ hk)]
  rfl

theorem Zone.frame_out (zn : Zone) (pr : Prompts) (engaged : Bool) (v m sense : Int) :
    ((zn.frame pr engaged v m sense).out.isSome = true ↔ engaged = true) := by
  unfold Zone.frame
  cases engaged <;> simp

/-- A slot that one zone alone forms a sample for carries that sample. -/
theorem State.formedSamples_slot {tap : List Sample} {l : List Nat} {z : Nat} {x : Sample} (hz : z ∈ l)
    (hx : (s.formedFrame tap z).out = some x)
    (honly : ∀ y ∈ l, (s.zones.get y).fields.outputSlot = (s.zones.get z).fields.outputSlot → y = z) :
    ((s.formedSamples tap l).find? fun o => o.1 = (s.zones.get z).fields.outputSlot).map Prod.snd = some x := by
  have hfound : ((s.formedSamples tap l).find? fun o => o.1 = (s.zones.get z).fields.outputSlot).isSome = true := by
    rw [List.find?_isSome]
    exact ⟨_, List.mem_filterMap.mpr ⟨z, hz, congrArg _ hx⟩, decide_eq_true rfl⟩
  obtain ⟨o, ho⟩ := Option.isSome_iff_exists.mp hfound
  obtain ⟨y, hy, hform⟩ := List.mem_filterMap.mp (List.mem_of_find?_eq_some ho)
  obtain ⟨w, hw, rfl⟩ := Option.map_eq_some_iff.mp hform
  have hslot := List.find?_some ho
  have hyz : y = z := honly y hy (of_decide_eq_true hslot)
  subst hyz
  rw [ho, ← hx, hw]
  rfl

/-- A slot that no zone forms a sample for has none. -/
theorem State.formedSamples_none {tap : List Sample} {l : List Nat} {k : Nat}
    (h : (s.maint.mode == .engaged) = false ∨ ∀ z ∈ l, (s.zones.get z).fields.outputSlot ≠ k) :
    ((s.formedSamples tap l).find? fun o => o.1 = k) = none := by
  rw [List.find?_eq_none]
  intro o ho
  obtain ⟨y, hy, hform⟩ := List.mem_filterMap.mp ho
  obtain ⟨w, hw, rfl⟩ := Option.map_eq_some_iff.mp hform
  rcases h with h | h
  · have hengaged := (Zone.frame_out ..).mp (Option.isSome_iff_exists.mpr ⟨w, hw⟩)
    rw [h] at hengaged
    cases hengaged
  · simpa using h y hy

/-! ### The whole frame (08, R140 to R143) -/

/-- A zone's voice (08, R143). -/
theorem State.voiceSlot_session {zn : Zone} {c : Claim} {rest : List Claim} {i : Nat} {x : Session}
    (hc : zn.claims = c :: rest) (hi : c.claimant = .session i) (hx : s.paging.sessions.get i = some x) :
    s.voiceSlot zn = if x.phase = .live then some x.talkSlot else none := by
  unfold State.voiceSlot
  simp only [hc, hi, hx]

theorem State.voiceSlot_none {zn : Zone}
    (h : zn.claims = [] ∨ ∃ c rest, zn.claims = c :: rest ∧ ∀ i, c.claimant ≠ .session i) : s.voiceSlot zn = none := by
  unfold State.voiceSlot
  rcases h with h | ⟨c, rest, h, hc⟩
  · rw [h]
  · simp only [h]

/-- The sessions in PREANNOUNCE. -/
theorem State.preannouncing_eq (s : State) :
    s.preannouncing = sessionNumbers.filter fun i =>
      (s.paging.sessions.get i).any fun x => x.phase == SessionPhase.preannounce := by
  unfold State.preannouncing
  refine List.filter_congr fun i _ => ?_
  cases s.paging.sessions.get i <;> rfl

/-- The part as a frame leaves it, but for the flag of a clamped sample. -/
def State.frameLeaves (tap shelf : List Sample) (u : State) : State :=
  { u with
    zones := u.framed tap u.enabledZones
    highwayOut := outgoingFrame (u.formedSamples tap u.enabledZones) shelf
    lane := { u.lane with bridgeHighway := .off }
    paging := { u.paging with frameReport := some u.preannouncing } }

/-- A flag set before the frame leaves is one set after it. -/
theorem State.saturatedIf_leaves (b : Bool) (report : Option (List Nat)) (out : List (Nat × Sample)) :
    ({ s.saturatedIf b with
        paging := { (s.saturatedIf b).paging with frameReport := report }
        highwayOut := out
        lane := { (s.saturatedIf b).lane with bridgeHighway := .off } } : State) =
      State.saturatedIf b { s with
        paging := { s.paging with frameReport := report }
        highwayOut := out
        lane := { s.lane with bridgeHighway := .off } } := by
  cases b with
  | false => rfl
  | true =>
    let v : State := { s with paging := { s.paging with frameReport := report }, highwayOut := out }
    have hsame : v.SameLanes s := ⟨rfl, rfl⟩
    have hbridge := State.setFlag_bridge (s := v) .zoneSaturation
    refine Eq.trans ?_ hbridge.symm
    rw [hsame.setFlag]
    unfold State.saturatedIf
    rw [if_pos rfl, State.setFlag_rest s]
    rfl

theorem State.formFrame_eq (tap shelf : List Sample) (s : State) :
    s.formFrame tap shelf = (s.takeReports.frameLeaves tap shelf).saturatedIf
      (s.takeReports.enabledZones.any fun z => (s.takeReports.formedFrame tap z).saturated) := by
  unfold State.formFrame State.frameLeaves
  generalize s.takeReports = u
  have hzones := State.formZones_eq (u := u) tap (zoneNumbers_nodup.filter u.zoneEnabled) false (zs := u.zones)
    fun _ _ => rfl
  have hunflagged : State.saturatedIf false { u with zones := u.zones } = u := rfl
  rw [hunflagged, Bool.false_or] at hzones
  unfold State.enabledZones
  simp only [hzones]
  exact State.saturatedIf_leaves ..

/-- Settles O50: the frame of each zone once, its samples in their slots, and the other slots as they came. -/
theorem frameFormation : Obligations.FrameFormation := by
  intro tap shelf s htap hshelf
  refine ⟨fun hp => ?formed, fun hp => ?held⟩
  case held =>
    refine ⟨outgoingFrame [] shelf, congrArg _ (if_neg hp), fun k hk => ?_⟩
    rw [slotSample_outgoing hshelf hk, List.find?_nil, Option.map_none, Option.getD_none]
  case formed =>
    intro u engaged enabled slot formed
    have hframe : s.frameFormation tap shelf = s.formFrame tap shelf := if_pos hp
    have hforms : exec (.frameFormation tap shelf) s = .next ((u.frameLeaves tap shelf).saturatedIf
        (u.enabledZones.any fun z => (u.formedFrame tap z).saturated)) := by
      rw [← State.formFrame_eq, ← hframe]
      rfl
    have hleaves : u.frameLeaves tap shelf = { u with
        zones := u.framed tap u.enabledZones
        highwayOut := outgoingFrame (u.formedSamples tap u.enabledZones) shelf
        lane := { u.lane with bridgeHighway := .off }
        paging := { u.paging with frameReport := some (sessionNumbers.filter fun i =>
          (u.paging.sessions.get i).any fun x => x.phase == SessionPhase.preannounce) } } := by
      rw [← u.preannouncing_eq]
      rfl
    refine ⟨u.framed tap u.enabledZones, outgoingFrame (u.formedSamples tap u.enabledZones) shelf, ?_⟩
    rw [← hleaves, hforms]
    refine ⟨fun h => ?clear, fun h => ?clamped, fun z hen => ?enabledZone, fun z hdis => ?disabledZone,
      fun z => ⟨fun c rest i x hc hi hx => ⟨fun hlive => ?live, fun hpre => ?preannounce⟩, fun h => ?voiceless⟩,
      fun k => ⟨rfl, rfl⟩, fun z he hen hs honly => ?own, fun k hk h => ?other⟩
    case clear =>
      have hnone : (u.enabledZones.any fun z => (u.formedFrame tap z).saturated) = false := by
        rw [List.any_eq_false]
        intro z hz
        rw [Bool.not_eq_true]
        exact h z (State.mem_enabledZones.mp hz)
      rw [hnone]
      rfl
    case clamped =>
      obtain ⟨z, hen, hsat⟩ := h
      have hsome : (u.enabledZones.any fun z => (u.formedFrame tap z).saturated) = true :=
        List.any_eq_true.mpr ⟨z, State.mem_enabledZones.mpr hen, hsat⟩
      rw [hsome]
      rfl
    case enabledZone =>
      exact (foldl_put_get _ _ _ z).1 (State.mem_enabledZones.mpr hen) (State.zone_range hen)
    case disabledZone =>
      exact (foldl_put_get _ _ _ z).2 (mt State.mem_enabledZones.mp hdis)
    case live =>
      rw [State.voiceSlot_session hc hi hx, if_pos hlive]
      exact ⟨rfl, rfl⟩
    case preannounce =>
      rw [State.voiceSlot_session hc hi hx, if_neg (by rw [hpre]; nofun)]
      exact ⟨rfl, rfl⟩
    case voiceless =>
      rw [State.voiceSlot_none h]
      exact ⟨rfl, rfl⟩
    case own =>
      have hout : (formed z).out.isSome = true := (Zone.frame_out ..).mpr he
      obtain ⟨x, hx⟩ := Option.isSome_iff_exists.mp hout
      rw [slotSample_outgoing hshelf hs, State.formedSamples_slot (State.mem_enabledZones.mpr hen) hx
        fun y hy e => honly y (State.mem_enabledZones.mp hy) e, hx]
      rfl
    case other =>
      rw [slotSample_outgoing hshelf hk,
        State.formedSamples_none (h.imp_right fun h z hz => h z (State.mem_enabledZones.mp hz))]
      rfl

end Sys2Proof.Machine
end

section
/-! PROOFS. The requests that only read: replies of several parts, and the bytes of what is read (O37; 11, R181, R188 to
R190; 12, R195, R197, R198). -/

namespace Sys2Proof.Machine

variable {s : State} {i : Instr} {tag kind : Byte} {args : List Byte}

/-! ### Replies of several parts (12, R198) -/

theorem State.queued_own (d : Dir) (cs : List LaneCell) : (s.queued d cs).lane.own = s.lane.own := by
  cases d <;> rfl

/-- Parts that find room join the up queue in their order. -/
theorem State.sendParts_room (tag : Byte) (o : ReplyOutcome) (count : Nat) {ps : List (List Byte)} (part : Nat)
    (h : s.room .up ps.length) :
    State.sendParts tag o count (part + 1) ps s = s.queued .up ((ps.zipIdx part).map fun e =>
      .known ⟨s.lane.own, 0#16, .maintReply tag o (BitVec.ofNat 8 (e.2 + 1)) (BitVec.ofNat 8 count) e.1⟩) := by
  induction ps generalizing s part with
  | nil => exact (State.queued_nil ..).symm
  | cons p ps ih =>
    have hone : s.room .up 1 := State.room_mono h (by simp)
    unfold State.sendParts State.sendOwn
    rw [State.join_room _ hone, ih (part + 1) (State.room_queued (by rwa [List.length_singleton, Nat.add_comm])),
      State.queued_own, State.queued_queued]
    rfl

/-- A reply that finds room for all its parts is its cells (11, R181). -/
theorem State.reply_room {a : Answer} (h : a.state.room .up (replyParts a.data).length) :
    State.reply tag a = a.state.queued .up (replyCells a.state.lane.own tag a.outcome a.data) :=
  State.sendParts_room tag a.outcome (replyParts a.data).length 0 h

/-- A request that changes nothing, with its reply in as many cells as it takes. -/
theorem exec_reads {o : ReplyOutcome} {data : List Byte} (h : requestOf i = some (tag, kind, args))
    (hp : s.lane.phase = .inService) (hc : s.Calm) (hk : kind ≠ 4#8)
    (ha : (s.endBridge .down).request kind.toNat args = ⟨s.endBridge .down, o, data⟩)
    (hr : s.room .up (replyParts data).length) :
    exec i s = .next ((s.endBridge .down).queued .up (replyCells s.lane.own tag o data)) := by
  rw [exec_reply h hp hc hk, ha]
  exact congrArg _ (State.reply_room ((State.endBridge_room ..).mpr hr))

/-! ### What each request reads (11, R183, R188 to R190, R194) -/

theorem State.readEntry_holds {t i1 i2 : Byte} {table : Table} (ht : tableOf t.toNat = some table)
    (hi : table.holds (bytesNat [i1, i2]) = true) :
    s.readEntry [t, i1, i2] = done s (s.entryBytes table (bytesNat [i1, i2])) := by
  unfold State.readEntry
  simp only [fixedArgs_one_two, ht, hi, if_true]

theorem State.readLive_accepted {v : View} (hv : readView args = some v) (ha : v.accepted = true) :
    s.readLive args = done s (s.viewBytes v) := by
  unfold State.readLive
  simp only [hv, ha, if_true]

theorem State.readCounters_owner {o v : Byte} {owner : Owner} (ho : ownerOf o.toNat v.toNat = some owner) :
    s.readCounters [o, v] = done s (counterBytes (s.counters owner)) := by
  unfold State.readCounters
  simp only [fixedArgs_one_one, ho]

theorem State.request_unknown (h : requestKnown kind = false) :
    s.request kind.toNat args = ⟨s, .unknownRequest, []⟩ := by
  unfold requestKnown at h
  unfold State.request
  generalize kind.toNat = k at h ⊢
  split
  case h_24 => rfl
  all_goals cases h

/-! ### Numbers in bytes (12, R195) -/

theorem natBytes_one (n : Nat) : natBytes 1 n = [BitVec.ofNat 8 n] := by simp [natBytes]

theorem natBytes_two (n : Nat) : natBytes 2 n = [BitVec.ofNat 8 (n / 256), BitVec.ofNat 8 n] := by simp [natBytes]

theorem natBytes_three (n : Nat) :
    natBytes 3 n = [BitVec.ofNat 8 (n / 65536), BitVec.ofNat 8 (n / 256), BitVec.ofNat 8 n] := by simp [natBytes]

theorem natBytes_five (n : Nat) : natBytes 5 n = natBytes 2 (n / 16777216) ++ natBytes 3 n := by
  simp [natBytes, Nat.div_div_eq_div_mul]

theorem flagByte_eq (b : Bool) : flagByte b = if b = true then [1#8] else [0#8] := by
  cases b <;> rfl

/-- A table's entries in the order of their numbers. -/
theorem Tab.toList_eq {α : Type} [Inhabited α] {lo n : Nat} (t : Tab lo n α) :
    t.vec.toList = (List.range' lo n).map t.get := by
  refine List.ext_getElem (by simp) fun k hk _ => ?_
  rw [List.getElem_map, List.getElem_range', Vector.getElem_toList, Nat.one_mul]
  have hin : lo ≤ lo + k ∧ lo + k < lo + n := by
    rw [Vector.length_toList] at hk
    omega
  unfold Tab.get
  simp only [dif_pos hin, Nat.add_sub_cancel_left]

/-- The entries in use are those whose number reads as one. -/
theorem busyCount_eq {α : Type} {n : Nat} (t : Tab 1 n (Option α)) :
    busyCount t = ((List.range' 1 n).filter fun i => (t.get i).isSome).length := by
  unfold busyCount
  rw [Tab.toList_eq, List.filter_map, List.length_map]
  rfl

/-! ### The status record (11, R188) -/

/-- The latch in its two bytes (12, R198). -/
theorem alarmBytes_eq (a : Alarm) :
    alarmBytes a = [if a.source = none then 0#8 else 1#8,
      match a.source with | none => 255#8 | some .input => 0#8 | some .request => 1#8] := by
  unfold alarmBytes
  cases a.source with
  | none => rfl
  | some x => cases x <;> rfl

theorem modeByte_eq (m : Mode) :
    enumByte modes m = [match m with | .transparent => 0#8 | .engaged => 1#8] := by
  cases m <;> rfl

theorem causeByte_eq (c : ResetCause) :
    enumByte resetCauses c = [match c with | .power => 0#8 | .pin => 1#8 | .restart => 2#8] := by
  cases c <;> rfl

theorem levelByte_eq (b : Bool) : enumByte [true, false] b = [if b then 0#8 else 1#8] := by
  cases b <;> rfl

theorem classByte_eq (c : PageClass) :
    enumByte pageClasses c = [match c with | .normal => 0#8 | .urgent => 1#8 | .emergency => 2#8] := by
  cases c <;> rfl

theorem phaseByte_eq (p : SessionPhase) :
    enumByte sessionPhases p = [match p with | .preannounce => 0#8 | .live => 1#8] := by
  cases p <;> rfl

theorem statusByte_eq (h : HoldStatus) :
    enumByte holdStatuses h = [match h with | .held => 0#8 | .lost => 1#8] := by
  cases h <;> rfl

/-- Settles O37: each request as the answer that it reads, then the bytes of each record, entry and view. -/
theorem readRequestsAnswer : Obligations.ReadRequestsAnswer := by
  refine ⟨fun tag s hp hc => ?requests, fun s => ?bytes⟩
  case requests =>
    intro answers
    have reads {i : Instr} {kind : Byte} {args : List Byte} {o : ReplyOutcome} {data : List Byte}
        (h : requestOf i = some (tag, kind, args)) (hk : kind ≠ 4#8)
        (ha : (s.endBridge .down).request kind.toNat args = ⟨s.endBridge .down, o, data⟩) : answers i o data :=
      fun hr => exec_reads h hp hc hk ha hr
    refine ⟨fun t i1 i2 table ht hi => reads rfl (by decide) ?_, reads rfl (by decide) rfl,
      fun args v hv ha => reads rfl (by decide) ?_, fun o i owner ho => reads rfl (by decide) ?_,
      reads rfl (by decide) rfl, fun kind args hk => reads rfl ?_ (State.request_unknown hk)⟩
    · exact (State.readEntry_holds ht hi).trans rfl
    · exact (State.readLive_accepted hv ha).trans rfl
    · exact (State.readCounters_owner ho).trans rfl
    · rintro rfl
      cases hk
  case bytes =>
    intro b1 b2 b3 clock yes busy records orbits sessions numbers stations
    have h1 (n : Nat) : natBytes 1 n = b1 n := natBytes_one n
    have h2 (n : Nat) : natBytes 2 n = b2 n := natBytes_two n
    have h3 (n : Nat) : natBytes 3 n = b3 n := natBytes_three n
    have h5 (n : Nat) : natBytes 5 n = clock n := by
      rw [natBytes_five, h2, h3]
    have hopt1 (o : Option Nat) : optBytes 1 o = b1 (o.getD 255) := h1 _
    have hopt2 (o : Option Nat) : optBytes 2 o = b2 (o.getD 65535) := h2 _
    have hyes (b : Bool) : flagByte b = yes b := flagByte_eq b
    have hclock (t : Nat) : clockBytes t = clock t := h5 t
    have hnumbers (l : List Nat) : numbersBytes l = numbers l := by
      unfold numbersBytes listBytes
      rw [funext h1]
    have hstations (l : List Nat) : stationsBytes l = stations l := by
      unfold stationsBytes listBytes
      rw [funext h1, funext h2]
    have hloaded {α : Type} (f : α → List Byte) (a : α) : loadedBytes f (some a) = 1#8 :: f a := rfl
    refine ⟨fun n => ⟨h1 n, h2 n, h3 n, h5 n⟩, ⟨if s.alarm.line then 0#8 else 1#8, ?status⟩, fun owner => ?counters,
      ?enabledSet, ?params, fun i => ⟨fun hi => ?zoneSet, ?tone, ?promptDir, ?zone, hstations _, hstations _⟩,
      fun g => ?groupQueue, ?orbits, fun p => ?ringingSet, ?sessions⟩
    case status =>
      unfold State.statusBytes
      simp only [h1, h2, h3, hclock, hyes, alarmBytes_eq, modeByte_eq, causeByte_eq, levelByte_eq, busyCount_eq,
        List.append_assoc, List.flatMap_cons, List.flatMap_nil, List.append_nil] <;> rfl
    case counters =>
      unfold counterBytes
      rw [funext h2]
      cases owner <;> rfl
    case enabledSet => exact (hloaded numbersBytes _).trans (congrArg _ (hnumbers _))
    case params =>
      show paramsBytes s.paging.params = _
      simp only [paramsBytes, h1, h2, hopt1, hyes]
    case zoneSet =>
      show loadedBytes numbersBytes (if i = 0 then _ else _) = _
      rw [if_neg (Nat.pos_iff_ne_zero.mp hi)]
      cases s.paging.zoneSets.get i with
      | none => rfl
      | some l => exact (hloaded numbersBytes l).trans (congrArg _ (hnumbers l))
    case tone =>
      show loadedBytes toneBytes (s.prompts.tones.get i) = _
      cases s.prompts.tones.get i with
      | none => rfl
      | some t => simp only [hloaded, toneBytes, h1, h2]
    case promptDir =>
      show loadedBytes promptBytes (s.prompts.directory.get i) = _
      cases s.prompts.directory.get i with
      | none => rfl
      | some e => simp only [hloaded, promptBytes, h2]
    case zone =>
      show zoneBytes (s.zones.get i).fields = _
      simp only [zoneBytes, h1, h2, hopt2, hyes]
    case groupQueue =>
      show s.groupQueueBytes g = _
      simp only [State.groupQueueBytes, listBytes, h1, h2, hopt2, State.activeGroup, List.append_assoc]
    case orbits =>
      show s.orbitsBytes = _
      unfold State.orbitsBytes
      rw [h1]
      refine congrArg _ (congrArg (fun f => List.flatMap f (List.range' 1 9)) (funext fun n => ?_))
      cases s.orbits.get n with
      | none => rfl
      | some o => simp only [hloaded, orbitBytes, h1, h2, hclock]
    case ringingSet =>
      show s.ringingSetBytes p = _
      unfold State.ringingSetBytes ringingBytes
      simp only [h2, hclock, hopt1]
    case sessions =>
      show s.sessionsBytes = _
      unfold State.sessionsBytes
      refine congrArg (fun f => List.flatMap f (List.range' 1 8)) (funext fun i => ?_)
      cases s.paging.sessions.get i with
      | none => rfl
      | some x =>
        simp only [hloaded, sessionBytes, listBytes, h1, h2, hclock, classByte_eq, phaseByte_eq, statusByte_eq,
          List.append_assoc] <;> rfl

end Sys2Proof.Machine
end

section
/-! PROOFS. Validation of a bank, COMMIT and CANCEL_COMMIT (O35; 03, R51 to R53). -/

namespace Sys2Proof.Machine

variable {s : State} {tag : Byte} {bank : Tab 1 32 Group}

/-! ### Valid banks (03, R51) -/

theorem mem_groupNumbers {g : Nat} : g ∈ groupNumbers ↔ 1 ≤ g ∧ g ≤ 32 := by
  unfold groupNumbers
  rw [List.mem_range'_1]
  omega

theorem firstRepeat_none {seen l : List Nat} : firstRepeat seen l = none ↔ l.Nodup ∧ ∀ n ∈ l, n ∉ seen := by
  induction l generalizing seen with
  | nil => simp [firstRepeat]
  | cons n l ih =>
    unfold firstRepeat
    by_cases hn : n ∈ seen
    · simp [hn]
    · simp only [List.contains_iff_mem, hn, if_false, ih, List.nodup_cons, List.mem_cons, List.mem_append,
        List.not_mem_nil, or_false, not_or, forall_eq_or_imp, not_false_eq_true, true_and]
      constructor
      · rintro ⟨hd, hall⟩
        exact ⟨⟨fun hmem => (hall n hmem).2 rfl, hd⟩, fun m hm => (hall m hm).1⟩
      · rintro ⟨⟨hmem, hd⟩, hall⟩
        exact ⟨hd, fun m hm => ⟨hall m hm, fun e => hmem (e ▸ hm)⟩⟩

theorem foldl_insertSorted_mem {l acc : List Nat} {m : Nat} :
    m ∈ l.foldl (fun a n => insertSorted n a) acc ↔ m ∈ l ∨ m ∈ acc := by
  induction l generalizing acc with
  | nil => simp
  | cons n l ih =>
    rw [List.foldl_cons, ih, insertSorted_mem, List.mem_cons]
    tauto

/-- The listed stations are the members of the groups. -/
theorem mem_listedStations {n : Nat} : n ∈ listedStations bank ↔ ∃ g ∈ groupNumbers, n ∈ (bank.get g).members := by
  have fold : ∀ (l : List Nat) (acc : List Nat),
      n ∈ l.foldl (fun acc g => (bank.get g).members.foldl (fun a n => insertSorted n a) acc) acc ↔
        (∃ g ∈ l, n ∈ (bank.get g).members) ∨ n ∈ acc := by
    intro l
    induction l with
    | nil => simp
    | cons g l ih =>
      intro acc
      rw [List.foldl_cons, ih, foldl_insertSorted_mem]
      simp only [List.mem_cons, exists_eq_or_imp]
      rw [← or_assoc, or_comm (a := ∃ g ∈ l, _)]
  unfold listedStations
  rw [fold]
  simp

theorem groupsOf_eq (n : Nat) : groupsOf bank n = (groupNumbers.filter fun g => n ∈ (bank.get g).members).length := by
  unfold groupsOf
  simp only [List.contains_eq_mem]

/-- No station stands in more than four lists (03, R51). -/
theorem breaksBank_stationLimit :
    breaksBank bank .stationLimit = none ↔
      ∀ n, (groupNumbers.filter fun g => n ∈ (bank.get g).members).length ≤ 4 := by
  unfold breaksBank
  simp only [Option.map_eq_none_iff, List.find?_eq_none, decide_eq_true_eq, not_lt, groupsOf_eq]
  refine ⟨fun h n => ?_, fun h n _ => h n⟩
  by_cases hn : n ∈ listedStations bank
  · exact h n hn
  · have hnone : (groupNumbers.filter fun g => n ∈ (bank.get g).members) = [] := by
      rw [List.filter_eq_nil_iff]
      intro g hg hmem
      exact hn (mem_listedStations.mpr ⟨g, hg, of_decide_eq_true hmem⟩)
    rw [hnone]
    exact Nat.zero_le _

theorem breaks_duplicate {g : Nat} : breaks bank .duplicateMember g = none ↔ (bank.get g).members.Nodup := by
  simp [breaks, firstRepeat_none]

theorem breaks_range {g : Nat} : breaks bank .memberRange g = none ↔ ∀ n ∈ (bank.get g).members, n ≤ 383 := by
  simp only [breaks, Option.map_eq_none_iff, List.find?_eq_none, decide_eq_true_eq, not_le]
  exact forall₂_congr fun n _ => Nat.lt_succ_iff

theorem breaks_empty {g : Nat} :
    breaks bank .emptyPiloted g = none ↔ ((bank.get g).fields.pilot ≠ none → (bank.get g).members ≠ []) := by
  simp only [breaks, ite_eq_right_iff, reduceCtorEq, imp_false, Bool.and_eq_true, Option.isSome_iff_ne_none,
    List.isEmpty_iff, not_and, ne_eq]

theorem breaks_shared {g : Nat} :
    breaks bank .sharedPilot g = none ↔ ∀ p, (bank.get g).fields.pilot = some p →
      ∀ h ∈ groupNumbers, h < g → (bank.get h).fields.pilot ≠ some p := by
  unfold breaks sharedWith
  cases (bank.get g).fields.pilot with
  | none => simp
  | some p => simp

/-- No two groups share a pilot, said of each pair once or of both. -/
theorem breaksBank_shared :
    breaksBank bank .sharedPilot = none ↔ ∀ g ∈ groupNumbers, (bank.get g).fields.pilot ≠ none →
      ∀ h ∈ groupNumbers, h ≠ g → (bank.get h).fields.pilot ≠ (bank.get g).fields.pilot := by
  unfold breaksBank
  simp only [List.findSome?_eq_none_iff, breaks_shared]
  constructor
  · intro hall g hg hp h hh hne he
    obtain ⟨p, hp⟩ := Option.ne_none_iff_exists'.mp hp
    rcases Nat.lt_or_gt_of_ne hne with hlt | hlt
    · exact hall g hg p hp h hh hlt (he.trans hp)
    · exact hall h hh p (he.trans hp) g hg hlt hp
  · intro hall g hg p hp h hh hlt he
    exact hall g hg (by rw [hp]; nofun) h hh (Nat.ne_of_lt hlt) (he.trans hp.symm)

theorem validate_none :
    validate bank = none ↔
    (∀ g, 1 ≤ g → g ≤ 32 → (bank.get g).members.Nodup ∧ (∀ n ∈ (bank.get g).members, n ≤ 383) ∧
      ((bank.get g).fields.pilot ≠ none → (bank.get g).members ≠ [] ∧
        ∀ h, 1 ≤ h → h ≤ 32 → h ≠ g → (bank.get h).fields.pilot ≠ (bank.get g).fields.pilot)) ∧
    ∀ n, (groupNumbers.filter fun g => n ∈ (bank.get g).members).length ≤ 4 := by
  have hgroup (k : Condition) (hk : k ≠ .stationLimit) :
      breaksBank bank k = none ↔ ∀ g ∈ groupNumbers, breaks bank k g = none := by
    cases k with
    | stationLimit => exact absurd rfl hk
    | _ => exact List.findSome?_eq_none_iff
  have hall : validate bank = none ↔ breaksBank bank .duplicateMember = none ∧ breaksBank bank .memberRange = none ∧
      breaksBank bank .stationLimit = none ∧ breaksBank bank .sharedPilot = none ∧
      breaksBank bank .emptyPiloted = none := by
    unfold validate
    simp [List.findSome?_eq_none_iff]
  rw [hall, hgroup .duplicateMember nofun, hgroup .memberRange nofun, hgroup .emptyPiloted nofun, breaksBank_stationLimit, breaksBank_shared]
  simp only [breaks_duplicate, breaks_range, breaks_empty, mem_groupNumbers, and_imp]
  constructor
  · rintro ⟨hdup, hrange, hlimit, hshared, hempty⟩
    exact ⟨fun g h1 h2 => ⟨hdup g h1 h2, hrange g h1 h2, fun hp => ⟨hempty g h1 h2 hp, hshared g h1 h2 hp⟩⟩, hlimit⟩
  · rintro ⟨hgroups, hlimit⟩
    exact ⟨fun g h1 h2 => (hgroups g h1 h2).1, fun g h1 h2 => (hgroups g h1 h2).2.1, hlimit,
      fun g h1 h2 hp => ((hgroups g h1 h2).2.2 hp).2, fun g h1 h2 hp => ((hgroups g h1 h2).2.2 hp).1⟩

/-! ### The requests (03, R52, R53) -/

theorem fixedArgs_three (a b c : Byte) : fixedArgs [3] [a, b, c] = some [bytesNat [a, b, c]] := by
  simp [fixedArgs]

theorem State.commitExpiry_early (h : ∀ d, s.hunt.countdown = some d → s.clock < d) : s.commitExpiry = s := by
  unfold State.commitExpiry
  refine if_neg ?_
  cases hc : s.hunt.countdown with
  | none => exact Bool.false_ne_true
  | some d => simpa [duePast] using h d hc

theorem exec_commitExpiry (hp : s.lane.phase = .inService) (hc : s.Calm) :
    exec .commitExpiry s = .next s.commitExpiry :=
  congrArg Host.Outcome.next (State.afterRaised_of_calm _ hp hc)

/-- An accepted COMMIT: the countdown set, the reply sent, and the expiry taken where it is due at once (03, R52). -/
theorem exec_commit_valid {d1 d2 d3 : Byte} (hp : s.lane.phase = .inService) (hc : s.Calm) (hr : s.room .up 1)
    (hv : validate s.hunt.staged = none) :
    let delay := min (bytesNat [d1, d2, d3]) 86400
    exec (.commit tag [d1, d2, d3]) s = .next (State.commitExpiry
      (State.queued .up [replyCell s.lane.own tag .done (natBytes 3 delay)]
        { s.endBridge .down with hunt := { s.hunt with countdown := some (s.clock + 1000 * delay) } })) := by
  intro delay
  let u : State := { s.endBridge .down with hunt := { s.hunt with countdown := some (s.clock + 1000 * delay) } }
  have hrequest : (s.endBridge .down).request 4 [d1, d2, d3] = done u (natBytes 3 delay) := by
    unfold State.request State.requestCommit
    simp only [fixedArgs_three]
    rw [show (s.endBridge .down).hunt.staged = s.hunt.staged from rfl, hv]
    rfl
  rw [exec_maintain rfl hp hc]
  unfold State.maintain
  simp only [show (4#8 : Byte).toNat = 4 from rfl, hrequest]
  rw [State.reply_one (by rw [done, natBytes_length]; decide) ((State.endBridge_room ..).mpr hr)]
  exact congrArg _ (if_pos ⟨rfl, rfl⟩)

/-- Settles O35: validity condition by condition, and the two requests by the bank and the countdown. -/
theorem commitRequests : Obligations.CommitRequests := by
  refine ⟨fun tag s hp hc hr => ?_, fun bank => validate_none⟩
  intro b answer
  have hroom : b.room .up 1 := (State.endBridge_room ..).mpr hr
  refine ⟨fun d1 d2 d3 => ⟨fun hv => ?accepted, fun f hf => ?refused⟩, fun d hd => ?cancelled, fun hn => ?idle⟩
  case accepted =>
    intro t
    rw [exec_commit_valid hp hc hr hv]
    split
    · exact (exec_commitExpiry (s := t) hp hc).symm
    · rename_i hdelay
      refine congrArg _ (State.commitExpiry_early fun d hd => ?_)
      cases hd
      exact Nat.lt_add_of_pos_right (Nat.mul_pos (by decide) (Nat.pos_of_ne_zero hdelay))
  case refused =>
    have hrequest : b.request 4 [d1, d2, d3] = ⟨b, .refusedState, failureBytes f⟩ := by
      unfold State.request State.requestCommit
      simp only [fixedArgs_three, show b.hunt.staged = s.hunt.staged from rfl, hf]
    have hexec := (refusedRequestChangesNothing (.commit tag [d1, d2, d3]) tag 4#8 _ s rfl hp hc hr
      (by rw [show (4#8 : Byte).toNat = 4 from rfl, hrequest]; nofun)).1
    rwa [show (4#8 : Byte).toNat = 4 from rfl, hrequest] at hexec
  case cancelled =>
    refine exec_replyOne rfl hp hc (by decide)
      (a := done { b with hunt := { s.hunt with countdown := none } } (natBytes 3 ((d - s.clock + 999) / 1000)))
      ?_ (by rw [done, natBytes_length]; decide) hroom
    show b.cancelCommit [] = _
    unfold State.cancelCommit State.commitRemaining
    simp only [fixedArgs, show b.hunt.countdown = s.hunt.countdown from rfl, hd]
    rfl
  case idle =>
    refine exec_replyOne rfl hp hc (by decide) (a := refuseState b) ?_ (Nat.zero_le _) hroom
    show b.cancelCommit [] = _
    unfold State.cancelCommit
    simp only [fixedArgs, show b.hunt.countdown = s.hunt.countdown from rfl, hn, Option.isSome_none,
      Bool.false_eq_true, if_false]

end Sys2Proof.Machine
end

section
/-! PROOFS. What cells and flags leave of the lanes and the flags (01, R16, R18; 11, R193). -/

namespace Sys2Proof.Machine

variable {F G : Flag → Prop} {s t u : State}

/-- Between two parts only cells joined the queues or were discarded, and only these flags were set besides LANE_OVERFLOW. -/
structure State.LaneGrows (F : Flag → Prop) (s t : State) : Prop where
  lane : ∃ down up a b, t.lane = { s.lane with
    downQueue := s.lane.downQueue ++ down, upQueue := s.lane.upQueue ++ up
    counters := { s.lane.counters with discardedDown := a, discardedUp := b } }
  quiet : hasFlag t.maint.flags .laneOverflow = false → t.lane.counters = s.lane.counters
  maint : t.maint = { s.maint with flags := t.maint.flags }
  kept : ∀ f, hasFlag s.maint.flags f = true → hasFlag t.maint.flags f = true
  new : ∀ f, hasFlag t.maint.flags f = true → hasFlag s.maint.flags f = true ∨ f = .laneOverflow ∨ F f

theorem State.LaneGrows.of_same (hl : t.lane = s.lane) (hm : t.maint = s.maint) : State.LaneGrows F s t :=
  ⟨⟨[], [], s.lane.counters.discardedDown, s.lane.counters.discardedUp, by rw [hl, List.append_nil, List.append_nil]⟩,
    fun _ => by rw [hl], by rw [hm], fun f h => by rw [hm]; exact h, fun f h => .inl (hm ▸ h)⟩

theorem State.LaneGrows.refl (s : State) : State.LaneGrows F s s := .of_same rfl rfl

theorem State.LaneGrows.trans (h : State.LaneGrows F s t) (k : State.LaneGrows F t u) : State.LaneGrows F s u := by
  refine ⟨?_, fun hq => ?_, ?_, fun f hf => k.kept f (h.kept f hf), fun f hf => ?_⟩
  · obtain ⟨d1, u1, a1, b1, e1⟩ := h.lane
    obtain ⟨d2, u2, a2, b2, e2⟩ := k.lane
    exact ⟨d1 ++ d2, u1 ++ u2, a2, b2, by rw [e2, e1]; simp only [List.append_assoc]⟩
  · have hq1 : hasFlag t.maint.flags .laneOverflow = false := by
      by_contra hn
      rw [k.kept _ (eq_true_of_ne_false hn)] at hq
      cases hq
    rw [k.quiet hq, h.quiet hq1]
  · rw [k.maint, h.maint]
  · exact (k.new f hf).elim (h.new f) .inr

theorem State.LaneGrows.mono (h : State.LaneGrows F s t) (hF : ∀ f, F f → G f) : State.LaneGrows G s t :=
  ⟨h.lane, h.quiet, h.maint, h.kept, fun f hf => (h.new f hf).imp_right (.imp_right (hF f))⟩

/-- Other blocks' changes count for nothing here. -/
theorem State.LaneGrows.congr (h : State.LaneGrows F s t) (hu : u.SameLanes t) : State.LaneGrows F s u :=
  h.trans (.of_same hu.lane hu.maint)

theorem flagIndex_lt (f : Flag) : flagIndex f < 16 := by cases f <;> decide

theorem flagIndex_injective {f g : Flag} (h : flagIndex f = flagIndex g) : f = g := by
  cases f <;> cases g <;> simp [flagIndex] at h ⊢

/-- The flags of a set with one more (11, R192). -/
theorem hasFlag_or_iff {x : BitVec 16} {f g : Flag} :
    hasFlag (x ||| flagMask g) f = true ↔ hasFlag x f = true ∨ f = g := by
  have hbit : (flagMask g).getLsbD (flagIndex f) = true ↔ f = g := by
    have hlt := flagIndex_lt f
    unfold flagMask
    rw [BitVec.getLsbD_shiftLeft]
    simp only [hlt, decide_true, Bool.true_and, BitVec.getLsbD_one, Nat.sub_eq_zero_iff_le, Bool.and_eq_true,
      Bool.not_eq_true', decide_eq_false_iff_not, decide_eq_true_eq, not_lt]
    exact ⟨fun h => flagIndex_injective (Nat.le_antisymm h.2.2 h.1), fun h => h ▸ by simp⟩
  unfold hasFlag
  rw [BitVec.getLsbD_or, Bool.or_eq_true, hbit]

theorem State.LaneGrows.flagged {f : Flag} (hf : f = .laneOverflow ∨ F f) : State.LaneGrows F s (s.flagged f) := by
  refine ⟨⟨[], [], s.lane.counters.discardedDown, s.lane.counters.discardedUp, ?_⟩, fun _ => rfl, rfl,
    fun g hg => hasFlag_or_iff.mpr (.inl hg), fun g hg => (hasFlag_or_iff.mp hg).imp_right fun (e : g = f) => e ▸ hf⟩
  rw [List.append_nil, List.append_nil]
  rfl

theorem State.LaneGrows.queued (d : Dir) (cs : List LaneCell) : State.LaneGrows F s (s.queued d cs) := by
  refine ⟨?_, fun _ => by cases d <;> rfl, rfl, fun _ h => h, fun _ h => .inl h⟩
  cases d with
  | down => exact ⟨cs, [], s.lane.counters.discardedDown, s.lane.counters.discardedUp, by rw [List.append_nil]; rfl⟩
  | up => exact ⟨[], cs, s.lane.counters.discardedDown, s.lane.counters.discardedUp, by rw [List.append_nil]; rfl⟩

theorem State.countDiscard_lane (d : Dir) (s : State) :
    ∃ a b, (s.countDiscard d).lane =
      { s.lane with counters := { s.lane.counters with discardedDown := a, discardedUp := b } } := by
  cases d <;> exact ⟨_, _, rfl⟩

/-- A part whose discard counters changed while LANE_OVERFLOW stands (01, R18). -/
theorem State.LaneGrows.counted (h : State.LaneGrows F s t) (hset : hasFlag t.maint.flags .laneOverflow = true)
    (d : Dir) : State.LaneGrows F s (t.countDiscard d) := by
  obtain ⟨down, up, a, b, e⟩ := h.lane
  obtain ⟨a2, b2, e2⟩ := State.countDiscard_lane d t
  refine ⟨⟨down, up, a2, b2, by rw [e2, e]⟩, fun hq => ?_, h.maint, h.kept, h.new⟩
  exact absurd (hset.symm.trans hq) (by decide)

/-- A discarded cell is counted, and LANE_OVERFLOW stands (01, R18). -/
theorem State.LaneGrows.discarded (d : Dir) : State.LaneGrows F s (s.discarded d) := by
  have hflag : State.LaneGrows F s (s.flagged .laneOverflow) := .flagged (.inl rfl)
  have hset : hasFlag (s.flagged .laneOverflow).maint.flags .laneOverflow = true := hasFlag_or ..
  have hcounted : State.LaneGrows F s ((s.flagged .laneOverflow).countDiscard d) := hflag.counted hset d
  have hswap : (s.countDiscard d).flagged .laneOverflow = (s.flagged .laneOverflow).countDiscard d := rfl
  unfold State.discarded
  dsimp only
  split
  · exact (State.LaneGrows.refl s).counted (by assumption) d
  · rw [hswap]
    split
    · exact hcounted
    · split
      · exact hcounted.trans (.queued .up _)
      · exact hcounted.counted hset .up

theorem State.LaneGrows.join (d : Dir) (c : LaneCell) : State.LaneGrows F s (s.join d c) := by
  by_cases h : s.room d 1
  · rw [State.join_room _ h]
    exact .queued d [c]
  · rw [State.join_full _ h]
    exact .discarded d

theorem State.LaneGrows.setFlag {f : Flag} (hf : f = .laneOverflow ∨ F f) : State.LaneGrows F s (s.setFlag f) := by
  unfold State.setFlag
  dsimp only
  split
  · exact .refl s
  · split
    · exact .flagged hf
    · exact (State.LaneGrows.flagged hf).trans (.join _ _)

end Sys2Proof.Machine
end

section
/-! PROOFS. The teardown: what it does block by block (O41, O42; 04, R88; 06, R110; 07, R138; 10, R179; 11, R184). -/

namespace Sys2Proof.Machine

variable {F : Flag → Prop} {s t u : State}

/-! ### Zones while the mode is TRANSPARENT -/

/-- A zone record with other claims, content, beacon and assist count, and no other change. -/
def Zone.Quiet (a b : Zone) : Prop :=
  b = { a with claims := b.claims, player := b.player, beacon := b.beacon, assist := b.assist, completed := b.completed }

/-- Zones changed in their claims, content, beacon and assist count, and nothing else did. -/
structure State.QuietZones (s t : State) : Prop where
  only : s.zonesOnly t
  zone : ∀ z, (s.zones.get z).Quiet (t.zones.get z)

theorem State.QuietZones.refl (s : State) : s.QuietZones s := ⟨.rfl, fun _ => rfl⟩

theorem Zone.Quiet.trans {a b c : Zone} (h : a.Quiet b) (k : b.Quiet c) : a.Quiet c := by
  unfold Zone.Quiet at *
  rw [k, h]

theorem State.QuietZones.trans (h : s.QuietZones t) (k : t.QuietZones u) : s.QuietZones u :=
  ⟨h.only.trans k.only, fun z => (h.zone z).trans (k.zone z)⟩

theorem State.QuietZones.modZone {z : Nat} {f : Zone → Zone} (hf : ∀ x : Zone, x.Quiet (f x)) :
    s.QuietZones (s.modZone z f) := by
  refine ⟨s.modZone_zonesOnly z f, fun y => ?_⟩
  by_cases hy : z = y
  · subst hy
    by_cases hz : 1 ≤ z ∧ z < 1 + 24
    · rw [State.modZone_get hz]
      exact hf _
    · rw [State.modZone_outside hz]
      exact Eq.refl _
  · rw [(s.modZone_onlyZone z f).get_ne hy]
    exact Eq.refl _

theorem State.QuietZones.mode (h : s.QuietZones t) : t.maint.mode = s.maint.mode := by
  rw [h.only]

theorem State.shows_quiet (s : State) (l : List Nat) (z : Nat) (x : Zone) : x.Quiet (s.shows l z x) := by
  obtain ⟨b, -, e⟩ := s.shows_beacon l z x
  unfold Zone.Quiet
  rw [e]

theorem State.chooseBeacon_quiet (s : State) (z : Nat) : s.QuietZones (s.chooseBeacon z) := by
  rw [s.chooseBeacon_eq]
  exact .modZone (s.shows_quiet _ z)

theorem State.claimGone_quiet (s : State) (z : Nat) (who : Claimant) (x : Zone) : x.Quiet (s.claimGone z who x) := by
  unfold State.claimGone
  dsimp only
  split
  · exact Zone.Quiet.trans (b := { x with completed := _, player := _, claims := _ }) rfl (s.shows_quiet ..)
  · rfl

theorem State.removeClaim_quiet (s : State) (z : Nat) (who : Claimant) : s.QuietZones (s.removeClaim z who) := by
  by_cases h : holdsClaim (s.zones.get z).claims who = true
  · rw [State.removeClaim_eq h]
    exact .modZone (s.claimGone_quiet z who)
  · rw [show s.removeClaim z who = s from if_neg h]
    exact .refl s

/-- In TRANSPARENT mode no assist claim is wanted, so a re-evaluation only takes one away (07, R136). -/
theorem State.reevaluateAssist_quiet (hm : s.maint.mode = .transparent) (z : Nat) :
    s.QuietZones (s.reevaluateAssist z) := by
  have hcount : s.QuietZones (s.countAssist z) := .modZone fun _ => rfl
  have hwant : (s.countAssist z).assistWanted z = false := by
    rw [Bool.eq_false_iff]
    intro h
    have hengaged := ((State.assistWanted_iff ..).mp h).1
    rw [hcount.mode, hm] at hengaged
    cases hengaged
  unfold State.reevaluateAssist
  simp only [hwant, Bool.false_eq_true, if_false]
  split
  · exact hcount.trans (State.removeClaim_quiet ..)
  · exact hcount

theorem State.withdrawClaim_quiet (hm : s.maint.mode = .transparent) (z : Nat) (who : Claimant) :
    s.QuietZones (s.withdrawClaim z who) := by
  unfold State.withdrawClaim
  split
  · have hgone := s.removeClaim_quiet z who
    exact hgone.trans (State.reevaluateAssist_quiet (hgone.mode.trans hm) z)
  · exact .refl s

/-- Work zone by zone that each time leaves the zones quiet. -/
theorem foldl_quiet {g : State → Nat → State}
    (hg : ∀ (t : State) z, t.maint.mode = .transparent → t.QuietZones (g t z)) (hm : s.maint.mode = .transparent)
    (l : List Nat) : s.QuietZones (l.foldl g s) :=
  foldl_kept (P := fun t => s.QuietZones t) (fun _ z ht => ht.trans (hg _ z (ht.mode.trans hm))) l (.refl s)

/-! ### A state on its way through a teardown -/

/-- What a teardown under way leaves of the part it began with, in TRANSPARENT mode. -/
structure State.Torn (F : Flag → Prop) (s t : State) : Prop where
  rest : t = { s with
    lane := t.lane, maint := t.maint, orbits := t.orbits, zones := t.zones, stations := t.stations
    hunt := { s.hunt with records := t.hunt.records, closed := t.hunt.closed, headChecks := t.hunt.headChecks
                          live := t.hunt.live }
    paging := { s.paging with sessions := t.paging.sessions, frameReport := t.paging.frameReport }
    alarm := { s.alarm with claimed := t.alarm.claimed, scope := t.alarm.scope } }
  lanes : State.LaneGrows F s t
  records : ∀ r ∈ t.hunt.records, r ∈ s.hunt.records
  zones : ∀ z, (s.zones.get z).Quiet (t.zones.get z)
  stations : ∀ n, t.stations.get n = { s.stations.get n with source := (t.stations.get n).source }

theorem State.Torn.refl (s : State) : State.Torn F s s :=
  ⟨rfl, .refl s, fun _ h => h, fun _ => rfl, fun _ => rfl⟩

theorem State.Torn.trans (h : State.Torn F s t) (k : State.Torn F t u) : State.Torn F s u := by
  refine ⟨?_, h.lanes.trans k.lanes, fun r hr => h.records r (k.records r hr), fun z => (h.zones z).trans (k.zones z),
    fun n => ?_⟩
  · rw [k.rest, h.rest]
  · rw [k.stations n, h.stations n]

theorem State.Torn.mode (h : State.Torn F s t) : t.maint.mode = s.maint.mode := by
  rw [h.lanes.maint]

theorem State.QuietZones.torn (h : s.QuietZones t) : State.Torn F s t := by
  have e := h.only
  unfold State.zonesOnly at e
  refine ⟨?_, ?_, ?_, h.zone, ?_⟩
  · rw [e]
  · rw [e]
    exact .of_same rfl rfl
  · rw [e]
    exact fun _ h => h
  · rw [e]
    exact fun _ => rfl

theorem State.Torn.join (d : Dir) (c : LaneCell) : State.Torn F s (s.join d c) := by
  have hl : State.LaneGrows F s (s.join d c) := .join d c
  rw [s.join_rest d c] at hl ⊢
  exact ⟨rfl, hl, fun _ h => h, fun _ => rfl, fun _ => rfl⟩

theorem State.Torn.setFlag {f : Flag} (hf : F f) : State.Torn F s (s.setFlag f) := by
  have hl : State.LaneGrows F s (s.setFlag f) := .setFlag (.inr hf)
  rw [s.setFlag_rest f] at hl ⊢
  exact ⟨rfl, hl, fun _ h => h, fun _ => rfl, fun _ => rfl⟩

/-! ### The Hunt Controller's teardown (04, R88) -/

theorem State.Torn.setOrbit (n : Nat) (o : Option Orbit) : State.Torn F s (s.setOrbit n o) :=
  ⟨rfl, .of_same rfl rfl, fun _ h => h, fun _ => rfl, fun _ => rfl⟩

theorem State.Torn.filterRecords (p : HuntRecord → Bool) :
    State.Torn F s (s.modHunt fun h => { h with records := h.records.filter p }) :=
  ⟨rfl, .of_same rfl rfl, fun _ h => (List.mem_filter.mp h).1, fun _ => rfl, fun _ => rfl⟩

theorem State.Torn.raiseHeadCheck (g : Nat) : State.Torn F s (s.raiseHeadCheck g) :=
  ⟨rfl, .of_same rfl rfl, fun _ h => h, fun _ => rfl, fun _ => rfl⟩

theorem State.Torn.modGroupCounters (g : Nat) (f : GroupCounters → GroupCounters) :
    State.Torn F s (s.modGroupCounters g f) :=
  ⟨rfl, .of_same rfl rfl, fun _ h => h, fun _ => rfl, fun _ => rfl⟩

/-- An orbit that a teardown releases is not handed on (06, R110). -/
theorem State.Torn.releaseOrbit (hm : s.maint.mode = .transparent) (n : Nat) :
    State.Torn F s (s.releaseOrbit n false) := by
  have hzones : s.QuietZones (zoneNumbers.foldl (fun t z => t.withdrawClaim z (.orbit n)) s) :=
    foldl_quiet (fun _ z ht => State.withdrawClaim_quiet ht z _) hm _
  unfold State.releaseOrbit
  generalize zoneNumbers.foldl (fun t z => t.withdrawClaim z (.orbit n)) s = u at hzones
  exact hzones.torn.trans (.setOrbit n none)

theorem State.Torn.removeRecord (hm : s.maint.mode = .transparent) (c : CallRef) :
    State.Torn F s (s.removeRecord c true) := by
  unfold State.removeRecord
  split
  · exact .refl s
  · rename_i r hr
    have hfilter : State.Torn F s (s.modHunt fun h => { h with records := h.records.filter fun q => q.call ≠ c }) :=
      .filterRecords _
    dsimp only
    generalize s.modHunt (fun h => { h with records := h.records.filter fun q => q.call ≠ c }) = v at hfilter
    have hfree : State.Torn F s (match r.orbit with | some n => v.releaseOrbit n false | none => v) := by
      split
      · exact hfilter.trans (.releaseOrbit (hfilter.mode.trans hm) _)
      · exact hfilter
    split
    · exact hfree.trans (.raiseHeadCheck _)
    · exact hfree

end Sys2Proof.Machine
end

section
/-! PROOFS. The Hunt Controller's teardown, group by group (O41, O42; 04, R88). -/

namespace Sys2Proof.Machine

variable {F : Flag → Prop} {s t u : State} {g : Nat}

/-! ### A record removed (04, R81; 06, R110) -/

/-- The part without the record of a call. -/
def State.withoutRecord (c : CallRef) (s : State) : State :=
  s.modHunt fun h => { h with records := h.records.filter fun q => q.call ≠ c }

/-- An orbit that a record held is released. -/
def State.orbitFreed (r : HuntRecord) (handOn : Bool) (s : State) : State :=
  match r.orbit with
  | some n => s.releaseOrbit n handOn
  | none => s

/-- A head check raised for a head that left. -/
def State.headLeft (g : Nat) (left : Bool) (s : State) : State := if left then s.raiseHeadCheck g else s

/-- A record's removal in its parts (04, R81). -/
theorem State.removeRecord_parts {c : CallRef} {r : HuntRecord} (h : s.record c = some r) (teardown : Bool) :
    s.removeRecord c teardown =
      (if teardown then (s.withoutRecord c).orbitFreed r false
        else ((s.withoutRecord c).orbitFreed r true).closeCall c).headLeft r.group (s.headCall r.group == some c) := by
  unfold State.removeRecord State.headLeft State.orbitFreed
  rw [h]
  cases teardown with
  | false =>
    simp only [Bool.not_false, Bool.false_eq_true, if_false]
    cases r.orbit <;> rfl
  | true =>
    simp only [Bool.not_true, if_true]
    cases r.orbit <;> rfl

theorem State.removeRecord_none {c : CallRef} (h : s.record c = none) (teardown : Bool) : s.removeRecord c teardown = s := by
  unfold State.removeRecord
  rw [h]

theorem State.headLeft_eq (g : Nat) (left : Bool) (s : State) :
    s.headLeft g left = { s with hunt := { s.hunt with
      headChecks := if left then insertSorted g s.hunt.headChecks else s.hunt.headChecks } } := by
  cases left <;> rfl

/-- An orbit released and not handed on changes nothing of the Hunt Controller. -/
theorem State.orbitFreed_hunt (r : HuntRecord) (s : State) : (s.orbitFreed r false).hunt = s.hunt := by
  unfold State.orbitFreed
  cases r.orbit with
  | none => rfl
  | some n =>
    have hzones : s.zonesOnly (zoneNumbers.foldl (fun t z => t.withdrawClaim z (.orbit n)) s) :=
      foldl_onlyZone_zonesOnly (fun t z => t.withdrawClaim_onlyZone z _) _
    show (State.releaseOrbit n false s).hunt = s.hunt
    unfold State.releaseOrbit
    rw [hzones]
    rfl

/-- Without a record of the call the table stays as it is. -/
theorem State.withoutRecord_none {c : CallRef} (h : s.record c = none) :
    (s.hunt.records.filter fun q => q.call ≠ c) = s.hunt.records := by
  rw [List.filter_eq_self]
  exact fun q hq => decide_eq_true fun e => record_none h (e ▸ List.mem_map_of_mem hq)

/-- A removal at a teardown takes the call's record away, and hands nothing on (04, R88; 06, R110). -/
theorem State.removeRecord_teardown (c : CallRef) (s : State) :
    ∃ checks, (s.removeRecord c true).hunt =
      { s.hunt with records := s.hunt.records.filter fun q => q.call ≠ c, headChecks := checks } := by
  cases hr : s.record c with
  | none => exact ⟨s.hunt.headChecks, by rw [State.removeRecord_none hr, State.withoutRecord_none hr]⟩
  | some r =>
    rw [State.removeRecord_parts hr, State.headLeft_eq, if_pos rfl, State.orbitFreed_hunt]
    exact ⟨_, rfl⟩

/-! ### A record that overflows at a teardown -/

/-- A queued record overflows at a teardown (04, R88). -/
def State.tearRecord (g : Nat) (s : State) (r : HuntRecord) : State :=
  (((s.sendOwn r.call (overflowBody (s.activeGroup g).fields.overflowDn)).removeRecord r.call true).setFlag
    .queueOverflow).modGroupCounters g fun k => { k with diverted := satInc k.diverted }

theorem State.teardownGroup_eq (g : Nat) (s : State) :
    s.teardownGroup g =
      ((s.queue g).foldl (State.tearRecord g) s).modHunt fun h => { h with records := h.records.filter fun r => r.group ≠ g } :=
  rfl

/-- The live state of a group once a number of its calls have been diverted. -/
def GroupLive.away (k : Nat) (x : GroupLive) : GroupLive :=
  if k = 0 then x else { x with counters := { x.counters with diverted := min (x.counters.diverted + k) 65535 } }

theorem State.tearRecord_hunt (g : Nat) (r : HuntRecord) (s : State) :
    ∃ checks, (s.tearRecord g r).hunt =
      { s.hunt with
        records := s.hunt.records.filter fun q => q.call ≠ r.call
        headChecks := checks
        live := s.hunt.live.put g (GroupLive.away 1 (s.hunt.live.get g)) } := by
  let sent : State := s.sendOwn r.call (overflowBody (s.activeGroup g).fields.overflowDn)
  have hsent : sent.hunt = s.hunt := by
    unfold sent State.sendOwn
    rw [State.join_rest]
    rfl
  obtain ⟨checks, hgone⟩ := State.removeRecord_teardown r.call sent
  have hflag : ((sent.removeRecord r.call true).setFlag .queueOverflow).hunt = (sent.removeRecord r.call true).hunt := by
    rw [State.setFlag_rest]
    rfl
  refine ⟨checks, ?_⟩
  unfold State.tearRecord State.modGroupCounters State.modHunt
  dsimp only
  rw [hflag, hgone, hsent]
  rfl

theorem State.tearRecord_torn (hm : s.maint.mode = .transparent) (hF : F .queueOverflow) (r : HuntRecord) :
    State.Torn F s (s.tearRecord g r) := by
  have hsent : State.Torn F s (s.sendOwn r.call (overflowBody (s.activeGroup g).fields.overflowDn)) := .join _ _
  have hgone := hsent.trans (.removeRecord (hsent.mode.trans hm) r.call)
  exact (hgone.trans (.setFlag hF)).trans (.modGroupCounters g _)

theorem State.tearQueue_torn (hm : s.maint.mode = .transparent) {l : List HuntRecord} (hF : l ≠ [] → F .queueOverflow) :
    State.Torn F s (l.foldl (State.tearRecord g) s) := by
  cases l with
  | nil => exact .refl s
  | cons r l =>
    have hF := hF (List.cons_ne_nil r l)
    exact foldl_kept (P := State.Torn F s) (fun t r ht => ht.trans (State.tearRecord_torn (ht.mode.trans hm) hF r))
      (r :: l) (.refl s)

/-- A part whose queued records, where there are any, set QUEUE_OVERFLOW as they go. -/
def State.MayOverflow (F : Flag → Prop) (s : State) : Prop := ∀ r ∈ s.hunt.records, r.isQueued = true → F .queueOverflow

theorem State.teardownGroup_torn (hm : s.maint.mode = .transparent) (hF : s.MayOverflow F) (g : Nat) :
    State.Torn F s (s.teardownGroup g) := by
  rw [State.teardownGroup_eq]
  refine (State.tearQueue_torn hm fun hne => ?_).trans (.filterRecords _)
  obtain ⟨r, hr⟩ := List.exists_mem_of_ne_nil _ hne
  obtain ⟨hr, hq⟩ := List.mem_filter.mp hr
  exact hF r hr (Bool.and_eq_true_iff.mp hq).2

theorem State.teardownGroups_torn (hm : s.maint.mode = .transparent) (hF : s.MayOverflow F) (l : List Nat) :
    State.Torn F s (l.foldl (fun t g => t.teardownGroup g) s) :=
  foldl_kept (P := State.Torn F s) (fun _ g ht => ht.trans (State.teardownGroup_torn (ht.mode.trans hm)
    (fun r hr => hF r (ht.records r hr)) g)) l (.refl s)

theorem State.teardownHunt_torn (hm : s.maint.mode = .transparent) (hF : s.MayOverflow F) :
    State.Torn F s s.teardownHunt := by
  have hgroups := State.teardownGroups_torn hm hF groupNumbers
  unfold State.teardownHunt
  generalize groupNumbers.foldl (fun t g => t.teardownGroup g) s = v at hgroups
  exact hgroups.trans ⟨rfl, .of_same rfl rfl, fun _ h => h, fun _ => rfl, fun _ => rfl⟩

/-- No record of a group that was torn down is left. -/
theorem State.teardownGroups_gone (hm : s.maint.mode = .transparent) {l : List Nat} (hg : g ∈ l) :
    ∀ r ∈ (l.foldl (fun t g => t.teardownGroup g) s).hunt.records, r.group ≠ g := by
  obtain ⟨l1, l2, rfl⟩ := List.append_of_mem hg
  rw [List.foldl_append, List.foldl_cons]
  have h1 := State.teardownGroups_torn (F := fun _ => True) hm (fun _ _ _ => trivial) l1
  generalize l1.foldl (fun t g => t.teardownGroup g) s = v at h1
  have h2 := State.teardownGroup_torn (F := fun _ => True) (h1.mode.trans hm) (fun _ _ _ => trivial) g
  have h3 := State.teardownGroups_torn (F := fun _ => True) ((h2.mode.trans h1.mode).trans hm) (fun _ _ _ => trivial) l2
  intro r hr
  have hin := h3.records r hr
  rw [State.teardownGroup_eq] at hin
  exact of_decide_eq_true (List.mem_filter.mp hin).2

/-- Every record goes, since every record's group is torn down. -/
theorem State.teardownHunt_records (hm : s.maint.mode = .transparent)
    (hall : ∀ r ∈ s.hunt.records, 1 ≤ r.group ∧ r.group ≤ 32) : s.teardownHunt.hunt.records = [] := by
  have htorn := State.teardownGroups_torn (F := fun _ => True) hm (fun _ _ _ => trivial) groupNumbers
  have hkept (v : State) : (v.modHunt fun h => { h with closed := [] }).hunt.records = v.hunt.records := rfl
  unfold State.teardownHunt
  rw [hkept, List.eq_nil_iff_forall_not_mem]
  intro r hr
  exact State.teardownGroups_gone hm (mem_groupNumbers.mpr (hall r (htorn.records r hr))) r hr rfl

theorem State.teardownHunt_closed (s : State) : s.teardownHunt.hunt.closed = [] := by
  unfold State.teardownHunt
  generalize groupNumbers.foldl (fun t g => t.teardownGroup g) s = v
  rfl

/-! ### What is counted as diverted (04, R88) -/

theorem GroupLive.away_zero (x : GroupLive) : GroupLive.away 0 x = x := rfl

theorem GroupLive.away_succ (k : Nat) (x : GroupLive) : GroupLive.away k (GroupLive.away 1 x) = GroupLive.away (k + 1) x := by
  unfold GroupLive.away
  cases k with
  | zero => rfl
  | succ k =>
    simp only [Nat.succ_ne_zero, if_false, GroupLive.mk.injEq, GroupCounters.mk.injEq, and_true, true_and]
    omega

/-- Every record of a queue that is torn down counts once. -/
theorem State.tearQueue_hunt (g : Nat) (l : List HuntRecord) (s : State) :
    ∃ checks, (l.foldl (State.tearRecord g) s).hunt =
      { s.hunt with
        records := s.hunt.records.filter fun q => q.call ∉ l.map HuntRecord.call
        headChecks := checks
        live := s.hunt.live.put g (GroupLive.away l.length (s.hunt.live.get g)) } := by
  induction l generalizing s with
  | nil =>
    refine ⟨s.hunt.headChecks, ?_⟩
    simp [GroupLive.away_zero, Tab.put_get]
  | cons r l ih =>
    obtain ⟨c1, h1⟩ := s.tearRecord_hunt g r
    obtain ⟨c2, h2⟩ := ih (s.tearRecord g r)
    refine ⟨c2, ?_⟩
    have hfilter : ((s.hunt.records.filter fun q => q.call ≠ r.call).filter fun q => q.call ∉ l.map HuntRecord.call) =
        s.hunt.records.filter fun q => q.call ∉ (r :: l).map HuntRecord.call := by
      rw [List.filter_filter]
      refine List.filter_congr fun q _ => ?_
      simp [not_or, Bool.and_comm]
    have hlive : (s.hunt.live.put g (GroupLive.away 1 (s.hunt.live.get g))).put g
        (GroupLive.away l.length ((s.hunt.live.put g (GroupLive.away 1 (s.hunt.live.get g))).get g)) =
          s.hunt.live.put g (GroupLive.away (r :: l).length (s.hunt.live.get g)) := by
      by_cases hg : 1 ≤ g ∧ g < 1 + 32
      · rw [Tab.get_put_same _ _ hg, Tab.put_put, GroupLive.away_succ]
        rfl
      · simp only [Tab.put_of_not_mem _ _ hg]
    rw [List.foldl_cons, h2, h1]
    dsimp only
    rw [hfilter, hlive]

/-- A group's teardown takes its own records, and counts its queued ones. -/
theorem State.teardownGroup_hunt (hn : (s.hunt.records.map HuntRecord.call).Nodup) (g : Nat) :
    (s.teardownGroup g).hunt.records = (s.hunt.records.filter fun r => r.group ≠ g) ∧
    (s.teardownGroup g).hunt.live = s.hunt.live.put g (GroupLive.away (s.queue g).length (s.hunt.live.get g)) := by
  obtain ⟨checks, hq⟩ := State.tearQueue_hunt g (s.queue g) s
  rw [State.teardownGroup_eq]
  unfold State.modHunt
  dsimp only
  rw [hq]
  refine ⟨?_, rfl⟩
  dsimp only
  rw [List.filter_filter]
  refine List.filter_congr fun q hmem => ?_
  by_cases hg : q.group = g
  · simp [hg]
  · have hother : q.call ∉ (s.queue g).map HuntRecord.call := by
      intro hc
      obtain ⟨r, hr, he⟩ := List.mem_map.mp hc
      obtain ⟨hr, hgr⟩ := List.mem_filter.mp hr
      have hsame := record_unique hn hr hmem he
      subst hsame
      exact hg (of_decide_eq_true (Bool.and_eq_true_iff.mp hgr).1)
    simp only [hg, hother, ne_eq, not_false_eq_true, decide_true, Bool.and_self]

/-- Each group that is torn down counts its queued calls once. -/
theorem State.teardownGroups_live {l : List Nat} (hl : l.Nodup) (hr : ∀ g ∈ l, 1 ≤ g ∧ g < 1 + 32)
    (hn : (s.hunt.records.map HuntRecord.call).Nodup) (g : Nat) :
    (l.foldl (fun t g => t.teardownGroup g) s).hunt.live.get g =
      if g ∈ l then GroupLive.away (s.queue g).length (s.hunt.live.get g) else s.hunt.live.get g := by
  induction l generalizing s with
  | nil => simp
  | cons h l ih =>
    obtain ⟨hnot, hl⟩ := List.nodup_cons.mp hl
    obtain ⟨hrec, hlive⟩ := State.teardownGroup_hunt hn h
    have hn' : ((s.teardownGroup h).hunt.records.map HuntRecord.call).Nodup := by
      rw [hrec]
      exact hn.sublist (List.filter_sublist.map _)
    rw [List.foldl_cons, ih hl (fun x hx => hr x (List.mem_cons_of_mem _ hx)) hn', hlive]
    by_cases hgh : g = h
    · subst hgh
      rw [if_neg hnot, if_pos List.mem_cons_self, Tab.get_put_same _ _ (hr g List.mem_cons_self)]
    · have hqueue : (s.teardownGroup h).queue g = s.queue g := by
        unfold State.queue
        rw [hrec, List.filter_filter]
        refine List.filter_congr fun q _ => ?_
        by_cases hq : q.group = g
        · simp [hq, hgh]
        · simp [hq]
      rw [Tab.get_put_ne _ _ (Ne.symm hgh), hqueue]
      simp only [List.mem_cons, hgh, false_or]

theorem State.teardownHunt_live (hn : (s.hunt.records.map HuntRecord.call).Nodup) (g : Nat) :
    s.teardownHunt.hunt.live.get g =
      if 1 ≤ g ∧ g ≤ 32 then GroupLive.away (s.queue g).length (s.hunt.live.get g) else s.hunt.live.get g := by
  have hkept (v : State) : (v.modHunt fun h => { h with closed := [] }).hunt.live = v.hunt.live := rfl
  unfold State.teardownHunt
  have hnodup : groupNumbers.Nodup := List.nodup_range'
  rw [hkept, State.teardownGroups_live hnodup (fun g hg => List.mem_range'_1.mp hg) hn]
  simp only [mem_groupNumbers]

/-! ### The sessions' and the zones' teardown (07, R138) -/

/-- A session that is free has no end. -/
theorem State.endSession_free {i : Nat} (hx : s.paging.sessions.get i = none) (quiet : Bool) : s.endSession i quiet = s := by
  unfold State.endSession
  rw [hx]

/-- What the end of a session with its tone leaves of the stations and the sessions (07, R135). -/
theorem State.endSession_rest {i : Nat} {x : Session} (hx : s.paging.sessions.get i = some x) :
    (s.endSession i false).stations = s.stations.put x.source { s.stations.get x.source with source := none } ∧
    (s.endSession i false).paging.sessions = s.paging.sessions.put i none := by
  rw [State.endSession_toned hx]
  unfold State.sendTone
  rw [State.join_rest]
  exact ⟨rfl, rfl⟩

theorem State.endSession_torn (hm : s.maint.mode = .transparent) (i : Nat) : State.Torn F s (s.endSession i false) := by
  cases hx : s.paging.sessions.get i with
  | none =>
    rw [State.endSession_free hx]
    exact .refl s
  | some x =>
    have hleft : s.QuietZones (s.sessionLeft i x) :=
      foldl_quiet (fun _ z ht => State.withdrawClaim_quiet ht z _) hm _
    have hfreed : State.Torn F s (s.freed i x (s.sessionLeft i x).zones) := by
      refine ⟨rfl, .of_same rfl rfl, fun _ h => h, hleft.zone, fun n => ?_⟩
      unfold State.freed
      dsimp only
      rw [Tab.get_put]
      split
      · rename_i h
        rw [h.1]
      · rfl
    rw [State.endSession_toned hx]
    exact hfreed.trans (.join _ _)

theorem State.teardownSessions_torn (hm : s.maint.mode = .transparent) : State.Torn F s s.teardownSessions :=
  foldl_kept (P := State.Torn F s) (fun _ i ht => ht.trans (State.endSession_torn (ht.mode.trans hm) i)) _ (.refl s)

theorem State.endSession_sessions (i j : Nat) :
    (s.endSession i false).paging.sessions.get j = if j = i then none else s.paging.sessions.get j := by
  cases hx : s.paging.sessions.get i with
  | none =>
    rw [State.endSession_free hx]
    split
    · rename_i h
      rw [h, hx]
    · rfl
  | some x =>
    have hi : 1 ≤ i ∧ i < 1 + 8 := by
      by_contra hi
      rw [Tab.get_of_not_mem _ hi] at hx
      cases hx
    rw [(State.endSession_rest hx).2]
    by_cases h : j = i
    · rw [if_pos h, h, Tab.get_put_same _ _ hi]
    · rw [if_neg h, Tab.get_put_ne _ _ (Ne.symm h)]

theorem State.endSessions_sessions (l : List Nat) (j : Nat) :
    (l.foldl (fun t i => t.endSession i false) s).paging.sessions.get j =
      if j ∈ l then none else s.paging.sessions.get j := by
  induction l generalizing s with
  | nil => simp
  | cons i l ih =>
    rw [List.foldl_cons, ih, State.endSession_sessions]
    by_cases hl : j ∈ l
    · simp [hl]
    · by_cases hj : j = i <;> simp [hl, hj]

theorem State.teardownSessions_sessions (s : State) (j : Nat) : s.teardownSessions.paging.sessions.get j = none := by
  unfold State.teardownSessions
  rw [State.endSessions_sessions]
  by_cases hj : 1 ≤ j ∧ j < 1 + 8
  · exact if_pos (List.mem_range'_1.mpr hj)
  · rw [Tab.get_of_not_mem _ hj]
    exact ite_self _

/-- A source session that is absent stays so while sessions end. -/
theorem State.endSession_source {i n : Nat} (h : (s.stations.get n).source = none) :
    ((s.endSession i false).stations.get n).source = none := by
  cases hx : s.paging.sessions.get i with
  | none =>
    rw [State.endSession_free hx]
    exact h
  | some x =>
    rw [(State.endSession_rest hx).1, Tab.get_put]
    split
    · rfl
    · exact h

/-- The source of a session that ends has no source session any more (07, R135). -/
theorem State.teardownSessions_source {i n : Nat} {x : Session} (hn : n < 384) (hx : s.paging.sessions.get i = some x)
    (hs : x.source = n) : (s.teardownSessions.stations.get n).source = none := by
  have hi : i ∈ sessionNumbers := by
    by_contra hi
    rw [Tab.get_of_not_mem _ (mt List.mem_range'_1.mpr hi)] at hx
    cases hx
  obtain ⟨l1, l2, hsplit⟩ := List.append_of_mem hi
  have hnodup : (l1 ++ i :: l2).Nodup := hsplit ▸ List.nodup_range'
  have h1 : i ∉ l1 := fun h => (List.nodup_append.mp hnodup).2.2 i h i List.mem_cons_self rfl
  unfold State.teardownSessions
  rw [hsplit, List.foldl_append, List.foldl_cons]
  have hx1 : (l1.foldl (fun t i => t.endSession i false) s).paging.sessions.get i = some x := by
    rw [State.endSessions_sessions, if_neg h1, hx]
  refine foldl_kept (P := fun t => (t.stations.get n).source = none) (fun _ _ ht => State.endSession_source ht) l2 ?_
  rw [(State.endSession_rest hx1).1, hs, State.get_put_station hn]

/-! ### The whole teardown -/

/-- The teardown before the zones and orbits are put in order (11, R184). -/
def State.tornBlocks (s : State) : State :=
  (((s.modMaint fun m => { m with mode := .transparent }).teardownHunt).teardownSessions).withdrawAlarm.reevaluateAll

theorem State.withdrawAlarm_torn (hm : s.maint.mode = .transparent) : State.Torn F s s.withdrawAlarm := by
  have hgone : s.QuietZones (s.alarm.claimed.foldl (fun t z => t.withdrawClaim z .alarm) s) :=
    foldl_quiet (fun _ z ht => State.withdrawClaim_quiet ht z _) hm _
  have hunclaimed : State.Torn F s s.alarmUnclaimed :=
    hgone.torn.trans ⟨rfl, .of_same rfl rfl, fun _ h => h, fun _ => rfl, fun _ => rfl⟩
  rw [State.withdrawAlarm_fold]
  exact hunclaimed.trans (foldl_quiet (fun t z _ => t.chooseBeacon_quiet z) (hunclaimed.mode.trans hm) _).torn

theorem State.reevaluateAll_torn (hm : s.maint.mode = .transparent) : State.Torn F s s.reevaluateAll :=
  (foldl_quiet (fun _ z ht => State.reevaluateAssist_quiet ht z) hm _).torn

theorem State.tornBlocks_torn (hF : s.MayOverflow F) :
    State.Torn F (s.modMaint fun m => { m with mode := .transparent }) s.tornBlocks := by
  unfold State.tornBlocks
  have hstart : (s.modMaint fun m => { m with mode := .transparent }).MayOverflow F := hF
  have hmode : (s.modMaint fun m => { m with mode := .transparent }).maint.mode = .transparent := rfl
  generalize s.modMaint (fun m => { m with mode := .transparent }) = v at hstart hmode
  have h1 := State.teardownHunt_torn hmode hstart
  have h2 := h1.trans (State.teardownSessions_torn (h1.mode.trans hmode))
  have h3 := h2.trans (State.withdrawAlarm_torn (h2.mode.trans hmode))
  exact h3.trans (State.reevaluateAll_torn (h3.mode.trans hmode))

theorem State.orbitsFreed_eq (l : List Nat) (s : State) :
    l.foldl (fun t n => t.setOrbit n none) s = { s with orbits := l.foldl (fun os n => os.put n none) s.orbits } := by
  induction l generalizing s with
  | nil => rfl
  | cons n l ih => exact ih (s.setOrbit n none)

theorem State.tornDown_torn (s : State) : State.Torn F s s.tornDown := by
  have hzones : State.Torn F s (zoneNumbers.foldl (fun t z => t.modZone z Zone.silent) s) :=
    foldl_kept (P := State.Torn F s) (fun _ z ht => ht.trans (State.QuietZones.modZone (z := z) (f := Zone.silent) fun _ => rfl).torn) _
      (.refl s)
  unfold State.tornDown
  rw [State.orbitsFreed_eq]
  exact hzones.trans ⟨rfl, .of_same rfl rfl, fun _ h => h, fun _ => rfl, fun _ => rfl⟩

/-- A zone put in order at the end of a teardown (07, R138). -/
theorem State.tornDown_zone {z : Nat} (hz : 1 ≤ z ∧ z < 1 + 24) : s.tornDown.zones.get z = (s.zones.get z).silent := by
  have hget := foldl_onlyZone_get_once (s := s) (g := fun t z => t.modZone z Zone.silent)
    (fun t y => t.modZone_onlyZone y _) zoneNumbers_nodup (mem_zoneNumbers.mpr hz) (b := (s.zones.get z).silent)
    fun t _ ht => by rw [State.modZone_get hz, ht]
  unfold State.tornDown
  rw [State.orbitsFreed_eq]
  exact hget

theorem State.teardown_eq (s : State) : s.teardown = s.tornBlocks.tornDown := rfl

theorem State.teardown_torn (hF : s.MayOverflow F) :
    State.Torn F (s.modMaint fun m => { m with mode := .transparent }) s.teardown :=
  (State.tornBlocks_torn hF).trans (State.tornDown_torn _)

end Sys2Proof.Machine
end

section
/-! PROOFS. SET_MODE and RESTART (O41, O42; 11, R184, R185). -/

namespace Sys2Proof.Machine

variable {F : Flag → Prop} {s t u : State}

/-! ### What the Hunt Controller's teardown leaves to the other blocks -/

/-- Only the lanes, the flags, the Hunt Controller, the orbits and the zones changed. -/
def State.HuntOnly (s t : State) : Prop :=
  t = { s with lane := t.lane, maint := t.maint, hunt := t.hunt, orbits := t.orbits, zones := t.zones }

theorem State.HuntOnly.refl (s : State) : s.HuntOnly s := Eq.refl s

theorem State.HuntOnly.trans (h : s.HuntOnly t) (k : t.HuntOnly u) : s.HuntOnly u := by
  unfold State.HuntOnly at *
  rw [k, h]

theorem State.lanesOf_huntOnly (s t : State) : s.HuntOnly (s.lanesOf t) := Eq.refl (s.lanesOf t)

theorem State.join_huntOnly (d : Dir) (c : LaneCell) : s.HuntOnly (s.join d c) := by
  rw [s.join_rest d c]
  exact s.lanesOf_huntOnly _

theorem State.setFlag_huntOnly (f : Flag) : s.HuntOnly (s.setFlag f) := by
  rw [s.setFlag_rest f]
  exact s.lanesOf_huntOnly _

theorem State.modHunt_huntOnly (f : Hunt → Hunt) : s.HuntOnly (s.modHunt f) := Eq.refl (s.modHunt f)

theorem State.headLeft_huntOnly (g : Nat) (left : Bool) (s : State) : s.HuntOnly (s.headLeft g left) := by
  rw [State.headLeft_eq]
  exact State.modHunt_huntOnly fun h =>
    { h with headChecks := if left then insertSorted g s.hunt.headChecks else s.hunt.headChecks }

theorem State.modGroupCounters_huntOnly (g : Nat) (f : GroupCounters → GroupCounters) :
    s.HuntOnly (s.modGroupCounters g f) := State.modHunt_huntOnly _

theorem State.zonesOnly.huntOnly (h : s.zonesOnly t) : s.HuntOnly t := by
  unfold State.HuntOnly
  rw [h]

theorem State.orbitFreed_huntOnly (r : HuntRecord) (s : State) : s.HuntOnly (s.orbitFreed r false) := by
  unfold State.orbitFreed
  cases r.orbit with
  | none => exact .refl s
  | some n =>
    have hzones : s.zonesOnly (zoneNumbers.foldl (fun t z => t.withdrawClaim z (.orbit n)) s) :=
      foldl_onlyZone_zonesOnly (fun t z => t.withdrawClaim_onlyZone z _) _
    show s.HuntOnly (State.releaseOrbit n false s)
    unfold State.releaseOrbit
    generalize zoneNumbers.foldl (fun t z => t.withdrawClaim z (.orbit n)) s = v at hzones
    exact hzones.huntOnly.trans (Eq.refl (v.setOrbit n none))

theorem State.removeRecord_huntOnly (c : CallRef) (s : State) : s.HuntOnly (s.removeRecord c true) := by
  cases hr : s.record c with
  | none =>
    rw [State.removeRecord_none hr]
    exact .refl s
  | some r =>
    rw [State.removeRecord_parts hr, if_pos rfl]
    have hfreed := (s.modHunt_huntOnly fun h => { h with records := h.records.filter fun q => q.call ≠ c }).trans
      (State.orbitFreed_huntOnly r (s.withoutRecord c))
    exact hfreed.trans (State.headLeft_huntOnly ..)

theorem State.tearRecord_huntOnly (g : Nat) (s : State) (r : HuntRecord) : s.HuntOnly (s.tearRecord g r) := by
  have hsent : s.HuntOnly (s.sendOwn r.call (overflowBody (s.activeGroup g).fields.overflowDn)) :=
    State.join_huntOnly _ _
  exact ((hsent.trans (State.removeRecord_huntOnly ..)).trans (State.setFlag_huntOnly _)).trans
    (State.modGroupCounters_huntOnly ..)

theorem State.teardownHunt_huntOnly (s : State) : s.HuntOnly s.teardownHunt := by
  have hgroup (t : State) (g : Nat) : t.HuntOnly (t.teardownGroup g) := by
    rw [State.teardownGroup_eq]
    have hq := foldl_kept (P := t.HuntOnly) (fun _ r hv => hv.trans (State.tearRecord_huntOnly g _ r)) (t.queue g)
      (.refl t)
    exact hq.trans (State.modHunt_huntOnly _)
  have hgroups := foldl_kept (P := s.HuntOnly) (fun _ g ht => ht.trans (hgroup _ g)) groupNumbers (.refl s)
  exact hgroups.trans (State.modHunt_huntOnly _)

/-- The end of the sessions leaves the Hunt Controller and the alarm. -/
theorem State.teardownSessions_kept (s : State) :
    s.teardownSessions.hunt = s.hunt ∧ s.teardownSessions.alarm = s.alarm := by
  refine foldl_kept (P := fun t => t.hunt = s.hunt ∧ t.alarm = s.alarm) (fun t i ht => ?_) _ ⟨rfl, rfl⟩
  cases hx : t.paging.sessions.get i with
  | none => rwa [State.endSession_free hx]
  | some x =>
    rw [State.endSession_toned hx]
    unfold State.sendTone
    rw [State.join_rest]
    exact ht

/-- What comes behind the sessions' end in a teardown changes zones, orbits and the alarm's lists alone. -/
theorem State.tornBlocks_later (u : State) :
    u.withdrawAlarm.reevaluateAll.tornDown = { u with
      zones := u.withdrawAlarm.reevaluateAll.tornDown.zones, orbits := u.withdrawAlarm.reevaluateAll.tornDown.orbits
      alarm := { u.alarm with claimed := [], scope := none } } := by
  have hdown (v : State) : v.tornDown = { v with zones := v.tornDown.zones, orbits := v.tornDown.orbits } := by
    have hzones : v.zonesOnly (zoneNumbers.foldl (fun t z => t.modZone z Zone.silent) v) :=
      foldl_onlyZone_zonesOnly (fun t z => t.modZone_onlyZone z _) _
    unfold State.tornDown
    rw [State.orbitsFreed_eq]
    generalize zoneNumbers.foldl (fun t z => t.modZone z Zone.silent) v = w at hzones
    rw [hzones]
  rw [hdown, State.reevaluateAll_zonesOnly u.withdrawAlarm, u.withdrawAlarm_rest]

/-- The part of a teardown up to the end of the sessions. -/
def State.callsTorn (s : State) : State := ((s.modMaint fun m => { m with mode := .transparent }).teardownHunt).teardownSessions

theorem State.teardown_later (s : State) :
    s.teardown = { s.callsTorn with
      zones := s.teardown.zones, orbits := s.teardown.orbits
      alarm := { s.callsTorn.alarm with claimed := [], scope := none } } := by
  have hparts : s.teardown = s.callsTorn.withdrawAlarm.reevaluateAll.tornDown := rfl
  rw [hparts]
  exact State.tornBlocks_later s.callsTorn

theorem State.teardown_hunt (s : State) :
    s.teardown.hunt = (s.modMaint fun m => { m with mode := .transparent }).teardownHunt.hunt := by
  have hcalls := congrArg State.hunt s.teardown_later
  dsimp only at hcalls
  rw [hcalls]
  unfold State.callsTorn
  exact (State.teardownSessions_kept _).1

theorem State.teardown_mode (s : State) : s.teardown.maint.mode = .transparent := by
  have htorn := State.teardown_torn (F := fun _ => True) (s := s) fun _ _ _ => trivial
  exact htorn.mode

/-! ### SET_MODE (11, R184) -/

theorem State.becomeEngaged_same (h : s.maint.mode = .engaged) : s.becomeEngaged = s := if_pos h

theorem State.becomeTransparent_same (h : s.maint.mode = .transparent) : s.becomeTransparent = s :=
  if_neg (by rw [h]; nofun)

theorem State.becomeEngaged_eq (h : s.maint.mode = .transparent) :
    s.becomeEngaged =
      let engaged : State := { s with maint := { s.maint with mode := .engaged } }
      (if s.alarm.source.isSome then engaged.placeAlarm else engaged).reevaluateAll :=
  if_neg (by rw [h]; nofun)

/-- The mode is changed by no small update of the blocks. -/
theorem Free.mode (m : Mode) : Free fun t => t.maint.mode = m where
  assist _ := id
  zone h _ := h
  lane h _ := h
  flag _ h := h
  source _ h := h
  paging h _ := h
  alarm h _ := h
  station h _ := h
  hunt h _ := h
  orbit h := h
  pickup h _ := h

theorem State.placeAlarm_mode (s : State) : s.placeAlarm.maint.mode = s.maint.mode :=
  (Free.mode s.maint.mode).kept.placeAlarm rfl

theorem State.becomeEngaged_mode (s : State) : s.becomeEngaged.maint.mode = .engaged := by
  by_cases h : s.maint.mode = .engaged
  · rw [State.becomeEngaged_same h, h]
  · have ht : s.maint.mode = .transparent := by
      cases hm : s.maint.mode with
      | transparent => rfl
      | engaged => exact absurd hm h
    rw [State.becomeEngaged_eq ht, State.reevaluateAll_zonesOnly]
    dsimp only
    split
    · exact State.placeAlarm_mode _
    · rfl

theorem exec_setMode {i : Instr} {tag data : Byte} (hi : requestOf i = some (tag, 6#8, [data]))
    (hp : s.lane.phase = .inService) (hc : s.Calm) :
    exec i s = .next (State.reply tag ((s.endBridge .down).setMode [data])) := exec_reply hi hp hc (by decide)

theorem State.setMode_zero (s : State) : s.setMode [0#8] = done s.becomeTransparent (enumByte modes s.becomeTransparent.maint.mode) := rfl

theorem State.setMode_one (s : State) : s.setMode [1#8] = done s.becomeEngaged (enumByte modes s.becomeEngaged.maint.mode) := rfl

/-- Settles O41: the same mode, ENGAGED as claims placed and re-evaluated, TRANSPARENT as the teardown block by block. -/
theorem setModeChangesMode : Obligations.SetModeChangesMode := by
  intro tag s hp hc b engaged
  have hto0 : exec (.setModeTransparent tag [0#8]) s =
      .next (State.reply tag (done b.becomeTransparent (enumByte modes b.becomeTransparent.maint.mode))) :=
    exec_setMode (i := .setModeTransparent tag [0#8]) rfl hp hc
  have hto1 : exec (.setModeEngaged tag [1#8]) s =
      .next (State.reply tag ⟨b.becomeEngaged, .done, [1#8]⟩) := by
    have h := exec_setMode (i := .setModeEngaged tag [1#8]) rfl hp hc
    rw [State.setMode_one, State.becomeEngaged_mode] at h
    exact h
  refine ⟨fun hr => ⟨fun hm => ?stays0, fun hm => ?stays1, fun hm ha => ?engages⟩, fun hm ha => ?alarmed,
    fun hm hgroups => ?tears⟩
  case stays0 =>
    have hroom : b.room .up 1 := (State.endBridge_room ..).mpr hr
    have hm : b.maint.mode = .transparent := hm
    rw [hto0, State.becomeTransparent_same hm, hm, State.reply_one (Nat.le_of_ble_eq_true rfl) hroom]
    rfl
  case stays1 =>
    have hroom : b.room .up 1 := (State.endBridge_room ..).mpr hr
    have hm : b.maint.mode = .engaged := hm
    rw [hto1, State.becomeEngaged_same hm, State.reply_one (Nat.le_of_ble_eq_true rfl) hroom]
    rfl
  case engages =>
    have hm : b.maint.mode = .transparent := hm
    have hnone : b.alarm.source.isSome = false := by
      rw [show b.alarm.source = s.alarm.source from rfl, ha]
      rfl
    have hlane : engaged.reevaluateAll.lane = b.lane := by
      rw [State.reevaluateAll_zonesOnly]
    have hroom : engaged.reevaluateAll.room .up 1 := by
      unfold State.room
      rw [hlane]
      exact (State.endBridge_room ..).mpr hr
    have hengages : b.becomeEngaged = engaged.reevaluateAll := by
      rw [State.becomeEngaged_eq hm, hnone]
      rfl
    rw [hto1, hengages, State.reply_one (Nat.le_of_ble_eq_true rfl) hroom, hlane]
    rfl
  case alarmed =>
    have hm : b.maint.mode = .transparent := hm
    have hsome : b.alarm.source.isSome = true := Option.isSome_iff_ne_none.mpr ha
    rw [hto1, State.becomeEngaged_eq hm, hsome]
    rfl
  case tears =>
    have hm : b.maint.mode = .engaged := hm
    have htears : b.becomeTransparent = b.teardown := if_pos hm
    have htorn := State.teardown_torn (F := fun _ => True) (s := b) fun _ _ _ => trivial
    let v : State := b.modMaint fun m => { m with mode := .transparent }
    have hv : v.HuntOnly v.teardownHunt := v.teardownHunt_huntOnly
    have hlater := b.teardown_later
    have hhunt := b.teardown_hunt
    refine ⟨b.teardown, ?_, b.teardown_mode, ?records, ?closed, ?staged, ?active, ?countdown, fun i => ?sessions,
      ?claimed, ?scope, ?source, b.tornBlocks.tornDown_orbits, fun z h1 h2 => ?zones,
      fun n i x hn hi hx hs => ?sources, htorn.stations⟩
    · rw [hto0, htears, State.teardown_mode]
      rfl
    case records =>
      rw [hhunt]
      exact State.teardownHunt_records rfl hgroups
    case closed =>
      rw [hhunt]
      exact State.teardownHunt_closed v
    case staged => rw [htorn.rest]; rfl
    case active => rw [htorn.rest]; rfl
    case countdown => rw [htorn.rest]; rfl
    case sessions =>
      have hpaging := congrArg State.paging hlater
      dsimp only at hpaging
      rw [hpaging]
      unfold State.callsTorn
      exact State.teardownSessions_sessions _ i
    case claimed =>
      have halarm := congrArg State.alarm hlater
      dsimp only at halarm
      rw [halarm]
    case scope =>
      have halarm := congrArg State.alarm hlater
      dsimp only at halarm
      rw [halarm]
    case source => rw [htorn.rest]; rfl
    case zones =>
      have hz : 1 ≤ z ∧ z < 1 + 24 := by omega
      have hget := State.tornDown_zone (s := b.tornBlocks) hz
      have hquiet := htorn.zones z
      rw [State.teardown_eq, hget] at hquiet ⊢
      unfold Zone.Quiet at hquiet
      exact ⟨rfl, rfl, rfl, by rw [hquiet]; rfl, by rw [hquiet]; rfl⟩
    case sources =>
      have hstations := congrArg State.stations hlater
      dsimp only at hstations
      rw [hstations]
      unfold State.callsTorn
      refine State.teardownSessions_source (i := i) hn (x := x) ?_ hs
      rw [hv]
      exact hx

end Sys2Proof.Machine
end

section
/-! PROOFS. RESTART (O42; 11, R185). -/

namespace Sys2Proof.Machine

variable {F : Flag → Prop} {s t : State}

/-! ### The stages of RESTART -/

/-- The part with its blocks at their RESTART values, before the flag and the line (11, R185, stage 2). -/
def State.restartBegun (s : State) : State := s.becomeTransparent.restartBlocks

/-- The lanes and the maintenance block that a RESTART starts from: the mode and the cause set, RESET unmasked. -/
def State.restartBase (s : State) : State :=
  { s with maint := { s.maint with
      mode := .transparent, cause := .restart, mask := s.maint.mask &&& ~~~ flagMask .reset } }

/-- The flags that a RESTART may set, besides LANE_OVERFLOW (11, R185). -/
def State.RestartFlag (s : State) (f : Flag) : Prop :=
  f = .reset ∨ f = .alarmEntered ∧ s.alarm.line = true ∨
    f = .queueOverflow ∧ s.maint.mode = .engaged ∧ ∃ r ∈ s.hunt.records, r.isQueued = true

theorem State.becomeTransparent_torn (s : State) :
    State.Torn s.RestartFlag (s.modMaint fun m => { m with mode := .transparent }) s.becomeTransparent := by
  cases hm : s.maint.mode with
  | transparent =>
    have hsame : (s.modMaint fun m => { m with mode := .transparent }) = s := by
      unfold State.modMaint
      rw [← hm]
    rw [hsame, State.becomeTransparent_same hm]
    exact .refl s
  | engaged =>
    have htears : s.becomeTransparent = s.teardown := if_pos hm
    rw [htears]
    exact State.teardown_torn fun r hr hq => .inr (.inr ⟨rfl, hm, r, hr, hq⟩)

/-- The maintenance block of a part as RESET is set and unmasked, with its cause RESTART. -/
def State.restartNoted (s : State) : State :=
  (s.modMaint fun m => { m with cause := .restart, mask := m.mask &&& ~~~ flagMask .reset }).flagged .reset

/-- RESTART sets RESET over the blocks at their values, and then reads the line. -/
theorem State.restart_eq (s : State) :
    s.restart =
      State.readAlarmLine
        (if hasFlag s.restartBegun.maint.flags .reset && !hasFlag s.restartBegun.maint.mask .reset then
          s.restartBegun.restartNoted
        else s.restartBegun.restartNoted.join .up (.known (attentionCell s.restartBegun.restartNoted))) := rfl

/-- The line that a RESTART finds active enters the alarm, with no claim in TRANSPARENT mode (10, R171, R172). -/
theorem State.readAlarmLine_transparent (h : s.maint.mode = .transparent) :
    s.readAlarmLine =
      if s.alarm.line = true then
        ({ s with alarm := { s.alarm with source := some .input } } : State).setFlag .alarmEntered
      else s := by
  unfold State.readAlarmLine
  split
  · rw [State.enterAlarm_eq]
    exact if_neg (by rw [h]; nofun)
  · rfl

/-- A RESTART's blocks beside the lanes, the flags and the latch's source. -/
theorem State.restart_rest (s : State) :
    s.restart = { s.restartBegun with
      lane := s.restart.lane, maint := s.restart.maint
      alarm := { s.restartBegun.alarm with source := if s.alarm.line = true then some .input else none } } ∧
    State.LaneGrows s.RestartFlag s.restartBase s.restart ∧ hasFlag s.restart.maint.flags .reset = true := by
  have htorn := s.becomeTransparent_torn
  have hbegun : s.restartBegun.SameLanes s.becomeTransparent := ⟨rfl, rfl⟩
  have hline : s.restartBegun.alarm.line = s.alarm.line := by
    show s.becomeTransparent.alarm.line = _
    rw [htorn.rest]
    rfl
  have hsource : s.restartBegun.alarm.source = none := rfl
  have hmode : s.restartBegun.maint.mode = .transparent := htorn.mode
  have hgrown : State.LaneGrows s.RestartFlag s.restartBase s.restartBegun.restartNoted := by
    have hlanes := htorn.lanes
    have hcleared : State.LaneGrows s.RestartFlag s.restartBase (s.restartBegun.modMaint fun m =>
        { m with cause := .restart, mask := m.mask &&& ~~~ flagMask .reset }) := by
      refine ⟨hlanes.lane, hlanes.quiet, ?_, hlanes.kept, hlanes.new⟩
      unfold State.modMaint
      dsimp only
      rw [hbegun.maint, hlanes.maint]
      rfl
    exact hcleared.trans (.flagged (.inr (.inl rfl)))
  have hnoted : hasFlag s.restartBegun.restartNoted.maint.flags .reset = true := hasFlag_or ..
  have hrest : s.restartBegun.restartNoted = s.restartBegun.lanesOf s.restartBegun.restartNoted := rfl
  rw [s.restart_eq]
  generalize s.restartBegun.restartNoted = n at hgrown hnoted hrest
  have hjoined : ∀ c : Bool, ∃ r, (if c then n else n.join .up (.known (attentionCell n))) = r ∧
      State.LaneGrows s.RestartFlag n r ∧ r = n.lanesOf r := by
    intro c
    cases c
    · exact ⟨_, rfl, .join _ _, State.join_rest ..⟩
    · exact ⟨_, rfl, .refl n, rfl⟩
  obtain ⟨r, hr_eq, hr, hrn⟩ :=
    hjoined (hasFlag s.restartBegun.maint.flags .reset && !hasFlag s.restartBegun.maint.mask .reset)
  rw [hrest] at hrn
  change r = s.restartBegun.lanesOf r at hrn
  rw [hr_eq]
  have hrmode : r.maint.mode = .transparent := by
    rw [hr.maint, hgrown.maint]
    rfl
  have hrline : r.alarm.line = s.alarm.line := by
    rw [hrn]
    exact hline
  have hto := hgrown.trans hr
  have hset := hr.kept _ hnoted
  rw [State.readAlarmLine_transparent hrmode, hrline]
  split
  · rename_i hactive
    have hflag : State.LaneGrows s.RestartFlag ({ r with alarm := { r.alarm with source := some .input } } : State)
        (({ r with alarm := { r.alarm with source := some .input } } : State).setFlag .alarmEntered) :=
      .setFlag (.inr (.inr (.inl ⟨rfl, hactive⟩)))
    have hentered : State.LaneGrows s.RestartFlag s.restartBase
        ({ r with alarm := { r.alarm with source := some .input } } : State) := hto.congr ⟨rfl, rfl⟩
    refine ⟨?_, hentered.trans hflag, hflag.kept _ hset⟩
    rw [State.setFlag_rest, hrn]
    rfl
  · refine ⟨?_, hto, hset⟩
    rw [hrn]
    rfl

/-! ### The blocks at their values -/

theorem exec_restart (tag : Byte) (hp : s.lane.phase = .inService) (hc : s.Calm) :
    exec (.restart tag []) s = .next (State.reply tag ⟨(s.endBridge .down).restart, .done, []⟩) :=
  exec_reply (i := .restart tag []) rfl hp hc (by decide)

/-- Settles O42: the teardown, the blocks' RESTART values, and what the flags and the lanes keep. -/
theorem restartReturnsBlocks : Obligations.RestartReturnsBlocks := by
  intro tag s hp hc
  let b := s.endBridge .down
  obtain ⟨hrest, hlanes, hreset⟩ := b.restart_rest
  have htorn := b.becomeTransparent_torn
  have hto := exec_restart tag hp hc
  change exec (.restart tag []) s = .next (State.reply tag ⟨b.restart, .done, []⟩) at hto
  have hlive : s.hunt.Fits → ∀ g, b.becomeTransparent.hunt.live.get g =
      if s.maint.mode = .engaged ∧ 1 ≤ g ∧ g ≤ 32 then GroupLive.away (s.queue g).length (s.hunt.live.get g)
      else s.hunt.live.get g := by
    intro hfits g
    cases hm : s.maint.mode with
    | transparent => rw [State.becomeTransparent_same (s := b) hm]; simp; rfl
    | engaged =>
      have htears : b.becomeTransparent = b.teardown := if_pos hm
      have hget := State.teardownHunt_live (s := b.modMaint fun m => { m with mode := .transparent }) hfits.calls g
      rw [htears, State.teardown_hunt, hget]
      simp only [true_and]
      rfl
  have hsame : s.maint.mode = .transparent → b.becomeTransparent.hunt.live = s.hunt.live := by
    intro hm
    rw [State.becomeTransparent_same (s := b) hm]
    rfl
  have hblocks : b.restartBegun = b.becomeTransparent.restartBlocks := rfl
  generalize b.restart = t at hrest hlanes hreset hto
  generalize b.becomeTransparent = w at htorn hlive hsame hblocks
  have hmask : t.maint.mask = s.maint.mask &&& ~~~ flagMask .reset := by
    rw [hlanes.maint]
    rfl
  refine ⟨t, hto, ?mode, ?cause, hreset, ?unmasked, ?hunt, ?orbits, ?ringing, ?partners, ?sessions, ?zoneSets, ?params,
    ?prompts, ?codes, ?clock, ?own, ?straps, ?alarm, fun n hn => ?stations, fun z h1 h2 => ?zones, ?pickup, ?paging,
    hmask, hlanes.kept, fun f hf => ?new, ?lane, ?counters, hlanes.quiet, fun hm => ?live, fun hfits g => ?counts,
    ?highway, ?pending⟩
  case hunt | orbits | ringing | partners | sessions | zoneSets | params | prompts | codes | clock | alarm | pickup |
      paging | highway | pending =>
    rw [hrest, hblocks, htorn.rest]
    rfl
  case mode | cause =>
    rw [hlanes.maint]
    rfl
  case unmasked =>
    rw [hmask]
    unfold hasFlag flagMask
    have hlt := flagIndex_lt .reset
    simp [hlt]
  case own =>
    obtain ⟨_, _, _, _, e⟩ := hlanes.lane
    rw [e]
    rfl
  case straps =>
    obtain ⟨_, _, _, _, e⟩ := hlanes.lane
    rw [e]
    rfl
  case stations =>
    have hget : t.stations.get n = (w.stations.get n).restarted := by
      rw [hrest, hblocks]
      exact Tab.get_map _ _ ⟨Nat.zero_le n, by omega⟩
    rw [hget, htorn.stations n]
    rfl
  case zones =>
    have hget : t.zones.get z = (w.zones.get z).emptied := by
      rw [hrest, hblocks]
      exact Tab.get_map _ _ (by omega)
    have hquiet := htorn.zones z
    unfold Zone.Quiet at hquiet
    rw [hget, hquiet]
    rfl
  case new =>
    have hnew := hlanes.new f hf
    unfold State.RestartFlag at hnew
    rcases hnew with h | h | h | h | h
    · exact .inl h
    · exact .inr (.inr (.inl h))
    · exact .inr (.inl h)
    · exact .inr (.inr (.inr (.inl h)))
    · exact .inr (.inr (.inr (.inr h)))
  case lane =>
    obtain ⟨down, up, _, _, e⟩ := hlanes.lane
    exact ⟨down, up, by rw [e]; rfl⟩
  case counters =>
    obtain ⟨_, _, _, _, e⟩ := hlanes.lane
    rw [e]
    rfl
  case live =>
    rw [hrest, hblocks]
    exact hsame hm
  case counts =>
    have hget : t.hunt.live.get g = w.hunt.live.get g := by
      rw [hrest, hblocks]
      rfl
    rw [hget, hlive hfits g]
    unfold GroupLive.away
    dsimp only
    by_cases haway : (s.queue g).length = 0
    · simp [haway]
    · simp [haway]

end Sys2Proof.Machine
end

section
/-! PROOFS. What WRITE_ENTRY stores and refuses, table by table (O39; 11, R182, R183; 12, R197). -/

namespace Sys2Proof.Machine

variable {s t : State} {tag : Byte}

/-! ### The answer to a WRITE_ENTRY (11, R182) -/

section
variable {b i1 i2 : Byte} {rest : List Byte} {table : Table} {w : EntryWrite}

theorem State.writeEntry_done {s1 : State} (ht : tableOf b.toNat = some table) (hw : table.readWrite rest = some w)
    (ho : table.readOnly = false) (h : s.writeTable table (bytesNat [i1, i2]) w = some s1) :
    s.writeEntry (b :: i1 :: i2 :: rest) = done s1 (s1.entryBytes table (bytesNat [i1, i2])) := by
  simp only [State.writeEntry, ht, hw, ho, h, Bool.false_eq_true, if_false]

theorem State.writeEntry_refused (ht : tableOf b.toNat = some table) (hw : table.readWrite rest = some w)
    (ho : table.readOnly = false) (h : s.writeTable table (bytesNat [i1, i2]) w = none) :
    s.writeEntry (b :: i1 :: i2 :: rest) = refuseArgument s := by
  simp only [State.writeEntry, ht, hw, ho, h, Bool.false_eq_true, if_false]

theorem State.writeEntry_readOnly (ht : tableOf b.toNat = some table) (hw : table.readWrite rest = some w)
    (ho : table.readOnly = true) : s.writeEntry (b :: i1 :: i2 :: rest) = refuseState s := by
  simp only [State.writeEntry, ht, hw, ho, if_true]

/-- WRITE_ENTRY answers as its table's write comes out. -/
theorem exec_writeEntry (hp : s.lane.phase = .inService) (hc : s.Calm) (hroom : s.room .up 1)
    (ht : tableOf b.toNat = some table) (hw : table.readWrite rest = some w) :
    (∀ s1, table.readOnly = false → (s.endBridge .down).writeTable table (bytesNat [i1, i2]) w = some s1 →
      exec (.writeEntry tag (b :: i1 :: i2 :: rest)) s =
        .next (State.reply tag ⟨s1, .done, s1.entryBytes table (bytesNat [i1, i2])⟩)) ∧
    (table.readOnly = false → (s.endBridge .down).writeTable table (bytesNat [i1, i2]) w = none →
      exec (.writeEntry tag (b :: i1 :: i2 :: rest)) s =
        .next ((s.endBridge .down).queued .up [replyCell s.lane.own tag .refusedArgument []])) ∧
    (table.readOnly = true →
      exec (.writeEntry tag (b :: i1 :: i2 :: rest)) s =
        .next ((s.endBridge .down).queued .up [replyCell s.lane.own tag .refusedState []])) := by
  have hr : (s.endBridge .down).room .up 1 := (State.endBridge_room ..).mpr hroom
  refine ⟨fun s1 ho h => ?_, fun ho h => ?_, fun ho => ?_⟩
  · exact (exec_reply (kind := 2#8) (args := b :: i1 :: i2 :: rest) rfl hp hc (by decide)).trans
      (congrArg (fun a => Host.Outcome.next (State.reply tag a)) (State.writeEntry_done ht hw ho h))
  · exact exec_replyOne (kind := 2#8) (args := b :: i1 :: i2 :: rest) rfl hp hc (by decide) (State.writeEntry_refused ht hw ho h) (Nat.zero_le _) hr
  · exact exec_replyOne (kind := 2#8) (args := b :: i1 :: i2 :: rest) rfl hp hc (by decide) (State.writeEntry_readOnly ht hw ho) (Nat.zero_le _) hr

end

/-! ### What a field takes -/

section
variable {v : FieldValue}

/-- A field after a write, where the form of its values is known. -/
theorem stored_iff {α : Type} {takes : FieldValue → α → Prop} {form : FieldValue → Option α}
    (h : ∀ v x, form v = some x ↔ takes v x) (m k : Nat) (v : FieldValue) (old new : α) :
    stored (isMarked m k) old (form v) = some new ↔ stores m k takes v old new := by
  unfold stored stores isMarked
  split
  · exact h v new
  · rw [Option.some_inj, eq_comm]

/-- One field's turn in a write. -/
theorem stored_bind {α β : Type} {takes : FieldValue → α → Prop} {form : FieldValue → Option α}
    (h : ∀ v x, form v = some x ↔ takes v x) {m k : Nat} {v : FieldValue} {old : α} {f : α → Option β} {b : β} :
    (stored (isMarked m k) old (form v) >>= f) = some b ↔ ∃ x, stores m k takes v old x ∧ f x = some b := by
  rw [Option.bind_eq_bind, Option.bind_eq_some_iff]
  simp only [stored_iff h]

theorem inRange_iff (lo hi : Nat) (v : FieldValue) (x : Nat) : inRange lo hi v = some x ↔ takesIn lo hi v x := by
  cases v with
  | text d p => exact iff_of_false nofun fun h => nomatch h.1
  | num n =>
    simp only [inRange, takesIn, Bool.and_eq_true, decide_eq_true_eq, Option.ite_none_right_eq_some, Option.some_inj,
      FieldValue.num.injEq]
    constructor
    · rintro ⟨⟨h1, h2⟩, rfl⟩
      exact ⟨rfl, h1, h2⟩
    · rintro ⟨rfl, h1, h2⟩
      exact ⟨⟨h1, h2⟩, rfl⟩

theorem clamp_eq {lo hi n : Nat} (h : lo ≤ hi) : clamp lo hi n = if n < lo then lo else if hi < n then hi else n := by
  unfold clamp
  split_ifs <;> omega

theorem clamped_iff {lo hi : Nat} (h : lo ≤ hi) (v : FieldValue) (x : Nat) :
    clamped lo hi v = some x ↔ takesNear lo hi v x := by
  cases v with
  | text d p => exact iff_of_false nofun fun ⟨n, hn, _⟩ => nomatch hn
  | num n =>
    simp only [clamped, takesNear, clamp_eq h, Option.some_inj, FieldValue.num.injEq, exists_eq_left', eq_comm]

theorem optionalIn_iff {width ones : Nat} (ho : ones + 1 = 256 ^ width) (lo hi : Nat) (v : FieldValue) (x : Option Nat) :
    optionalIn width lo hi v = some x ↔ takesOptional ones lo hi v x := by
  cases v with
  | text d p => exact iff_of_false nofun fun h => h.elim (fun h => nomatch h.1) fun ⟨n, hn, _⟩ => nomatch hn
  | num n =>
    have hall : n + 1 = 256 ^ width ↔ n = ones := by omega
    simp only [optionalIn, takesOptional, hall, FieldValue.num.injEq, exists_eq_left', Bool.and_eq_true,
      decide_eq_true_eq]
    by_cases hn : n = ones
    · simp [hn, eq_comm]
    · by_cases hr : lo ≤ n ∧ n ≤ hi
      · simp [hn, hr, eq_comm]
      · simp only [hn, hr, if_false, reduceCtorEq, false_and, false_or, false_iff]
        exact fun ⟨_, h1, h2, _⟩ => hr ⟨h1, h2⟩

theorem yesNo_iff (v : FieldValue) (x : Bool) : yesNo v = some x ↔ takesFlag v x := by
  unfold yesNo takesFlag
  split <;> rename_i h <;> simp_all [eq_comm]

theorem optionalDn_iff (v : FieldValue) (x : Option Digits) : optionalDn v = some x ↔ takesDn v x := by
  cases v with
  | num n => exact iff_of_false nofun fun h => h.elim (fun ⟨⟨_, h⟩, _⟩ => nomatch h) fun ⟨_, h, _⟩ => nomatch h
  | text d p =>
    cases d with
    | none => simp [optionalDn, takesDn, eq_comm]
    | some d =>
      simp only [optionalDn, takesDn, isDn, isDigit, Bool.and_eq_true, decide_eq_true_eq, List.all_eq_true,
        Option.ite_none_right_eq_some, Option.some_inj, FieldValue.text.injEq, reduceCtorEq, false_and, exists_false,
        false_or]
      constructor
      · rintro ⟨⟨rfl, ⟨h1, h2⟩, h3⟩, rfl⟩
        exact ⟨d, ⟨rfl, rfl⟩, h1, h2, h3, rfl⟩
      · rintro ⟨e, ⟨rfl, rfl⟩, h1, h2, h3, rfl⟩
        exact ⟨⟨rfl, ⟨h1, h2⟩, h3⟩, rfl⟩

theorem codeString_iff (v : FieldValue) (x : Digits) : codeString v = some x ↔ takesCode v x := by
  cases v with
  | num n => exact iff_of_false nofun fun h => nomatch h.1
  | text d p =>
    cases d with
    | none => exact iff_of_false nofun fun h => nomatch h.1
    | some d =>
      simp only [codeString, takesCode, isSymbol, Bool.and_eq_true, decide_eq_true_eq, List.all_eq_true,
        Option.ite_none_right_eq_some, Option.some_inj, FieldValue.text.injEq]
      constructor
      · rintro ⟨⟨⟨⟨rfl, h1⟩, h2⟩, h3⟩, rfl⟩
        exact ⟨⟨rfl, rfl⟩, h1, h2, h3⟩
      · rintro ⟨⟨rfl, rfl⟩, h1, h2, h3⟩
        exact ⟨⟨⟨⟨rfl, h1⟩, h2⟩, h3⟩, rfl⟩

theorem oneOf_iff {α : Type} (values : List α) (v : FieldValue) (x : α) : oneOf values v = some x ↔ takesOne values v x := by
  cases v with
  | text d p => exact iff_of_false nofun fun ⟨n, hn, _⟩ => nomatch hn
  | num n => simp only [oneOf, takesOne, FieldValue.num.injEq, exists_eq_left']

theorem anyNumber_iff (v : FieldValue) (x : Nat) : anyNumber v = some x ↔ v = .num x := by
  cases v with
  | text d p => exact iff_of_false nofun nofun
  | num n => simp only [anyNumber, Option.some_inj, FieldValue.num.injEq]

theorem clampThreshold_iff (v : FieldValue) (x : Nat) :
    clampThreshold v = some x ↔ (v = .num 0 ∧ x = 0 ∨ v ≠ .num 0 ∧ takesNear 5 600 v x) := by
  cases v with
  | text d p => exact iff_of_false nofun fun h => h.elim (fun h => nomatch h.1) fun ⟨_, n, hn, _⟩ => nomatch hn
  | num n =>
    simp only [clampThreshold, takesNear, Option.some_inj, FieldValue.num.injEq, exists_eq_left', ne_eq,
      clamp_eq (lo := 5) (hi := 600) (by decide)]
    by_cases hn : n = 0 <;> simp [hn, eq_comm]

end

/-! ### The entry after a write of marked fields -/

section
variable {m : Nat}

theorem ZoneFields.write_iff {enabled output sense music page tone base duck step floor slope boost on off : FieldValue}
    {old new : ZoneFields} :
    old.write m [enabled, output, sense, music, page, tone, base, duck, step, floor, slope, boost, on, off] = some new ↔
      ∃ level : Nat,
        stores m 0 takesFlag enabled old.enabled new.enabled ∧
        stores m 1 (takesIn 0 511) output old.outputSlot new.outputSlot ∧
        stores m 2 (takesOptional 65535 0 511) sense old.senseSlot new.senseSlot ∧
        stores m 3 (takesOptional 65535 0 511) music old.musicSlot new.musicSlot ∧
        stores m 4 (takesNear 0 4095) page old.pageGain new.pageGain ∧
        stores m 5 (takesNear 0 4095) tone old.toneGain new.toneGain ∧
        stores m 6 (takesNear 0 4095) base old.musicBase new.musicBase ∧
        stores m 7 (takesNear 0 4095) duck old.musicDuck new.musicDuck ∧
        stores m 8 (takesNear 1 64) step old.duckStep new.duckStep ∧
        stores m 9 (takesNear 0 32768) floor old.noiseFloor new.noiseFloor ∧
        stores m 10 (takesNear 0 255) slope old.slope new.slope ∧
        stores m 11 (takesNear 1024 4095) boost old.maxBoost new.maxBoost ∧
        stores m 12 (takesNear 0 32768) on old.loudOn new.loudOn ∧
        stores m 13 (takesNear 0 32768) off old.loudOff level ∧
        new.loudOff = (if new.loudOn ≤ level then new.loudOn - 1 else level) := by
  unfold ZoneFields.write
  constructor
  · intro h
    obtain ⟨_, h0, h⟩ := (stored_bind yesNo_iff).mp h
    obtain ⟨_, h1, h⟩ := (stored_bind (inRange_iff _ _)).mp h
    obtain ⟨_, h2, h⟩ := (stored_bind (optionalIn_iff (width := 2) (ones := 65535) rfl _ _)).mp h
    obtain ⟨_, h3, h⟩ := (stored_bind (optionalIn_iff (width := 2) (ones := 65535) rfl _ _)).mp h
    obtain ⟨_, h4, h⟩ := (stored_bind (clamped_iff (Nat.zero_le _))).mp h
    obtain ⟨_, h5, h⟩ := (stored_bind (clamped_iff (Nat.zero_le _))).mp h
    obtain ⟨_, h6, h⟩ := (stored_bind (clamped_iff (Nat.zero_le _))).mp h
    obtain ⟨_, h7, h⟩ := (stored_bind (clamped_iff (Nat.zero_le _))).mp h
    obtain ⟨_, h8, h⟩ := (stored_bind (clamped_iff (lo := 1) (hi := 64) (by decide))).mp h
    obtain ⟨_, h9, h⟩ := (stored_bind (clamped_iff (Nat.zero_le _))).mp h
    obtain ⟨_, h10, h⟩ := (stored_bind (clamped_iff (Nat.zero_le _))).mp h
    obtain ⟨_, h11, h⟩ := (stored_bind (clamped_iff (lo := 1024) (hi := 4095) (by decide))).mp h
    obtain ⟨_, h12, h⟩ := (stored_bind (clamped_iff (Nat.zero_le _))).mp h
    obtain ⟨level, h13, h⟩ := (stored_bind (clamped_iff (Nat.zero_le _))).mp h
    cases h
    exact ⟨level, h0, h1, h2, h3, h4, h5, h6, h7, h8, h9, h10, h11, h12, h13, rfl⟩
  · rintro ⟨level, h0, h1, h2, h3, h4, h5, h6, h7, h8, h9, h10, h11, h12, h13, hoff⟩
    refine (stored_bind yesNo_iff).mpr ⟨_, h0, ?_⟩
    refine (stored_bind (inRange_iff _ _)).mpr ⟨_, h1, ?_⟩
    refine (stored_bind (optionalIn_iff (width := 2) (ones := 65535) rfl _ _)).mpr ⟨_, h2, ?_⟩
    refine (stored_bind (optionalIn_iff (width := 2) (ones := 65535) rfl _ _)).mpr ⟨_, h3, ?_⟩
    refine (stored_bind (clamped_iff (Nat.zero_le _))).mpr ⟨_, h4, ?_⟩
    refine (stored_bind (clamped_iff (Nat.zero_le _))).mpr ⟨_, h5, ?_⟩
    refine (stored_bind (clamped_iff (Nat.zero_le _))).mpr ⟨_, h6, ?_⟩
    refine (stored_bind (clamped_iff (Nat.zero_le _))).mpr ⟨_, h7, ?_⟩
    refine (stored_bind (clamped_iff (lo := 1) (hi := 64) (by decide))).mpr ⟨_, h8, ?_⟩
    refine (stored_bind (clamped_iff (Nat.zero_le _))).mpr ⟨_, h9, ?_⟩
    refine (stored_bind (clamped_iff (Nat.zero_le _))).mpr ⟨_, h10, ?_⟩
    refine (stored_bind (clamped_iff (lo := 1024) (hi := 4095) (by decide))).mpr ⟨_, h11, ?_⟩
    refine (stored_bind (clamped_iff (Nat.zero_le _))).mpr ⟨_, h12, ?_⟩
    refine (stored_bind (clamped_iff (Nat.zero_le _))).mpr ⟨_, h13, ?_⟩
    exact congrArg (fun off => some { new with loudOff := off }) hoff.symm

theorem GroupFields.write_iff {pilot discipline noAnswer capacity maxWait overflowDn alarmDn wrapUp threshold
    announceRepeat prompt set strikes membersOnly : FieldValue} {old new : GroupFields} :
    old.write m [pilot, discipline, noAnswer, capacity, maxWait, overflowDn, alarmDn, wrapUp, threshold, announceRepeat,
        prompt, set, strikes, membersOnly] = some new ↔
      stores m 0 takesDn pilot old.pilot new.pilot ∧
      stores m 1 (takesOne [.linear, .circular, .longestIdle]) discipline old.discipline new.discipline ∧
      stores m 2 (takesNear 2 60) noAnswer old.noAnswer new.noAnswer ∧
      stores m 3 (takesNear 0 16) capacity old.capacity new.capacity ∧
      stores m 4 (takesNear 5 900) maxWait old.maxWait new.maxWait ∧
      stores m 5 takesDn overflowDn old.overflowDn new.overflowDn ∧
      stores m 6 takesDn alarmDn old.alarmDn new.alarmDn ∧
      stores m 7 (takesNear 0 120) wrapUp old.wrapUp new.wrapUp ∧
      stores m 8 (fun v x => v = .num 0 ∧ x = 0 ∨ v ≠ .num 0 ∧ takesNear 5 600 v x) threshold old.threshold
        new.threshold ∧
      stores m 9 (takesNear 10 120) announceRepeat old.announceRepeat new.announceRepeat ∧
      stores m 10 (takesOptional 255 0 31) prompt old.announcePrompt new.announcePrompt ∧
      stores m 11 (takesIn 0 63) set old.announceSet new.announceSet ∧
      stores m 12 (takesNear 0 7) strikes old.strikesThreshold new.strikesThreshold ∧
      stores m 13 takesFlag membersOnly old.membersOnly new.membersOnly := by
  unfold GroupFields.write
  constructor
  · intro h
    obtain ⟨_, h0, h⟩ := (stored_bind optionalDn_iff).mp h
    obtain ⟨_, h1, h⟩ := (stored_bind (oneOf_iff _)).mp h
    obtain ⟨_, h2, h⟩ := (stored_bind (clamped_iff (lo := 2) (hi := 60) (by decide))).mp h
    obtain ⟨_, h3, h⟩ := (stored_bind (clamped_iff (Nat.zero_le _))).mp h
    obtain ⟨_, h4, h⟩ := (stored_bind (clamped_iff (lo := 5) (hi := 900) (by decide))).mp h
    obtain ⟨_, h5, h⟩ := (stored_bind optionalDn_iff).mp h
    obtain ⟨_, h6, h⟩ := (stored_bind optionalDn_iff).mp h
    obtain ⟨_, h7, h⟩ := (stored_bind (clamped_iff (Nat.zero_le _))).mp h
    obtain ⟨_, h8, h⟩ := (stored_bind clampThreshold_iff).mp h
    obtain ⟨_, h9, h⟩ := (stored_bind (clamped_iff (lo := 10) (hi := 120) (by decide))).mp h
    obtain ⟨_, h10, h⟩ := (stored_bind (optionalIn_iff (width := 1) (ones := 255) rfl _ _)).mp h
    obtain ⟨_, h11, h⟩ := (stored_bind (inRange_iff _ _)).mp h
    obtain ⟨_, h12, h⟩ := (stored_bind (clamped_iff (Nat.zero_le _))).mp h
    obtain ⟨_, h13, h⟩ := (stored_bind yesNo_iff).mp h
    cases h
    exact ⟨h0, h1, h2, h3, h4, h5, h6, h7, h8, h9, h10, h11, h12, h13⟩
  · rintro ⟨h0, h1, h2, h3, h4, h5, h6, h7, h8, h9, h10, h11, h12, h13⟩
    refine (stored_bind optionalDn_iff).mpr ⟨_, h0, ?_⟩
    refine (stored_bind (oneOf_iff _)).mpr ⟨_, h1, ?_⟩
    refine (stored_bind (clamped_iff (lo := 2) (hi := 60) (by decide))).mpr ⟨_, h2, ?_⟩
    refine (stored_bind (clamped_iff (Nat.zero_le _))).mpr ⟨_, h3, ?_⟩
    refine (stored_bind (clamped_iff (lo := 5) (hi := 900) (by decide))).mpr ⟨_, h4, ?_⟩
    refine (stored_bind optionalDn_iff).mpr ⟨_, h5, ?_⟩
    refine (stored_bind optionalDn_iff).mpr ⟨_, h6, ?_⟩
    refine (stored_bind (clamped_iff (Nat.zero_le _))).mpr ⟨_, h7, ?_⟩
    refine (stored_bind clampThreshold_iff).mpr ⟨_, h8, ?_⟩
    refine (stored_bind (clamped_iff (lo := 10) (hi := 120) (by decide))).mpr ⟨_, h9, ?_⟩
    refine (stored_bind (optionalIn_iff (width := 1) (ones := 255) rfl _ _)).mpr ⟨_, h10, ?_⟩
    refine (stored_bind (inRange_iff _ _)).mpr ⟨_, h11, ?_⟩
    refine (stored_bind (clamped_iff (Nat.zero_le _))).mpr ⟨_, h12, ?_⟩
    refine (stored_bind yesNo_iff).mpr ⟨_, h13, ?_⟩
    rfl

theorem PagingParams.write_iff {maxVoice preannounce alarmSet alarmTone autoExit assistTone beepTone : FieldValue}
    {old new : PagingParams} :
    old.write m [maxVoice, preannounce, alarmSet, alarmTone, autoExit, assistTone, beepTone] = some new ↔
      stores m 0 (takesNear 10 300) maxVoice old.maxVoice new.maxVoice ∧
      stores m 1 (takesOptional 255 0 31) preannounce old.preannounce new.preannounce ∧
      stores m 2 (takesIn 0 63) alarmSet old.alarmSet new.alarmSet ∧
      stores m 3 (takesIn 0 15) alarmTone old.alarmTone new.alarmTone ∧
      stores m 4 takesFlag autoExit old.autoExit new.autoExit ∧
      stores m 5 (takesIn 0 15) assistTone old.assistTone new.assistTone ∧
      stores m 6 (takesIn 0 15) beepTone old.beepTone new.beepTone := by
  simp only [PagingParams.write, Option.bind_eq_bind, Option.bind_eq_some_iff, stored_iff yesNo_iff,
    stored_iff (inRange_iff _ _), stored_iff (optionalIn_iff (width := 1) (ones := 255) rfl _ _),
    stored_iff (clamped_iff (lo := 10) (hi := 300) (by decide)), Option.some_inj]
  constructor
  · rintro ⟨_, h0, _, h1, _, h2, _, h3, _, h4, _, h5, _, h6, rfl⟩
    exact ⟨h0, h1, h2, h3, h4, h5, h6⟩
  · rintro ⟨h0, h1, h2, h3, h4, h5, h6⟩
    exact ⟨_, h0, _, h1, _, h2, _, h3, _, h4, _, h5, _, h6, rfl⟩

theorem writeTone_iff {increment amplitude on off cycles : FieldValue} {o : Option Tone} {new : Tone} :
    let old := o.getD { increment := 1, amplitude := 0, onTime := 0, offTime := 0, cycles := 0 }
    writeTone m [increment, amplitude, on, off, cycles] o = some new ↔
      stores m 0 (takesNear 1 32767) increment old.increment new.increment ∧
      stores m 1 (takesNear 0 32767) amplitude old.amplitude new.amplitude ∧
      stores m 2 (takesNear 0 10000) on old.onTime new.onTime ∧
      stores m 3 (takesNear 0 10000) off old.offTime new.offTime ∧
      stores m 4 (takesNear 0 255) cycles old.cycles new.cycles ∧ 0 < new.onTime + new.offTime := by
  intro old
  have hsound (a b : Nat) : (¬ (a = 0 ∧ b = 0)) ↔ 0 < a + b := by omega
  simp only [writeTone, Option.bind_eq_bind, Option.bind_eq_some_iff, stored_iff (clamped_iff (lo := 0) (Nat.zero_le _)),
    stored_iff (clamped_iff (lo := 1) (hi := 32767) (by decide)), Bool.and_eq_true, decide_eq_true_eq,
    Option.ite_none_left_eq_some, Option.some_inj, hsound]
  constructor
  · rintro ⟨_, h0, _, h1, _, h2, _, h3, _, h4, h5, rfl⟩
    exact ⟨h0, h1, h2, h3, h4, h5⟩
  · rintro ⟨h0, h1, h2, h3, h4, h5⟩
    exact ⟨_, h0, _, h1, _, h2, _, h3, _, h4, h5, rfl⟩

theorem writePrompt_iff {start length : FieldValue} {o : Option PromptEntry} {new : PromptEntry} :
    let old := o.getD { start := 0, length := 0 }
    writePrompt m [start, length] o = some new ↔
      stores m 0 (fun v x => v = .num x) start old.start new.start ∧
      stores m 1 (fun v x => v = .num x) length old.length new.length ∧
      new.start ≤ 32767 ∧ new.start + new.length ≤ 32768 := by
  intro old
  simp only [writePrompt, Option.bind_eq_bind, Option.bind_eq_some_iff, stored_iff anyNumber_iff, Bool.or_eq_true,
    decide_eq_true_eq, Option.ite_none_left_eq_some, Option.some_inj, not_or, Nat.not_lt]
  constructor
  · rintro ⟨_, h0, _, h1, hfits, rfl⟩
    exact ⟨h0, h1, hfits⟩
  · rintro ⟨h0, h1, hfits⟩
    exact ⟨_, h0, _, h1, hfits, rfl⟩

theorem writeCode_iff {code feature cls : FieldValue} {o : Option AccessCode} {new : AccessCode} :
    let old := o.getD { code := [], feature := .groupPickup, cls := .normal }
    writeCode m [code, feature, cls] o = some new ↔
      stores m 0 takesCode code old.code new.code ∧
      stores m 1 (takesOne [.groupPickup, .directedPickup, .page, .orbitRetrieve, .logon, .logoff, .groupStatus]) feature
        old.feature new.feature ∧
      stores m 2 (takesOne [.normal, .urgent, .emergency]) cls old.cls new.cls ∧ new.code ≠ [] := by
  intro old
  simp only [writeCode, codeFeatures, pageClasses, Option.bind_eq_bind, Option.bind_eq_some_iff,
    stored_iff codeString_iff, stored_iff (oneOf_iff _), Option.ite_none_left_eq_some, Option.some_inj,
    List.isEmpty_iff]
  constructor
  · rintro ⟨_, h0, _, h1, _, h2, hne, rfl⟩
    exact ⟨h0, h1, h2, hne⟩
  · rintro ⟨h0, h1, h2, hne⟩
    exact ⟨_, h0, _, h1, _, h2, hne, rfl⟩

theorem Station.write_iff {dn talk home pickup authority assist : FieldValue} {live : List FieldValue}
    (hl : live.length = 8) {old st : Station} :
    old.write m ([dn, talk, home, pickup, authority, assist] ++ live) = some st ↔
      m % 1024 = 0 ∧ ∃ new : Station,
        st = { old with dn := new.dn, talkSlot := new.talkSlot, homeZone := new.homeZone, pickupGroup := new.pickupGroup
                        authority := new.authority, ringAssist := new.ringAssist } ∧
        stores m 0 takesDn dn old.dn new.dn ∧
        stores m 1 (takesOptional 65535 0 511) talk old.talkSlot new.talkSlot ∧
        stores m 2 (takesOptional 255 1 24) home old.homeZone new.homeZone ∧
        stores m 3 (takesOptional 255 1 63) pickup old.pickupGroup new.pickupGroup ∧
        stores m 4 (takesOne [.none, .normal, .urgent, .emergency]) authority old.authority new.authority ∧
        stores m 5 takesFlag assist old.ringAssist new.ringAssist := by
  obtain ⟨a, b, c, d, e, f, g, h, rfl⟩ : ∃ a b c d e f g h, live = [a, b, c, d, e, f, g, h] := by
    match live, hl with
    | [a, b, c, d, e, f, g, h], _ => exact ⟨a, b, c, d, e, f, g, h, rfl⟩
  simp only [Station.write, authorities, List.cons_append, List.nil_append, Option.ite_none_left_eq_some, not_not, ne_eq,
    Option.bind_eq_bind, Option.bind_eq_some_iff, stored_iff optionalDn_iff, stored_iff yesNo_iff,
    stored_iff (oneOf_iff _), stored_iff (optionalIn_iff (width := 2) (ones := 65535) rfl _ _),
    stored_iff (optionalIn_iff (width := 1) (ones := 255) rfl _ _), Option.some_inj, Nat.reducePow]
  refine and_congr_right fun _ => ⟨?_, ?_⟩
  · rintro ⟨_, h0, _, h1, _, h2, _, h3, _, h4, _, h5, rfl⟩
    exact ⟨{ old with dn := _, talkSlot := _, homeZone := _, pickupGroup := _, authority := _, ringAssist := _ }, rfl,
      h0, h1, h2, h3, h4, h5⟩
  · rintro ⟨new, rfl, h0, h1, h2, h3, h4, h5⟩
    exact ⟨_, h0, _, h1, _, h2, _, h3, _, h4, _, h5, rfl⟩

end

/-! ### Lists in their form -/

theorem noRepeats_iff {l : List Nat} : noRepeats l = true ↔ l.Nodup := by
  simp [noRepeats, firstRepeat_none]

theorem zoneListOk_iff {l : List Nat} :
    zoneListOk l = true ↔ l ≠ [] ∧ l.length ≤ 24 ∧ l.Nodup ∧ ∀ z ∈ l, 1 ≤ z ∧ z ≤ 24 := by
  simp only [zoneListOk, Bool.and_eq_true, Bool.not_eq_true', List.isEmpty_eq_false_iff, decide_eq_true_eq,
    List.all_eq_true, noRepeats_iff]
  tauto

theorem partnersOk_iff {g : Nat} {l : List Nat} :
    partnersOk g l = true ↔ l.length ≤ 3 ∧ l.Nodup ∧ ∀ h ∈ l, 1 ≤ h ∧ h ≤ 63 ∧ h ≠ g := by
  simp only [partnersOk, Bool.and_eq_true, decide_eq_true_eq, List.all_eq_true, noRepeats_iff, and_assoc]
  tauto

theorem membersOk_iff {l : List Nat} : membersOk l = true ↔ l.length ≤ 24 ∧ l.Nodup ∧ ∀ n ∈ l, n ≤ 383 := by
  simp only [membersOk, Bool.and_eq_true, decide_eq_true_eq, List.all_eq_true, noRepeats_iff]
  tauto

/-! ### Clashes with other entries -/

theorem State.slotTaken_false {z : Nat} {f : ZoneFields} :
    s.slotTaken z f = false ↔ (f.enabled = true → ∀ y, 1 ≤ y → y ≤ 24 → y ≠ z → (s.zones.get y).fields.enabled = true →
      (s.zones.get y).fields.outputSlot ≠ f.outputSlot) := by
  simp only [State.slotTaken, Bool.and_eq_false_iff, List.any_eq_false, State.mem_enabledZones, Bool.and_eq_true,
    bne_iff_ne, beq_iff_eq, not_and]
  constructor
  · rintro (h | h) hen y _ _ hy hyen
    · exact nomatch h.symm.trans hen
    · exact h y hyen hy
  · intro h
    cases hf : f.enabled with
    | false => exact .inl rfl
    | true =>
      refine .inr fun y hen hy => ?_
      have hrange := State.zone_range hen
      exact h hf y hrange.1 (Nat.lt_succ_iff.mp hrange.2) hy hen

theorem State.codeTaken_false {i : Nat} {code : Digits} :
    s.codeTaken i code = false ↔ ∀ j x, j ≤ 15 → j ≠ i → s.codes.get j = some x → x.code ≠ code := by
  simp only [State.codeTaken, List.any_eq_false, List.mem_range, Bool.and_eq_true, bne_iff_ne, not_and]
  constructor
  · intro h j x hj hi hx
    have hno := h j (Nat.lt_succ_of_le hj) hi
    rw [hx] at hno
    simpa using hno
  · intro h j hj hi
    cases hx : s.codes.get j with
    | none => exact Bool.false_ne_true
    | some x => simpa using h j x (Nat.le_of_lt_succ hj) hi hx

/-! ### Ranged zone fields lie in their ranges -/

theorem stores_of {α : Type} {m k : Nat} {takes : FieldValue → α → Prop} {v : FieldValue} {old new : α} {P : α → Prop}
    (h : stores m k takes v old new) (hold : P old) (htakes : ∀ x, takes v x → P x) : P new := by
  unfold stores at h
  split at h
  · exact htakes _ h
  · exact h ▸ hold

theorem takesNear_bounds {lo hi x : Nat} {v : FieldValue} (hle : lo ≤ hi) (h : takesNear lo hi v x) : lo ≤ x ∧ x ≤ hi := by
  obtain ⟨n, -, rfl⟩ := h
  split_ifs <;> omega

theorem stores_near {m k lo hi old new : Nat} {v : FieldValue} (hle : lo ≤ hi)
    (h : stores m k (takesNear lo hi) v old new) (hold : lo ≤ old ∧ old ≤ hi) : lo ≤ new ∧ new ≤ hi :=
  stores_of (P := fun x => lo ≤ x ∧ x ≤ hi) h hold fun _ => takesNear_bounds hle

theorem stores_below {m k hi old new : Nat} {v : FieldValue} (h : stores m k (takesNear 0 hi) v old new)
    (hold : old ≤ hi) : new ≤ hi :=
  (stores_near (Nat.zero_le _) h ⟨Nat.zero_le _, hold⟩).2

theorem ZoneFields.write_fits {m : Nat} {vs : List FieldValue} {old f : ZoneFields} (ho : old.Fits)
    (hw : old.write m vs = some f) : f.Fits := by
  have hlist : ∃ a0 a1 a2 a3 a4 a5 a6 a7 a8 a9 a10 a11 a12 a13,
      vs = [a0, a1, a2, a3, a4, a5, a6, a7, a8, a9, a10, a11, a12, a13] := by
    unfold ZoneFields.write at hw
    split at hw
    · exact ⟨_, _, _, _, _, _, _, _, _, _, _, _, _, _, rfl⟩
    · cases hw
  obtain ⟨a0, a1, a2, a3, a4, a5, a6, a7, a8, a9, a10, a11, a12, a13, rfl⟩ := hlist
  obtain ⟨level, -, -, -, -, page, tone, base, duck, step, floor, slope, boost, on, -, hoff⟩ := ZoneFields.write_iff.mp hw
  exact
    { pageGain := stores_below page ho.pageGain
      toneGain := stores_below tone ho.toneGain
      musicBase := stores_below base ho.musicBase
      musicDuck := stores_below duck ho.musicDuck
      duckStep := stores_near (by decide) step ho.duckStep
      noiseFloor := stores_below floor ho.noiseFloor
      slope := stores_below slope ho.slope
      maxBoost := stores_near (by decide) boost ho.maxBoost
      loudOn := stores_below on ho.loudOn
      loudOff := by
        rw [hoff]
        split_ifs <;> omega }

end Sys2Proof.Machine
end

section
/-! PROOFS. What enabling and disabling a zone does, and the obligation on WRITE_ENTRY (O39; 07, R120, R121, R134). -/

namespace Sys2Proof.Machine

variable {s t : State}

/-! ### Lost claims reported to their claimants (07, R121, R129) -/

/-- A session that has lost a zone; none where it holds no zone any more (07, R134). -/
def Session.loses (z : Nat) (x : Session) : Option Session :=
  if ((lostAt z x.zones).any fun e => e.2 = HoldStatus.held) = true then some { x with zones := lostAt z x.zones } else none

/-- A part after claims on a zone were lost: each claimant among them told, and the zones kept. -/
structure State.Told (z : Nat) (lost : Claimant → Prop) (s t : State) : Prop where
  zones : t.zones = s.zones
  hunt : t.hunt = s.hunt
  orbits : t.orbits = s.orbits
  pickup : t.pickup = s.pickup
  assist : ∀ n, (t.stations.get n).ringAssist = (s.stations.get n).ringAssist
  home : ∀ n, (t.stations.get n).homeZone = (s.stations.get n).homeZone
  alarm : lost .alarm → t.alarm = { s.alarm with claimed := s.alarm.claimed.filter (· ≠ z) }
  quiet : ¬ lost .alarm → t.alarm = s.alarm
  sessions : ∀ i, lost (.session i) → t.paging.sessions.get i = (s.paging.sessions.get i).bind (Session.loses z)
  others : ∀ i, ¬ lost (.session i) → t.paging.sessions.get i = s.paging.sessions.get i

theorem State.told_none (z : Nat) (s : State) : s.Told z (fun _ => False) s where
  zones := rfl
  hunt := rfl
  orbits := rfl
  pickup := rfl
  assist _ := rfl
  home _ := rfl
  alarm := False.elim
  quiet _ := rfl
  sessions _ := False.elim
  others _ _ := rfl

theorem State.sessionLost_told (i z : Nat) (s : State) : s.Told z (· = .session i) (s.sessionLost i z) := by
  cases hx : s.paging.sessions.get i with
  | none =>
    have hstays : s.sessionLost i z = s := by
      unfold State.sessionLost
      rw [hx]
    rw [hstays]
    refine { s.told_none z with alarm := nofun, quiet := fun _ => rfl, sessions := ?_, others := fun _ _ => rfl }
    rintro j ⟨⟩
    rw [hx]
    rfl
  | some x =>
    have hi : 1 ≤ i ∧ i < 1 + 8 := by
      by_contra hi
      rw [Tab.get_of_not_mem _ hi] at hx
      cases hx
    by_cases h : ((lostAt z x.zones).any fun e => e.2 = HoldStatus.held) = true
    · rw [State.sessionLost_holds hx (by simpa only [List.any_eq_true, decide_eq_true_eq] using h)]
      refine { s.told_none z with alarm := nofun, quiet := fun _ => rfl, sessions := ?_, others := ?_ }
      · rintro j ⟨⟩
        rw [hx, Option.bind_some, Session.loses, if_pos h]
        exact Tab.get_put_same _ _ hi
      · intro j hj
        exact Tab.get_put_ne _ _ fun e => hj (e ▸ rfl)
    · have hall : ∀ e ∈ lostAt z x.zones, e.2 = HoldStatus.lost := by
        intro e he
        cases hh : e.2 with
        | lost => rfl
        | held => exact absurd (List.any_eq_true.mpr ⟨e, he, decide_eq_true hh⟩) h
      rw [State.sessionLost_ends hx hall]
      unfold State.sendTone
      rw [State.join_rest]
      have hsource (n : Nat) : (((s.freed i x s.zones).stations.get n).ringAssist = (s.stations.get n).ringAssist) ∧
          ((s.freed i x s.zones).stations.get n).homeZone = (s.stations.get n).homeZone := by
        by_cases hn : 0 ≤ n ∧ n < 0 + 384
        · by_cases hnx : x.source = n
          · subst hnx
            have hget : (s.freed i x s.zones).stations.get x.source =
                { s.stations.get x.source with source := none } := Tab.get_put_same _ _ hn
            rw [hget]
            exact ⟨rfl, rfl⟩
          · have hget : (s.freed i x s.zones).stations.get n = s.stations.get n := Tab.get_put_ne _ _ hnx
            rw [hget]
            exact ⟨rfl, rfl⟩
        · rw [Tab.get_of_not_mem _ hn, Tab.get_of_not_mem _ hn]
          exact ⟨rfl, rfl⟩
      refine { s.told_none z with
        assist := fun n => (hsource n).1, home := fun n => (hsource n).2, alarm := nofun, quiet := fun _ => rfl
        sessions := ?_, others := ?_ }
      · rintro j ⟨⟩
        rw [hx, Option.bind_some, Session.loses, if_neg h]
        exact Tab.get_put_same _ _ hi
      · intro j hj
        exact Tab.get_put_ne _ _ fun e => hj (e ▸ rfl)

theorem State.reportLoss_told (z : Nat) (c : Claim) (s : State) : s.Told z (· = c.claimant) (s.reportLoss z c) := by
  unfold State.reportLoss
  cases c.claimant with
  | session i => exact s.sessionLost_told i z
  | orbit n => exact { s.told_none z with alarm := nofun, quiet := fun _ => rfl, sessions := nofun, others := fun _ _ => rfl }
  | assist => exact { s.told_none z with alarm := nofun, quiet := fun _ => rfl, sessions := nofun, others := fun _ _ => rfl }
  | alarm =>
    exact { s.told_none z with alarm := fun _ => rfl, quiet := (absurd rfl ·), sessions := nofun, others := fun _ _ => rfl }

/-- Two lots of losses with no claimant in both. -/
theorem State.Told.trans {z : Nat} {p q : Claimant → Prop} {u : State} (h : s.Told z p t) (k : t.Told z q u)
    (hpq : ∀ c, p c → ¬ q c) : s.Told z (fun c => p c ∨ q c) u where
  zones := k.zones.trans h.zones
  hunt := k.hunt.trans h.hunt
  orbits := k.orbits.trans h.orbits
  pickup := k.pickup.trans h.pickup
  assist n := (k.assist n).trans (h.assist n)
  home n := (k.home n).trans (h.home n)
  alarm := by
    rintro (hp | hq)
    · rw [k.quiet (hpq _ hp), h.alarm hp]
    · rw [k.alarm hq, h.quiet fun hp => hpq _ hp hq]
  quiet hn := by
    rw [not_or] at hn
    rw [k.quiet hn.2, h.quiet hn.1]
  sessions i := by
    rintro (hp | hq)
    · rw [k.others i (hpq _ hp), h.sessions i hp]
    · rw [k.sessions i hq, h.others i fun hp => hpq _ hp hq]
  others i hn := by
    rw [not_or] at hn
    rw [k.others i hn.2, h.others i hn.1]

/-- Every claim of a list is lost. -/
theorem State.reportLosses_told (z : Nat) (l : List Claim) (s : State) (hl : (l.map Claim.claimant).Nodup) :
    s.Told z (· ∈ l.map Claim.claimant) (l.foldl (fun t c => t.reportLoss z c) s) := by
  induction l generalizing s with
  | nil => simpa using s.told_none z
  | cons c l ih =>
    rw [List.map_cons, List.nodup_cons] at hl
    have h := (s.reportLoss_told z c).trans (ih (s.reportLoss z c) hl.2) fun d hd hm => hl.1 (hd ▸ hm)
    simpa only [List.map_cons, List.mem_cons, List.foldl_cons] using h

/-! ### A zone's new configuration (07, R118, R120, R121) -/

section
variable {z : Nat} {f : ZoneFields}

theorem State.configureZone_same (h : (s.zones.get z).fields.enabled = f.enabled) :
    s.configureZone z f = s.adjustZone z f := by
  unfold State.configureZone State.zoneEnabled
  rw [h]
  cases f.enabled <;> rfl

theorem State.configureZone_enables (h : (s.zones.get z).fields.enabled = false) (hf : f.enabled = true) :
    s.configureZone z f = s.enableZone z f := by
  simp only [State.configureZone, State.zoneEnabled, h, hf]

theorem State.configureZone_disables (h : (s.zones.get z).fields.enabled = true) (hf : f.enabled = false) :
    s.configureZone z f = s.disableZone z f := by
  simp only [State.configureZone, State.zoneEnabled, h, hf]

/-- An enabled zone outside an ACTIVE alarm's reach starts with no claim. -/
theorem State.enableZone_free (h : s.alarm.source = none ∨ s.maint.mode = .transparent ∨ z ∉ s.alarm.scope.getD [] ∨
    z ∈ s.alarm.claimed) : s.enableZone z f = s.modZone z (Zone.restarted f) := by
  refine if_neg ?_
  simp only [State.modZone, Bool.and_eq_true, List.contains_iff_mem, Bool.not_eq_true', not_and,
    Option.isSome_iff_ne_none, ← Bool.not_eq_true]
  rintro ⟨⟨ha, hm⟩, hin⟩ hout
  rcases h with h | h | h | h
  · exact ha h
  · exact nomatch (of_decide_eq_true hm).symm.trans h
  · exact h hin
  · exact hout h

/-- A zone enabled in an ACTIVE alarm's scope starts with the alarm's claim (10, R175). -/
theorem State.enableZone_alarmed (hz : 1 ≤ z ∧ z < 1 + 24) (hf : f.enabled = true) (ha : s.alarm.source ≠ none)
    (hm : s.maint.mode = .engaged) (hin : z ∈ s.alarm.scope.getD []) (hout : z ∉ s.alarm.claimed) :
    s.enableZone z f = { s with
      zones := s.zones.put z (s.alarmTaken s.alarmClaim (Zone.restarted f (s.zones.get z)))
      alarm := { s.alarm with claimed := s.alarm.claimed ++ [z] } } := by
  have hget : (s.modZone z (Zone.restarted f)).zones.get z = Zone.restarted f (s.zones.get z) := State.modZone_get hz _
  have hreached : s.enableZone z f = (s.modZone z (Zone.restarted f)).claimAlarm s.alarmClaim z := by
    refine if_pos ?_
    simpa [State.modZone, Option.isSome_iff_ne_none, ha, hm, hout] using hin
  rw [hreached, State.claimAlarm_empty (c := s.alarmClaim) (List.cons_ne_nil _ _)
    (by unfold State.zoneEnabled; rw [hget]; exact hf) (by rw [hget]; rfl) (by exact hout), hget]
  unfold State.modZone
  dsimp only
  rw [Tab.put_put]
  rfl

/-- A disabled zone wants no assist claim: its count alone is taken afresh. -/
theorem State.assisted_disabled {x : Zone} (hc : x.claims = []) (he : x.fields.enabled = false) :
    s.assisted z x = { x with assist := s.assistCount z } := by
  unfold State.assisted
  simp only [hc, he, List.filter_nil, List.length_nil, Nat.lt_irrefl, if_false, Bool.false_eq_true, false_and, and_false]
  rfl

theorem State.disableZone_empty (h : (s.zones.get z).claims = []) :
    s.disableZone z f = s.modZone z (Zone.restarted f) := by
  unfold State.disableZone
  rw [h]
  rfl

/-- A zone disabled loses every claim, each claimant told, and its assist count is taken afresh. -/
theorem State.disableZone_told (hz : 1 ≤ z ∧ z < 1 + 24) (hf : f.enabled = false) (hne : (s.zones.get z).claims ≠ [])
    (hl : ClaimsFit (s.zones.get z).claims) :
    ∃ t : State, s.Told z (· ∈ (s.zones.get z).claims.map Claim.claimant) { t with zones := s.zones } ∧
      s.disableZone z f = { t with
        zones := s.zones.put z { Zone.restarted f (s.zones.get z) with assist := s.assistCount z } } := by
  let fresh := s.modZone z (Zone.restarted f)
  let t := (s.zones.get z).claims.foldl (fun t c => t.reportLoss z c) fresh
  have htold : fresh.Told z _ t := fresh.reportLosses_told z _ hl.distinct
  have hzones : t.zones = s.zones.put z (Zone.restarted f (s.zones.get z)) := htold.zones
  have hget : t.zones.get z = Zone.restarted f (s.zones.get z) := hzones ▸ Tab.get_put_same _ _ hz
  have hcount : t.assistCount z = s.assistCount z := by
    simp only [State.assistCount, htold.pickup, htold.assist, htold.home]
    rfl
  have hdisabled : s.disableZone z f = t.modZone z (t.assisted z) := by
    have hreevaluated : s.disableZone z f = t.reevaluateAssist z := if_neg (by simpa using hne)
    rw [hreevaluated, State.reevaluateAssist_eq hz (by rw [hget]; exact .nil)]
  refine ⟨t, { htold with zones := rfl }, ?_⟩
  rw [hdisabled]
  unfold State.modZone
  rw [hget, State.assisted_disabled rfl hf, hcount, hzones, Tab.put_put]

end

/-! ### The tables' writes (11, R183) -/

section
variable {i m : Nat}

/-- A write to an index in its table's range. -/
theorem State.writeTable_held {table : Table} {w : EntryWrite} {o : Option State} (hi : table.holds i = true)
    (h : s.writeTable table i w = if (!table.holds i) = true then none else o) : s.writeTable table i w = o := by
  rw [h, hi]
  rfl

/-- A write accepted lies in its table's range. -/
theorem State.writeTable_iff {table : Table} {w : EntryWrite} {o : Option State} {P : Prop}
    (h : s.writeTable table i w = if (!table.holds i) = true then none else o) (hP : table.holds i = true ↔ P) :
    s.writeTable table i w = some t ↔ P ∧ o = some t := by
  rw [h, ← hP]
  cases table.holds i <;> simp

theorem option_map_iff {α : Type} {o : Option α} {f : α → State} {p : α → Prop} (h : ∀ a, o = some a ↔ p a) :
    o.map f = some t ↔ ∃ a, t = f a ∧ p a := by
  simp only [Option.map_eq_some_iff, h, eq_comm (a := t)]
  exact exists_congr fun a => and_comm

end

theorem State.writeTable_zone {i m : Nat} {vs : List FieldValue} :
    s.writeTable .zone i (.fields m vs) = if (!Table.zone.holds i) = true then none else
      ((s.zones.get i).fields.write m vs).bind fun f =>
        if s.slotTaken i f = true then none else some (s.configureZone i f) := by
  unfold State.writeTable
  dsimp only
  cases (s.zones.get i).fields.write m vs <;> rfl

theorem State.writeTable_code {i m : Nat} {vs : List FieldValue} :
    s.writeTable .accessCode i (.fields m vs) = if (!Table.accessCode.holds i) = true then none else
      (writeCode m vs (s.codes.get i)).bind fun e =>
        if s.codeTaken i e.code = true then none else some (s.setCode i (some e)) := by
  unfold State.writeTable
  dsimp only
  cases writeCode m vs (s.codes.get i) <;> rfl

theorem State.writeTable_lists (i : Nat) (l : List Nat) (s : State) :
    let zonesOk : Prop := l ≠ [] ∧ l.length ≤ 24 ∧ l.Nodup ∧ ∀ z ∈ l, 1 ≤ z ∧ z ≤ 24
    let partnersOk : Prop := l.length ≤ 3 ∧ l.Nodup ∧ ∀ h ∈ l, 1 ≤ h ∧ h ≤ 63 ∧ h ≠ i
    let membersOk : Prop := l.length ≤ 24 ∧ l.Nodup ∧ ∀ n ∈ l, n ≤ 383
    (1 ≤ i → i ≤ 63 →
      (zonesOk → s.writeTable .zoneSet i (.list l) = some (s.setZoneSet i (some l))) ∧
      (¬ zonesOk → s.writeTable .zoneSet i (.list l) = none) ∧
      (partnersOk → s.writeTable .pickupPartners i (.list l) = some (s.setPartners i l)) ∧
      (¬ partnersOk → s.writeTable .pickupPartners i (.list l) = none)) ∧
    (1 ≤ i → i ≤ 32 →
      (membersOk → s.writeTable .stagedMembers i (.list l) = some (s.setStagedMembers i l)) ∧
      (¬ membersOk → s.writeTable .stagedMembers i (.list l) = none)) := by
  refine ⟨fun h1 h2 => ?_, fun h1 h2 => ?_⟩
  · have hi : i ≠ 0 := by omega
    have hzones := State.writeTable_held (s := s) (i := i) (table := .zoneSet) (w := .list l)
      (o := if (Decidable.decide (i ≠ 0) && zoneListOk l) = true then some (s.setZoneSet i (some l)) else none)
      (decide_eq_true h2) rfl
    have hpartners := State.writeTable_held (s := s) (i := i) (table := .pickupPartners) (w := .list l)
      (o := if partnersOk i l = true then some (s.setPartners i l) else none) (by simp [Table.holds, h1, h2]) rfl
    simp only [hi, Bool.and_eq_true, decide_eq_true_eq, ne_eq, not_false_eq_true, true_and, zoneListOk_iff] at hzones
    simp only [partnersOk_iff] at hpartners
    exact ⟨fun h => hzones.trans (if_pos h), fun h => hzones.trans (if_neg h), fun h => hpartners.trans (if_pos h),
      fun h => hpartners.trans (if_neg h)⟩
  · have hmembers := State.writeTable_held (s := s) (i := i) (table := .stagedMembers) (w := .list l)
      (o := if membersOk l = true then some (s.setStagedMembers i l) else none) (by simp [Table.holds, h1, h2]) rfl
    simp only [membersOk_iff] at hmembers
    exact ⟨fun h => hmembers.trans (if_pos h), fun h => hmembers.trans (if_neg h)⟩

/-- Settles O39: each table's write through what its fields take, and the zone's new configuration case by case. -/
theorem writeEntryStores : Obligations.WriteEntryStores := by
  refine ⟨fun tag b i1 i2 rest table w s hp hc hroom ht hw => exec_writeEntry hp hc hroom ht hw, State.writeTable_lists,
    fun m vs old f => ZoneFields.write_fits, ?station, ?zone, ?code, ?tone, ?prompt, ?params, ?group, ?configure⟩
  case station =>
    intro i m s t dn talk home pickup authority assist live hl old
    refine (State.writeTable_iff (table := .station) (P := i ≤ 383)
      (o := (old.write m _).map fun st => s.modStation i fun _ => st) rfl (by simp [Table.holds])).trans ?_
    rw [option_map_iff fun st => Station.write_iff hl]
    constructor
    · rintro ⟨hi, st, rfl, hm, new, rfl, h⟩
      exact ⟨hi, hm, new, rfl, h⟩
    · rintro ⟨hi, hm, new, rfl, h⟩
      exact ⟨hi, _, rfl, hm, new, rfl, h⟩
  case zone =>
    intro i m s t enabled output sense music page tone base duck step floor slope boost on off old
    refine (State.writeTable_iff (P := 1 ≤ i ∧ i ≤ 24) State.writeTable_zone (by simp [Table.holds])).trans ?_
    simp only [Option.bind_eq_some_iff, Option.ite_none_left_eq_some, Bool.not_eq_true, State.slotTaken_false,
      ZoneFields.write_iff, Option.some_inj, and_assoc, eq_comm (b := t)]
    refine and_congr_right fun _ => and_congr_right fun _ => exists_congr fun new => ?_
    constructor
    · rintro ⟨⟨level, h⟩, hslot, ht⟩
      exact ⟨level, ht, by simpa only [and_assoc] using And.intro h hslot⟩
    · rintro ⟨level, ht, h0, h1, h2, h3, h4, h5, h6, h7, h8, h9, h10, h11, h12, h13, hoff, hslot⟩
      exact ⟨⟨level, h0, h1, h2, h3, h4, h5, h6, h7, h8, h9, h10, h11, h12, h13, hoff⟩, hslot, ht⟩
  case code =>
    intro i m s t code feature cls old
    refine (State.writeTable_iff (P := i ≤ 15) State.writeTable_code (by simp [Table.holds])).trans ?_
    simp only [Option.bind_eq_some_iff, Option.ite_none_left_eq_some, Bool.not_eq_true, State.codeTaken_false,
      writeCode_iff, Option.some_inj, eq_comm (b := t)]
    refine and_congr_right fun _ => exists_congr fun new => ?_
    constructor
    · rintro ⟨⟨h0, h1, h2, h3⟩, hfree, ht⟩
      exact ⟨ht, h0, h1, h2, h3, hfree⟩
    · rintro ⟨ht, h0, h1, h2, h3, hfree⟩
      exact ⟨⟨h0, h1, h2, h3⟩, hfree, ht⟩
  case tone =>
    intro i m s t increment amplitude on off cycles old
    refine (State.writeTable_iff (table := .tone) (P := i ≤ 15)
      (o := (writeTone m _ _).map fun x => s.setTone i (some x)) rfl (by simp [Table.holds])).trans ?_
    rw [option_map_iff fun x => writeTone_iff]
    rfl
  case prompt =>
    intro i m s t start length old
    refine (State.writeTable_iff (table := .promptDir) (P := i ≤ 31)
      (o := (writePrompt m _ _).map fun x => s.setPrompt i (some x)) rfl (by simp [Table.holds])).trans ?_
    rw [option_map_iff fun x => writePrompt_iff]
    rfl
  case params =>
    intro i m s t maxVoice preannounce alarmSet alarmTone autoExit assistTone beepTone old
    refine (State.writeTable_iff (table := .pagingParams) (P := i = 0)
      (o := (old.write m _).map fun x => s.setParams x) rfl (by simp [Table.holds])).trans ?_
    rw [option_map_iff fun x => PagingParams.write_iff]
    rfl
  case group =>
    intro i m s t pilot discipline noAnswer capacity maxWait overflowDn alarmDn wrapUp threshold announceRepeat prompt set
      strikes membersOnly old
    refine (State.writeTable_iff (table := .stagedGroup) (P := 1 ≤ i ∧ i ≤ 32)
      (o := (old.write m _).map fun f => s.setStagedFields i f) rfl (by simp [Table.holds])).trans ?_
    rw [and_assoc, option_map_iff fun x => GroupFields.write_iff]
    rfl
  case configure =>
    intro z f s h1 h2 zn fresh put sound
    have hz : 1 ≤ z ∧ z < 1 + 24 := ⟨h1, Nat.lt_succ_of_le h2⟩
    refine ⟨fun hoff hon => ⟨fun h => ?_, fun ha hm hin hout => ?_⟩,
      fun hon hoff => ⟨fun h => ?_, fun hne hl => ?_⟩, fun h => State.configureZone_same h⟩
    · rw [State.configureZone_enables hoff hon, State.enableZone_free h]
      rfl
    · rw [State.configureZone_enables hoff hon, State.enableZone_alarmed hz hon ha hm hin hout]
      rfl
    · rw [State.configureZone_disables hon hoff, State.disableZone_empty h]
      rfl
    · obtain ⟨t, htold, ht⟩ := State.disableZone_told hz hoff hne hl
      have hmem {who : Claimant} : who ∈ (s.zones.get z).claims.map Claim.claimant ↔ ∃ c ∈ zn.claims, c.claimant = who :=
        List.mem_map
      rw [State.configureZone_disables hon hoff, ht]
      refine ⟨rfl, fun h => htold.alarm (hmem.mpr h), fun h => htold.quiet (mt hmem.mp h), htold.hunt, htold.orbits,
        htold.pickup, fun i => ⟨fun h => htold.others i fun hin => ?_, fun x hin hx => ?_⟩⟩
      · obtain ⟨c, hc, hi⟩ := hmem.mp hin
        exact h c hc hi
      · refine (htold.sessions i (hmem.mpr hin)).trans ?_
        rw [hx]
        rfl

end Sys2Proof.Machine
end

section
/-! PROOFS. OFF_HOOK, RING_STARTED, OFFER, WITHDRAW, REFUSED and ON_HOOK at tracked stations (O12, O13, O14, O15, O19;
02, R26 to R33). -/

namespace Sys2Proof.Machine

variable {s t : State} {eq : Equip} {call : CallRef} {n : Nat}

/-! ### Cells of tracked stations reach the Station Tracker (01, R11, R13) -/

section
variable (hp : s.lane.phase = .inService) (hc : s.Calm)
include hp hc

theorem exec_offHook (ht : tracked eq = true) :
    exec (.offHook eq call) s = .next (((s.endBridge .up).offHook eq.toNat).join .up (.known ⟨eq, call, .offHook⟩)) := by
  rw [exec_cell rfl hp hc rfl]
  exact congrArg Host.Outcome.next (if_pos ht)

theorem exec_ringStarted (ht : tracked eq = true) (hcall : call ≠ 0#16) :
    exec (.ringStarted eq call) s =
      .next (((s.endBridge .up).ringStarted eq.toNat call).join .up (.known ⟨eq, call, .ringStarted⟩)) := by
  rw [exec_cell (c := ⟨eq, call, .ringStarted⟩) rfl hp hc (bne_iff_ne.mpr hcall)]
  exact congrArg Host.Outcome.next (if_pos ht)

theorem exec_onHook (ht : tracked eq = true) :
    exec (.onHook eq call) s = .next (((s.endBridge .up).onHook eq.toNat).join .up (.known ⟨eq, call, .onHook⟩)) := by
  rw [exec_cell rfl hp hc rfl]
  exact congrArg Host.Outcome.next (if_pos ht)

theorem exec_answered (ht : tracked eq = true) (hcall : call ≠ 0#16) (via : Via) :
    exec (.answered eq call via) s =
      .next (State.decide ⟨eq, call, .answered via⟩ ((s.endBridge .up).answered eq.toNat call)) := by
  rw [exec_cell (c := ⟨eq, call, .answered via⟩) rfl hp hc (bne_iff_ne.mpr hcall)]
  exact congrArg Host.Outcome.next (if_pos ht)

theorem exec_refused (ht : tracked eq = true) (hcall : call ≠ 0#16) (cause : RefusedCause) :
    exec (.refused eq call cause) s =
      .next (State.decide ⟨eq, call, .refused cause⟩ ((s.endBridge .up).refused eq.toNat call)) := by
  rw [exec_cell (c := ⟨eq, call, .refused cause⟩) rfl hp hc (bne_iff_ne.mpr hcall)]
  exact congrArg Host.Outcome.next (if_pos ht)

theorem exec_offer {called caller : Digits} {cls : CallerClass} {group : Option Nat} (ht : tracked eq = true)
    (hown : eq ≠ s.lane.own) (hwf : (Instr.offer eq call called caller cls group).wf = true) :
    exec (.offer eq call called caller cls group) s =
      .next (((s.endBridge .down).trackOffer eq.toNat call).join .down
        (.known ⟨eq, call, .offer called caller cls group⟩)) := by
  rw [exec_cell rfl hp hc (Bool.and_eq_true_iff.mp hwf).1]
  exact congrArg Host.Outcome.next ((if_neg (by simpa using hown)).trans (if_pos ht))

theorem exec_withdraw (ht : tracked eq = true) (hown : eq ≠ s.lane.own) (hcall : call ≠ 0#16) (cause : WithdrawCause) :
    exec (.withdraw eq call cause) s =
      .next (((s.endBridge .down).withdrawn eq.toNat call).join .down (.known ⟨eq, call, .withdraw cause⟩)) := by
  rw [exec_cell (c := ⟨eq, call, .withdraw cause⟩) rfl hp hc (bne_iff_ne.mpr hcall)]
  exact congrArg Host.Outcome.next ((if_neg (by simpa using hown)).trans (if_pos ht))

end

/-! ### What depends on the call table alone -/

theorem State.record_congr (h : t.hunt.records = s.hunt.records) (c : CallRef) : t.record c = s.record c := by
  unfold State.record
  rw [h]

theorem State.isMember_congr (h : t.hunt.records = s.hunt.records) (n : Nat) (c : CallRef) :
    t.isMember n c = s.isMember n c := by
  unfold State.isMember
  rw [State.record_congr h]

@[simp] theorem Hunt.raiseIf_records (h : Hunt) (b : Bool) (n : Nat) : (h.raiseIf b n).records = h.records := by
  cases b <;> rfl
@[simp] theorem Hunt.raiseIf_closed (h : Hunt) (b : Bool) (n : Nat) : (h.raiseIf b n).closed = h.closed := by
  cases b <;> rfl
@[simp] theorem Hunt.raiseIf_active (h : Hunt) (b : Bool) (n : Nat) : (h.raiseIf b n).active = h.active := by
  cases b <;> rfl

theorem State.ringingRemove_hunt (n : Nat) (s : State) : (s.ringingRemove n).hunt = s.hunt := by
  rw [State.ringingRemove_zonesOnly]

theorem State.room_congr (h : t.lane = s.lane) (d : Dir) (k : Nat) : t.room d k ↔ s.room d k := by
  unfold State.room
  rw [h]

/-! ### The line states (02, R26 to R32) -/

theorem Station.onOffer_iff {st : Station} {c : CallRef} :
    st.onOffer c = true ↔ (st.line = .offered ∨ st.line = .ringing) ∧ st.call = some c := by
  simp [Station.onOffer]

theorem Station.not_candidate {st : Station} (h : st.line ≠ .idle) : st.candidate = false := by
  simp [Station.candidate, h]

theorem Station.onOffer_not_candidate {st : Station} {c : CallRef} (h : st.onOffer c = true) : st.candidate = false := by
  refine Station.not_candidate fun hi => ?_
  rw [Station.onOffer_iff, hi] at h
  exact h.1.elim nofun nofun

/-- A part whose station is IDLE with no call, its event raised where it is then a candidate. -/
def State.idled (n : Nat) (s : State) : State :=
  { s with
    stations := s.stations.put n { s.stations.get n with line := .idle, call := none }
    hunt := s.hunt.raiseIf ((s.stations.get n).available && (s.stations.get n).wrapUp.isNone) n }

/-- A station that is no candidate leaves its offer and is IDLE. -/
theorem State.changeStation_idled (hn : n < 384) (h : (s.stations.get n).candidate = false) :
    s.changeStation n (fun st => { st with line := .idle, call := none }) = s.idled n :=
  State.changeStation_eq hn _ h

theorem State.trackOfferGone_on {c : CallRef} (hn : n < 384) (h : (s.stations.get n).onOffer c = true) :
    s.trackOfferGone n c = ((s.idled n).ringingRemove n, true) := by
  unfold State.trackOfferGone
  rw [if_pos h, State.changeStation_idled hn (Station.onOffer_not_candidate h)]

theorem State.trackOfferGone_off {c : CallRef} (h : (s.stations.get n).onOffer c = false) :
    s.trackOfferGone n c = (s, false) :=
  if_neg (by rw [h]; nofun)

theorem State.idled_records (n : Nat) (s : State) : ((s.idled n).ringingRemove n).hunt.records = s.hunt.records := by
  rw [State.ringingRemove_hunt]
  exact Hunt.raiseIf_records ..

theorem State.idled_closed (n : Nat) (s : State) : ((s.idled n).ringingRemove n).hunt.closed = s.hunt.closed := by
  rw [State.ringingRemove_hunt]
  exact Hunt.raiseIf_closed ..

theorem State.idled_room (n : Nat) (s : State) (d : Dir) (k : Nat) : ((s.idled n).ringingRemove n).room d k ↔ s.room d k :=
  State.room_congr (State.ringingRemove_lane n _) d k

/-- The offer's end at a line, where there is one. -/
theorem State.trackOfferGone_fst (hn : n < 384) (c : CallRef) :
    (s.trackOfferGone n c).1 = if (s.stations.get n).onOffer c then (s.idled n).ringingRemove n else s := by
  cases h : (s.stations.get n).onOffer c with
  | true => rw [State.trackOfferGone_on hn h]; rfl
  | false => rw [State.trackOfferGone_off h]; rfl

/-- The offer's end at a line keeps the call table, the closed calls and the lanes. -/
theorem State.trackOfferGone_keeps (hn : n < 384) (c : CallRef) :
    (s.trackOfferGone n c).1.hunt.records = s.hunt.records ∧ (s.trackOfferGone n c).1.hunt.closed = s.hunt.closed ∧
      (s.trackOfferGone n c).1.lane = s.lane := by
  rw [State.trackOfferGone_fst hn]
  split
  · exact ⟨s.idled_records n, s.idled_closed n, State.ringingRemove_lane n _⟩
  · exact ⟨rfl, rfl, rfl⟩

/-! ### OFF_HOOK (02, R26) -/

theorem State.trackOffHook_idle (hn : n < 384) (h : (s.stations.get n).line = .idle) :
    s.trackOffHook n = ({ s with stations := s.stations.put n { s.stations.get n with line := .seized } }, true) := by
  unfold State.trackOffHook
  simp only [h]
  rw [State.changeStation_quiet hn _ (Station.not_candidate (by nofun))]

/-- A part whose OFFERED station is SEIZED by glare. -/
def State.glared (n : Nat) (s : State) : State :=
  { s with stations := s.stations.put n { s.stations.get n with line := .seized, call := none } }

theorem State.trackOffHook_offered (hn : n < 384) (h : (s.stations.get n).line = .offered) :
    s.trackOffHook n =
      (match (s.stations.get n).call with | some c => (s.glared n).offerLost n c | none => s.glared n, true) := by
  unfold State.trackOffHook
  simp only [h]
  rw [State.changeStation_quiet hn _ (Station.not_candidate (by nofun))]
  rfl

theorem State.trackOffHook_other (hi : (s.stations.get n).line ≠ .idle) (ho : (s.stations.get n).line ≠ .offered) :
    s.trackOffHook n = (s, false) := by
  unfold State.trackOffHook
  dsimp only
  split
  · rename_i h
    exact absurd h hi
  · rename_i h
    exact absurd h ho
  · rfl

/-- Settles O12: by the line of the station, and by who follows its offer. -/
theorem offHookSeizes : Obligations.OffHookSeizes := by
  intro eq call s hp hc ht hroom n st b cell glared
  have hn : n < 384 := tracked_lt ht
  have hr : b.room .up 1 := (State.endBridge_room ..).mpr hroom
  rw [exec_offHook hp hc ht]
  unfold State.offHook
  refine ⟨fun hl => ?idle, fun hl hnot => ?offered, fun c hl hcall hm => ?member, fun hi ho => ?other⟩
  case idle =>
    rw [State.trackOffHook_idle (s := b) hn hl]
    exact congrArg _ (State.join_room _ (by exact hr))
  case offered =>
    have hglared : (b.trackOffHook n).1 = glared := by
      rw [State.trackOffHook_offered (s := b) hn hl]
      cases hcall : (b.stations.get n).call with
      | none => rfl
      | some c => exact State.offerLost_not (s := glared) (hnot c hcall)
    rw [show b.trackOffHook n = (glared, true) from Prod.ext hglared (by rw [State.trackOffHook_offered (s := b) hn hl])]
    exact congrArg _ (State.join_room _ (by exact hr))
  case member =>
    rw [State.trackOffHook_offered (s := b) hn hl]
    have hcall : (b.stations.get n).call = some c := hcall
    rw [hcall]
    exact congrArg (fun t => Host.Outcome.next (State.join .up cell t)) (State.offerLost_member (s := glared) hm)
  case other =>
    rw [State.trackOffHook_other (s := b) hi ho]
    exact congrArg _ (State.join_room _ (by exact hr))

/-! ### RING_STARTED (02, R28; 05, R92) -/

/-- A part whose station is RINGING with a call, at the tail of the ringing set. -/
def State.rung (n : Nat) (c : CallRef) (s : State) : State :=
  { s with
    stations := s.stations.put n { s.stations.get n with line := .ringing, call := some c }
    pickup := { s.pickup with ringing := s.pickup.ringing ++
      [{ station := n, call := c, start := s.clock, group := (s.record c).map (·.group) }] } }

theorem State.changeStation_rung (hn : n < 384) (c : CallRef) :
    (s.changeStation n fun st => { st with line := .ringing, call := some c }).ringingAdd n c =
      (s.rung n c).reevaluateAll := by
  rw [State.changeStation_quiet hn _ (Station.not_candidate (by nofun))]
  rfl

theorem State.trackRingStarted_rings {c : CallRef} (hn : n < 384)
    (h : (s.stations.get n).line = .idle ∨ (s.stations.get n).line = .offered ∧ (s.stations.get n).call = some c) :
    s.trackRingStarted n c = ((s.rung n c).reevaluateAll, true) := by
  unfold State.trackRingStarted
  rw [State.changeStation_rung hn]
  rcases h with h | ⟨h, hcall⟩
  · simp only [h]
  · simp only [h, hcall, BEq.rfl, if_true]

theorem State.trackRingStarted_again {c : CallRef} (h : (s.stations.get n).line = .ringing)
    (hcall : (s.stations.get n).call = some c) : s.trackRingStarted n c = (s, true) := by
  unfold State.trackRingStarted
  simp only [h, hcall, BEq.rfl]

theorem State.trackRingStarted_other {c : CallRef} (hi : (s.stations.get n).line ≠ .idle)
    (ho : ¬((s.stations.get n).line = .offered ∧ (s.stations.get n).call = some c))
    (hr : ¬((s.stations.get n).line = .ringing ∧ (s.stations.get n).call = some c)) :
    s.trackRingStarted n c = (s, false) := by
  unfold State.trackRingStarted
  dsimp only
  split
  · rename_i h
    exact absurd h hi
  · rename_i h
    exact if_neg fun hcall => ho ⟨h, beq_iff_eq.mp hcall⟩
  · rename_i h
    have hcall : (s.stations.get n).call ≠ some c := fun hcall => hr ⟨h, hcall⟩
    simp only [beq_eq_false_iff_ne.mpr hcall]
  · rfl

theorem State.reevaluateAll_room (s : State) (d : Dir) (k : Nat) : s.reevaluateAll.room d k ↔ s.room d k :=
  State.room_congr (by rw [State.reevaluateAll_zonesOnly s]) d k

/-- Settles O13: by the line and the call of the station. -/
theorem ringStartedRings : Obligations.RingStartedRings := by
  intro eq call s hp hc ht hcall hroom n st b cell
  have hn : n < 384 := tracked_lt ht
  have hr : b.room .up 1 := (State.endBridge_room ..).mpr hroom
  rw [exec_ringStarted hp hc ht hcall]
  unfold State.ringStarted
  refine ⟨fun h => ?rings, fun hl hsame => ?again, fun hi ho hn => ?other⟩
  case rings =>
    rw [State.trackRingStarted_rings (s := b) hn h]
    have hrung : (b.rung n call).reevaluateAll.room .up 1 := (State.reevaluateAll_room ..).mpr hr
    exact congrArg _ (State.join_room _ hrung)
  case again =>
    rw [State.trackRingStarted_again (s := b) hl hsame]
    exact congrArg _ (State.join_room _ hr)
  case other =>
    rw [State.trackRingStarted_other (s := b) hi ho hn]
    exact congrArg _ (State.join_room _ (by exact hr))

/-! ### OFFER and WITHDRAW (02, R27, R30) -/

theorem State.trackOffer_eq (hn : n < 384) (c : CallRef) :
    s.trackOffer n c =
      if (s.stations.get n).line = .idle then
        { s with stations := s.stations.put n { s.stations.get n with line := .offered, call := some c } }
      else s := by
  unfold State.trackOffer
  rw [State.changeStation_quiet hn _ (Station.not_candidate (by nofun))]

/-- Settles O15: by the line of the station, and by who follows the offer withdrawn. -/
theorem offerAndWithdrawTracked : Obligations.OfferAndWithdrawTracked := by
  intro eq call s hp hc ht hown hroom n st b
  have hn : n < 384 := tracked_lt ht
  have hr : b.room .down 1 := (State.endBridge_room ..).mpr hroom
  refine ⟨fun called caller cls group hwf => ?offer, fun cause hcall => ?withdraw⟩
  case offer =>
    rw [exec_offer hp hc ht hown hwf, State.trackOffer_eq hn]
    refine congrArg _ (State.join_room _ ?_)
    split
    · exact hr
    · exact hr
  case withdraw =>
    intro cell ended
    rw [exec_withdraw hp hc ht hown hcall]
    have hfirst : (b.trackOfferGone n call).1 = if st.onOffer call then ended else b := State.trackOfferGone_fst hn call
    obtain ⟨hrecords, -, hlane⟩ := State.trackOfferGone_keeps (s := b) hn call
    unfold State.withdrawn
    refine ⟨fun hm => ?_, fun hm => ?_⟩
    · rw [State.offerLost_not ((State.isMember_congr hrecords n call).trans hm),
        State.join_room _ ((State.room_congr hlane _ _).mpr hr), hfirst]
      exact ⟨fun h => by rw [if_neg (ne_true_of_eq_false h)], fun h => by rw [if_pos h]⟩
    · rw [State.offerLost_member ((State.isMember_congr hrecords n call).trans hm), hfirst]

/-! ### REFUSED (02, R30; 04, R74, R87) -/

/-- What a REFUSED does, by its call's record and the closed calls as they were before it. -/
theorem State.refused_eq (hn : n < 384) (c : CallRef) :
    s.refused n c =
      if s.isMember n c then ((((s.trackOfferGone n c).1.detachTried c n).reselect c), .consume)
      else if (s.record c).isSome || s.hunt.closed.contains c then ((s.trackOfferGone n c).1, .consume)
      else ((s.trackOfferGone n c).1, .pass) := by
  obtain ⟨hrecords, hclosed, -⟩ := State.trackOfferGone_keeps (s := s) hn c
  have hmember := State.isMember_congr hrecords n c
  unfold State.refused
  dsimp only
  rw [hmember, State.record_congr hrecords, hclosed]
  cases hm : s.isMember n c with
  | true => rw [State.offerLost_member (hmember.trans hm)]
  | false => rfl

/-- Settles O19: by the call's record, the closed calls and the line of the station. -/
theorem refusedDecided : Obligations.RefusedDecided := by
  intro eq call cause s hp hc ht hcall hroom n st b cell ended
  have hn : n < 384 := tracked_lt ht
  have hr : b.room .up 1 := (State.endBridge_room ..).mpr hroom
  let gone : State := (b.trackOfferGone n call).1
  have hfirst : gone = if st.onOffer call then ended else b := State.trackOfferGone_fst hn call
  have hroomGone : gone.room .up 1 := (State.room_congr (State.trackOfferGone_keeps (s := b) hn call).2.2 _ _).mpr hr
  have hoff (h : st.onOffer call = false) : gone = b := hfirst.trans (if_neg (ne_true_of_eq_false h))
  have hon (h : st.onOffer call = true) : gone = ended := hfirst.trans (if_pos h)
  have hexec : exec (.refused eq call cause) s = .next (State.decide ⟨eq, call, .refused cause⟩
      (if s.isMember n call then (((gone.detachTried call n).reselect call), .consume)
       else if (s.record call).isSome || s.hunt.closed.contains call then (gone, .consume) else (gone, .pass))) :=
    (exec_refused hp hc ht hcall cause).trans (congrArg (fun r => Host.Outcome.next (State.decide _ r))
      (State.refused_eq (s := b) hn call))
  rw [hexec]
  refine ⟨fun hnone hnot => ?passes, fun hm hlate => ?late, fun hm => ?member⟩
  case passes =>
    have hm : s.isMember n call = false := by
      unfold State.isMember
      rw [hnone]
    have hopen : s.hunt.closed.contains call = false := by simpa using hnot
    simp only [hm, hnone, hopen, Option.isSome_none, Bool.or_self, Bool.false_eq_true, if_false]
    have hpass : State.decide ⟨eq, call, .refused cause⟩ (gone, .pass) = gone.queued .up [cell] :=
      State.join_room _ hroomGone
    rw [hpass]
    exact ⟨fun h => by rw [hoff h], fun h => by rw [hon h]⟩
  case late =>
    have hcond : ((s.record call).isSome || s.hunt.closed.contains call) = true := by
      simpa [Option.isSome_iff_ne_none] using hlate
    simp only [hm, hcond, Bool.false_eq_true, if_false, if_true]
    exact ⟨fun h => congrArg _ (hoff h), fun h => congrArg _ (hon h)⟩
  case member =>
    rw [if_pos hm, hfirst]
    rfl

/-! ### ON_HOOK (02, R32, R33) -/

/-- A part whose station is IDLE, with no delivered-by group either, its event raised where it is then a candidate. -/
def State.hungUp (n : Nat) (wrap : Option Nat) (last : Nat) (s : State) : State :=
  { s with
    stations := s.stations.put n { s.stations.get n with
      line := .idle, call := none, deliveredBy := none, wrapUp := wrap, lastIdle := last }
    hunt := s.hunt.raiseIf ((s.stations.get n).available && wrap.isNone) n }

/-- A station rung or offered leaves its ring, or its offer. -/
def State.offerLeft (n : Nat) (st : Station) (s : State) : State :=
  match st.call with | some c => s.offerLost n c | none => s

theorem State.offerLeft_not {st : Station} (h : ∀ c, st.call = some c → s.isMember n c = false) : s.offerLeft n st = s := by
  unfold State.offerLeft
  split
  · rename_i c hc
    exact State.offerLost_not (h c hc)
  · rfl

theorem State.offerLeft_member {st : Station} {c : CallRef} (hc : st.call = some c) (h : s.isMember n c = true) :
    s.offerLeft n st = (s.detachTried c n).reselect c := by
  unfold State.offerLeft
  rw [hc]
  exact State.offerLost_member h

theorem State.trackOnHook_stays (h : (s.stations.get n).line = .idle ∨ (s.stations.get n).line = .outOfService) :
    s.trackOnHook n = (s, false) := by
  unfold State.trackOnHook
  rcases h with h | h <;> simp only [h]

theorem Station.endsCall_iff {st : Station}
    (h : st.line = .seized ∨ st.line = .talking ∨ st.line = .feature) :
    st.endsCall = (Decidable.decide (st.line = .talking) || st.deliveredBy.isSome) := by
  unfold Station.endsCall
  rcases h with h | h | h <;> simp [h]

theorem Station.endsCall_offer {st : Station} (h : st.line = .offered ∨ st.line = .ringing) : st.endsCall = false := by
  unfold Station.endsCall
  rcases h with h | h <;> simp [h]

/-- The wrap-up after a call that ends at a line. -/
theorem State.wrapUpAfter_call {st : Station} (h : st.line = .seized ∨ st.line = .talking ∨ st.line = .feature) :
    s.wrapUpAfter st = match st.deliveredBy with
      | some g =>
        if 0 < (s.activeGroup g).fields.wrapUp then some (s.clock + 1000 * (s.activeGroup g).fields.wrapUp) else st.wrapUp
      | none => st.wrapUp := by
  unfold State.wrapUpAfter
  rw [Station.endsCall_iff h]
  cases st.deliveredBy with
  | none => rfl
  | some g => simp

theorem State.wrapUpAfter_offer {st : Station} (h : st.line = .offered ∨ st.line = .ringing) :
    s.wrapUpAfter st = st.wrapUp := by
  unfold State.wrapUpAfter
  rw [Station.endsCall_offer h]
  cases st.deliveredBy with
  | none => rfl
  | some g => simp

/-- An ON_HOOK changes the record of a station that it leaves. -/
theorem State.changeStation_hungUp {st : Station} (hn : n < 384) (hst : s.stations.get n = st) (hi : st.line ≠ .idle) :
    s.changeStation n (fun st => { st with
      line := .idle, call := none, deliveredBy := none, wrapUp := s.wrapUpAfter st
      lastIdle := if st.endsCall then s.clock else st.lastIdle }) =
    s.hungUp n (s.wrapUpAfter st) (if st.endsCall then s.clock else st.lastIdle) := by
  subst hst
  exact State.changeStation_eq hn _ (Station.not_candidate hi)

/-- An ON_HOOK at a line with no offer. -/
theorem State.trackOnHook_call {st : Station} (hn : n < 384) (hst : s.stations.get n = st)
    (h : st.line = .seized ∨ st.line = .talking ∨ st.line = .feature) :
    let u := s.hungUp n (s.wrapUpAfter st) (if st.endsCall then s.clock else st.lastIdle)
    s.trackOnHook n = (if st.line = .feature then u.sourceDeparted n true else u, true) := by
  have hi : st.line ≠ .idle := by rcases h with h | h | h <;> rw [h] <;> nofun
  unfold State.trackOnHook
  dsimp only
  rw [State.changeStation_hungUp hn hst hi, hst]
  rcases h with h | h | h <;>
    simp only [h, decide_false, reduceCtorEq, Bool.or_self, Bool.false_eq_true, if_true, if_false]

/-- An ON_HOOK at a line with an offer. -/
theorem State.trackOnHook_offer {st : Station} (hn : n < 384) (hst : s.stations.get n = st)
    (h : st.line = .offered ∨ st.line = .ringing) :
    let u := s.hungUp n st.wrapUp st.lastIdle
    s.trackOnHook n = ((if st.line = .ringing then u.ringingRemove n else u).offerLeft n st, true) := by
  have hi : st.line ≠ .idle := by rcases h with h | h <;> rw [h] <;> nofun
  unfold State.trackOnHook
  dsimp only
  rw [State.changeStation_hungUp hn hst hi, hst, State.wrapUpAfter_offer h, Station.endsCall_offer h]
  rcases h with h | h
  · simp only [h, decide_true, reduceCtorEq, Bool.true_or, Bool.false_eq_true, if_true, if_false]
    rfl
  · simp only [h, decide_true, reduceCtorEq, Bool.or_true, Bool.false_eq_true, if_true, if_false]
    rfl

/-- Settles O14: by the line of the station, its source session, and who follows its offer. -/
theorem onHookReleases : Obligations.OnHookReleases := by
  intro eq call s hp hc ht hroom n st b cell ends wrap idle ended
  have hn : n < 384 := tracked_lt ht
  have hr : b.room .up 1 := (State.endBridge_room ..).mpr hroom
  have hexec {t : State} (h : b.trackOnHook n = (t, true)) : exec (.onHook eq call) s = .next (t.join .up cell) := by
    rw [exec_onHook hp hc ht]
    unfold State.onHook
    rw [show (s.endBridge .up).trackOnHook eq.toNat = (t, true) from h]
    rfl
  have hroomed {t : State} (h : b.trackOnHook n = (t, true)) (hl : t.lane = b.lane) :
      exec (.onHook eq call) s = .next (t.queued .up [cell]) := by
    rw [hexec h, State.join_room _ ((State.room_congr hl _ _).mpr hr)]
  -- the station as a call's end leaves it
  have hended (h : st.line = .seized ∨ st.line = .talking ∨ st.line = .feature) :
      b.hungUp n (b.wrapUpAfter st) (if st.endsCall then b.clock else st.lastIdle) = ended := by
    rw [State.wrapUpAfter_call (s := b) h, Station.endsCall_iff h]
    rfl
  have hget : ended.stations.get n = _ := State.get_put_station hn _
  refine ⟨fun hl => ?stays, fun hl => ?plain, fun i x hl hsrc hx hown => ?source, fun hl => ?offer⟩
  case stays =>
    rw [exec_onHook hp hc ht]
    unfold State.onHook
    rw [show (s.endBridge .up).trackOnHook eq.toNat = (b, false) from State.trackOnHook_stays (s := b) hl]
    exact congrArg _ (State.join_room _ (by exact hr))
  case plain =>
    refine hroomed ((State.trackOnHook_call (s := b) (st := st) hn rfl (by tauto)).trans (Prod.ext ?_ rfl)) rfl
    dsimp only
    rw [hended (by tauto)]
    split
    · rename_i hf
      refine State.sourceDeparted_none ?_ true
      rw [hget]
      rcases hl with h | h | ⟨-, h⟩
      · exact nomatch h.symm.trans hf
      · exact nomatch h.symm.trans hf
      · exact h
    · rfl
  case source =>
    have hgone : ended.sourceDeparted n true = ended.freed i x (ended.sessionLeft i x).zones := by
      rw [State.sourceDeparted_own (s := ended) (by rw [hget]; exact hsrc) hx hown]
      exact State.endSession_quiet hx
    refine ⟨(ended.sessionLeft i x).zones, ended.sessionLeft_zones i x, hroomed ?_ rfl⟩
    refine (State.trackOnHook_call (s := b) (st := st) hn rfl (.inr (.inr hl))).trans (Prod.ext ?_ rfl)
    dsimp only
    rw [hended (.inr (.inr hl)), if_pos hl, hgone]
  case offer =>
    intro gone left
    have htrack : b.trackOnHook n = (left.offerLeft n st, true) :=
      State.trackOnHook_offer (s := b) (st := st) hn rfl hl
    have hrecords : left.hunt.records = s.hunt.records := by
      have hunraised : gone.hunt.records = s.hunt.records := Hunt.raiseIf_records ..
      simp only [left]
      split
      · rw [State.ringingRemove_hunt, hunraised]
      · exact hunraised
    have hlane : left.lane = b.lane := by
      simp only [left]
      split
      · exact State.ringingRemove_lane n gone
      · rfl
    refine ⟨fun hnot => ?_, fun c hcall hm => ?_⟩
    · rw [State.offerLeft_not fun c hcall => (State.isMember_congr hrecords n c).trans (hnot c hcall)] at htrack
      exact hroomed htrack hlane
    · rw [State.offerLeft_member hcall ((State.isMember_congr hrecords n c).trans hm)] at htrack
      exact hexec htrack

end Sys2Proof.Machine
end

section
/-! PROOFS. Records that go, offers that run out and waits that end (O28, O29, O30; 04, R69, R75, R80 to R82). -/

namespace Sys2Proof.Machine

variable {s t : State} {c call : CallRef} {r : HuntRecord} {n g : Nat}

/-! ### A record gone (04, R81; 06, R110) -/

theorem State.recordGone_orbitless (h : r.orbit = none) (count : GroupCounters → GroupCounters) :
    s.recordGone r count = { s with hunt := { s.hunt with
      records := s.hunt.records.filter fun q => q.call ≠ r.call
      closed := Machine.closeCall r.call s.hunt.closed
      headChecks :=
        if s.headCall r.group = some r.call then insertSorted r.group s.hunt.headChecks else s.hunt.headChecks
      live := s.hunt.live.put r.group
        { s.hunt.live.get r.group with counters := count (s.hunt.live.get r.group).counters } } } := by
  unfold State.recordGone
  rw [h]

theorem State.recordGone_orbit {o : Nat} {freed : State} (h : r.orbit = some o)
    (hfreed : State.releaseOrbit o true
      { s with hunt := { s.hunt with records := s.hunt.records.filter fun q => q.call ≠ r.call } } = freed)
    (count : GroupCounters → GroupCounters) :
    s.recordGone r count = { freed with hunt := { freed.hunt with
      closed := Machine.closeCall r.call freed.hunt.closed
      headChecks :=
        if s.headCall r.group = some r.call then insertSorted r.group freed.hunt.headChecks else freed.hunt.headChecks
      live := freed.hunt.live.put r.group
        { freed.hunt.live.get r.group with counters := count (freed.hunt.live.get r.group).counters } } } := by
  subst hfreed
  unfold State.recordGone
  rw [h]

theorem State.orbitFreed_none (h : r.orbit = none) (on : Bool) : s.orbitFreed r on = s := by
  unfold State.orbitFreed
  rw [h]

theorem State.orbitFreed_some {o : Nat} (h : r.orbit = some o) (on : Bool) : s.orbitFreed r on = s.releaseOrbit o on := by
  unfold State.orbitFreed
  rw [h]

/-- A record removed and counted is gone. -/
theorem State.removeRecord_counted (h : s.record c = some r) (count : GroupCounters → GroupCounters) :
    (s.removeRecord c false).modGroupCounters r.group count = s.recordGone r count := by
  obtain ⟨rfl, -⟩ := record_call h
  rw [State.removeRecord_parts h, State.headLeft_eq]
  simp only [Bool.false_eq_true, if_false, beq_iff_eq]
  cases ho : r.orbit with
  | none =>
    rw [State.recordGone_orbitless ho, State.orbitFreed_none ho]
    rfl
  | some o =>
    rw [State.orbitFreed_some ho, State.recordGone_orbit ho rfl]
    show State.modGroupCounters _ _ _ = _
    generalize hfreed : (s.withoutRecord r.call).releaseOrbit o true = freed
    rw [show State.releaseOrbit o true { s with hunt := { s.hunt with
      records := s.hunt.records.filter fun q => q.call ≠ r.call } } = freed from hfreed]
    rfl

/-- Flags and the group counters are set in either order. -/
theorem State.setFlag_modGroupCounters (f : Flag) (g : Nat) (count : GroupCounters → GroupCounters) :
    (s.setFlag f).modGroupCounters g count = (s.modGroupCounters g count).setFlag f := by
  have hsame : (s.modGroupCounters g count).SameLanes s := ⟨rfl, rfl⟩
  rw [hsame.setFlag, s.setFlag_rest f]
  rfl

theorem State.record_sendOwn (k : CallRef) (body : Body) (c : CallRef) : (s.sendOwn k body).record c = s.record c := by
  unfold State.sendOwn
  rw [State.join_rest]
  rfl

/-- A call sent away: its cell, its record, and QUEUE_OVERFLOW (04, R69). -/
theorem State.sendAway_record (h : s.record c = some r) (body : Body) :
    s.sendAway c r.group body =
      ((s.sendOwn c body).recordGone r fun k => { k with diverted := satInc k.diverted }).setFlag .queueOverflow := by
  unfold State.sendAway
  rw [State.setFlag_modGroupCounters, State.removeRecord_counted ((State.record_sendOwn c body c).trans h)]

theorem State.sendAway_none (h : s.record c = none) (g : Nat) (body : Body) :
    s.sendAway c g body =
      ((s.sendOwn c body).modGroupCounters g fun k => { k with diverted := satInc k.diverted }).setFlag .queueOverflow := by
  unfold State.sendAway
  rw [State.setFlag_modGroupCounters, State.removeRecord_none ((State.record_sendOwn c body c).trans h)]

theorem State.sendOwn_room (h : s.room .up 1) (c : CallRef) (body : Body) :
    s.sendOwn c body = s.queued .up [.known ⟨s.lane.own, c, body⟩] :=
  State.join_room _ h

/-! ### The maximum wait (04, R80) -/

theorem exec_maximumWaitExpiry (hp : s.lane.phase = .inService) (hc : s.Calm) :
    exec (.maximumWaitExpiry call) s = .next (s.maximumWaitExpiry call) :=
  congrArg Host.Outcome.next (State.afterRaised_of_calm (fun t => t.maximumWaitExpiry call) hp hc)

/-- Settles O30: the overflow action through what becomes of a record that goes, with and without an orbit. -/
theorem maximumWaitOverflows : Obligations.MaximumWaitOverflows := by
  intro call s hp hc
  refine ⟨fun r w p o a hr hs hw => ⟨?due, fun ho hroom => ?orbitless, fun n ho hroom => ?orbit⟩, fun hearly => ?early⟩
  case due =>
    rw [exec_maximumWaitExpiry hp hc]
    have hdue : r.waitDue s.clock = true := by
      simp only [HuntRecord.waitDue, HuntRecord.waitDeadline, hs, duePast, hw, decide_true]
    simp only [State.maximumWaitExpiry, State.maximumWait, hr, hdue, if_true]
  case orbitless =>
    obtain ⟨rfl, -⟩ := record_call hr
    have hnone : r.orbit = none := by simp only [HuntRecord.orbit, hs, ho]
    rw [State.overflow, State.sendAway_record hr, State.recordGone_orbitless hnone, State.sendOwn_room hroom]
    rfl
  case orbit =>
    obtain ⟨rfl, -⟩ := record_call hr
    have hsome : r.orbit = some n := by simp only [HuntRecord.orbit, hs, ho]
    intro sent freed live
    have hsent : s.sendOwn r.call (overflowBody (s.activeGroup r.group).fields.overflowDn) = sent := State.sendOwn_room hroom ..
    rw [State.overflow, State.sendAway_record hr, hsent, State.recordGone_orbit (freed := freed) hsome rfl]
    rfl
  case early =>
    rw [exec_maximumWaitExpiry hp hc]
    unfold State.maximumWaitExpiry
    split
    · rename_i r hr
      refine congrArg _ (if_neg ?_)
      unfold HuntRecord.waitDue HuntRecord.waitDeadline
      cases hs : r.status with
      | queued w p o a => simpa [duePast] using hearly r w p o a hr hs
      | offered m d a => exact Bool.false_ne_true
    · rfl

/-! ### Abandonment (04, R82) -/

theorem HuntRecord.detached_same (r : HuntRecord) :
    r.detached.group = r.group ∧ r.detached.orbit = r.orbit ∧ r.detached.isQueued = r.isQueued ∧
      r.detached.tried = r.tried := by
  unfold HuntRecord.detached
  split
  · rename_i hs
    simp only [HuntRecord.orbit, HuntRecord.isQueued, hs, and_self]
  · exact ⟨rfl, rfl, rfl, rfl⟩

/-- A change of a call's records that keeps their calls is lost with them. -/
theorem filter_map_call {f : HuntRecord → HuntRecord} (hf : ∀ q, (f q).call = q.call) (l : List HuntRecord) :
    ((l.map fun q => if q.call = c then f q else q).filter fun q => q.call ≠ c) = l.filter fun q => q.call ≠ c := by
  induction l with
  | nil => rfl
  | cons q l ih =>
    rw [List.map_cons, List.filter_cons, List.filter_cons, ih]
    by_cases hq : q.call = c
    · simp [hq, hf]
    · simp [hq]

/-- A change of records that keeps their groups and what they are queues keeps the call at the head of each queue. -/
theorem State.headCall_modRecord {f : HuntRecord → HuntRecord} (hcall : ∀ q, (f q).call = q.call)
    (hgroup : ∀ q, (f q).group = q.group) (hqueued : ∀ q, (f q).isQueued = q.isQueued) (c : CallRef) (g : Nat) :
    (s.modRecord c f).headCall g = s.headCall g := by
  have hqueue : (s.modRecord c f).queue g = (s.queue g).map fun q => if q.call = c then f q else q := by
    unfold State.queue State.modRecord State.modHunt
    rw [List.filter_map]
    congr 1
    refine List.filter_congr fun q _ => ?_
    by_cases hq : q.call = c <;> simp [hq, hgroup, hqueued]
  unfold State.headCall
  rw [hqueue, List.head?_map, Option.map_map]
  congr 1
  funext q
  by_cases hq : q.call = c <;> simp [hq, hcall]

/-- A detached record gone is the record gone. -/
theorem State.recordGone_detached (h : s.record c = some r) (count : GroupCounters → GroupCounters) :
    (s.modRecord c HuntRecord.detached).recordGone r.detached count = s.recordGone r count := by
  obtain ⟨rfl, -⟩ := record_call h
  obtain ⟨hgroup, horbit, -, -⟩ := r.detached_same
  have hhead : (s.modRecord r.call HuntRecord.detached).headCall r.group = s.headCall r.group :=
    State.headCall_modRecord HuntRecord.detached_call (fun q => q.detached_same.1) (fun q => q.detached_same.2.2.1) ..
  have hwithout : (s.modRecord r.call HuntRecord.detached).hunt.records.filter (fun q => q.call ≠ r.call) =
      s.hunt.records.filter fun q => q.call ≠ r.call := filter_map_call HuntRecord.detached_call _
  unfold State.recordGone
  rw [hgroup, horbit, r.detached_call, hhead, hwithout]
  rfl

/-- Abandonment: the call's record goes, and is counted (04, R82). -/
theorem State.abandon_eq (h : s.record c = some r) :
    s.abandon c = s.recordGone r fun k => { k with abandoned := satInc k.abandoned } := by
  have hdetached : (s.modRecord c HuntRecord.detached).record c = some r.detached := by
    rw [State.record_modRecord HuntRecord.detached_call, h]
    rfl
  have hgone := State.removeRecord_counted hdetached fun k => { k with abandoned := satInc k.abandoned }
  rw [State.recordGone_detached h, r.detached_same.1] at hgone
  unfold State.abandon
  rw [h]
  exact hgone

theorem State.abandon_none (h : s.record c = none) : s.abandon c = s := by
  unfold State.abandon
  rw [h]

theorem exec_abandonment (hp : s.lane.phase = .inService) (hc : s.Calm) (hcall : call ≠ 0#16) (cause : WithdrawCause) :
    exec (.abandonment call cause) s = .next ((s.endBridge .down).abandonment call) := by
  rw [exec_cell (c := ⟨s.lane.own, call, .withdraw cause⟩) rfl hp hc (bne_iff_ne.mpr hcall)]
  exact congrArg Host.Outcome.next (if_pos (decide_eq_true rfl))

/-- A WITHDRAW inserted for a station with an offer of the call (01, R15; 02, R30). -/
theorem State.sendWithdraw_on (hn : n < 384) (h : (s.stations.get n).onOffer c = true) (hroom : s.room .down 1)
    (cause : WithdrawCause) :
    s.sendWithdraw n c cause =
      ((s.idled n).ringingRemove n).queued .down [.known ⟨BitVec.ofNat 10 n, c, .withdraw cause⟩] := by
  unfold State.sendWithdraw
  rw [State.trackOfferGone_on hn h]
  exact State.join_room _ ((State.idled_room ..).mpr hroom)

/-- Settles O28: by the call's record and its member. -/
theorem abandonmentCancels : Obligations.AbandonmentCancels := by
  intro call cause s hp hc hcall hroom b
  rw [exec_abandonment hp hc hcall]
  have hr : b.room .down 1 := (State.endBridge_room ..).mpr hroom
  refine ⟨fun hnone => ?none, fun r hrec => ?record⟩
  case none =>
    unfold State.abandonment
    rw [show (s.endBridge .down).record call = none from hnone]
    rfl
  case record =>
    intro live hunt
    have hb : b.record call = some r := hrec
    obtain ⟨rfl, -⟩ := record_call hrec
    have habandonment : b.abandonment r.call =
        match r.member with
        | some m => (b.abandon r.call).sendWithdraw m r.call .cancelled
        | none => b.abandon r.call := by
      unfold State.abandonment
      rw [hb] <;> rfl
    have horbitless (h : r.orbit = none) : b.abandon r.call = { b with hunt := hunt } := by
      rw [State.abandon_eq hb, State.recordGone_orbitless h]
      rfl
    refine ⟨fun hm => ?_, fun _ => horbitless, fun o ho => State.abandon_eq hb, fun m hm hlt hon => ?_⟩
    · rw [habandonment, hm]
    · rw [habandonment, hm, horbitless (HuntRecord.orbit_of_member hm)]
      exact congrArg _ (State.sendWithdraw_on (s := { b with hunt := hunt }) hlt hon (by exact hr) .cancelled)

/-! ### No answer (04, R75, R76) -/

theorem State.SameAssist.ringingRemove_eq (h : s.SameAssist t) (n : Nat) :
    t.ringingRemove n = { t with
      zones := (s.ringingRemove n).zones
      pickup := { t.pickup with ringing := t.pickup.ringing.filter fun e => e.station ≠ n } } := by
  rw [State.ringingRemove_zonesOnly, (h.ringingRemove n).zones]

/-- Changes of the Hunt Controller commute with a departure from RINGING. -/
theorem State.ringingRemove_modHunt (n : Nat) (f : Hunt → Hunt) (s : State) :
    (s.modHunt f).ringingRemove n = (s.ringingRemove n).modHunt f := by
  have hsame : s.SameAssist (s.modHunt f) := ⟨rfl, rfl, fun _ => rfl, fun _ => rfl, rfl, rfl, rfl, rfl⟩
  rw [hsame.ringingRemove_eq, State.ringingRemove_zonesOnly n s]
  rfl

/-- Cells that join a queue commute with a departure from RINGING. -/
theorem State.ringingRemove_queued (n : Nat) (d : Dir) (cs : List LaneCell) (s : State) :
    (s.queued d cs).ringingRemove n = (s.ringingRemove n).queued d cs := by
  have hsame : s.SameAssist (s.queued d cs) := ⟨rfl, rfl, fun _ => rfl, fun _ => rfl, rfl, rfl, rfl, rfl⟩
  rw [hsame.ringingRemove_eq, State.ringingRemove_zonesOnly n s]
  rfl

theorem State.ringingRemove_modGroupCounters (n g : Nat) (count : GroupCounters → GroupCounters) (s : State) :
    (s.modGroupCounters g count).ringingRemove n = (s.ringingRemove n).modGroupCounters g count :=
  State.ringingRemove_modHunt n _ s

theorem State.ringingRemove_flagged (n : Nat) (f : Flag) (s : State) :
    (s.flagged f).ringingRemove n = (s.ringingRemove n).flagged f := by
  have hsame : s.SameAssist (s.flagged f) := ⟨rfl, rfl, fun _ => rfl, fun _ => rfl, rfl, rfl, rfl, rfl⟩
  rw [hsame.ringingRemove_eq, State.ringingRemove_zonesOnly n s]
  rfl

/-- Whether a station's next strike reaches its group's threshold (04, R76). -/
def State.strikesOut (s : State) (n g : Nat) : Bool :=
  0 < (s.activeGroup g).fields.strikesThreshold &&
    (s.activeGroup g).fields.strikesThreshold ≤ min ((s.stations.get n).strikes + 1) 7

/-- A station with its next strike, logged off where it reaches the threshold. -/
def State.struck (s : State) (n g : Nat) : State :=
  { s with stations := s.stations.put n { s.stations.get n with
      strikes := if s.strikesOut n g then 0 else min ((s.stations.get n).strikes + 1) 7
      available := if s.strikesOut n g then false else (s.stations.get n).available } }

theorem State.strike_eq (hn : n < 384) (hi : (s.stations.get n).line ≠ .idle) (g : Nat) :
    s.strike n g = if s.strikesOut n g then (s.struck n g).setFlag .autoLogoff else s.struck n g := by
  let more : State :=
    { s with stations := s.stations.put n { s.stations.get n with strikes := min ((s.stations.get n).strikes + 1) 7 } }
  have hmore : s.changeStation n (fun st => { st with strikes := min (st.strikes + 1) 7 }) = more :=
    State.changeStation_quiet hn _ (Station.not_candidate hi)
  have hget : more.stations.get n = _ := State.get_put_station hn _
  have hoff : more.changeStation n (fun st => { st with available := false, strikes := 0 }) =
      { more with stations := more.stations.put n { more.stations.get n with available := false, strikes := 0 } } :=
    State.changeStation_quiet hn _ (by simp [Station.candidate])
  unfold State.strike
  simp only [hmore, hoff, hget]
  simp only [Bool.and_eq_true, decide_eq_true_eq]
  unfold State.struck
  cases ho : s.strikesOut n g with
  | true =>
    have hreached : 0 < (more.activeGroup g).fields.strikesThreshold ∧
        (more.activeGroup g).fields.strikesThreshold ≤ min ((s.stations.get n).strikes + 1) 7 := by
      exact (Bool.and_eq_true_iff.mp ho).imp of_decide_eq_true of_decide_eq_true
    rw [if_pos hreached, if_pos rfl]
    simp only [more, Tab.put_put, if_true]
  | false =>
    have hbelow : ¬ (0 < (more.activeGroup g).fields.strikesThreshold ∧
        (more.activeGroup g).fields.strikesThreshold ≤ min ((s.stations.get n).strikes + 1) 7) := by
      rintro ⟨h1, h2⟩
      exact Bool.false_ne_true (ho.symm.trans (Bool.and_eq_true_iff.mpr ⟨decide_eq_true h1, decide_eq_true h2⟩))
    rw [if_neg hbelow, if_neg Bool.false_ne_true]
    simp only [more, Bool.false_eq_true, if_false]

theorem exec_noAnswerExpiry (hp : s.lane.phase = .inService) (hc : s.Calm) :
    exec (.noAnswerExpiry call) s = .next (s.noAnswerExpiry call) :=
  congrArg Host.Outcome.next (State.afterRaised_of_calm (fun t => t.noAnswerExpiry call) hp hc)

/-- The end of an offer at a line, with its strike, and the WITHDRAW that goes down to it (04, R75). -/
theorem State.strike_withdrawn {m : Nat} (hm : m < 384) (hon : (s.stations.get m).onOffer c = true) (hup : s.room .up 1)
    (hdown : s.room .down 1) (g : Nat) :
    (s.strike m g).sendWithdraw m c .noAnswer =
      let ended := ((s.struck m g).idled m).ringingRemove m
      (if s.strikesOut m g then (ended.flagged .autoLogoff).queued .up (s.raised .autoLogoff) else ended).queued .down
        [.known ⟨BitVec.ofNat 10 m, c, .withdraw .noAnswer⟩] := by
  have hline : (s.stations.get m).line ≠ .idle := by
    intro hi
    rw [Station.onOffer_iff, hi] at hon
    exact hon.1.elim nofun nofun
  have hget : (s.struck m g).stations.get m = _ := State.get_put_station hm _
  have honStruck : ((s.struck m g).stations.get m).onOffer c = true := by
    rw [hget]
    exact hon
  rw [State.strike_eq hm hline]
  cases s.strikesOut m g with
  | false => exact State.sendWithdraw_on hm honStruck (by exact hdown) .noAnswer
  | true =>
    have hflag : (s.struck m g).setFlag .autoLogoff = ((s.struck m g).flagged .autoLogoff).queued .up (s.raised .autoLogoff) :=
      State.setFlag_room (by exact hup)
    simp only [if_true, hflag]
    have hflagged : (((s.struck m g).flagged .autoLogoff).queued .up (s.raised .autoLogoff)).idled m =
        (((s.struck m g).idled m).flagged .autoLogoff).queued .up (s.raised .autoLogoff) := rfl
    rw [State.sendWithdraw_on hm (by exact honStruck) (by exact hdown) .noAnswer, hflagged,
      State.ringingRemove_queued, State.ringingRemove_flagged]

theorem State.triedForm_eq (s : State) (n : Nat) (q : HuntRecord) :
    s.triedForm n q = if s.activeMember q.group n && !q.tried.contains n then { q.detached with tried := q.tried ++ [n] }
      else q.detached := by
  unfold State.triedForm
  rw [q.detached_same.2.2.2]

/-- Settles O29: the offer whose deadline has come, and the deadline that has not. -/
theorem noAnswerEndsOffer : Obligations.NoAnswerEndsOffer := by
  intro call s hp hc
  rw [exec_noAnswerExpiry hp hc]
  refine ⟨fun r m d a hr hs hd hm hon hup hdown => ?due, fun hearly => ?early⟩
  case due =>
    intro st strikes threshold off live t t1
    have hmember : r.member = some m := by simp only [HuntRecord.member, hs]
    have hdue : r.noAnswerDue s.clock = true := by
      simp only [HuntRecord.noAnswerDue, HuntRecord.offerDeadline, hmember, hs, duePast, hd, decide_true,
        Option.isSome_some, Bool.and_self]
    have hexpiry : s.noAnswerExpiry call = s.noAnswer call m r.group := by
      simp only [State.noAnswerExpiry, hr, hmember, hdue, if_true]
    let tried : State := s.detachTried call m
    have hout : tried.strikesOut m r.group = off := rfl
    let count : GroupCounters → GroupCounters := fun k => { k with noAnswers := satInc k.noAnswers }
    let ended : State := ((tried.struck m r.group).idled m).ringingRemove m
    have ht : ended.modGroupCounters r.group count = t := by
      rw [← State.ringingRemove_modGroupCounters]
      refine congrArg (State.ringingRemove m) ?_
      have hidled : (tried.struck m r.group).idled m =
          { tried with
            stations := s.stations.put m { st with
              line := .idle, call := none, strikes := if off then 0 else strikes
              available := if off then false else st.available }
            hunt := tried.hunt.raiseIf (!off && st.available && st.wrapUp.isNone) m } := by
        have hget : (tried.struck m r.group).stations.get m = _ := State.get_put_station hm _
        unfold State.idled
        rw [hget]
        simp only [State.struck, Tab.put_put, hout]
        cases off <;> rfl
      have hforms : (fun q => if q.call = call then s.triedForm m q else q) = fun q =>
          if q.call = call then
            let q1 := q.detached
            if s.activeMember q.group m && !q.tried.contains m then { q1 with tried := q.tried ++ [m] } else q1
          else q := by
        funext q
        rw [State.triedForm_eq]
      rw [hidled, ← hforms]
      cases !off && st.available && st.wrapUp.isNone <;> rfl
    have hcounted : (State.queued .down [.known ⟨BitVec.ofNat 10 m, call, .withdraw .noAnswer⟩]
          (if off then (ended.flagged .autoLogoff).queued .up (s.raised .autoLogoff) else ended)).modGroupCounters
            r.group count =
        t1.queued .down [.known ⟨BitVec.ofNat 10 m, call, .withdraw .noAnswer⟩] := by
      simp only [t1, ← ht]
      cases off <;> rfl
    rw [hexpiry]
    unfold State.noAnswer
    rw [State.strike_withdrawn (s := tried) hm hon hup hdown, hout]
    exact congrArg (fun u => Host.Outcome.next (State.reselect call u)) hcounted
  case early =>
    unfold State.noAnswerExpiry
    split
    · rfl
    · rename_i r hr
      split
      · rename_i m hmember
        refine congrArg _ (if_neg ?_)
        unfold HuntRecord.noAnswerDue HuntRecord.offerDeadline
        cases hs : r.status with
        | queued w p o a => simp [HuntRecord.member, hs] at hmember
        | offered m' d a =>
          obtain rfl : m' = some m := by simpa [HuntRecord.member, hs] using hmember
          simpa [duePast, hmember] using hearly r m d a hr hs
      · rfl

end Sys2Proof.Machine
end

section
/-! PROOFS. CALL_END (O16; 02, R31; 04, R82). -/

namespace Sys2Proof.Machine

variable {s t u : State} {c call : CallRef} {n m : Nat}

/-! ### A CALL_END at one station (02, R31) -/

/-- A station's record after a CALL_END of its call. -/
def Station.released (st : Station) : Station :=
  match st.line with
  | .offered | .ringing => { st with line := .idle, call := none }
  | .talking => { st with line := .seized, call := none }
  | _ => st

/-- Whether a station has an offer, rung or not. -/
def Station.offered (st : Station) : Bool := st.line = .offered || st.line = .ringing

/-- A part after a CALL_END at some stations: their lines, the ringing set, the zones and the raised events alone. -/
structure State.Released (on : Nat → Bool) (s t : State) : Prop where
  rest : t = { s with
    stations := t.stations, zones := t.zones, pickup := { s.pickup with ringing := t.pickup.ringing }
    hunt := { s.hunt with available := t.hunt.available } }
  stations : ∀ n, n < 384 → t.stations.get n = if on n then (s.stations.get n).released else s.stations.get n
  ringing : t.pickup.ringing = s.pickup.ringing.filter fun e => !(on e.station && (s.stations.get e.station).offered)

theorem State.released_none (s : State) : s.Released (fun _ => false) s where
  rest := rfl
  stations _ _ := rfl
  ringing := by
    refine (List.filter_eq_self.mpr fun _ _ => rfl).symm

theorem Hunt.raiseIf_rest (h : Hunt) (b : Bool) (n : Nat) :
    h.raiseIf b n = { h with available := (h.raiseIf b n).available } := by
  cases b <;> rfl

theorem State.callEndAt_offer (hn : n < 384)
    (h : (s.stations.get n).line = .offered ∨ (s.stations.get n).line = .ringing) :
    s.callEndAt n = (s.idled n).ringingRemove n := by
  rw [← State.changeStation_idled hn (Station.not_candidate (by rcases h with h | h <;> rw [h] <;> nofun))]
  unfold State.callEndAt
  rcases h with h | h <;> simp only [h]

theorem State.callEndAt_talking (hn : n < 384) (h : (s.stations.get n).line = .talking) :
    s.callEndAt n = { s with stations := s.stations.put n { s.stations.get n with line := .seized, call := none } } := by
  rw [← State.changeStation_quiet hn (fun st => { st with line := .seized, call := none })
    (Station.not_candidate (by nofun))]
  unfold State.callEndAt
  simp only [h]

/-- A CALL_END at one station. -/
theorem State.callEndAt_released (hn : n < 384) (s : State) : s.Released (· == n) (s.callEndAt n) := by
  have hput (x : Station) : ∀ m, m < 384 → (s.stations.put n x).get m = if (m == n) = true then x else s.stations.get m := by
    intro m _
    by_cases hm : m = n
    · subst hm
      rw [if_pos (beq_self_eq_true m)]
      exact State.get_put_station hn x
    · rw [if_neg (by simpa using hm)]
      exact Tab.get_put_ne _ _ (Ne.symm hm)
  have hkept (hoff : (s.stations.get n).offered = false) :
      s.pickup.ringing = s.pickup.ringing.filter fun e => !((e.station == n) && (s.stations.get e.station).offered) := by
    refine (List.filter_eq_self.mpr fun e _ => ?_).symm
    by_cases he : e.station = n
    · simp [he, hoff]
    · simp [he]
  have hform (st : Station) (hm : ∀ m, m < 384 → m = n → st = (s.stations.get m).released) (m : Nat) (hlt : m < 384) :
      (s.stations.put n st).get m = if (m == n) = true then (s.stations.get m).released else s.stations.get m := by
    rw [hput st m hlt]
    by_cases he : m = n
    · rw [if_pos (by simpa using he), if_pos (by simpa using he), hm m hlt he]
    · rw [if_neg (by simpa using he), if_neg (by simpa using he)]
  cases hl : (s.stations.get n).line with
  | offered | ringing =>
    have hoff : (s.stations.get n).offered = true := by simp [Station.offered, hl]
    rw [State.callEndAt_offer hn (by simp [hl]), State.ringingRemove_zonesOnly]
    refine ⟨?_, hform _ ?_, List.filter_congr fun e _ => ?_⟩
    · exact congrArg (fun h => ({ s.idled n with
        zones := _, pickup := { s.pickup with ringing := _ }, hunt := h } : State)) (Hunt.raiseIf_rest ..)
    · rintro m - rfl
      simp only [Station.released, hl]
    · by_cases he : e.station = n
      · simp [he, hoff]
      · simp [he]
  | talking =>
    rw [State.callEndAt_talking hn hl]
    refine ⟨rfl, hform _ ?_, hkept (by simp [Station.offered, hl])⟩
    rintro m - rfl
    simp only [Station.released, hl]
  | idle | seized | feature | outOfService =>
    have hstays : s.callEndAt n = s := by
      unfold State.callEndAt
      simp only [hl]
    rw [hstays]
    refine ⟨rfl, fun m _ => ?_, hkept (by simp [Station.offered, hl])⟩
    by_cases he : m = n
    · subst he
      simp [Station.released, hl]
    · rw [if_neg (by simpa using he)]

theorem State.Released.trans {p q : Nat → Bool} (h : s.Released p t) (k : t.Released q u)
    (hpq : ∀ n, p n = true → q n = false) (hlt : ∀ n, q n = true → n < 384) : s.Released (fun n => p n || q n) u where
  rest := by
    rw [k.rest, h.rest]
  stations n hn := by
    rw [k.stations n hn, h.stations n hn]
    cases hp : p n with
    | true => simp [hpq n hp]
    | false => simp
  ringing := by
    rw [k.ringing, h.ringing, List.filter_filter]
    refine List.filter_congr fun e _ => ?_
    cases hq : q e.station with
    | false => simp
    | true =>
      have hp : p e.station = false := by
        cases hp : p e.station with
        | false => rfl
        | true => exact absurd (hpq _ hp) (by rw [hq]; nofun)
      rw [h.stations _ (hlt _ hq), hp]
      simp

/-- A CALL_END at every station of a list. -/
theorem State.callEnds_released {l : List Nat} (hn : l.Nodup) (hl : ∀ n ∈ l, n < 384) (s : State) :
    s.Released (l.contains ·) (l.foldl (fun t n => t.callEndAt n) s) := by
  induction l generalizing s with
  | nil => simpa using s.released_none
  | cons n l ih =>
    obtain ⟨hnl, hnd⟩ := List.nodup_cons.mp hn
    have h := (s.callEndAt_released (hl n List.mem_cons_self)).trans
      (ih hnd (fun m hm => hl m (List.mem_cons_of_mem n hm)) (s.callEndAt n))
      (fun m hm => by rw [beq_iff_eq.mp hm]; simpa using hnl)
      (fun m hm => hl m (List.mem_cons_of_mem n (by simpa using hm)))
    simpa only [List.foldl_cons, List.contains_cons] using h

/-! ### The call's end (01, R9; 02, R31; 04, R82) -/

theorem State.mem_stationsOn : n ∈ s.stationsOn c ↔ n < 384 ∧ (s.stations.get n).call = some c := by
  unfold State.stationsOn stationNumbers
  simp

/-- The part once every station on a call is released. -/
def State.releasedFrom (c : CallRef) (s : State) : State := (s.stationsOn c).foldl (fun t n => t.callEndAt n) s

theorem State.releasedFrom_released (c : CallRef) (s : State) : s.Released ((s.stationsOn c).contains ·) (s.releasedFrom c) :=
  State.callEnds_released (List.nodup_range.filter _) (fun _ hn => (State.mem_stationsOn.mp hn).1) s

theorem exec_callEnd {eq : Equip} (hp : s.lane.phase = .inService) (hc : s.Calm) (hcall : call ≠ 0#16) :
    exec (.callEnd eq call) s =
      .next ((((s.endBridge .down).releasedFrom call).abandon call).join .down (.known ⟨eq, call, .callEnd⟩)) :=
  exec_cell (c := ⟨eq, call, .callEnd⟩) rfl hp hc (bne_iff_ne.mpr hcall)

/-- Settles O16: the fold over the stations on the call, then the abandonment of its record. -/
theorem callEndReleases : Obligations.CallEndReleases := by
  intro eq call s hp hc hcall release
  let b := s.endBridge .down
  let v := b.releasedFrom call
  have hv : b.Released ((b.stationsOn call).contains ·) v := State.releasedFrom_released call b
  have hon (n : Nat) : (b.stationsOn call).contains n = true ↔ n < 384 ∧ (s.stations.get n).call = some call := by
    rw [List.contains_iff_mem]
    exact State.mem_stationsOn
  have hrelease : ∀ (u : State) (n : Nat), n < 384 → u.callEndAt n = release u n := by
    intro u n hn
    simp only [release]
    cases hl : (u.stations.get n).line with
    | offered => exact State.callEndAt_offer hn (.inl hl)
    | ringing => exact State.callEndAt_offer hn (.inr hl)
    | talking => exact State.callEndAt_talking hn hl
    | idle | seized | feature | outOfService =>
      unfold State.callEndAt
      simp only [hl]
  refine ⟨v.stations, v.pickup.ringing, v.zones, v.hunt.available, ?_⟩
  intro t
  have ht : t = v := hv.rest.symm
  have hrecord : t.record call = s.record call := rfl
  refine ⟨?fold, ?exec, fun n hn => ?station, ?ring, fun hnone => State.abandon_none hnone, fun r hr ho => ?orbitless,
    fun r o hr _ => State.abandon_eq (hrecord.trans hr)⟩
  case fold =>
    have hlist : b.stationsOn call = (List.range 384).filter fun n => (s.stations.get n).call = some call :=
      List.filter_congr fun n _ => beq_eq_decide (s.stations.get n).call (some call)
    rw [ht, ← hlist]
    exact List.foldl_ext _ _ _ fun u n hn => hrelease u n (State.mem_stationsOn.mp hn).1
  case exec =>
    rw [ht]
    exact exec_callEnd hp hc hcall
  case station =>
    dsimp only
    rw [hv.stations n hn]
    by_cases h : (s.stations.get n).call = some call
    · rw [if_pos ((hon n).mpr ⟨hn, h⟩), if_pos h]
      rfl
    · rw [if_neg fun hh => h ((hon n).mp hh).2, if_neg h]
      rfl
  case ring =>
    refine hv.ringing.trans (List.filter_congr fun e _ => ?_)
    rw [Bool.not_inj_iff, Bool.eq_iff_iff, Bool.and_eq_true, Bool.and_eq_true, hon, decide_eq_true_eq,
      Station.onOffer_iff]
    simp only [Station.offered, Bool.or_eq_true, decide_eq_true_eq]
    exact ⟨fun ⟨⟨h1, h2⟩, h3⟩ => ⟨h1, h3, h2⟩, fun ⟨h1, h3, h2⟩ => ⟨⟨h1, h2⟩, h3⟩⟩
  case orbitless =>
    obtain ⟨rfl, -⟩ := record_call hr
    rw [State.abandon_eq (hrecord.trans hr), State.recordGone_orbitless ho]
    rfl

end Sys2Proof.Machine
end

section
/-! PROOFS. ANSWERED from a tracked station (O17, O18; 02, R29; 04, R73, R85, R86). -/

namespace Sys2Proof.Machine

variable {s t u v : State} {c call k : CallRef} {r : HuntRecord} {n m g : Nat} {st : Station}

/-! ### What an orbit's release leaves of the Hunt Controller and of the stations (06, R110) -/

theorem State.chimeOrbit_hunt (n : Nat) (s : State) : (s.chimeOrbit n).hunt = s.hunt := by
  unfold State.chimeOrbit
  split
  · rfl
  · exact (foldl_kept (P := fun t => t.hunt = s.hunt ∧ t.orbits = s.orbits)
      (fun _ z ht => (KeptClaims.same s).requestClaim ht z (by rfl)) _ ⟨rfl, rfl⟩).1

theorem State.assignOrbit_hunt (n : Nat) (r : HuntRecord) (s : State) :
    (s.assignOrbit n r).hunt =
      { s.hunt with records := s.hunt.records.map fun q => if q.call = r.call then q.withOrbit n else q } :=
  State.chimeOrbit_hunt n _

/-- The part with an orbit's claims withdrawn and the orbit free. -/
def State.orbitCleared (n : Nat) (s : State) : State :=
  (zoneNumbers.foldl (fun t z => t.withdrawClaim z (.orbit n)) s).setOrbit n none

theorem State.orbitCleared_zones (n : Nat) (s : State) :
    ∃ zs, s.orbitCleared n = { s with zones := zs, orbits := s.orbits.put n none } := by
  have hzones : s.zonesOnly (zoneNumbers.foldl (fun t z => t.withdrawClaim z (.orbit n)) s) :=
    foldl_onlyZone_zonesOnly (fun t z => t.withdrawClaim_onlyZone z _) _
  refine ⟨(zoneNumbers.foldl (fun t z => t.withdrawClaim z (.orbit n)) s).zones, ?_⟩
  unfold State.orbitCleared
  rw [hzones]
  rfl

theorem State.orbitCleared_hunt (n : Nat) (s : State) : (s.orbitCleared n).hunt = s.hunt := by
  obtain ⟨zs, h⟩ := s.orbitCleared_zones n
  rw [h]

theorem State.firstAwaiting_congr (h : t.hunt.records = s.hunt.records) : t.firstAwaiting = s.firstAwaiting := by
  unfold State.firstAwaiting
  rw [h]

/-- A released orbit is handed on to the first record that awaits one. -/
theorem State.releaseOrbit_eq (n : Nat) (s : State) :
    s.releaseOrbit n true =
      match s.firstAwaiting with | some r => (s.orbitCleared n).assignOrbit n r | none => s.orbitCleared n := by
  have hfirst : (s.orbitCleared n).firstAwaiting = s.firstAwaiting :=
    State.firstAwaiting_congr (by rw [State.orbitCleared_hunt])
  have hcleared : (zoneNumbers.foldl (fun t z => t.withdrawClaim z (.orbit n)) s).setOrbit n none = s.orbitCleared n := rfl
  unfold State.releaseOrbit
  simp only [if_true]
  rw [hcleared, hfirst] <;> rfl

/-- A table whose records keep their calls and their members. -/
def SameMembers (l l' : List HuntRecord) : Prop :=
  ∃ f : HuntRecord → HuntRecord, (∀ q, (f q).call = q.call ∧ (f q).member = q.member) ∧ l' = l.map f

theorem State.isMember_same (h : SameMembers s.hunt.records t.hunt.records) (n : Nat) (k : CallRef) :
    t.isMember n k = s.isMember n k := by
  obtain ⟨f, hf, hl⟩ := h
  have hrecord : t.record k = (s.record k).map f := by
    unfold State.record
    rw [hl, List.find?_map]
    congr 2
    funext q
    rw [Function.comp_apply, (hf q).1]
  unfold State.isMember
  rw [hrecord]
  cases s.record k with
  | none => rfl
  | some q => exact congrArg (· == some n) (hf q).2

theorem HuntRecord.withOrbit_member (n : Nat) (r : HuntRecord) : (r.withOrbit n).member = r.member := by
  unfold HuntRecord.withOrbit
  split
  · rename_i hs
    simp only [HuntRecord.member, hs]
  · rfl

theorem State.releaseOrbit_members (n : Nat) (s : State) :
    SameMembers s.hunt.records (s.releaseOrbit n true).hunt.records := by
  rw [State.releaseOrbit_eq]
  cases s.firstAwaiting with
  | none =>
    dsimp only
    rw [State.orbitCleared_hunt]
    exact ⟨id, fun _ => ⟨rfl, rfl⟩, (List.map_id _).symm⟩
  | some r =>
    dsimp only
    rw [State.assignOrbit_hunt, State.orbitCleared_hunt]
    refine ⟨fun q => if q.call = r.call then q.withOrbit n else q, fun q => ?_, rfl⟩
    dsimp only
    split
    · exact ⟨q.withOrbit_call n, q.withOrbit_member n⟩
    · exact ⟨rfl, rfl⟩

/-- Another call's member is the same once a record has gone. -/
theorem State.isMember_filter (h : t.hunt.records = s.hunt.records.filter fun q => q.call ≠ c) (hk : k ≠ c) (n : Nat) :
    t.isMember n k = s.isMember n k := by
  have hrecord : t.record k = s.record k := by
    unfold State.record
    rw [h, List.find?_filter]
    congr 1
    funext q
    by_cases hq : q.call = k
    · simp [hq, hk]
    · simp [hq]
  unfold State.isMember
  rw [hrecord]

theorem State.recordGone_isMember (hk : k ≠ r.call) (count : GroupCounters → GroupCounters) (n : Nat) :
    (s.recordGone r count).isMember n k = s.isMember n k := by
  cases ho : r.orbit with
  | none =>
    rw [State.recordGone_orbitless ho]
    exact State.isMember_filter rfl hk n
  | some o =>
    let without : State := { s with hunt := { s.hunt with records := s.hunt.records.filter fun q => q.call ≠ r.call } }
    have hfreed := State.isMember_same (without.releaseOrbit_members o) n k
    rw [State.recordGone_orbit ho (freed := without.releaseOrbit o true) rfl]
    generalize without.releaseOrbit o true = freed at hfreed
    exact hfreed.trans (State.isMember_filter rfl hk n)

/-- A station whose record is as it was, but for its source session. -/
def State.stays (n : Nat) (x : Station) (s : State) : Prop :=
  s.stations.get n = { x with source := (s.stations.get n).source }

theorem FreeClaims.stays (n : Nat) (x : Station) : FreeClaims (State.stays n x) where
  assist _ := id
  zone h _ := h
  lane h _ := h
  flag _ h := h
  source {t} m h := by
    show (t.stations.put m { t.stations.get m with source := none }).get n = { x with
      source := ((t.stations.put m { t.stations.get m with source := none }).get n).source }
    rw [Tab.get_put]
    split
    · rename_i hm
      obtain ⟨rfl, -⟩ := hm
      exact congrArg (fun y : Station => { y with source := none }) h
    · exact h
  paging h _ := h
  alarm h _ := h

theorem KeptOrbits.stays (n : Nat) (x : Station) : KeptOrbits (State.stays n x) where
  toKeptClaims := (FreeClaims.stays n x).kept
  hunt _ h := h
  orbit _ _ h := h

/-- The work on calls leaves a station that is not IDLE. -/
theorem KeptCalls.stays (n : Nat) {x : Station} (hx : x.line ≠ .idle) : KeptCalls (State.stays n x) where
  toKeptOrbits := KeptOrbits.stays n x
  offered {t m} c h hm := by
    have hne : m ≠ n := by
      rintro rfl
      rw [h] at hm
      exact hx hm
    have hget : (t.modStation m fun st => { st with line := .offered, call := some c }).stations.get n =
        t.stations.get n := Tab.get_put_ne _ _ hne
    unfold State.stays
    rw [hget]
    exact h

theorem State.recordGone_stays (r : HuntRecord) (count : GroupCounters → GroupCounters) (n : Nat) (s : State) :
    (s.recordGone r count).stays n (s.stations.get n) := by
  cases ho : r.orbit with
  | none =>
    rw [State.recordGone_orbitless ho]
    exact rfl
  | some o =>
    let without : State := { s with hunt := { s.hunt with records := s.hunt.records.filter fun q => q.call ≠ r.call } }
    have hfreed := (KeptOrbits.stays n (s.stations.get n)).releaseOrbit (s := without) rfl o true
    rw [State.recordGone_orbit ho (freed := without.releaseOrbit o true) rfl]
    generalize without.releaseOrbit o true = freed at hfreed
    exact hfreed

/-! ### ANSWERED at a line (02, R29) -/

/-- A part whose station is TALKING on a call, with no delivered-by group. -/
def State.spoken (n : Nat) (c : CallRef) (s : State) : State :=
  { s with stations := s.stations.put n { s.stations.get n with
      line := .talking, call := some c, deliveredBy := none } }

/-- A part whose answering station has left the ringing set, where it rang. -/
def State.unrung (n : Nat) (l : LineState) (s : State) : State := if l = .ringing then s.ringingRemove n else s

theorem State.unrung_rest (n : Nat) (l : LineState) (s : State) :
    (s.unrung n l).stations = s.stations ∧ (s.unrung n l).hunt = s.hunt ∧ (s.unrung n l).lane = s.lane := by
  unfold State.unrung
  split
  · exact ⟨State.ringingRemove_stations .., State.ringingRemove_hunt .., State.ringingRemove_lane ..⟩
  · exact ⟨rfl, rfl, rfl⟩

theorem State.spoken_get (hn : n < 384) (c : CallRef) (s : State) :
    (s.spoken n c).stations.get n =
      { s.stations.get n with line := .talking, call := some c, deliveredBy := none } := State.get_put_station hn _

theorem State.applyAnswered_out (h : (s.stations.get n).line = .outOfService) (c : CallRef) : s.applyAnswered n c = s := if_pos h

theorem State.applyAnswered_eq (hn : n < 384) (hl : (s.stations.get n).line = st.line)
    (hcall : (s.stations.get n).call = st.call) (ho : st.line ≠ .outOfService) (c : CallRef) :
    s.applyAnswered n c =
      (let v := (s.spoken n c).unrung n st.line
       let w := match st.superseded c with | some k => v.offerLost n k | none => v
       if st.line = .feature then w.sourceDeparted n true else w) := by
  have hsup : (s.stations.get n).superseded c = st.superseded c := by
    unfold Station.superseded
    rw [hl, hcall]
  unfold State.applyAnswered
  dsimp only
  rw [hl, hsup, if_neg ho, State.changeStation_quiet hn _ (Station.not_candidate (by nofun))]
  rfl

theorem Station.superseded_none (h : ¬ (st.line = .offered ∨ st.line = .ringing) ∨ st.call = some c) :
    st.superseded c = none := by
  unfold Station.superseded
  split
  · rename_i k hk
    refine if_neg fun hs => ?_
    simp only [Bool.and_eq_true, Bool.or_eq_true, decide_eq_true_eq] at hs
    rcases h with h | h
    · exact h hs.1
    · exact hs.2 (Option.some_inj.mp (hk.symm.trans h))
  · rfl

theorem Station.superseded_some (h : st.line = .offered ∨ st.line = .ringing) (hk : st.call = some k) (hne : k ≠ c) :
    st.superseded c = some k := by
  unfold Station.superseded
  rw [hk]
  refine if_pos ?_
  simp only [Bool.and_eq_true, Bool.or_eq_true, decide_eq_true_eq]
  exact ⟨h, hne⟩

/-- An answer from a station that leaves no other offer and no session. -/
theorem State.applyAnswered_plain (hn : n < 384) (hl : (s.stations.get n).line = st.line)
    (hcall : (s.stations.get n).call = st.call)
    (h : st.line = .idle ∨ st.line = .seized ∨ st.line = .talking ∨
      st.line = .feature ∧ (s.stations.get n).source = none ∨ st.onOffer c = true) :
    s.applyAnswered n c = (s.spoken n c).unrung n st.line := by
  have ho : st.line ≠ .outOfService := by
    rcases h with h | h | h | ⟨h, -⟩ | h
    · rw [h]; nofun
    · rw [h]; nofun
    · rw [h]; nofun
    · rw [h]; nofun
    · rcases (Station.onOffer_iff.mp h).1 with h | h <;> rw [h] <;> nofun
  have hsup : st.superseded c = none := by
    apply Station.superseded_none
    rcases h with h | h | h | ⟨h, -⟩ | h
    · rw [h]; exact .inl (by simp)
    · rw [h]; exact .inl (by simp)
    · rw [h]; exact .inl (by simp)
    · rw [h]; exact .inl (by simp)
    · exact .inr (Station.onOffer_iff.mp h).2
  rw [State.applyAnswered_eq hn hl hcall ho, hsup]
  dsimp only
  split
  · rename_i hf
    have hsource : (s.stations.get n).source = none := by
      rcases h with h | h | h | ⟨-, h⟩ | h
      · exact nomatch h.symm.trans hf
      · exact nomatch h.symm.trans hf
      · exact nomatch h.symm.trans hf
      · exact h
      · rcases (Station.onOffer_iff.mp h).1 with h | h <;> exact nomatch h.symm.trans hf
    refine State.sourceDeparted_none ?_ true
    rw [((s.spoken n c).unrung_rest n st.line).1, State.spoken_get hn]
    exact hsource
  · rfl

/-- An answer that supersedes another offer. -/
theorem State.applyAnswered_supersedes (hn : n < 384) (hl : (s.stations.get n).line = st.line)
    (hcall : (s.stations.get n).call = st.call) (h : st.line = .offered ∨ st.line = .ringing) (hk : st.call = some k)
    (hne : k ≠ c) : s.applyAnswered n c = ((s.spoken n c).unrung n st.line).offerLost n k := by
  rw [State.applyAnswered_eq hn hl hcall (by rcases h with h | h <;> rw [h] <;> nofun),
    Station.superseded_some h hk hne]
  exact if_neg (by rcases h with h | h <;> rw [h] <;> nofun)

/-- An answer from a page source ends its session with no tone. -/
theorem State.applyAnswered_source {i : Nat} {x : Session} (hn : n < 384) (hl : (s.stations.get n).line = .feature)
    (hi : (s.stations.get n).source = some i) (hx : s.paging.sessions.get i = some x) (hown : x.source = n) :
    s.applyAnswered n c = (s.spoken n c).freed i x ((s.spoken n c).sessionLeft i x).zones := by
  have hsup : (s.stations.get n).superseded c = none := Station.superseded_none (.inl (by simp [hl]))
  rw [State.applyAnswered_eq hn rfl rfl (by rw [hl]; nofun), hsup, hl]
  have hstays : (s.spoken n c).unrung n .feature = s.spoken n c := if_neg nofun
  dsimp only
  rw [hstays, if_pos rfl, State.sourceDeparted_own (s := s.spoken n c) (by rw [State.spoken_get hn]; exact hi) hx hown]
  exact State.endSession_quiet hx

/-! ### ANSWERED for a call with no record (04, R86) -/

theorem State.answered_none (h : s.record c = none) (n : Nat) :
    s.answered n c =
      if !(s.stations.get n).onOffer c && s.hunt.closed.contains c then (s.answerTooLate n c, .consume)
      else (s.applyAnswered n c, .pass) := by
  unfold State.answered
  rw [h]

theorem stationEquip_toNat (eq : Equip) : stationEquip eq.toNat = eq := by
  simp [stationEquip]

/-- A station's answer that comes too late, from a line with no offer: it is told, and hangs up for it (04, R86). -/
theorem State.answerTooLate_eq (hoff : (s.stations.get n).onOffer c = false) (hroom : s.room .down 1) :
    s.answerTooLate n c =
      ((s.queued .down [.known ⟨stationEquip n, c, .withdraw .taken⟩]).trackOffHook n).1.join .up
        (.known ⟨stationEquip n, 0#16, .offHook⟩) := by
  unfold State.answerTooLate State.sendOffHook State.sendWithdraw
  rw [State.trackOfferGone_off hoff, State.join_room _ hroom]

/-- Settles O18: too late, in order, or out of order for no closed call, by the line of the station. -/
theorem answerWithoutRecord : Obligations.AnswerWithoutRecord := by
  intro eq call via s hp hc ht hcall hup hdown hnone n st b passes talking
  have hn : n < 384 := tracked_lt ht
  have hbup : b.room .up 1 := (State.endBridge_room ..).mpr hup
  have hbdown : b.room .down 1 := (State.endBridge_room ..).mpr hdown
  have hexec : exec (.answered eq call via) s = .next (State.decide ⟨eq, call, .answered via⟩
      (if !st.onOffer call && s.hunt.closed.contains call then (b.answerTooLate n call, .consume)
       else (b.applyAnswered n call, .pass))) :=
    (exec_answered hp hc ht hcall via).trans (congrArg (fun r => Host.Outcome.next (State.decide _ r))
      (State.answered_none (s := b) hnone n))
  have hlate (hoff : st.onOffer call = false) (hclosed : call ∈ s.hunt.closed) :
      exec (.answered eq call via) s = .next
        (((b.queued .down [.known ⟨eq, call, .withdraw .taken⟩]).trackOffHook n).1.join .up
          (.known ⟨eq, 0#16, .offHook⟩)) := by
    rw [hexec, if_pos (by simp [hoff, hclosed])]
    have htold := State.answerTooLate_eq (s := b) (n := n) (c := call) hoff hbdown
    rw [stationEquip_toNat] at htold
    exact congrArg Host.Outcome.next htold
  have hpassed (h : st.onOffer call = true ∨ call ∉ s.hunt.closed) :
      exec (.answered eq call via) s = .next ((b.applyAnswered n call).join .up (.known ⟨eq, call, .answered via⟩)) := by
    rw [hexec, if_neg]
    · rfl
    · rcases h with h | h <;> simp [h]
  have hpasses {t : State} (h : st.onOffer call = true ∨ call ∉ s.hunt.closed) (hp : b.applyAnswered n call = t)
      (hl : t.lane = b.lane) : passes t := by
    show exec _ _ = _
    rw [hpassed h, hp, State.join_room _ ((State.room_congr hl _ _).mpr hbup)]
  have hunrung := (b.spoken n call).unrung_rest n st.line
  have hplain (h : st.onOffer call = true ∨ call ∉ s.hunt.closed)
      (hl : st.line = .idle ∨ st.line = .seized ∨ st.line = .talking ∨
        st.line = .feature ∧ (b.stations.get n).source = none ∨ st.onOffer call = true) :
      passes ((b.spoken n call).unrung n st.line) :=
    hpasses h (State.applyAnswered_plain hn rfl rfl hl) hunrung.2.2
  have hsilent {l : LineState} (hl : st.line = l) (h : l ≠ .ringing) :
      (b.spoken n call).unrung n st.line = b.spoken n call := if_neg (by rw [hl]; exact h)
  refine ⟨fun hoff hclosed hline => ?late, fun k hline hk hne hclosed => ?glare, fun hon => ?inOrder, fun hopen =>
    ⟨fun hline => ?plain, fun hline => ?out, fun k hline hk hne => ?superseded, fun hline hsource => ?bare,
      fun i x hline hsource hx hown => ?source, hpassed (.inr hopen)⟩⟩
  case late =>
    rw [hlate hoff hclosed]
    let told := b.queued .down [.known ⟨eq, call, .withdraw .taken⟩]
    by_cases hi : st.line = .idle
    · rw [if_pos hi, State.trackOffHook_idle (s := told) hn hi]
      exact congrArg _ (State.join_room _ (by exact hbup))
    · rw [if_neg hi, State.trackOffHook_other (s := told) hi hline]
      exact congrArg _ (State.join_room _ (by exact hbup))
  case glare =>
    intro glared lost
    have hoff : st.onOffer call = false := by
      rw [← Bool.not_eq_true, Station.onOffer_iff, hk, Option.some_inj]
      exact fun h => hne h.2
    rw [hlate hoff hclosed, State.trackOffHook_offered hn (by exact hline)]
    have hcall : ((b.queued .down [.known ⟨eq, call, .withdraw .taken⟩]).stations.get n).call = some k := hk
    simp only [hcall]
    refine congrArg (fun t => Host.Outcome.next (State.join .up _ t)) ?_
    show glared.offerLost n k = lost
    cases hm : s.isMember n k with
    | true => exact (State.offerLost_member (s := glared) hm).trans (if_pos hm).symm
    | false => exact (State.offerLost_not (s := glared) hm).trans (if_neg (ne_true_of_eq_false hm)).symm
  case inOrder => exact hplain (.inl hon) (.inr (.inr (.inr (.inr hon))))
  case plain =>
    have hne : st.line ≠ .ringing := by rcases hline with h | h | h <;> rw [h] <;> nofun
    have hp := hplain (.inr hopen) (hline.imp_right (.imp_right .inl))
    rwa [hsilent rfl hne] at hp
  case out => exact hpasses (.inr hopen) (State.applyAnswered_out (s := b) hline call) rfl
  case superseded =>
    intro spoken left
    have hleft : (b.spoken n call).unrung n st.line = left := rfl
    have happlied := State.applyAnswered_supersedes (s := b) (st := st) (c := call) hn rfl rfl hline hk hne
    rw [hleft] at happlied hunrung
    clear_value left
    have hmember : left.isMember n k = s.isMember n k := State.isMember_congr (congrArg Hunt.records hunrung.2.1) n k
    refine ⟨fun hm => ?_, fun hm => ?_⟩
    · rw [State.offerLost_not (hmember.trans hm)] at happlied
      exact hpasses (.inr hopen) happlied hunrung.2.2
    · rw [hpassed (.inr hopen), happlied, State.offerLost_member (hmember.trans hm)]
  case bare =>
    have hp := hplain (.inr hopen) (.inr (.inr (.inr (.inl ⟨hline, hsource⟩))))
    rwa [hsilent hline nofun] at hp
  case source =>
    intro spoken
    exact ⟨(spoken.sessionLeft i x).zones, spoken.sessionLeft_zones i x,
      hpasses (.inr hopen) (State.applyAnswered_source hn hline hsource hx hown) rfl⟩

end Sys2Proof.Machine
end

section
/-! PROOFS. ANSWERED for a call with a record (O17; 04, R73, R85). -/

namespace Sys2Proof.Machine

variable {s t u v : State} {c call k : CallRef} {r : HuntRecord} {n m g : Nat} {st : Station}

theorem State.room_up_queued_down (cs : List LaneCell) (k : Nat) (s : State) :
    (s.queued .down cs).room .up k ↔ s.room .up k := Iff.rfl

/-- The counter of an answered call. -/
def GroupCounters.answeredOnce (k : GroupCounters) : GroupCounters := { k with answered := satInc k.answered }

theorem State.headCall_congr (h : t.hunt.records = s.hunt.records) (g : Nat) : t.headCall g = s.headCall g := by
  unfold State.headCall State.queue
  rw [h]

theorem HuntRecord.unqueued_of_member (h : r.member = some m) : r.isQueued = false := by
  unfold HuntRecord.member at h
  unfold HuntRecord.isQueued
  split <;> simp_all

/-- A call that is offered heads no queue. -/
theorem State.headCall_ne_unqueued (hcalls : (s.hunt.records.map HuntRecord.call).Nodup) (hr : s.record c = some r)
    (hq : r.isQueued = false) (g : Nat) : s.headCall g ≠ some c := by
  obtain ⟨hcall, hmem⟩ := record_call hr
  intro hhead
  obtain ⟨q, hqueue, hqc⟩ := Option.map_eq_some_iff.mp hhead
  obtain ⟨hq', hin⟩ := List.mem_filter.mp (List.mem_of_mem_head? hqueue)
  obtain rfl := record_unique hcalls hq' hmem (hqc.trans hcall.symm)
  rw [hq, Bool.and_false] at hin
  exact nomatch hin

theorem State.headCall_ne_offered (hcalls : (s.hunt.records.map HuntRecord.call).Nodup) (hr : s.record c = some r)
    (hm : r.member = some m) (g : Nat) : s.headCall g ≠ some c :=
  State.headCall_ne_unqueued hcalls hr (HuntRecord.unqueued_of_member hm) g

/-- The Hunt Controller once an offered call is answered. -/
def Hunt.answeredOnce (h : Hunt) (c : CallRef) (g : Nat) : Hunt :=
  { h with
    records := h.records.filter fun q => q.call ≠ c
    closed := closeCall c h.closed
    live := h.live.put g { h.live.get g with counters := (h.live.get g).counters.answeredOnce } }

/-- An offered record that goes touches no queue and no orbit. -/
theorem State.recordGone_offered (hcalls : (s.hunt.records.map HuntRecord.call).Nodup) (hr : s.record c = some r)
    (hm : r.member = some m) :
    s.recordGone r GroupCounters.answeredOnce = s.modHunt fun h => h.answeredOnce c r.group := by
  have hhead := State.headCall_ne_offered hcalls hr hm r.group
  obtain ⟨rfl, -⟩ := record_call hr
  rw [State.recordGone_orbitless (HuntRecord.orbit_of_member hm), if_neg hhead]
  rfl

/-- The part once another member than the answering one has been withdrawn and the record has gone (04, R85). -/
def State.memberTaken (c : CallRef) (m g : Nat) (s : State) : State :=
  (State.ringingRemove m
    { s with
      stations := s.stations.put m { s.stations.get m with line := .idle, call := none }
      hunt := (s.hunt.answeredOnce c g).raiseIf
        ((s.stations.get m).available && (s.stations.get m).wrapUp.isNone) m }).queued .down
    [.known ⟨BitVec.ofNat 10 m, c, .withdraw .taken⟩]

theorem Hunt.answeredOnce_raiseIf (h : Hunt) (c : CallRef) (g : Nat) (b : Bool) (m : Nat) :
    (h.raiseIf b m).answeredOnce c g = (h.answeredOnce c g).raiseIf b m := by
  cases b <;> rfl

theorem State.withdrawMember_gone (hcalls : (s.hunt.records.map HuntRecord.call).Nodup) (hr : s.record c = some r)
    (hm : r.member = some m) (hlt : m < 384) (hon : (s.stations.get m).onOffer c = true) (hroom : s.room .down 1) :
    ((s.withdrawMember c m).removeRecord c false).modGroupCounters r.group GroupCounters.answeredOnce =
      s.memberTaken c m r.group := by
  obtain ⟨hgroup, horbit, -, -⟩ := r.detached_same
  let detached := s.modRecord c HuntRecord.detached
  have hrec : detached.record c = some r.detached := by
    show (s.modRecord c HuntRecord.detached).record c = _
    rw [State.record_modRecord HuntRecord.detached_call, hr]
    rfl
  have hhead : detached.headCall r.group ≠ some c := by
    show (s.modRecord c HuntRecord.detached).headCall r.group ≠ _
    rw [State.headCall_modRecord HuntRecord.detached_call (fun q => q.detached_same.1) (fun q => q.detached_same.2.2.1)]
    exact State.headCall_ne_offered hcalls hr hm r.group
  have hsent : s.withdrawMember c m = ((detached.idled m).ringingRemove m).queued .down
      [.known ⟨BitVec.ofNat 10 m, c, .withdraw .taken⟩] :=
    State.sendWithdraw_on (s := detached) hlt hon hroom .taken
  have hidled : (detached.idled m).hunt.records = detached.hunt.records := Hunt.raiseIf_records ..
  have hrecords : (s.withdrawMember c m).hunt.records = detached.hunt.records := by
    rw [hsent]
    exact (congrArg Hunt.records (State.ringingRemove_hunt ..)).trans (Hunt.raiseIf_records ..)
  have hgone : ((s.withdrawMember c m).removeRecord c false).modGroupCounters r.group GroupCounters.answeredOnce =
      (s.withdrawMember c m).modHunt fun h => h.answeredOnce c r.group := by
    have hcounted := State.removeRecord_counted (s := s.withdrawMember c m) (r := r.detached)
      ((State.record_congr hrecords c).trans hrec) GroupCounters.answeredOnce
    rw [hgroup] at hcounted
    obtain ⟨rfl, -⟩ := record_call hr
    rw [hcounted, State.recordGone_orbitless (horbit.trans (HuntRecord.orbit_of_member hm)), hgroup, r.detached_call,
      State.headCall_congr hrecords, if_neg hhead]
    rfl
  have hmoved (t : State) (cs : List LaneCell) (f : Hunt → Hunt) :
      (t.queued .down cs).modHunt f = (t.modHunt f).queued .down cs := rfl
  rw [hgone, hsent, hmoved, ← State.ringingRemove_modHunt]
  refine congrArg (fun t => State.queued .down _ (State.ringingRemove m t)) ?_
  have hfilter : (detached.hunt.answeredOnce c r.group) = s.hunt.answeredOnce c r.group :=
    congrArg (fun l => { s.hunt.answeredOnce c r.group with records := l })
      (filter_map_call HuntRecord.detached_call s.hunt.records)
  have hhunt : ((detached.idled m).hunt).answeredOnce c r.group = (s.hunt.answeredOnce c r.group).raiseIf
        ((s.stations.get m).available && (s.stations.get m).wrapUp.isNone) m := by
    rw [← hfilter]
    exact Hunt.answeredOnce_raiseIf ..
  show { detached.idled m with hunt := ((detached.idled m).hunt).answeredOnce c r.group } = _
  rw [hhunt]
  rfl

/-! ### The answering station -/

/-- A part whose answering station is credited: no strikes, and this delivered-by group (04, R73). -/
def State.credited (n : Nat) (g : Option Nat) (s : State) : State :=
  { s with stations := s.stations.put n { s.stations.get n with strikes := 0, deliveredBy := g } }

theorem State.deliver_talking (h : (s.stations.get n).line = .talking) (g : Nat) :
    s.deliver n g = s.credited n (some g) :=
  congrArg (fun g => s.credited n g) (if_pos h)

theorem State.deliver_other (h : (s.stations.get n).line ≠ .talking) (g : Nat) :
    s.deliver n g = s.credited n (s.stations.get n).deliveredBy :=
  congrArg (fun g => s.credited n g) (if_neg h)

theorem State.credited_spoken (hn : n < 384) (c : CallRef) (g : Option Nat) (s : State) :
    (s.spoken n c).credited n g = { s with stations := s.stations.put n { s.stations.get n with
      line := .talking, call := some c, deliveredBy := g, strikes := 0 } } := by
  unfold State.credited
  rw [State.spoken_get hn]
  exact congrArg (fun stations => { s with stations := stations }) (Tab.put_put ..)

theorem State.credited_unrung (n : Nat) (l : LineState) (g : Option Nat) (s : State) :
    (s.unrung n l).credited n g = (s.credited n g).unrung n l := by
  unfold State.unrung
  split
  · exact (State.ringingRemove_modStation (s := s) (f := fun st => { st with strikes := 0, deliveredBy := g }) n n
      rfl rfl).symm
  · rfl

/-- The part once an answered call's record has gone, and its other member with it (04, R85). -/
def State.answerTaken (s : State) (n : Nat) (r : HuntRecord) (u : State) : Prop :=
  r.member.all (· = n) = true ∧ u = s.recordGone r GroupCounters.answeredOnce ∨
    ∃ m, r.member = some m ∧ m ≠ n ∧ m < 384 ∧ (s.stations.get m).onOffer r.call = true ∧
      u = s.memberTaken r.call m r.group

theorem State.answerRecord_eq (hcalls : (s.hunt.records.map HuntRecord.call).Nodup) (hr : s.record c = some r)
    (hroom : s.room .down 1) (h : s.answerTaken n r u) :
    s.answerRecord n r = (u.applyAnswered n c).deliver n r.group := by
  obtain ⟨rfl, -⟩ := record_call hr
  unfold State.answerRecord
  dsimp only
  rcases h with ⟨hm, rfl⟩ | ⟨m, hm, hne, hlt, hon, rfl⟩
  · rw [← State.removeRecord_counted hr]
    cases hmember : r.member with
    | none => rfl
    | some m =>
      have hmn : m = n := by simpa [hmember] using hm
      dsimp only
      rw [if_pos hmn]
      rfl
  · rw [← State.withdrawMember_gone hcalls hr hm hlt hon hroom, hm]
    dsimp only
    rw [if_neg hne]
    rfl

/-- The answering station is as it was, and so is its part in other calls. -/
theorem State.answerTaken_keeps (h : s.answerTaken n r u) :
    u.stays n (s.stations.get n) ∧ ∀ k, k ≠ r.call → u.isMember n k = s.isMember n k := by
  rcases h with ⟨-, rfl⟩ | ⟨m, -, hne, -, -, rfl⟩
  · exact ⟨State.recordGone_stays .., fun k hk => State.recordGone_isMember hk ..⟩
  · have hget : (s.memberTaken r.call m r.group).stations.get n = s.stations.get n :=
      (congrArg (fun t : Tab 0 384 Station => t.get n) (State.ringingRemove_stations ..)).trans
        (Tab.get_put_ne _ _ hne)
    refine ⟨by unfold State.stays; rw [hget], fun k hk => State.isMember_filter (c := r.call) ?_ hk n⟩
    exact (congrArg Hunt.records (State.ringingRemove_hunt ..)).trans (Hunt.raiseIf_records ..)

/-- A credited answer of a part whose other member was withdrawn. -/
theorem State.memberTaken_credited (hn : n < 384) (hne : m ≠ n) (c : CallRef) (g : Nat) (s : State) :
    ((s.memberTaken c m g).spoken n c).credited n (some g) =
      (State.ringingRemove m
        { s with
          stations := (s.stations.put m { s.stations.get m with line := .idle, call := none }).put n
            { s.stations.get n with line := .talking, call := some c, deliveredBy := some g, strikes := 0 }
          hunt := (s.hunt.answeredOnce c g).raiseIf
            ((s.stations.get m).available && (s.stations.get m).wrapUp.isNone) m }).queued .down
        [.known ⟨BitVec.ofNat 10 m, c, .withdraw .taken⟩] := by
  let idled : State :=
    { s with
      stations := s.stations.put m { s.stations.get m with line := .idle, call := none }
      hunt := (s.hunt.answeredOnce c g).raiseIf
        ((s.stations.get m).available && (s.stations.get m).wrapUp.isNone) m }
  have hget : idled.stations.get n = s.stations.get n := Tab.get_put_ne _ _ hne
  have hmoved := State.ringingRemove_modStation (s := idled) (n := m) n
    (f := fun st => { st with line := .talking, call := some c, deliveredBy := some g, strikes := 0 }) rfl rfl
  unfold State.modStation at hmoved
  rw [hget] at hmoved
  rw [State.credited_spoken hn]
  refine Eq.trans ?_ (congrArg (State.queued .down _) hmoved).symm
  have hst : (s.memberTaken c m g).stations.get n = s.stations.get n :=
    (congrArg (fun t : Tab 0 384 Station => t.get n) (State.ringingRemove_stations ..)).trans hget
  have hst' : (idled.ringingRemove m).stations.get n = s.stations.get n := hst
  rw [hst, hst']
  rfl

/-- Settles O17: the record goes, with its other member where it has one; the station answers and is credited. -/
theorem answerDelivers : Obligations.AnswerDelivers := by
  intro eq call via r s hp hc ht hcall hup hdown hfits hrec n st b cell talking live hunt
  have hn : n < 384 := tracked_lt ht
  have hb : b.record call = some r := hrec
  have hbup : b.room .up 1 := (State.endBridge_room ..).mpr hup
  have hbdown : b.room .down 1 := (State.endBridge_room ..).mpr hdown
  have hcalls : (b.hunt.records.map HuntRecord.call).Nodup := hfits.calls
  obtain ⟨hrc, -⟩ := record_call hrec
  have hexec {u : State} (hu : b.answerTaken n r u) :
      exec (.answered eq call via) s = .next (State.join .up cell ((u.applyAnswered n call).deliver n r.group)) := by
    rw [exec_answered hp hc ht hcall via]
    have hanswered : b.answered n call = ((u.applyAnswered n call).deliver n r.group, .pass) := by
      unfold State.answered
      rw [hb, ← State.answerRecord_eq hcalls hb hbdown hu]
    exact congrArg (fun p => Host.Outcome.next (State.decide _ p)) hanswered
  have hplain {u : State} (hu : b.answerTaken n r u) (hl : st.line = .idle ∨ st.line = .seized ∨ st.line = .talking ∨
        st.line = .feature ∧ (u.stations.get n).source = none ∨ st.onOffer call = true) :
      exec (.answered eq call via) s =
        .next (State.join .up cell (((u.spoken n call).credited n (some r.group)).unrung n st.line)) := by
    have hst : u.stays n st := (State.answerTaken_keeps hu).1
    rw [hexec hu, State.applyAnswered_plain (st := st) hn (by rw [hst]) (by rw [hst]) hl, State.deliver_talking,
      State.credited_unrung]
    rw [(State.unrung_rest ..).1, State.spoken_get hn]
  have hquiet {l : LineState} (hl : l ≠ .ringing) (t : State) : t.unrung n l = t := if_neg hl
  have hmember {m : Nat} (hm : r.member = some m) (hne : m ≠ n) (hlt : m < 384)
      (hon : (s.stations.get m).onOffer call = true) : b.answerTaken n r (b.memberTaken call m r.group) := by
    subst hrc
    exact .inr ⟨m, hm, hne, hlt, hon, rfl⟩
  have hqueued (hq : r.isQueued = true) : b.answerTaken n r (b.recordGone r GroupCounters.answeredOnce) := by
    refine .inl ⟨?_, rfl⟩
    unfold HuntRecord.member
    unfold HuntRecord.isQueued at hq
    split <;> simp_all
  refine ⟨fun hm hon => ?inOrder, fun hline => ⟨fun hq ho => ?fromQueue, fun m hm hne hlt hon => ?fromMember⟩,
    fun u hu => ?late⟩
  case inOrder =>
    intro taken
    have hu : b.answerTaken n r (b.modHunt fun h => h.answeredOnce call r.group) :=
      .inl ⟨by simp [hm], (State.recordGone_offered hcalls hb hm).symm⟩
    rw [hplain hu (.inr (.inr (.inr (.inr hon)))), State.credited_spoken hn, State.join_room]
    · rfl
    · refine (State.room_congr (State.unrung_rest ..).2.2 _ _).mpr ?_
      exact hbup
  case fromQueue =>
    rw [hplain (hqueued hq) (hline.imp_right .inl), hquiet (by rcases hline with h | h <;> rw [h] <;> nofun),
      State.credited_spoken hn, State.recordGone_orbitless ho, State.join_room]
    · subst hrc
      rfl
    · exact hbup
  case fromMember =>
    rw [hplain (hmember hm hne hlt hon) (hline.imp_right .inl), hquiet (by rcases hline with h | h <;> rw [h] <;> nofun),
      State.memberTaken_credited hn hne, State.join_room]
    · rfl
    · refine (State.room_up_queued_down ..).mpr ?_
      refine (State.room_congr (State.ringingRemove_lane ..) _ _).mpr ?_
      exact hbup
  case late =>
    intro spoken credited
    have hu : b.answerTaken n r u := by
      rcases hu with ⟨hq, rfl⟩ | ⟨m, hm, hne, hlt, hon, rfl⟩
      · exact hqueued hq
      · exact hmember hm hne hlt hon
    obtain ⟨hst, hmembers⟩ := State.answerTaken_keeps hu
    refine ⟨fun hline => ?plain, fun hline => ?out, fun k hline hk hne => ?superseded,
      fun i x hline hsource hx hown => ?source⟩
    case plain =>
      rw [hplain hu (hline.imp_right (.imp_right (.imp_right .inl))), hquiet]
      · rfl
      · rcases hline with h | h | h | ⟨h, -⟩ <;> rw [h] <;> nofun
    case out =>
      have hst : u.stations.get n = { st with source := (u.stations.get n).source } := hst
      have hlu : (u.stations.get n).line = .outOfService := by rw [hst]; exact hline
      rw [hexec hu, State.applyAnswered_out hlu, State.deliver_other (by rw [hlu]; nofun)]
      have hg : (u.stations.get n).deliveredBy = st.deliveredBy := by rw [hst]
      rw [hg]
      rfl
    case superseded =>
      intro left
      have hst : u.stations.get n = { st with source := (u.stations.get n).source } := hst
      have hunrung := (u.spoken n call).unrung_rest n st.line
      have happlied := State.applyAnswered_supersedes (s := u) (st := st) (c := call) hn (by rw [hst]) (by rw [hst])
        hline hk hne
      have hleft : (u.spoken n call).unrung n st.line = left := rfl
      rw [hleft] at happlied hunrung
      clear_value left
      have hm : left.isMember n k = s.isMember n k :=
        (State.isMember_congr (s := u) (congrArg Hunt.records hunrung.2.1) n k).trans (hmembers k (by rwa [hrc]))
      have htalks : (left.stations.get n).line = .talking := by rw [hunrung.1, State.spoken_get hn]
      refine ⟨fun hno => ?_, fun hyes => ?_⟩
      · rw [hexec hu, happlied, State.offerLost_not (hm.trans hno), State.deliver_talking htalks]
        rfl
      · have hkept : ((left.detachTried k n).reselect k).stays n (left.stations.get n) := by
          have kept := KeptCalls.stays n (x := left.stations.get n) (by rw [htalks]; nofun)
          exact kept.reselect (kept.detachTried rfl k n) k
        rw [hexec hu, happlied, State.offerLost_member (hm.trans hyes)]
        generalize (left.detachTried k n).reselect k = w at hkept
        have htalking : (w.stations.get n).line = .talking := by
          have h : w.stations.get n = { left.stations.get n with source := (w.stations.get n).source } := hkept
          rw [h]
          exact htalks
        rw [State.deliver_talking htalking]
        rfl
    case source =>
      have hst : u.stations.get n = { st with source := (u.stations.get n).source } := hst
      refine ⟨(spoken.sessionLeft i x).zones, spoken.sessionLeft_zones i x, ?_⟩
      have hl : (u.stations.get n).line = .feature := by rw [hst]; exact hline
      rw [hexec hu, State.applyAnswered_source hn hl hsource hx hown]
      have hspoken : u.spoken n call = spoken := rfl
      have hget : spoken.stations.get n = { u.stations.get n with
        line := .talking, call := some call, deliveredBy := none } := State.spoken_get hn call u
      rw [hspoken, State.deliver_talking]
      · rfl
      · show ((spoken.stations.put x.source { spoken.stations.get x.source with source := none }).get n).line = _
        rw [hown, State.get_put_station hn, hget]

end Sys2Proof.Machine
end

section
/-! PROOFS. What an offer leaves (04, R71), and the pilot arrivals (O25, O26; 04, R67 to R69). -/

namespace Sys2Proof.Machine

variable {s t u v : State} {c call k : CallRef} {r : HuntRecord} {n m g : Nat} {st : Station}

/-! ### An offer (04, R71) -/

/-- The part once the offered record names its member. -/
def State.departed (c : CallRef) (n : Nat) (clear : Bool) (g : Nat) (s : State) : State :=
  s.modRecord c fun q =>
    { q with status := .offered (some n) (s.clock + 1000 * (s.activeGroup g).fields.noAnswer) none
             tried := if clear then [] else q.tried }

/-- A group's live record once a call is offered to a member. -/
def GroupLive.offeredTo (n : Nat) (l : GroupLive) : GroupLive :=
  { pointer := some n, counters := { l.counters with offered := satInc l.counters.offered } }

/-- The part once a departed call is offered: the member OFFERED, the new head checked, the pointer moved, the offer
counted. -/
def State.offeredTo (c : CallRef) (n g : Nat) (wasHead : Bool) (s : State) : State :=
  { s with
    stations := s.stations.put n { s.stations.get n with line := .offered, call := some c }
    hunt := { s.hunt with
      headChecks := if wasHead then insertSorted g s.hunt.headChecks else s.hunt.headChecks
      live := s.hunt.live.put g ((s.hunt.live.get g).offeredTo n) } }

/-- The OFFER cell of a record. -/
def HuntRecord.offerCell (r : HuntRecord) (n : Nat) : LaneCell :=
  .known ⟨BitVec.ofNat 10 n, r.call, .offer r.called r.caller r.cls (some r.group)⟩

theorem Tab.put_pointer_counters (t : Tab 1 32 GroupLive) (g : Nat) (p : Option Nat) (f : GroupCounters → GroupCounters) :
    ((t.put g { t.get g with pointer := p }).put g
      { (t.put g { t.get g with pointer := p }).get g with
        counters := f ((t.put g { t.get g with pointer := p }).get g).counters }) =
    t.put g { pointer := p, counters := f (t.get g).counters } := by
  by_cases h : 1 ≤ g ∧ g < 1 + 32
  · rw [Tab.get_put_same _ _ h, Tab.put_put]
  · simp only [Tab.put_of_not_mem _ _ h]

theorem State.offeredTo_eq (hn : n < 384) (hi : (s.stations.get n).line = .idle) (c : CallRef) (g : Nat) (b : Bool) :
    State.trackOffer n c (((if b then s.raiseHeadCheck g else s).setPointer g (some n)).modGroupCounters g fun k =>
      { k with offered := satInc k.offered }) = s.offeredTo c n g b := by
  have hlive (t : State) (ht : t.hunt.live = s.hunt.live) :
      (t.setPointer g (some n)).modGroupCounters g (fun k => { k with offered := satInc k.offered }) =
        { t with hunt := { t.hunt with live := s.hunt.live.put g ((s.hunt.live.get g).offeredTo n) } } := by
    rw [← ht]
    exact congrArg (fun l => { t with hunt := { t.hunt with live := l } }) 
      (Tab.put_pointer_counters t.hunt.live g (some n) fun k => { k with offered := satInc k.offered })
  cases b with
  | true =>
    simp only [if_true]
    rw [hlive (s.raiseHeadCheck g) rfl, State.trackOffer_eq hn, if_pos (by exact hi)]
    rfl
  | false =>
    simp only [Bool.false_eq_true, if_false]
    rw [hlive s rfl, State.trackOffer_eq hn, if_pos (by exact hi)]
    rfl

/-- An offer: the record names its member, its orbit is released and handed on, and the OFFER goes down. -/
theorem State.offerTo_eq (hr : s.record c = some r) (hn : n < 384) (hi : (s.stations.get n).line = .idle)
    (clear : Bool) :
    s.offerTo c n clear =
      State.join .down (r.offerCell n) (((s.departed c n clear r.group).orbitFreed r true).offeredTo c n r.group
        (s.headCall r.group == some c)) := by
  have hkept : ((s.departed c n clear r.group).orbitFreed r true).stays n (s.stations.get n) := by
    unfold State.orbitFreed
    split
    · exact (KeptOrbits.stays n (s.stations.get n)).releaseOrbit (s := s.departed c n clear r.group) rfl _ true
    · exact rfl
  have hidle : (((s.departed c n clear r.group).orbitFreed r true).stations.get n).line = .idle := by
    generalize (s.departed c n clear r.group).orbitFreed r true = freed at hkept
    have h : freed.stations.get n = { s.stations.get n with source := (freed.stations.get n).source } := hkept
    rw [h]
    exact hi
  obtain ⟨rfl, -⟩ := record_call hr
  rw [← State.offeredTo_eq hn hidle]
  unfold State.offerTo
  rw [hr]
  rfl

/-- An offer of a call that holds no orbit. -/
theorem State.offerTo_orbitless (hr : s.record c = some r) (ho : r.orbit = none) (hn : n < 384)
    (hi : (s.stations.get n).line = .idle) (clear : Bool) :
    s.offerTo c n clear =
      State.join .down (r.offerCell n)
        ((s.departed c n clear r.group).offeredTo c n r.group (s.headCall r.group == some c)) := by
  rw [State.offerTo_eq hr hn hi, State.orbitFreed_none ho]

end Sys2Proof.Machine
end

section
/-! PROOFS. Selection (04, R70) and the place a record takes in its queue (04, R79). -/

namespace Sys2Proof.Machine

variable {s t u v : State} {c call k : CallRef} {r : HuntRecord} {n m g : Nat} {may : Nat → Bool} {l : List Nat}

/-! ### The three disciplines (04, R70) -/

theorem firstOf_of_find (h : l.find? may = some n) : firstOf l may n := by
  obtain ⟨hmay, pre, post, rfl, hpre⟩ := List.find?_eq_some_iff_append.mp h
  exact ⟨pre, post, rfl, hmay, by simpa using hpre⟩

theorem rotateAfter_split {p : Nat} {before after : List Nat} (h : p ∉ before) :
    rotateAfter (some p) (before ++ p :: after) = after ++ before ++ [p] := by
  have hidx : (before ++ p :: after).idxOf p = before.length := by
    rw [List.idxOf_append_of_notMem h, List.idxOf_cons_self, Nat.add_zero]
  have hsplit : before ++ p :: after = (before ++ [p]) ++ after := by simp
  have hlen : before.length + 1 = (before ++ [p]).length := by simp
  unfold rotateAfter
  dsimp only
  rw [if_pos (by simp), hidx, hsplit, hlen, List.drop_left, List.take_left, List.append_assoc]

theorem rotateAfter_other {p : Nat} (h : p ∉ l) : rotateAfter (some p) l = l := by
  unfold rotateAfter
  dsimp only
  rw [if_neg (by simpa using h)]

theorem mem_rotateAfter (pointer : Option Nat) (l : List Nat) (n : Nat) : n ∈ rotateAfter pointer l ↔ n ∈ l := by
  cases pointer with
  | none => exact Iff.rfl
  | some p =>
    by_cases hp : p ∈ l
    · obtain ⟨before, after, rfl, hbefore⟩ := List.eq_append_cons_of_mem hp
      rw [rotateAfter_split hbefore]
      simp only [List.mem_append, List.mem_cons, List.not_mem_nil, or_false]
      tauto
    · rw [rotateAfter_other hp]

theorem State.longestIdle_none (h : s.longestIdle l = none) : l = [] := by
  cases l with
  | nil => rfl
  | cons n rest =>
    unfold State.longestIdle at h
    split at h
    · exact nomatch h
    · split at h <;> exact nomatch h

/-- The first of a list whose last-idle time is smallest. -/
theorem State.longestIdle_some (h : s.longestIdle l = some n) : ∃ pre post, l = pre ++ n :: post ∧
    (∀ m ∈ pre, (s.stations.get n).lastIdle < (s.stations.get m).lastIdle) ∧
    ∀ m ∈ post, (s.stations.get n).lastIdle ≤ (s.stations.get m).lastIdle := by
  induction l generalizing n with
  | nil => exact nomatch h
  | cons a rest ih =>
    unfold State.longestIdle at h
    split at h
    · rename_i hrest
      obtain rfl := Option.some_inj.mp h
      obtain rfl := State.longestIdle_none hrest
      exact ⟨[], [], rfl, by simp, by simp⟩
    · rename_i m hrest
      obtain ⟨pre, post, rfl, hpre, hpost⟩ := ih hrest
      split at h
      · rename_i hlt
        obtain rfl := Option.some_inj.mp h
        refine ⟨a :: pre, post, rfl, fun x hx => ?_, hpost⟩
        rcases List.mem_cons.mp hx with rfl | hx
        · exact hlt
        · exact hpre x hx
      · rename_i hge
        obtain rfl := Option.some_inj.mp h
        refine ⟨[], _, rfl, by simp, fun x hx => ?_⟩
        have hle := Nat.le_of_not_lt hge
        rcases List.mem_append.mp hx with hx | hx
        · exact Nat.le_trans hle (Nat.le_of_lt (hpre x hx))
        · rcases List.mem_cons.mp hx with rfl | hx
          · exact hle
          · exact Nat.le_trans hle (hpost x hx)

/-- A discipline's choice among the members that may be chosen. -/
theorem State.choose_some (h : s.choose g may = some n) : disciplineChooses s g may n := by
  unfold State.choose at h
  unfold disciplineChooses
  dsimp only at h ⊢
  cases hdiscipline : (s.activeGroup g).fields.discipline <;> rw [hdiscipline] at h
  case linear => exact firstOf_of_find h
  case circular =>
    refine ⟨fun p before after hp hbefore hsplit => ?_, fun hp => ?_⟩
    · rw [hp, hsplit, rotateAfter_split hbefore] at h
      exact firstOf_of_find h
    · cases hpointer : (s.hunt.live.get g).pointer with
      | none =>
        rw [hpointer] at h
        exact firstOf_of_find h
      | some p =>
        rw [hpointer, rotateAfter_other (hp p hpointer)] at h
        exact firstOf_of_find h
  case longestIdle =>
    obtain ⟨pre, post, hfilter, hpre, hpost⟩ := State.longestIdle_some h
    obtain ⟨front, back, hsplit, hfront, hback⟩ := List.filter_eq_append_iff.mp hfilter
    obtain ⟨mid, rest, rfl, hmid, hmay, hrest⟩ := List.filter_eq_cons_iff.mp hback
    refine ⟨front ++ mid, rest, by rw [hsplit, List.append_assoc], hmay, fun m hm hmay => ?_, fun m hm hmay => ?_⟩
    · rcases List.mem_append.mp hm with hm | hm
      · exact hpre m (hfront ▸ List.mem_filter.mpr ⟨hm, hmay⟩)
      · exact absurd hmay (hmid m hm)
    · exact hpost m (hrest ▸ List.mem_filter.mpr ⟨hm, hmay⟩)

theorem State.choose_none : s.choose g may = none ↔ ∀ n ∈ (s.activeGroup g).members, may n = false := by
  unfold State.choose
  dsimp only
  split
  · simp
  · simp [mem_rotateAfter]
  · refine ⟨fun h n hn => ?_, fun h => ?_⟩
    · have hnil := List.filter_eq_nil_iff.mp (State.longestIdle_none h) n hn
      simpa using hnil
    · rw [List.filter_eq_nil_iff.mpr (fun n hn => by simp [h n hn])]
      rfl

theorem State.choose_mem (h : s.choose g may = some n) : n ∈ (s.activeGroup g).members ∧ may n = true := by
  unfold State.choose at h
  dsimp only at h
  split at h
  · exact ⟨List.mem_of_find?_eq_some h, List.find?_some h⟩
  · exact ⟨(mem_rotateAfter ..).mp (List.mem_of_find?_eq_some h), List.find?_some h⟩
  · obtain ⟨pre, post, hfilter, -, -⟩ := State.longestIdle_some h
    exact List.mem_filter.mp (hfilter ▸ by simp)

/-- A selected member is a hunt candidate of its group. -/
theorem State.select_candidate {tried : List Nat} {clear : Bool} (h : s.select g tried = some (n, clear)) :
    n ∈ (s.activeGroup g).members ∧ s.candidate n = true := by
  unfold State.select at h
  split at h
  · rename_i m hm
    obtain ⟨rfl, -⟩ := Prod.mk.inj (Option.some_inj.mp h)
    obtain ⟨hmem, hmay⟩ := State.choose_mem hm
    exact ⟨hmem, (Bool.and_eq_true _ _ ▸ hmay).1⟩
  · obtain ⟨m, hm, hpair⟩ := Option.map_eq_some_iff.mp h
    obtain ⟨rfl, -⟩ := Prod.mk.inj hpair
    exact State.choose_mem hm

theorem State.candidate_idle (h : s.candidate n = true) : n < 384 ∧ (s.stations.get n).line = .idle := by
  unfold State.candidate Station.candidate at h
  simp only [Bool.and_eq_true, decide_eq_true_eq] at h
  exact ⟨h.1, h.2.1.1⟩

theorem State.select_idle {tried : List Nat} {clear : Bool} (h : s.select g tried = some (n, clear)) :
    n < 384 ∧ (s.stations.get n).line = .idle := State.candidate_idle (State.select_candidate h).2

theorem State.longestIdle_congr (h : t.stations = s.stations) (l : List Nat) : t.longestIdle l = s.longestIdle l := by
  induction l with
  | nil => rfl
  | cons n rest ih =>
    unfold State.longestIdle
    rw [ih, h]

/-- Selection looks at the stations, the pointers and the active bank alone. -/
theorem State.select_congr (hs : t.stations = s.stations) (hl : t.hunt.live = s.hunt.live)
    (ha : t.hunt.active = s.hunt.active) (g : Nat) (tried : List Nat) : t.select g tried = s.select g tried := by
  have hcandidate : t.candidate = s.candidate := by
    funext n
    unfold State.candidate
    rw [hs]
  have hgroup : t.activeGroup g = s.activeGroup g := by
    unfold State.activeGroup
    rw [ha]
  have hchoose : t.choose g = s.choose g := by
    funext may
    unfold State.choose
    rw [hgroup, hl]
    simp only [State.longestIdle_congr hs]
  unfold State.select
  rw [hcandidate, hchoose]

/-! ### A record's place (04, R79) -/

/-- The records of a group's queue. -/
def queueOf (g : Nat) (l : List HuntRecord) : List HuntRecord := l.filter fun q => q.group = g && q.isQueued

theorem queueOf_cons_in {a : HuntRecord} (h : (a.group = g && a.isQueued) = true) (l : List HuntRecord) :
    queueOf g (a :: l) = a :: queueOf g l := List.filter_cons_of_pos (p := fun q : HuntRecord => q.group = g && q.isQueued) h

theorem queueOf_cons_out {a : HuntRecord} (h : ¬ (a.group = g && a.isQueued) = true) (l : List HuntRecord) :
    queueOf g (a :: l) = queueOf g l := List.filter_cons_of_neg (p := fun q : HuntRecord => q.group = g && q.isQueued) h

theorem placeRecord_queueOf (hq : r.isQueued = true) (l : List HuntRecord) :
    ∃ ahead behind, queueOf r.group l = ahead ++ behind ∧ (∀ x ∈ ahead, x.arrival ≤ r.arrival) ∧
      (∀ x, behind.head? = some x → r.arrival < x.arrival) ∧
      queueOf r.group (placeRecord r l) = ahead ++ r :: behind := by
  induction l with
  | nil => exact ⟨[], [], rfl, by simp, by simp, by simp [queueOf, placeRecord, hq]⟩
  | cons a rest ih =>
    by_cases ha : (a.group = r.group && a.isQueued) = true
    · by_cases hlt : r.arrival < a.arrival
      · refine ⟨[], queueOf r.group (a :: rest), rfl, by simp, ?_, ?_⟩
        · simp [queueOf, ha, hlt]
        · have hplaced : placeRecord r (a :: rest) = r :: a :: rest := if_pos (by simp [ha, hlt])
          rw [hplaced]
          simp [queueOf, hq]
      · obtain ⟨ahead, behind, hsplit, hahead, hbehind, hplaced⟩ := ih
        refine ⟨a :: ahead, behind, ?_, ?_, hbehind, ?_⟩
        · rw [queueOf_cons_in ha, List.cons_append]
          exact congrArg (a :: ·) hsplit
        · intro x hx
          rcases List.mem_cons.mp hx with rfl | hx
          · exact Nat.le_of_not_lt hlt
          · exact hahead x hx
        · have hstep : placeRecord r (a :: rest) = a :: placeRecord r rest := if_neg (by simp [hlt])
          rw [hstep, queueOf_cons_in ha, List.cons_append]
          exact congrArg (a :: ·) hplaced
    · obtain ⟨ahead, behind, hsplit, hahead, hbehind, hplaced⟩ := ih
      have hstep : placeRecord r (a :: rest) = a :: placeRecord r rest := 
        if_neg fun h => ha (Bool.and_eq_true _ _ ▸ h).1
      refine ⟨ahead, behind, ?_, hahead, hbehind, ?_⟩
      · rw [queueOf_cons_out ha]
        exact hsplit
      · rw [hstep, queueOf_cons_out ha]
        exact hplaced

/-- Another group's queue is as it was. -/
theorem placeRecord_queueOf_other (hg : g ≠ r.group) (l : List HuntRecord) :
    queueOf g (placeRecord r l) = queueOf g l := by
  induction l with
  | nil => simp [queueOf, placeRecord, hg.symm]
  | cons a rest ih =>
    unfold placeRecord
    split
    · simp [queueOf, hg.symm]
    · unfold queueOf at ih ⊢
      rw [List.filter_cons, List.filter_cons, ih]

end Sys2Proof.Machine
end

section
/-! PROOFS. How a record enters its queue (04, R79), and the pilot arrivals (O25, O26; 04, R67 to R69). -/

namespace Sys2Proof.Machine

variable {s t u v : State} {c call k : CallRef} {r : HuntRecord} {n m g : Nat}

/-! ### Entering a queue (04, R79, R83) -/

theorem queueOf_filter {l : List HuntRecord} (h : ∀ q ∈ l, q.call = c → q.isQueued = false) (g : Nat) :
    queueOf g (l.filter fun q => q.call ≠ c) = queueOf g l := by
  unfold queueOf
  rw [List.filter_filter]
  refine List.filter_congr fun q hq => ?_
  by_cases hc : q.call = c
  · simp [h q hq hc]
  · simp [hc]

/-- A record enters its queue before the first later arrival; a new head is checked. -/
theorem State.enterQueue_eq (hout : ∀ q ∈ s.hunt.records, q.call = r.call → q.isQueued = false) :
    ∃ ahead behind records, s.queue r.group = ahead ++ behind ∧ (∀ x ∈ ahead, x.arrival ≤ r.arrival) ∧
      (∀ x, behind.head? = some x → r.arrival < x.arrival) ∧
      queueOf r.group records = ahead ++ s.queuedForm r :: behind ∧
      records.Perm (s.queuedForm r :: s.hunt.records.filter fun q => q.call ≠ r.call) ∧
      (∀ h, h ≠ r.group → queueOf h records = s.queue h) ∧
      s.enterQueue r = { s with hunt := { s.hunt with
        records := records
        headChecks := if ahead = [] then insertSorted r.group s.hunt.headChecks else s.hunt.headChecks } } := by
  let others := s.hunt.records.filter fun q => q.call ≠ r.call
  obtain ⟨ahead, behind, hsplit, hahead, hbehind, hplaced⟩ :=
    placeRecord_queueOf (r := s.queuedForm r) rfl others
  have hsame (h : Nat) : queueOf h others = s.queue h := queueOf_filter hout h
  have hmem : ∀ x ∈ ahead, x.call ≠ r.call := fun x hx => by
    have hx : x ∈ queueOf r.group others := hsplit ▸ List.mem_append_left _ hx
    exact of_decide_eq_true (List.mem_filter.mp (List.mem_filter.mp hx).1).2
  refine ⟨ahead, behind, placeRecord (s.queuedForm r) others, (hsame r.group).symm.trans hsplit, hahead, hbehind,
    hplaced, placeRecord_perm .., fun h hh => (placeRecord_queueOf_other (r := s.queuedForm r) hh _).trans (hsame h), ?_⟩
  let placed : State := s.modHunt fun h => { h with records := placeRecord (s.queuedForm r) others }
  have hhead : placed.headCall r.group = (ahead ++ s.queuedForm r :: behind).head?.map (·.call) :=
    congrArg (fun l : List HuntRecord => l.head?.map HuntRecord.call) hplaced
  have hentered : s.enterQueue r = if placed.headCall r.group == some r.call then placed.raiseHeadCheck r.group else placed :=
    rfl
  rw [hentered, hhead]
  cases ahead with
  | nil => exact if_pos (beq_iff_eq.mpr rfl)
  | cons a rest =>
    refine if_neg fun h => hmem a (List.mem_cons_self ..) ?_
    exact Option.some_inj.mp (beq_iff_eq.mp h)

/-! ### Pilot arrivals (04, R67 to R69) -/

theorem exec_pilotArrival {called caller : Digits} {cls : CallerClass} {group : Option Nat}
    (hw : (Instr.pilotArrival call called caller cls group).wf = true) (hp : s.lane.phase = .inService) (hc : s.Calm) :
    exec (.pilotArrival call called caller cls group) s =
      .next ((s.endBridge .down).pilotArrival call called caller cls) := by
  rw [exec_cell (c := ⟨s.lane.own, call, .offer called caller cls group⟩) rfl hp hc (Bool.and_eq_true _ _ ▸ hw).1]
  exact congrArg Host.Outcome.next (if_pos (decide_eq_true rfl))

/-- The part at a pilot arrival: the call leaves the closed-call list (04, R66). -/
def State.reopened (c : CallRef) (s : State) : State :=
  s.modHunt fun h => { h with closed := h.closed.filter (· ≠ c) }

/-- A call as its record begins (04, R68). -/
def State.arrived (c : CallRef) (called caller : Digits) (cls : CallerClass) (g : Nat) (s : State) : HuntRecord :=
  { call := c, group := g, arrival := s.clock, called := called, caller := caller, cls := cls, tried := [],
    status := .offered none 0 none }

/-- A pilot arrival that no alarm diverts: sent away from a full table or a full queue, offered, or queued. -/
def State.takeIn (c : CallRef) (called caller : Digits) (cls : CallerClass) (g : Nat) (s : State) : State :=
  if s.hunt.records.length ≥ Config.huntRecords then (s.overflow c g).setFlag .huntTableFull
  else
    match if (s.queue g).isEmpty then s.select g [] else none with
    | some (n, clear) =>
      (s.modHunt fun h => { h with records := h.records ++ [s.arrived c called caller cls g] }).offerTo c n clear
    | none =>
      if (s.queue g).length + 1 > (s.activeGroup g).fields.capacity then s.overflow c g
      else ((s.enterQueue (s.arrived c called caller cls g)).sendOwn c .ringStarted).askIfDue c

section
variable {called caller : Digits} {cls : CallerClass} {b : State} (hb : s.reopened c = b)
include hb

theorem State.pilotArrival_refused (h : b.maint.mode = .transparent ∨ b.pilotGroup called = none) :
    s.pilotArrival c called caller cls = b.sendOwn c (.refused .unavailable) := by
  subst hb
  unfold State.reopened at h ⊢
  unfold State.pilotArrival
  dsimp only
  by_cases hmode : s.maint.mode = .transparent
  · exact if_pos hmode
  · rw [h.resolve_left hmode]
    exact if_neg hmode

variable (hmode : b.maint.mode = .engaged) (hgroup : b.pilotGroup called = some g)
include hmode hgroup

theorem State.pilotArrival_known (h : b.record c ≠ none) : s.pilotArrival c called caller cls = b.unexpected := by
  subst hb
  unfold State.reopened at *
  unfold State.pilotArrival
  dsimp only
  rw [hgroup, if_neg (by rw [hmode]; nofun)]
  exact if_pos (Option.isSome_iff_ne_none.mpr h)

variable (hnone : b.record c = none)
include hnone

theorem State.pilotArrival_diverted {dn : Digits} (hs : b.alarm.source ≠ none)
    (hdn : (b.activeGroup g).fields.alarmDn = some dn) :
    s.pilotArrival c called caller cls =
      (b.sendOwn c (.divert dn)).modGroupCounters g fun k => { k with diverted := satInc k.diverted } := by
  obtain ⟨x, hs⟩ := Option.ne_none_iff_exists'.mp hs
  subst hb
  unfold State.reopened at *
  unfold State.pilotArrival
  dsimp only
  rw [hgroup, if_neg (by rw [hmode]; nofun)]
  dsimp only
  rw [hnone, hs, hdn]
  exact if_neg Bool.false_ne_true

theorem State.pilotArrival_takeIn (h : b.alarm.source = none ∨ (b.activeGroup g).fields.alarmDn = none) :
    s.pilotArrival c called caller cls = b.takeIn c called caller cls g := by
  subst hb
  unfold State.reopened at *
  unfold State.pilotArrival
  dsimp only
  rw [hgroup, if_neg (by rw [hmode]; nofun)]
  dsimp only
  rw [hnone, if_neg (by nofun)]
  split
  · rename_i hs hdn
    rcases h with h | h
    · exact nomatch h.symm.trans hs
    · exact nomatch h.symm.trans hdn
  · rfl

end

theorem State.room_sendOwn (h : s.room .up 1) (c : CallRef) (body : Body) (g : Nat) (count : GroupCounters → GroupCounters) :
    (s.sendOwn c body).modGroupCounters g count = (s.modGroupCounters g count).queued .up [.known ⟨s.lane.own, c, body⟩] := by
  rw [State.sendOwn_room h]
  rfl

/-- The overflow action of a call with no record. -/
theorem State.overflow_none (h : s.record c = none) (hroom : s.room .up 1) (g : Nat) :
    s.overflow c g =
      ((s.modGroupCounters g fun k => { k with diverted := satInc k.diverted }).queued .up
        [.known ⟨s.lane.own, c, overflowBody (s.activeGroup g).fields.overflowDn⟩]).setFlag .queueOverflow := by
  unfold State.overflow
  rw [State.sendAway_none h, State.room_sendOwn hroom]

/-- Settles O25: the refusals of a pilot arrival in their order. -/
theorem pilotArrivalSentAway : Obligations.PilotArrivalSentAway := by
  intro call called caller cls group s hw hp hc hup i b up
  have hb : (s.endBridge .down).reopened call = b := rfl
  have hroom : b.room .up 1 := (State.endBridge_room ..).mpr hup
  rw [exec_pilotArrival hw hp hc]
  refine ⟨fun h => ?refused, fun g hmode hgroup => ⟨fun hrec => ?known, fun hnone =>
    ⟨fun dn hsource hdn => ?diverted, fun halarm hfull => ?full⟩⟩⟩
  case refused => rw [State.pilotArrival_refused hb h, State.sendOwn_room hroom]; rfl
  case known => rw [State.pilotArrival_known hb hmode hgroup hrec]; rfl
  case diverted =>
    rw [State.pilotArrival_diverted hb hmode hgroup hnone hsource hdn, State.room_sendOwn hroom]
    rfl
  case full =>
    have hin : b.takeIn call called caller cls g = (b.overflow call g).setFlag .huntTableFull := if_pos hfull
    rw [State.pilotArrival_takeIn hb hmode hgroup hnone halarm, hin,
      State.overflow_none (s := b) hnone hroom]
    rfl

/-- A call that is not due asks for no orbit. -/
theorem State.askIfDue_later (h : ∀ x, s.record c = some x → duePast s.clock x.announcePoint = false) :
    s.askIfDue c = s := by
  unfold State.askIfDue
  split
  · rename_i x hx
    exact if_neg (ne_true_of_eq_false (h x hx))
  · rfl

/-- The record of a call that joined a table with no other of it. -/
theorem State.record_joined {others : List HuntRecord} (h : s.hunt.records.Perm (r :: others))
    (hout : ∀ q ∈ others, q.call ≠ c) {x : HuntRecord} (hx : s.record c = some x) : x = r := by
  obtain ⟨hcall, hmem⟩ := record_call hx
  exact (List.mem_cons.mp (h.mem_iff.mp hmem)).resolve_right fun hq => hout x hq hcall

/-- A record appended to a table that has none of its call. -/
theorem find_append_call {l : List HuntRecord} (h : c ∉ l.map HuntRecord.call) (hr : r.call = c) :
    (l ++ [r]).find? (fun q => q.call = c) = some r := by
  rw [List.find?_append, List.find?_eq_none.mpr, Option.none_or]
  · exact List.find?_cons_of_pos (by simpa using hr)
  · exact fun q hq hqc => h (List.mem_map.mpr ⟨q, hq, by simpa using hqc⟩)

theorem map_append_call {f : HuntRecord → HuntRecord} {l : List HuntRecord} (h : c ∉ l.map HuntRecord.call)
    (hr : r.call = c) : (l ++ [r]).map (fun q => if q.call = c then f q else q) = l ++ [f r] := by
  rw [List.map_append, List.map_singleton, if_pos hr]
  congr 1
  refine (List.map_congr_left fun q hq => if_neg fun hqc => h (List.mem_map.mpr ⟨q, hq, hqc⟩)).trans (List.map_id' l)

/-- A call as it is offered to a member on its arrival (04, R68, R71). -/
def State.arrivedAt (c : CallRef) (called caller : Digits) (cls : CallerClass) (g n : Nat) (s : State) : State :=
  { s with
    stations := s.stations.put n { s.stations.get n with line := .offered, call := some c }
    hunt := { s.hunt with
      records := s.hunt.records ++ [{ s.arrived c called caller cls g with
        status := .offered (some n) (s.clock + 1000 * (s.activeGroup g).fields.noAnswer) none }]
      live := s.hunt.live.put g ((s.hunt.live.get g).offeredTo n) } }

/-- An arrival at an empty queue that selection finds a member for. -/
theorem State.takeIn_offers {called caller : Digits} {cls : CallerClass} {clear : Bool} (hnone : s.record c = none)
    (hlen : s.hunt.records.length < 64) (hempty : s.queue g = []) (hselect : s.select g [] = some (n, clear)) :
    s.takeIn c called caller cls g = (s.arrivedAt c called caller cls g n).join .down
      (.known ⟨BitVec.ofNat 10 n, c, .offer called caller cls (some g)⟩) := by
  obtain ⟨hn, hi⟩ := State.select_idle hselect
  have hno : c ∉ s.hunt.records.map HuntRecord.call := record_none hnone
  let r := s.arrived c called caller cls g
  let u : State := s.modHunt fun h => { h with records := h.records ++ [r] }
  have hin : s.takeIn c called caller cls g = u.offerTo c n clear := by
    have hfind : (if (s.queue g).isEmpty then s.select g [] else none) = some (n, clear) := by
      rw [hempty, hselect]
      rfl
    have hsmall : ¬ s.hunt.records.length ≥ Config.huntRecords := Nat.not_le_of_lt hlen
    unfold State.takeIn
    rw [if_neg hsmall, hfind]
  have hrec : u.record c = some r := find_append_call hno rfl
  have hhead : u.headCall g = none := by
    have hqueue : u.queue g = s.queue g ++ queueOf g [r] :=
      List.filter_append (p := fun q : HuntRecord => q.group = g && q.isQueued) ..
    have hout : queueOf g [r] = [] := queueOf_cons_out (by simp [r, State.arrived, HuntRecord.isQueued]) []
    unfold State.headCall
    rw [hqueue, hempty, hout]
    rfl
  have hdeparted : u.departed c n clear g = { s with hunt := { s.hunt with records := s.hunt.records ++
      [{ r with status := .offered (some n) (s.clock + 1000 * (s.activeGroup g).fields.noAnswer) none }] } } := by
    refine congrArg (fun l => { s with hunt := { s.hunt with records := l } })
      ((map_append_call (r := r) hno rfl).trans ?_)
    cases clear <;> rfl
  have hgroup : r.group = g := rfl
  rw [hin, State.offerTo_orbitless hrec rfl hn hi, hgroup, hhead, hdeparted]
  rfl

/-- A call that has just arrived is not due yet. -/
theorem State.queuedForm_later (h : r.arrival = s.clock) : duePast s.clock (s.queuedForm r).announcePoint = false := by
  show duePast s.clock (if (s.activeGroup r.group).fields.threshold = 0 then none
    else some (r.arrival + 1000 * (s.activeGroup r.group).fields.threshold)) = false
  by_cases ht : (s.activeGroup r.group).fields.threshold = 0
  · rw [if_pos ht]
    rfl
  · rw [if_neg ht, h]
    exact decide_eq_false (by omega)

/-- Settles O26: offered to the member selection finds, queued behind the others, or sent away. -/
theorem pilotArrivalTaken : Obligations.PilotArrivalTaken := by
  intro call called caller cls group g s hw hp hc hup hdown hmode hgroup hnone halarm hlen i f live b record up
  have hb : (s.endBridge .down).reopened call = b := rfl
  have hroom : b.room .up 1 := (State.endBridge_room ..).mpr hup
  have htaken : exec i s = .next (b.takeIn call called caller cls g) := by
    rw [exec_pilotArrival hw hp hc, State.pilotArrival_takeIn hb hmode hgroup hnone halarm]
  have hsmall : ¬ b.hunt.records.length ≥ Config.huntRecords := Nat.not_le_of_lt hlen
  have hno : call ∉ s.hunt.records.map HuntRecord.call := record_none hnone
  have hsel : b.select g [] = s.select g [] := State.select_congr (t := b) (s := s) rfl rfl rfl g []
  have hbq : b.queue g = s.queue g := rfl
  have hqueues (h : s.queue g ≠ [] ∨ s.select g [] = none) :
      b.takeIn call called caller cls g =
        if (b.queue g).length + 1 > (b.activeGroup g).fields.capacity then b.overflow call g
        else ((b.enterQueue (b.arrived call called caller cls g)).sendOwn call .ringStarted).askIfDue call := by
    have hfind : (if (b.queue g).isEmpty then b.select g [] else none) = none := by
      rcases h with h | h
      · exact if_neg (by rw [hbq]; simpa using h)
      · exact ite_eq_right_iff.mpr fun _ => hsel.trans h
    unfold State.takeIn
    rw [if_neg hsmall, hfind]
  rw [htaken]
  refine ⟨fun n clear hempty hselect => ?offered, fun hwait hcap harrivals => ?queued, fun hwait hcap => ?away⟩
  case offered =>
    rw [State.takeIn_offers (s := b) hnone hlen hempty (hsel.trans hselect), State.join_room]
    · rfl
    · exact (State.endBridge_room ..).mpr hdown
  case queued =>
    let r := b.arrived call called caller cls g
    have hout : ∀ q ∈ b.hunt.records, q.call = r.call → q.isQueued = false := fun q hq hqc =>
      absurd (List.mem_map.mpr ⟨q, hq, hqc⟩) hno
    obtain ⟨ahead, behind, records, hsplit, -, hbehind, hplaced, hperm, hothers, hentered⟩ := State.enterQueue_eq hout
    have hlast : behind = [] := by
      cases behind with
      | nil => rfl
      | cons x rest =>
        have hx : x ∈ s.queue g := hsplit ▸ List.mem_append_right _ (List.mem_cons_self ..)
        exact absurd (harrivals x hx) (Nat.not_le_of_lt (hbehind x rfl))
    rw [hlast, List.append_nil] at hsplit
    rw [hlast, ← hsplit] at hplaced
    rw [← hsplit] at hentered
    let t : State := { b with hunt := { b.hunt with
      records := records
      headChecks := if s.queue g = [] then insertSorted g s.hunt.headChecks else s.hunt.headChecks } }
    have htroom : t.room .up 1 := hroom
    have hent : b.enterQueue r = t := hentered
    refine ⟨t, ?_, hplaced, hothers, rfl⟩
    rw [hqueues hwait, if_neg (by exact Nat.not_lt_of_le hcap), hent, State.sendOwn_room htroom]
    refine congrArg Host.Outcome.next (State.askIfDue_later fun x hx => ?_)
    have hxr : x = b.queuedForm r := by
      refine State.record_joined (s := t) hperm (fun q hq => of_decide_eq_true (List.mem_filter.mp hq).2) hx
    rw [hxr]
    exact State.queuedForm_later (s := b) (r := r) rfl
  case away =>
    rw [hqueues hwait, if_pos (by exact Nat.lt_succ_of_le hcap), State.overflow_none (s := b) hnone hroom]
    rfl

end Sys2Proof.Machine
end

section
/-! PROOFS. Head checks (O32; 04, R71, R83). -/

namespace Sys2Proof.Machine

variable {s t u v : State} {c call k : CallRef} {r : HuntRecord} {n m g : Nat}

/-! ### What an offer leaves of the Hunt Controller (04, R71; 06, R110) -/

/-- A change of records that keeps their calls, their groups and whether they are queued. -/
def KeepsQueues (f : HuntRecord → HuntRecord) : Prop :=
  ∀ q, (f q).call = q.call ∧ (f q).group = q.group ∧ (f q).isQueued = q.isQueued

theorem HuntRecord.withOrbit_keeps (n : Nat) (r : HuntRecord) :
    (r.withOrbit n).call = r.call ∧ (r.withOrbit n).group = r.group ∧ (r.withOrbit n).isQueued = r.isQueued := by
  refine ⟨r.withOrbit_call n, ?_⟩
  unfold HuntRecord.withOrbit
  split
  · rename_i hs
    refine ⟨rfl, ?_⟩
    simp only [HuntRecord.isQueued, hs]
  · exact ⟨rfl, rfl⟩

/-- A released orbit changes at most the record that it is handed on to. -/
theorem State.releaseOrbit_hunt (n : Nat) (s : State) :
    ∃ f, KeepsQueues f ∧ (s.releaseOrbit n true).hunt = { s.hunt with records := s.hunt.records.map f } := by
  rw [State.releaseOrbit_eq]
  cases s.firstAwaiting with
  | none =>
    dsimp only
    rw [State.orbitCleared_hunt]
    exact ⟨id, fun _ => ⟨rfl, rfl, rfl⟩, by rw [List.map_id]⟩
  | some r =>
    dsimp only
    rw [State.assignOrbit_hunt, State.orbitCleared_hunt]
    refine ⟨fun q => if q.call = r.call then q.withOrbit n else q, fun q => ?_, rfl⟩
    dsimp only
    split
    · exact q.withOrbit_keeps n
    · exact ⟨rfl, rfl, rfl⟩

theorem State.orbitFreed_keeps (r : HuntRecord) (s : State) :
    ∃ f, KeepsQueues f ∧ (s.orbitFreed r true).hunt = { s.hunt with records := s.hunt.records.map f } := by
  unfold State.orbitFreed
  split
  · exact State.releaseOrbit_hunt _ s
  · exact ⟨id, fun _ => ⟨rfl, rfl, rfl⟩, by rw [List.map_id]⟩

theorem State.join_hunt (d : Dir) (x : LaneCell) (s : State) : (s.join d x).hunt = s.hunt := by
  rw [State.join_rest]
  rfl

/-- An offer changes the call table, the head checks of its own group and its group's live record. -/
theorem State.offerTo_hunt (hr : s.record c = some r) (hn : n < 384) (hi : (s.stations.get n).line = .idle)
    (clear : Bool) : ∃ f, KeepsQueues f ∧ (s.offerTo c n clear).hunt = { s.hunt with
      records := (s.departed c n clear r.group).hunt.records.map f
      headChecks := if s.headCall r.group == some c then insertSorted r.group s.hunt.headChecks else s.hunt.headChecks
      live := s.hunt.live.put r.group ((s.hunt.live.get r.group).offeredTo n) } := by
  obtain ⟨f, hf, hfreed⟩ := State.orbitFreed_keeps r (s.departed c n clear r.group)
  refine ⟨f, hf, ?_⟩
  rw [State.offerTo_eq hr hn hi, State.join_hunt]
  unfold State.offeredTo
  rw [hfreed]
  rfl

theorem queueOf_map {f : HuntRecord → HuntRecord} (hf : KeepsQueues f) (g : Nat) (l : List HuntRecord) :
    queueOf g (l.map f) = (queueOf g l).map f := by
  unfold queueOf
  rw [List.filter_map]
  congr 1
  refine List.filter_congr fun q _ => ?_
  rw [Function.comp_apply, (hf q).2.1, (hf q).2.2]

theorem map_call_keeps {f : HuntRecord → HuntRecord} (hf : KeepsQueues f) (l : List HuntRecord) :
    (l.map f).map HuntRecord.call = l.map HuntRecord.call := by
  rw [List.map_map]
  exact List.map_congr_left fun q _ => (hf q).1

/-- A record that becomes offered leaves its queue; the others keep their places. -/
theorem queueOf_offered {f : HuntRecord → HuntRecord} (hf : ∀ q, (f q).isQueued = false) (g : Nat) (l : List HuntRecord) :
    queueOf g (l.map fun q => if q.call = c then f q else q) = (queueOf g l).filter fun q => q.call ≠ c := by
  induction l with
  | nil => rfl
  | cons q rest ih =>
    rw [List.map_cons]
    by_cases hq : q.call = c
    · rw [if_pos hq, queueOf_cons_out (by simp [hf]), ih]
      by_cases hin : (q.group = g && q.isQueued) = true
      · rw [queueOf_cons_in hin, List.filter_cons_of_neg (by simpa using hq)]
      · rw [queueOf_cons_out hin]
    · rw [if_neg hq]
      by_cases hin : (q.group = g && q.isQueued) = true
      · rw [queueOf_cons_in hin, queueOf_cons_in hin, List.filter_cons_of_pos (by simpa using hq), ih]
      · rw [queueOf_cons_out hin, queueOf_cons_out hin, ih]

/-- The queues once a call is offered: it has left its own, and every other call keeps its place. -/
theorem State.offerTo_queue (hr : s.record c = some r) (hn : n < 384) (hi : (s.stations.get n).line = .idle)
    (clear : Bool) (g : Nat) : ∃ f, KeepsQueues f ∧
      (s.offerTo c n clear).queue g = ((s.queue g).filter fun q => q.call ≠ c).map f := by
  obtain ⟨f, hf, hhunt⟩ := State.offerTo_hunt hr hn hi clear
  refine ⟨f, hf, ?_⟩
  have hqueue : (s.offerTo c n clear).queue g = queueOf g ((s.departed c n clear r.group).hunt.records.map f) :=
    congrArg (fun h : Hunt => queueOf g h.records) hhunt
  rw [hqueue, queueOf_map hf]
  exact congrArg (List.map f) (queueOf_offered (fun _ => rfl) g _)

/-- The calls of the table once a call is offered. -/
theorem State.offerTo_calls (hr : s.record c = some r) (hn : n < 384) (hi : (s.stations.get n).line = .idle)
    (clear : Bool) : (s.offerTo c n clear).hunt.records.map HuntRecord.call = s.hunt.records.map HuntRecord.call := by
  obtain ⟨f, hf, hhunt⟩ := State.offerTo_hunt hr hn hi clear
  rw [hhunt]
  refine (map_call_keeps hf _).trans ?_
  show (s.hunt.records.map _).map HuntRecord.call = _
  rw [List.map_map]
  refine List.map_congr_left fun q _ => ?_
  rw [Function.comp_apply]
  split <;> rfl

/-! ### A head check (04, R83) -/

theorem filter_insertSorted (g : Nat) (l : List Nat) : (insertSorted g l).filter (· ≠ g) = l.filter (· ≠ g) := by
  induction l with
  | nil => simp [insertSorted]
  | cons m rest ih =>
    unfold insertSorted
    split
    · simp
    · split
      · rfl
      · rw [List.filter_cons, List.filter_cons, ih]

theorem insertSorted_head (g : Nat) (rest : List Nat) : insertSorted g (g :: rest) = g :: rest := by
  unfold insertSorted
  rw [if_neg (Nat.lt_irrefl g), if_pos rfl]

/-- A call whose record stands once in the table. -/
theorem State.record_of_mem (hcalls : (s.hunt.records.map HuntRecord.call).Nodup) (hr : r ∈ s.hunt.records) :
    s.record r.call = some r := by
  cases h : s.record r.call with
  | none => exact absurd (List.mem_map_of_mem hr) (record_none h)
  | some q =>
    obtain ⟨hcall, hmem⟩ := record_call h
    rw [record_unique hcalls hmem hr hcall]

/-- The head of a queue is the record of its call. -/
theorem State.record_head (hcalls : (s.hunt.records.map HuntRecord.call).Nodup) (hr : (s.queue g).head? = some r) :
    s.record r.call = some r ∧ r.group = g ∧ r.isQueued = true := by
  obtain ⟨hmem, hin⟩ := List.mem_filter.mp (List.mem_of_mem_head? hr)
  simp only [Bool.and_eq_true, decide_eq_true_eq] at hin
  exact ⟨State.record_of_mem hcalls hmem, hin⟩

theorem State.queue_nodup (hcalls : (s.hunt.records.map HuntRecord.call).Nodup) (g : Nat) :
    ((s.queue g).map HuntRecord.call).Nodup :=
  hcalls.sublist ((List.filter_sublist (l := s.hunt.records)).map HuntRecord.call)

/-- The queue once its head is offered. -/
theorem State.offerTo_tail {clear : Bool} (hcalls : (s.hunt.records.map HuntRecord.call).Nodup)
    (hr : (s.queue g).head? = some r) (hn : n < 384) (hi : (s.stations.get n).line = .idle) :
    ∃ f, KeepsQueues f ∧ (s.offerTo r.call n clear).queue g = (s.queue g).tail.map f := by
  obtain ⟨hrec, -, -⟩ := State.record_head hcalls hr
  obtain ⟨f, hf, hqueue⟩ := State.offerTo_queue hrec hn hi clear g
  refine ⟨f, hf, hqueue.trans (congrArg (List.map f) ?_)⟩
  have hnodup := State.queue_nodup hcalls g
  cases hq : s.queue g with
  | nil => rw [hq] at hr; exact nomatch hr
  | cons x rest =>
    rw [hq] at hr hnodup
    obtain rfl := Option.some_inj.mp hr
    rw [List.filter_cons_of_neg (by simp), List.tail_cons]
    refine List.filter_eq_self.mpr fun q hqm => decide_eq_true fun hqc => ?_
    exact (List.nodup_cons.mp hnodup).1 (hqc ▸ List.mem_map_of_mem hqm)

/-- The events raised once a head is offered. -/
theorem State.offerTo_raised {clear : Bool} (hcalls : (s.hunt.records.map HuntRecord.call).Nodup)
    (hr : (s.queue g).head? = some r) (hn : n < 384) (hi : (s.stations.get n).line = .idle) :
    (s.offerTo r.call n clear).hunt.headChecks = insertSorted g s.hunt.headChecks ∧
      (s.offerTo r.call n clear).hunt.available = s.hunt.available := by
  obtain ⟨hrec, hgroup, -⟩ := State.record_head hcalls hr
  obtain ⟨f, -, hhunt⟩ := State.offerTo_hunt hrec hn hi clear
  have hhead : s.headCall r.group = some r.call := by
    unfold State.headCall
    rw [hgroup, hr]
    rfl
  rw [hhunt, hhead, if_pos (beq_self_eq_true _), hgroup]
  exact ⟨rfl, rfl⟩

theorem State.offerHeads_none (h : ∀ r, (s.queue g).head? = some r → s.select g r.tried = none) (fuel : Nat) :
    State.offerHeads g fuel s = s := by
  cases fuel with
  | zero => rfl
  | succ fuel =>
    unfold State.offerHeads
    split
    · rfl
    · rename_i r hr
      rw [h r hr]

theorem State.offerHeads_some {clear : Bool} (hr : (s.queue g).head? = some r)
    (hselect : s.select g r.tried = some (n, clear)) (fuel : Nat) :
    State.offerHeads g (fuel + 1) s = State.offerHeads g fuel (s.offerTo r.call n clear) := by
  conv_lhs => unfold State.offerHeads
  rw [hr]
  dsimp only
  rw [hselect]

/-- A head check ends with no head that selection finds a member for. -/
theorem State.offerHeads_ends (fuel : Nat) (hcalls : (s.hunt.records.map HuntRecord.call).Nodup)
    (hfuel : (s.queue g).length ≤ fuel) : ∃ t, State.offerHeads g fuel s = t ∧
      (∀ r, (t.queue g).head? = some r → t.select g r.tried = none) ∧
      t.hunt.headChecks.filter (· ≠ g) = s.hunt.headChecks.filter (· ≠ g) ∧ t.hunt.available = s.hunt.available := by
  induction fuel generalizing s with
  | zero =>
    refine ⟨s, rfl, fun r hr => ?_, rfl, rfl⟩
    rw [List.length_eq_zero_iff.mp (Nat.le_zero.mp hfuel)] at hr
    exact nomatch hr
  | succ fuel ih =>
    by_cases hnone : ∀ r, (s.queue g).head? = some r → s.select g r.tried = none
    · exact ⟨s, State.offerHeads_none hnone _, hnone, rfl, rfl⟩
    · push Not at hnone
      obtain ⟨r, hr, hsome⟩ := hnone
      obtain ⟨⟨n, clear⟩, hselect⟩ := Option.ne_none_iff_exists'.mp hsome
      obtain ⟨hn, hi⟩ := State.select_idle hselect
      obtain ⟨hrec, -, -⟩ := State.record_head hcalls hr
      obtain ⟨f, -, hqueue⟩ := State.offerTo_tail (clear := clear) hcalls hr hn hi
      obtain ⟨hchecks, havailable⟩ := State.offerTo_raised (clear := clear) hcalls hr hn hi
      rw [State.offerHeads_some hr hselect]
      obtain ⟨t, ht, hends, htchecks, htavailable⟩ := ih (s := s.offerTo r.call n clear)
        (by rw [State.offerTo_calls hrec hn hi]; exact hcalls)
        (by rw [hqueue, List.length_map, List.length_tail]; omega)
      exact ⟨t, ht, hends, by rw [htchecks, hchecks, filter_insertSorted], htavailable.trans havailable⟩

/-- What a head check leaves: no head with a member for it, and only its own event spent. -/
theorem State.headCheck_ends (hcalls : (s.hunt.records.map HuntRecord.call).Nodup) (g : Nat) :
    (∀ r, ((s.headCheck g).queue g).head? = some r → (s.headCheck g).select g r.tried = none) ∧
      (s.headCheck g).hunt.headChecks = s.hunt.headChecks.filter (· ≠ g) ∧
      (s.headCheck g).hunt.available = s.hunt.available := by
  obtain ⟨t, ht, hends, hchecks, havailable⟩ := State.offerHeads_ends _ hcalls (Nat.le_refl (s.queue g).length)
  have hcheck : s.headCheck g = t.modHunt fun h => { h with headChecks := h.headChecks.filter (· ≠ g) } := by
    rw [← ht]
    rfl
  rw [hcheck]
  refine ⟨fun r hr => ?_, hchecks, havailable⟩
  refine (State.select_congr (s := t) (t := t.modHunt _) rfl rfl rfl g r.tried).trans (hends r hr)

theorem FreeClaims.phase (p : Phase) : FreeClaims fun s => s.lane.phase = p where
  assist _ := id
  zone h _ := h
  lane h hm := (congrArg Lane.phase hm.rest).trans h
  flag _ h := h
  source _ h := h
  paging h _ := h
  alarm h _ := h

theorem KeptCalls.phase (p : Phase) : KeptCalls fun s => s.lane.phase = p where
  toKeptClaims := (FreeClaims.phase p).kept
  hunt _ h := h
  orbit _ _ h := h
  offered _ h _ := h

theorem exec_headCheck (hp : s.lane.phase = .inService) (g : Nat) :
    exec (.headCheck g) s = .next (if s.hunt.headChecks.head? = some g then s.headCheck g else s) :=
  congrArg Host.Outcome.next (if_pos hp)

/-- Settles O32: a check that finds no member, one that offers its head, one out of turn, and the offer itself. -/
theorem headCheckOffersHeads : Obligations.HeadCheckOffersHeads := by
  refine ⟨fun g s hp hfits => ⟨fun hturn => ⟨?ends, fun hnone => ?spent, fun r n clear hr hselect => ?offers⟩,
    fun hturn => ?waits⟩, ?offered⟩
  case ends =>
    obtain ⟨hends, hchecks, -⟩ := State.headCheck_ends hfits.calls g
    exact ⟨s.headCheck g, by rw [exec_headCheck hp, if_pos hturn], hends, hchecks⟩
  case spent =>
    rw [exec_headCheck hp, if_pos hturn]
    unfold State.headCheck
    rw [State.offerHeads_none hnone]
    rfl
  case offers =>
    obtain ⟨hn, hi⟩ := State.select_idle hselect
    obtain ⟨f, hf, hqueue⟩ := State.offerTo_tail (clear := clear) hfits.calls hr hn hi
    obtain ⟨hchecks, -⟩ := State.offerTo_raised (clear := clear) hfits.calls hr hn hi
    refine ⟨?_, by rw [hqueue, map_call_keeps hf, List.map_tail]⟩
    obtain ⟨rest, hrest⟩ : ∃ rest, s.hunt.headChecks = g :: rest := List.head?_eq_some_iff.mp hturn
    have hturn' : (s.offerTo r.call n clear).hunt.headChecks.head? = some g := by
      rw [hchecks, hrest, insertSorted_head]
      rfl
    have hlen : (s.queue g).length = ((s.offerTo r.call n clear).queue g).length + 1 := by
      obtain ⟨l, hl⟩ : ∃ l, s.queue g = r :: l := List.head?_eq_some_iff.mp hr
      rw [hqueue, hl]
      simp
    rw [exec_headCheck hp, if_pos hturn, exec_headCheck ((KeptCalls.phase _).offerTo hp r.call n clear), if_pos hturn']
    unfold State.headCheck
    rw [hlen, State.offerHeads_some hr hselect]
  case waits => rw [exec_headCheck hp, if_neg hturn]
  case offered =>
    intro call r n clear s hr hn hi f cell departed offered
    obtain ⟨rfl, -⟩ := record_call hr
    have hoffered (u : State) : u.offeredTo r.call n r.group (s.headCall r.group == some r.call) = offered u := by
      unfold State.offeredTo
      simp only [beq_iff_eq]
      rfl
    refine ⟨fun ho hroom => ?_, fun o ho => ?_⟩
    · rw [State.offerTo_orbitless hr ho hn hi, hoffered, State.join_room]
      · rfl
      · exact hroom
    · have hdeparted : s.departed r.call n clear r.group = departed := rfl
      rw [State.offerTo_eq hr hn hi, State.orbitFreed_some ho, hoffered, hdeparted]
      rfl

end Sys2Proof.Machine
end

section
/-! PROOFS. Member-available events (O33; 04, R84). -/

namespace Sys2Proof.Machine

variable {s t : State} {c : CallRef} {r : HuntRecord} {n g h : Nat} {clear : Bool}

/-! ### The groups that wait for a station, in their order -/

/-- A group stands before another: by the arrival of its head, then by its number (04, R84). -/
def State.headBefore (s : State) (g h : Nat) : Prop :=
  s.headArrival g < s.headArrival h ∨ s.headArrival g = s.headArrival h ∧ g ≤ h

theorem State.insertByHead_cons (s : State) (g h : Nat) (rest : List Nat) :
    s.headBefore g h ∧ s.insertByHead g (h :: rest) = g :: h :: rest ∨
      s.headBefore h g ∧ s.insertByHead g (h :: rest) = h :: s.insertByHead g rest := by
  unfold State.headBefore
  by_cases hb : s.headArrival g < s.headArrival h ∨ s.headArrival g = s.headArrival h ∧ g ≤ h
  · exact .inl ⟨hb, if_pos (by simpa using hb)⟩
  · exact .inr ⟨by omega, if_neg (by simpa using hb)⟩

theorem State.insertByHead_perm (s : State) (g : Nat) (l : List Nat) : (s.insertByHead g l).Perm (g :: l) := by
  induction l with
  | nil => exact .refl _
  | cons h rest ih =>
    rcases s.insertByHead_cons g h rest with ⟨-, heq⟩ | ⟨-, heq⟩
    · rw [heq]
    · rw [heq]
      exact (ih.cons h).trans (.swap ..)

theorem State.insertByHead_sorted {l : List Nat} (hl : l.Pairwise s.headBefore) (g : Nat) :
    (s.insertByHead g l).Pairwise s.headBefore := by
  induction l with
  | nil => exact List.pairwise_singleton ..
  | cons h rest ih =>
    obtain ⟨hhead, hrest⟩ := List.pairwise_cons.mp hl
    rcases s.insertByHead_cons g h rest with ⟨hb, heq⟩ | ⟨hb, heq⟩
    · rw [heq]
      refine List.pairwise_cons.mpr ⟨fun x hx => ?_, hl⟩
      rcases List.mem_cons.mp hx with rfl | hx
      · exact hb
      · have hx := hhead x hx
        unfold State.headBefore at hb hx ⊢
        omega
    · rw [heq]
      refine List.pairwise_cons.mpr ⟨fun x hx => ?_, ih hrest⟩
      rcases List.mem_cons.mp ((s.insertByHead_perm g rest).mem_iff.mp hx) with rfl | hx
      · exact hb
      · exact hhead x hx

/-- A list of groups in the order of their heads. -/
theorem State.foldr_insertByHead (s : State) (l : List Nat) :
    (l.foldr s.insertByHead []).Perm l ∧ (l.foldr s.insertByHead []).Pairwise s.headBefore := by
  induction l with
  | nil => exact ⟨.refl _, .nil⟩
  | cons g rest ih => exact ⟨(s.insertByHead_perm ..).trans (ih.1.cons g), State.insertByHead_sorted ih.2 g⟩

theorem State.headArrival_eq (h : (s.queue g).head? = some r) : s.headArrival g = r.arrival := by
  unfold State.headArrival
  rw [h]

/-- A group that waits for a station has it as active member, and a queue. -/
theorem State.mem_waiting (h : g ∈ groupNumbers.filter fun g => s.activeMember g n && !(s.queue g).isEmpty) :
    (1 ≤ g ∧ g ≤ 32) ∧ n ∈ (s.activeGroup g).members := by
  obtain ⟨hg, hin⟩ := List.mem_filter.mp h
  exact ⟨mem_groupNumbers.mp hg, List.contains_iff_mem.mp (Bool.and_eq_true _ _ ▸ hin).1⟩

theorem State.mem_of_groupsWaiting (h : g ∈ s.groupsWaiting n) : (1 ≤ g ∧ g ≤ 32) ∧ n ∈ (s.activeGroup g).members :=
  State.mem_waiting ((s.foldr_insertByHead _).1.mem_iff.mp (List.mem_of_mem_take h))

/-- A station that stands in at most four lists meets every group that waits for it. -/
theorem State.groupsWaiting_spec (hfour : groupsOf s.hunt.active n ≤ 4) :
    (∀ g, g ∈ s.groupsWaiting n ↔ (1 ≤ g ∧ g ≤ 32) ∧ n ∈ (s.activeGroup g).members ∧ s.queue g ≠ []) ∧
      (s.groupsWaiting n).Pairwise s.headBefore ∧ (s.groupsWaiting n).Nodup := by
  let waiting := groupNumbers.filter fun g => s.activeMember g n && !(s.queue g).isEmpty
  obtain ⟨hperm, hsorted⟩ := s.foldr_insertByHead waiting
  have hlen : (waiting.foldr s.insertByHead []).length ≤ 4 := by
    rw [hperm.length_eq]
    refine Nat.le_trans (List.Sublist.length_le ?_) hfour
    exact List.monotone_filter_right _ fun g hg => (Bool.and_eq_true _ _ ▸ hg).1
  have hgroups : s.groupsWaiting n = waiting.foldr s.insertByHead [] := List.take_of_length_le hlen
  rw [hgroups]
  refine ⟨fun g => ?_, hsorted, hperm.nodup_iff.mpr (List.Nodup.filter _ List.nodup_range')⟩
  rw [hperm.mem_iff, List.mem_filter, mem_groupNumbers]
  simp [State.activeMember]

/-- A head that a station may take (04, R84). -/
theorem State.headTakes_some : s.headTakes g n = some (c, clear) ↔ ∃ r, (s.queue g).head? = some r ∧ c = r.call ∧
    (n ∉ r.tried ∧ clear = false ∨
      n ∈ r.tried ∧ clear = true ∧ ∀ m ∈ (s.activeGroup g).members, s.candidate m = true → m ∈ r.tried) := by
  unfold State.headTakes
  cases hr : (s.queue g).head? with
  | none => simp
  | some r =>
    dsimp only
    refine ⟨fun h => ⟨r, rfl, ?_⟩, ?_⟩
    · split at h
      · rename_i hn
        obtain ⟨rfl, rfl⟩ := Prod.mk.inj (Option.some_inj.mp h)
        exact ⟨rfl, .inl ⟨by simpa using hn, rfl⟩⟩
      · rename_i hn
        split at h
        · rename_i hall
          obtain ⟨rfl, rfl⟩ := Prod.mk.inj (Option.some_inj.mp h)
          refine ⟨rfl, .inr ⟨by simpa using hn, rfl, fun m hm hc => ?_⟩⟩
          exact List.contains_iff_mem.mp (List.all_eq_true.mp hall m (List.mem_filter.mpr ⟨hm, hc⟩))
        · exact nomatch h
    · rintro ⟨q, hq, rfl, ⟨hn, rfl⟩ | ⟨hn, rfl, hall⟩⟩
      · obtain rfl := Option.some_inj.mp hq
        exact if_pos (by simpa using hn)
      · obtain rfl := Option.some_inj.mp hq
        rw [if_neg (by simpa using hn), if_pos]
        refine List.all_eq_true.mpr fun m hm => List.contains_iff_mem.mpr ?_
        exact hall m (List.mem_filter.mp hm).1 (List.mem_filter.mp hm).2

/-- The first of a sorted list without repeats that has a value, where no other that has one stands before it. -/
theorem findSome_of_first {α : Type} {before : Nat → Nat → Prop} {f : Nat → Option α} {l : List Nat} {x : α}
    (hsorted : l.Pairwise before) (hnodup : l.Nodup) (hg : g ∈ l) (hx : f g = some x)
    (hfirst : ∀ h y, h ∈ l → before h g → f h = some y → h = g) : l.findSome? f = some x := by
  obtain ⟨pre, post, rfl⟩ := List.append_of_mem hg
  have hpre : pre.findSome? f = none := by
    refine List.findSome?_eq_none_iff.mpr fun h hh => ?_
    cases hf : f h with
    | none => rfl
    | some y =>
      have hbefore := (List.pairwise_append.mp hsorted).2.2 h hh g (List.mem_cons_self ..)
      obtain rfl := hfirst h y (List.mem_append_left _ hh) hbefore hf
      exact absurd rfl ((List.nodup_append.mp hnodup).2.2 h hh h (List.mem_cons_self ..))
  rw [List.findSome?_append, hpre, Option.none_or, List.findSome?_cons, hx]

theorem exec_memberAvailable (hp : s.lane.phase = .inService) (n : Nat) :
    exec (.memberAvailable n) s =
      .next (if s.hunt.headChecks = [] ∧ s.hunt.available.head? = some n then s.memberAvailable n else s) :=
  congrArg Host.Outcome.next (if_pos hp)

/-- Settles O33: by whether a waiting head may be taken, in the order of the groups that wait. -/
theorem memberAvailableTakesHead : Obligations.MemberAvailableTakesHead := by
  intro n s hp t takes
  have hturn (hchecks : s.hunt.headChecks = []) (hraised : s.hunt.available.head? = some n) :
      exec (.memberAvailable n) s = .next (if t.candidate n then
        match (t.groupsWaiting n).findSome? fun g => t.headTakes g n with
        | some (c, clear) => t.offerTo c n clear
        | none => t
      else t) := by
    rw [exec_memberAvailable hp, if_pos ⟨hchecks, hraised⟩]
    rfl
  have htakes {g : Nat} {c : CallRef} {clear : Bool} (hg : 1 ≤ g ∧ g ≤ 32) (hmem : n ∈ (t.activeGroup g).members)
      (h : t.headTakes g n = some (c, clear)) : ∃ r, c = r.call ∧ takes g r clear := by
    obtain ⟨r, hr, hc, hway⟩ := State.headTakes_some.mp h
    exact ⟨r, hc, hg.1, hg.2, hmem, hr, hway⟩
  refine ⟨fun hchecks hraised => ⟨?nothing, ?taken⟩, ?waits⟩
  case nothing =>
    intro hno
    rw [hturn hchecks hraised]
    by_cases hcandidate : t.candidate n = true
    · have hno := hno.resolve_left (by rw [show s.candidate n = true from hcandidate]; nofun)
      have hnone : ((t.groupsWaiting n).findSome? fun g => t.headTakes g n) = none := by
        refine List.findSome?_eq_none_iff.mpr fun g hg => ?_
        obtain ⟨hrange, hin⟩ := State.mem_of_groupsWaiting hg
        cases hx : t.headTakes g n with
        | none => rfl
        | some x =>
          obtain ⟨r, -, htake⟩ := htakes hrange hin hx
          exact absurd htake (hno g r x.2)
      rw [if_pos hcandidate, hnone]
    · rw [if_neg hcandidate]
  case taken =>
    intro hcandidate hfour g r clear htake hfirst
    obtain ⟨hmem, hsorted, hnodup⟩ := State.groupsWaiting_spec (s := t) hfour
    have hfind : ((t.groupsWaiting n).findSome? fun g => t.headTakes g n) = some (r.call, clear) := by
      obtain ⟨hg1, hg2, hin, hr, hway⟩ := htake
      refine findSome_of_first hsorted hnodup ((hmem g).mpr ⟨⟨hg1, hg2⟩, hin, ?_⟩)
        (State.headTakes_some.mpr ⟨r, hr, rfl, hway⟩) fun h y hh hbefore hy => ?_
      · intro hnil
        have hr : (t.queue g).head? = some r := hr
        rw [hnil] at hr
        exact nomatch hr
      · obtain ⟨hrange, hin, -⟩ := (hmem h).mp hh
        obtain ⟨q, -, hq⟩ := htakes hrange hin hy
        have hlater := hfirst h q y.2 hq
        have hqa := State.headArrival_eq (s := t) hq.2.2.2.1
        have hra := State.headArrival_eq (s := t) hr
        unfold State.headBefore at hbefore
        omega
    rw [hturn hchecks hraised, if_pos (by exact hcandidate), hfind]
  case waits =>
    intro hlate
    rw [exec_memberAvailable hp, if_neg]
    rintro ⟨hchecks, hraised⟩
    exact hlate.elim (· hchecks) (· hraised)

end Sys2Proof.Machine
end

section
/-! PROOFS. Selection, re-selection and re-queueing (O27; 04, R70, R78 to R80). -/

namespace Sys2Proof.Machine

variable {s t u v : State} {c call k : CallRef} {r q : HuntRecord} {n m g : Nat}

/-! ### The record of a call beside other work on records -/

/-- A call with no record but this one. -/
def State.only (c : CallRef) (q : HuntRecord) (s : State) : Prop := ∀ x ∈ s.hunt.records, x.call = c → x = q

theorem State.only_congr (h : t.hunt.records = s.hunt.records) (c : CallRef) (q : HuntRecord) : t.only c q ↔ s.only c q := by
  unfold State.only
  rw [h]

/-- A record that awaits no orbit is left alone by an orbit's release. -/
theorem State.only_releaseOrbit (hq : q.awaiting = false) (h : s.only c q) (n : Nat) : (s.releaseOrbit n true).only c q := by
  rw [State.releaseOrbit_eq]
  cases hfirst : s.firstAwaiting with
  | none => exact (State.only_congr (by rw [State.orbitCleared_hunt]) c q).mpr h
  | some r =>
    obtain ⟨hmem, hawaits⟩ := State.firstAwaiting_mem hfirst
    intro x hx hxc
    dsimp only at hx
    rw [State.assignOrbit_hunt, State.orbitCleared_hunt] at hx
    obtain ⟨y, hy, rfl⟩ := List.mem_map.mp hx
    split at hxc
    · rename_i hyr
      rw [HuntRecord.withOrbit_call] at hxc
      rw [h r hmem (hyr.symm.trans hxc), hq] at hawaits
      exact nomatch hawaits
    · rename_i hyr
      rw [if_neg hyr]
      exact h y hy hxc

theorem State.only_recordGone (hq : q.awaiting = false) (h : s.only c q) (r : HuntRecord)
    (count : GroupCounters → GroupCounters) : (s.recordGone r count).only c q := by
  have hwithout (l : List HuntRecord) (hl : l = s.hunt.records.filter fun q => q.call ≠ r.call) :
      State.only c q { s with hunt := { s.hunt with records := l } } := fun x hx hxc =>
    h x (List.mem_filter.mp (hl ▸ hx)).1 hxc
  cases ho : r.orbit with
  | none =>
    rw [State.recordGone_orbitless ho]
    exact hwithout _ rfl
  | some o =>
    have hfreed := State.only_releaseOrbit hq (hwithout _ rfl) o
    generalize hf : State.releaseOrbit o true
      { s with hunt := { s.hunt with records := s.hunt.records.filter fun q => q.call ≠ r.call } } = freed at hfreed
    rw [State.recordGone_orbit ho hf]
    exact hfreed

theorem State.setFlag_hunt (f : Flag) (s : State) : (s.setFlag f).hunt = s.hunt := by
  rw [State.setFlag_rest]
  rfl

theorem State.only_sendAway (hq : q.awaiting = false) (h : s.only c q) (k : CallRef) (g : Nat) (body : Body) :
    (s.sendAway k g body).only c q := by
  have hsent : (s.sendOwn k body).only c q := (State.only_congr (congrArg Hunt.records (State.join_hunt ..)) c q).mpr h
  have hgone : ((s.sendOwn k body).removeRecord k false).only c q := by
    cases hr : (s.sendOwn k body).record k with
    | none => rwa [State.removeRecord_none hr]
    | some r =>
      have hcounted := State.removeRecord_counted hr id
      exact (State.only_congr (congrArg (fun t => t.hunt.records) hcounted) c q).mpr (State.only_recordGone hq hsent r id)
  exact (State.only_congr (congrArg Hunt.records (State.setFlag_hunt ..)) c q).mpr hgone

/-- An orbitless call that is sent away has no record any more. -/
theorem State.sendAway_record_gone (hr : s.record c = some r) (ho : r.orbit = none) (body : Body) :
    (s.sendAway c r.group body).record c = none := by
  obtain ⟨rfl, -⟩ := record_call hr
  rw [State.sendAway_record hr, State.recordGone_orbitless ho]
  refine (State.record_congr (congrArg Hunt.records (State.setFlag_hunt ..)) _).trans ?_
  refine List.find?_eq_none.mpr fun x hx => ?_
  exact fun h => of_decide_eq_true (List.mem_filter.mp hx).2 (of_decide_eq_true h)

theorem KeptOrbits.clock (x : Nat) : KeptOrbits fun s => s.clock = x where
  toKeptClaims := FreeClaims.kept
    { assist := fun _ => id, zone := fun h _ => h, lane := fun h _ => h, flag := fun _ h => h, source := fun _ h => h
      paging := fun h _ => h, alarm := fun h _ => h }
  hunt _ h := h
  orbit _ _ h := h

theorem State.overflow_clock (c : CallRef) (g : Nat) (s : State) : (s.overflow c g).clock = s.clock :=
  (KeptOrbits.clock s.clock).sendAway rfl c g _

/-- An offered call that is sent away (04, R69). -/
theorem State.sendAway_offered (hcalls : (s.hunt.records.map HuntRecord.call).Nodup) (hr : s.record c = some r)
    (ho : r.orbit = none) (hq : r.isQueued = false) (hroom : s.room .up 1) (body : Body) :
    s.sendAway c r.group body =
      (({ s with hunt :=
          { s.hunt with
            records := s.hunt.records.filter fun q => q.call ≠ c
            closed := Machine.closeCall c s.hunt.closed
            live := s.hunt.live.put r.group { s.hunt.live.get r.group with counters :=
              { (s.hunt.live.get r.group).counters with
                diverted := satInc (s.hunt.live.get r.group).counters.diverted } } } } :
        State).queued .up [.known ⟨s.lane.own, c, body⟩]).setFlag .queueOverflow := by
  have hhead : (s.queued .up [.known ⟨s.lane.own, c, body⟩]).headCall r.group ≠ some c :=
    State.headCall_ne_unqueued hcalls hr hq r.group
  obtain ⟨rfl, -⟩ := record_call hr
  rw [State.sendAway_record hr, State.sendOwn_room hroom, State.recordGone_orbitless ho, if_neg hhead]
  rfl

/-! ### Re-queueing (04, R78 to R80) -/

/-- The maximum-wait action where the wait deadline of a call's queued record is past (04, R78). -/
def State.waitChecked (c : CallRef) (g wait : Nat) (s : State) : State :=
  if (s.record c).isSome ∧ wait ≤ s.clock then (s.overflow c g).setFlag .queueTimeout else s

/-- The orbit that a call asks for where its announce point is past (04, R78). -/
def State.pointChecked (c : CallRef) (now : Nat) (point : Option Nat) (s : State) : State :=
  if (s.record c).isSome ∧ duePast now point = true then s.requestOrbit c else s

theorem State.waitChecked_eq {wait : Nat} {point : Option Nat} (hstatus : q.status = .queued wait point none false)
    (hcall : q.call = c) (honly : s.only c q) :
    (State.askIfDue c (match s.record c with
      | some x => if duePast s.clock x.waitDeadline then s.maximumWait c else s
      | none => s)) = (s.waitChecked c q.group wait).pointChecked c s.clock point := by
  have horbit : q.orbit = none := by simp only [HuntRecord.orbit, hstatus]
  have hwait : q.waitDeadline = some wait := by simp only [HuntRecord.waitDeadline, hstatus]
  have hpoint : q.announcePoint = point := by simp only [HuntRecord.announcePoint, hstatus]
  unfold State.waitChecked State.pointChecked State.askIfDue
  cases hr : s.record c with
  | none => simp [hr]
  | some x =>
    obtain ⟨hxc, hxm⟩ := record_call hr
    obtain rfl := honly x hxm hxc
    simp only [hwait, Option.isSome_some, true_and]
    by_cases hdue : wait ≤ s.clock
    · have hdue' : duePast s.clock (some wait) = true := decide_eq_true hdue
      have hgone : ((s.overflow c x.group).setFlag .queueTimeout).record c = none :=
        (State.record_congr (congrArg Hunt.records (State.setFlag_hunt ..)) c).trans
          (State.sendAway_record_gone hr horbit _)
      have hmaximum : s.maximumWait c = (s.overflow c x.group).setFlag .queueTimeout := by
        unfold State.maximumWait
        rw [hr]
      rw [if_pos hdue, if_pos hdue', hmaximum, hgone]
      rfl
    · have hdue' : ¬ duePast s.clock (some wait) = true := fun h => hdue (of_decide_eq_true h)
      rw [if_neg hdue, if_neg hdue', hr]
      simp only [hpoint, Option.isSome_some, true_and]

/-- The overflow of the last record of an overfull queue (04, R78). -/
def State.lastChecked (g : Nat) (s : State) : State :=
  if (s.queue g).length > (s.activeGroup g).fields.capacity then
    match (s.queue g).getLast? with
    | some last => s.overflow last.call g
    | none => s
  else s

theorem State.lastChecked_eq {ahead behind : List HuntRecord} (hcall : q.call = c)
    (hqueue : s.queue g = ahead ++ q :: behind) :
    s.lastChecked g =
      if (s.activeGroup g).fields.capacity < (ahead ++ behind).length + 1 then
        s.overflow (match behind.getLast? with | some x => x.call | none => c) g else s := by
  have hlast : (ahead ++ q :: behind).getLast? = some (behind.getLast?.getD q) := by
    rw [List.getLast?_append, List.getLast?_cons, Option.some_or]
  have hlen : (ahead ++ q :: behind).length = (ahead ++ behind).length + 1 := by
    simp only [List.length_append, List.length_cons]
    omega
  have hname : (behind.getLast?.getD q).call = match behind.getLast? with | some x => x.call | none => c := by
    cases behind.getLast? with
    | none => exact hcall
    | some x => rfl
  unfold State.lastChecked
  rw [hqueue, hlast, hlen, ← hname]

theorem State.lastChecked_keeps (hq : q.awaiting = false) (h : s.only c q) (g : Nat) :
    (s.lastChecked g).only c q ∧ (s.lastChecked g).clock = s.clock := by
  unfold State.lastChecked
  refine ite_kept (P := fun t : State => t.only c q ∧ t.clock = s.clock) ?_ ⟨h, rfl⟩
  split
  · exact ⟨State.only_sendAway hq h _ _ _, State.overflow_clock ..⟩
  · exact ⟨h, rfl⟩

/-- What follows a record's entry into its queue: an overfull queue's last record, a wait and an announce point now past. -/
theorem State.requeue_eq {wait : Nat} {point : Option Nat} (ht : (s.enterQueue r).sendOwn r.call .ringStarted = t)
    (hcall : q.call = r.call) (hgroup : q.group = r.group) (hstatus : q.status = .queued wait point none false)
    (honly : t.only r.call q) :
    s.requeue r =
      State.pointChecked r.call t.clock point (State.waitChecked r.call r.group wait (t.lastChecked r.group)) := by
  have hawaiting : q.awaiting = false := by simp only [HuntRecord.awaiting, hstatus]
  obtain ⟨hkept, hclock⟩ := State.lastChecked_keeps hawaiting honly r.group
  rw [← hclock, ← hgroup]
  rw [← hgroup] at hkept
  refine Eq.trans ?_ (State.waitChecked_eq hstatus hcall hkept)
  subst ht
  rw [hgroup]
  rfl

/-! ### Re-selection (04, R78; 03, R59) -/

theorem State.reselect_retired {a : RetiredAction} (hr : s.record c = some r) (ha : r.retired = some a) :
    s.reselect c = s.sendAway c r.group (retiredBody a) := by
  unfold State.reselect
  rw [hr]
  dsimp only
  rw [ha]

theorem State.reselect_unused (hr : s.record c = some r) (ha : r.retired = none)
    (hpilot : (s.activeGroup r.group).fields.pilot = none) : s.reselect c = s.overflow c r.group := by
  unfold State.reselect
  rw [hr]
  dsimp only
  rw [ha, hpilot]
  rfl

theorem State.reselect_offers {clear : Bool} (hr : s.record c = some r) (ha : r.retired = none)
    (hpilot : (s.activeGroup r.group).fields.pilot ≠ none) (hselect : s.select r.group r.tried = some (n, clear)) :
    s.reselect c = s.offerTo c n clear := by
  unfold State.reselect
  rw [hr]
  dsimp only
  rw [ha]
  dsimp only
  rw [if_neg (by simpa using hpilot), hselect]

theorem State.reselect_requeues (hr : s.record c = some r) (ha : r.retired = none)
    (hpilot : (s.activeGroup r.group).fields.pilot ≠ none) (hselect : s.select r.group r.tried = none) :
    s.reselect c = s.requeue r := by
  unfold State.reselect
  rw [hr]
  dsimp only
  rw [ha]
  dsimp only
  rw [if_neg (by simpa using hpilot), hselect]

/-- Settles the first half of O27: selection's choice. -/
theorem State.select_spec (s : State) (g : Nat) (tried : List Nat) :
    let members := (s.activeGroup g).members
    let untried (n : Nat) : Bool := s.candidate n && !tried.contains n
    ((∃ n ∈ members, untried n = true) → ∃ n, s.select g tried = some (n, false) ∧ disciplineChooses s g untried n) ∧
    ((∀ n ∈ members, untried n = false) → (∃ n ∈ members, s.candidate n = true) →
      ∃ n, s.select g tried = some (n, true) ∧ disciplineChooses s g s.candidate n) ∧
    ((∀ n ∈ members, s.candidate n = false) → s.select g tried = none) := by
  intro members untried
  have hsome {may : Nat → Bool} (h : ∃ n ∈ members, may n = true) : ∃ n, s.choose g may = some n := by
    refine Option.ne_none_iff_exists'.mp fun hnone => ?_
    obtain ⟨n, hn, hmay⟩ := h
    rw [State.choose_none.mp hnone n hn] at hmay
    exact nomatch hmay
  have hselect : s.select g tried = match s.choose g untried with
      | some n => some (n, false)
      | none => (s.choose g s.candidate).map fun n => (n, true) := rfl
  refine ⟨fun h => ?_, fun hnone h => ?_, fun hnone => ?_⟩
  · obtain ⟨n, hn⟩ := hsome h
    exact ⟨n, by rw [hselect, hn], State.choose_some hn⟩
  · obtain ⟨n, hn⟩ := hsome h
    refine ⟨n, ?_, State.choose_some hn⟩
    rw [hselect, State.choose_none.mpr hnone, hn]
    rfl
  · rw [hselect, State.choose_none.mpr fun n hn => ?_, State.choose_none.mpr hnone]
    · rfl
    · show (s.candidate n && !tried.contains n) = false
      rw [hnone n hn, Bool.false_and]

/-- Settles O27: selection's choice, and re-selection by the record's retired action, its group and selection. -/
theorem selectionRules : Obligations.SelectionRules := by
  refine ⟨State.select_spec, fun call r m d a s hrec hstatus hfits hroom => ?_⟩
  intro g f live others sent
  obtain ⟨hcall, hmem⟩ := record_call hrec
  have hunqueued : r.isQueued = false := by simp only [HuntRecord.isQueued, hstatus]
  have horbit : r.orbit = none := by simp only [HuntRecord.orbit, hstatus]
  have hretired : r.retired = a := by simp only [HuntRecord.retired, hstatus]
  have hsent (body : Body) : s.sendAway call r.group body = sent body :=
    State.sendAway_offered hfits.calls hrec horbit hunqueued hroom body
  refine ⟨fun dn ha => ?divert, fun ha => ?refuse, fun ha hpilot => ?unused, fun ha hpilot n clear hselect => ?offer,
    fun ha hpilot hselect => ?requeue⟩
  case divert => rw [State.reselect_retired hrec (hretired.trans ha)]; exact hsent _
  case refuse => rw [State.reselect_retired hrec (hretired.trans ha)]; exact hsent _
  case unused => rw [State.reselect_unused hrec (hretired.trans ha) hpilot]; exact hsent _
  case offer => exact State.reselect_offers hrec (hretired.trans ha) hpilot hselect
  case requeue =>
    intro wait point q
    have hout : ∀ x ∈ s.hunt.records, x.call = r.call → x.isQueued = false := fun x hx hxc => by
      rwa [record_unique hfits.calls hx hmem hxc]
    obtain ⟨ahead, behind, records, hsplit, hahead, hbehind, hplaced, hperm, hothers, hentered⟩ := State.enterQueue_eq hout
    have hq : s.queuedForm r = q := rfl
    rw [hq] at hplaced hperm
    rw [hcall] at hperm
    refine ⟨ahead, behind, records, hsplit, hahead, hbehind, ?_⟩
    intro t
    refine ⟨hplaced, hperm, hothers, ?_⟩
    intro t0 t1 t2
    have honly : t0.only r.call q := fun x hx hxc =>
      (List.mem_cons.mp (hperm.mem_iff.mp hx)).resolve_right fun hx =>
        of_decide_eq_true (List.mem_filter.mp hx).2 (hxc.trans hcall)
    have ht : (s.enterQueue r).sendOwn r.call .ringStarted = t0 := by
      rw [hentered]
      exact (State.sendOwn_room (s := t) hroom r.call .ringStarted).trans (by rw [hcall])
    have hlast : t0.lastChecked r.group = t1 := by
      rw [State.lastChecked_eq (s := t0) (q := q) rfl hplaced, ← hsplit, hcall]
      rfl
    have hclock : t1.clock = s.clock := hlast ▸ (State.lastChecked_keeps rfl honly r.group).2
    have hwait : t1.waitChecked call r.group wait = t2 := by
      unfold State.waitChecked
      rw [hclock]
    rw [State.reselect_requeues hrec (hretired.trans ha) hpilot hselect,
      State.requeue_eq (q := q) ht rfl rfl rfl honly, hlast, hcall]
    have hdue : duePast s.clock (if f.threshold = 0 then none else some point) = true ↔ f.threshold ≠ 0 ∧ point ≤ s.clock := by
      by_cases hthreshold : f.threshold = 0
      · rw [if_pos hthreshold]
        exact ⟨nofun, fun h => absurd hthreshold h.1⟩
      · rw [if_neg hthreshold]
        exact ⟨fun h => ⟨hthreshold, of_decide_eq_true h⟩, fun h => decide_eq_true h.2⟩
    rw [hwait]
    unfold State.pointChecked
    exact ite_congr (propext (and_congr_right fun _ => hdue)) (fun _ => rfl) fun _ => rfl

end Sys2Proof.Machine
end

section
/-! PROOFS. The Code Matcher (O20, O21, O22; 02, R41 to R45). -/

namespace Sys2Proof.Machine

variable {s t : State} {eq : Equip} {call : CallRef} {ds arg : Digits} {e f : AccessCode} {n g : Nat}

/-! ### The longest code (02, R41) -/

/-- The longer of two loaded codes that begin the string, the earlier where they are as long. -/
def AccessCode.longer (ds : Digits) (best : Option AccessCode) (x : Option AccessCode) : Option AccessCode :=
  match x with
  | none => best
  | some e =>
    if e.code.isPrefixOf ds then
      match best with
      | none => some e
      | some (b : AccessCode) => if b.code.length < e.code.length then some e else best
    else best

/-- The better of what stood and what comes: one of the two, and no shorter than either that begins the string. -/
theorem AccessCode.longer_spec (best x : Option AccessCode) :
    (AccessCode.longer ds best x = best ∨
      ∃ e, x = some e ∧ e.code <+: ds ∧ AccessCode.longer ds best x = some e) ∧
    (∀ b, best = some b → ∃ r, AccessCode.longer ds best x = some r ∧ b.code.length ≤ r.code.length) ∧
    ∀ e, x = some e → e.code <+: ds → ∃ r, AccessCode.longer ds best x = some r ∧ e.code.length ≤ r.code.length := by
  cases x with
  | none => exact ⟨.inl rfl, fun b hb => ⟨b, hb, Nat.le_refl _⟩, nofun⟩
  | some e =>
    by_cases he : e.code <+: ds
    · have he' : e.code.isPrefixOf ds = true := List.isPrefixOf_iff_prefix.mpr he
      cases best with
      | none =>
        have hl : AccessCode.longer ds none (some e) = some e := if_pos he'
        exact ⟨.inr ⟨e, rfl, he, hl⟩, nofun, fun x hx _ => ⟨e, hl, by rw [Option.some_inj.mp hx]⟩⟩
      | some b =>
        have hl : AccessCode.longer ds (some b) (some e) = if b.code.length < e.code.length then some e else some b :=
          if_pos he'
        by_cases hlt : b.code.length < e.code.length
        · rw [if_pos hlt] at hl
          refine ⟨.inr ⟨e, rfl, he, hl⟩, fun x hx => ⟨e, hl, ?_⟩, fun x hx _ => ⟨e, hl, by rw [Option.some_inj.mp hx]⟩⟩
          rw [← Option.some_inj.mp hx]
          exact Nat.le_of_lt hlt
        · rw [if_neg hlt] at hl
          refine ⟨.inl hl, fun x hx => ⟨b, hl, by rw [Option.some_inj.mp hx]⟩, fun x hx _ => ⟨b, hl, ?_⟩⟩
          rw [← Option.some_inj.mp hx]
          exact Nat.le_of_not_lt hlt
    · have hl : AccessCode.longer ds best (some e) = best :=
        if_neg fun h => he (List.isPrefixOf_iff_prefix.mp h)
      refine ⟨.inl hl, fun b hb => ⟨b, hl.trans hb, Nat.le_refl _⟩, fun x hx hp => ?_⟩
      rw [← Option.some_inj.mp hx] at hp
      exact absurd hp he

/-- The best of a list of table entries: one that begins the string, and no shorter than any that does. -/
theorem AccessCode.foldl_longer (codes : Nat → Option AccessCode) (l : List Nat) (best : Option AccessCode) :
    (l.foldl (fun b i => AccessCode.longer ds b (codes i)) best = best ∨
      ∃ i ∈ l, ∃ e, codes i = some e ∧ e.code <+: ds ∧
        l.foldl (fun b i => AccessCode.longer ds b (codes i)) best = some e) ∧
    (∀ b, best = some b → ∃ r, l.foldl (fun b i => AccessCode.longer ds b (codes i)) best = some r ∧
      b.code.length ≤ r.code.length) ∧
    ∀ i ∈ l, ∀ e, codes i = some e → e.code <+: ds →
      ∃ r, l.foldl (fun b i => AccessCode.longer ds b (codes i)) best = some r ∧ e.code.length ≤ r.code.length := by
  induction l generalizing best with
  | nil => exact ⟨.inl rfl, fun b hb => ⟨b, hb, Nat.le_refl _⟩, nofun⟩
  | cons i rest ih =>
    obtain ⟨hfrom, hbest, hentry⟩ := AccessCode.longer_spec (ds := ds) best (codes i)
    obtain ⟨ihfrom, ihbest, ihentry⟩ := ih (AccessCode.longer ds best (codes i))
    have hkept {x : AccessCode} {r : AccessCode} (hr : AccessCode.longer ds best (codes i) = some r)
        (hx : x.code.length ≤ r.code.length) : ∃ r, rest.foldl (fun b i => AccessCode.longer ds b (codes i))
          (AccessCode.longer ds best (codes i)) = some r ∧ x.code.length ≤ r.code.length := by
      obtain ⟨y, hy, hle⟩ := ihbest r hr
      exact ⟨y, hy, Nat.le_trans hx hle⟩
    rw [List.foldl_cons]
    refine ⟨?_, fun b hb => ?_, fun j hj e he hp => ?_⟩
    · rcases ihfrom with h | ⟨j, hj, e, he, hp, h⟩
      · rcases hfrom with hf | ⟨e, he, hp, hf⟩
        · exact .inl (h.trans hf)
        · exact .inr ⟨i, List.mem_cons_self .., e, he, hp, h.trans hf⟩
      · exact .inr ⟨j, List.mem_cons_of_mem _ hj, e, he, hp, h⟩
    · obtain ⟨r, hr, hle⟩ := hbest b hb
      exact hkept hr hle
    · rcases List.mem_cons.mp hj with rfl | hj
      · obtain ⟨r, hr, hle⟩ := hentry e he hp
        exact hkept hr hle
      · exact ihentry j hj e he hp

theorem State.matchCode_eq (s : State) (ds : Digits) :
    s.matchCode ds = ((List.range 16).foldl (fun b i => AccessCode.longer ds b (s.codes.get i)) none).map fun e =>
      (e, ds.drop e.code.length) := rfl

theorem State.matchCode_longest (h : s.matchCode ds = some (e, arg)) :
    ds = e.code ++ arg ∧ (∃ i, i < 16 ∧ s.codes.get i = some e) ∧
      ∀ i f, i < 16 → s.codes.get i = some f → f.code <+: ds → f.code.length ≤ e.code.length := by
  rw [State.matchCode_eq] at h
  obtain ⟨x, hx, hpair⟩ := Option.map_eq_some_iff.mp h
  obtain ⟨rfl, rfl⟩ := Prod.mk.inj hpair
  obtain ⟨hfrom, -, hentry⟩ := AccessCode.foldl_longer (ds := ds) s.codes.get (List.range 16) none
  rcases hfrom with hnone | ⟨i, hi, e, he, hp, hfold⟩
  · exact nomatch hnone.symm.trans hx
  · obtain rfl := Option.some_inj.mp (hfold.symm.trans hx)
    refine ⟨(List.prefix_iff_eq_append.mp hp).symm, ⟨i, List.mem_range.mp hi, he⟩, fun j f hj hf hpf => ?_⟩
    obtain ⟨r, hr, hle⟩ := hentry j (List.mem_range.mpr hj) f hf hpf
    rwa [Option.some_inj.mp (hx.symm.trans hr)]

theorem State.matchCode_found {i : Nat} (hi : i < 16) (hf : s.codes.get i = some f) (hp : f.code <+: ds) :
    ∃ e, s.matchCode ds = some (e, ds.drop e.code.length) := by
  obtain ⟨r, hr, -⟩ := (AccessCode.foldl_longer (ds := ds) s.codes.get (List.range 16) none).2.2 i
    (List.mem_range.mpr hi) f hf hp
  exact ⟨r, by rw [State.matchCode_eq, hr]; rfl⟩

/-! ### A DIALLED (01, R12; 02, R42) -/

section
variable (hw : (Instr.dialled eq call ds).wf = true) (hp : s.lane.phase = .inService) (hc : s.Calm)
  (ht : tracked eq = true)
include hw hp hc ht

theorem exec_dialled :
    exec (.dialled eq call ds) s =
      .next (State.decide ⟨eq, call, .dialled ds⟩ ((s.endBridge .up).dialled eq.toNat ds)) := by
  rw [exec_cell rfl hp hc (Bool.and_eq_true_iff.mp hw).1]
  exact congrArg Host.Outcome.next (if_pos ht)

/-- A matched DIALLED is consumed. -/
theorem exec_matched (hmode : s.maint.mode = .engaged) (hline : (s.stations.get eq.toNat).line = .seized)
    (hm : s.matchCode ds = some (e, arg)) :
    exec (.dialled eq call ds) s = .next
      (if argumentOk e.feature arg then (s.endBridge .up).dispatchFeature eq.toNat e arg
       else (s.endBridge .up).denyFeature eq.toNat) := by
  have hdialled : (s.endBridge .up).dialled eq.toNat ds =
      (if argumentOk e.feature arg then (s.endBridge .up).dispatchFeature eq.toNat e arg
       else (s.endBridge .up).denyFeature eq.toNat, .consume) := by
    have hm : (s.endBridge .up).matchCode ds = some (e, arg) := hm
    unfold State.dialled
    rw [if_pos (by simp [hmode, hline]), hm]
  rw [exec_dialled hw hp hc ht, hdialled]
  rfl

end

/-- Settles O20: the longest match, and what passes unread. -/
theorem longestCodeMatches : Obligations.LongestCodeMatches := by
  refine ⟨fun s ds e arg => State.matchCode_longest, fun s ds i f hi hf hp => State.matchCode_found hi hf hp,
    fun eq call ds s hw hp hc ht hroom h => ?_⟩
  have hpass : (s.endBridge .up).dialled eq.toNat ds = (s.endBridge .up, .pass) := by
    unfold State.dialled
    by_cases hread : s.maint.mode = .engaged ∧ (s.stations.get eq.toNat).line = .seized
    · have hnone : (s.endBridge .up).matchCode ds = none := by
        cases hm : (s.endBridge .up).matchCode ds with
        | none => rfl
        | some x =>
          obtain ⟨hds, ⟨i, hi, he⟩, -⟩ := State.matchCode_longest (e := x.1) (arg := x.2) hm
          rcases h with h | h | h
          · exact nomatch hread.1.symm.trans h
          · exact absurd hread.2 h
          · exact absurd ⟨_, hds.symm⟩ (h i x.1 hi he)
      rw [hnone]
      split <;> rfl
    · exact if_neg (by simpa using hread)
  rw [exec_dialled hw hp hc ht, hpass]
  exact congrArg Host.Outcome.next (State.join_room _ ((State.endBridge_room ..).mpr hroom))

end Sys2Proof.Machine
end

section
/-! PROOFS. The features that the Code Matcher answers itself (O21, O22; 02, R35, R42 to R45). -/

namespace Sys2Proof.Machine

variable {s t : State} {eq : Equip} {call : CallRef} {ds arg : Digits} {e : AccessCode} {n g : Nat} {st : Station}

/-! ### ENGAGE and TONE (02, R33) -/

/-- A part whose station has this record. -/
def State.withStation (n : Nat) (st : Station) (s : State) : State := { s with stations := s.stations.put n st }

theorem State.withStation_withStation (n : Nat) (a b : Station) (s : State) :
    (s.withStation n a).withStation n b = s.withStation n b :=
  congrArg (fun stations => { s with stations := stations }) (Tab.put_put ..)

/-- An ENGAGE makes a SEIZED station FEATURE. -/
theorem State.sendEngage_seized (hn : n < 384) (hst : s.stations.get n = st) (hl : st.line = .seized)
    (hroom : s.room .up 1) (f : EngageFeature) :
    s.sendEngage n f = (s.withStation n { st with line := .feature }).queued .up
      [.known ⟨stationEquip n, 0#16, .engage f⟩] := by
  subst hst
  unfold State.sendEngage
  rw [if_pos hl, State.changeStation_quiet hn _ (Station.not_candidate (by nofun)), State.join_room]
  · rfl
  · exact hroom

theorem State.sendTone_room (hroom : s.room .down 1) (n : Nat) (k : ToneKind) :
    s.sendTone n k = s.queued .down [.known ⟨stationEquip n, 0#16, .tone (BitVec.ofNat 8 (toneKindCode k))⟩] :=
  State.join_room _ hroom

theorem State.room_down_queued_up (cs : List LaneCell) (k : Nat) (s : State) :
    (s.queued .up cs).room .down k ↔ s.room .down k := Iff.rfl

/-- A feature answered: the station FEATURE, ENGAGE up and a TONE down (02, R43). -/
theorem State.featureAnswered (hn : n < 384) (hst : s.stations.get n = st) (hl : st.line = .seized)
    (hup : s.room .up 1) (hdown : s.room .down 1) (f : EngageFeature) (k : ToneKind) :
    (s.sendEngage n f).sendTone n k =
      ((s.withStation n { st with line := .feature }).queued .up [.known ⟨stationEquip n, 0#16, .engage f⟩]).queued .down
        [.known ⟨stationEquip n, 0#16, .tone (BitVec.ofNat 8 (toneKindCode k))⟩] := by
  rw [State.sendEngage_seized hn hst hl hup, State.sendTone_room]
  exact hdown

/-- A feature answered with its TONE first. -/
theorem State.featureToned (hn : n < 384) (hst : s.stations.get n = st) (hl : st.line = .seized)
    (hup : s.room .up 1) (hdown : s.room .down 1) (f : EngageFeature) (k : ToneKind) :
    (s.sendTone n k).sendEngage n f =
      ((s.withStation n { st with line := .feature }).queued .up [.known ⟨stationEquip n, 0#16, .engage f⟩]).queued .down
        [.known ⟨stationEquip n, 0#16, .tone (BitVec.ofNat 8 (toneKindCode k))⟩] := by
  let toned := s.queued .down [.known ⟨stationEquip n, 0#16, .tone (BitVec.ofNat 8 (toneKindCode k))⟩]
  rw [State.sendTone_room hdown, State.sendEngage_seized (s := toned) hn hst hl hup]
  rfl

/-- A change of a SEIZED station's fields that leaves its line. -/
theorem State.changeStation_seized {f : Station → Station} (hn : n < 384) (hst : s.stations.get n = st)
    (hl : (f st).line = .seized) : s.changeStation n f = s.withStation n (f st) := by
  subst hst
  exact State.changeStation_quiet hn f (Station.not_candidate (by rw [hl]; nofun))

/-- Settles O21: a wrong argument, LOGON and LOGOFF. -/
theorem logonLogoffDenied : Obligations.LogonLogoffDenied := by
  intro eq call ds e arg s hw hp hc ht hup hdown hmode hline hm st answered
  have hn : eq.toNat < 384 := tracked_lt ht
  let b := s.endBridge .up
  have hbup : b.room .up 1 := (State.endBridge_room ..).mpr hup
  have hbdown : b.room .down 1 := (State.endBridge_room ..).mpr hdown
  have hanswered {u : State} {x : Station} (f : EngageFeature) (k : ToneKind) (hu : u = b.withStation eq.toNat x)
      (hx : x.line = .seized) : (u.sendEngage eq.toNat f).sendTone eq.toNat k = answered x f k := by
    subst hu
    rw [State.featureAnswered hn (State.get_put_station hn x) hx (by exact hbup) (by exact hbdown),
      State.withStation_withStation, stationEquip_toNat]
    rfl
  have hsame : b = b.withStation eq.toNat st :=
    congrArg (fun stations => { b with stations := stations }) (Tab.put_get ..).symm
  rw [exec_matched hw hp hc ht hmode hline hm]
  refine ⟨fun hwrong => ?denied, fun hfeature harg => ?logon, fun hfeature harg => ?logoff⟩
  case denied =>
    rw [if_neg (by rw [hwrong]; nofun)]
    exact congrArg Host.Outcome.next (hanswered .denied .denied hsame hline)
  case logon =>
    rw [if_pos (by rw [hfeature, harg]; rfl)]
    refine congrArg Host.Outcome.next ?_
    unfold State.dispatchFeature
    rw [hfeature]
    exact hanswered .logon .confirm (State.changeStation_seized hn rfl hline) hline
  case logoff =>
    rw [if_pos (by rw [hfeature, harg]; rfl)]
    refine congrArg Host.Outcome.next ?_
    unfold State.dispatchFeature
    rw [hfeature]
    exact hanswered .logoff .confirm (State.changeStation_seized hn rfl hline) hline

/-- Settles O22: by whether the group is in use. -/
theorem groupStatusShown : Obligations.GroupStatusShown := by
  intro eq call ds e arg s hw hp hc ht hup hdown hmode hline hm hfeature harg g t tone wait
  have hn : eq.toNat < 384 := tracked_lt ht
  let b := s.endBridge .up
  have hbup : b.room .up 1 := (State.endBridge_room ..).mpr hup
  have hbdown : b.room .down 2 := (State.endBridge_room ..).mpr hdown
  have hexec : exec (.dialled eq call ds) s = .next (b.groupStatus eq.toNat g) := by
    rw [exec_matched hw hp hc ht hmode hline hm, hfeature, if_pos harg]
    unfold State.dispatchFeature
    rw [hfeature]
  rw [hexec]
  refine ⟨fun hpilot => ?unused, fun hpilot => ?shown⟩
  case unused =>
    have hdenied : b.groupStatus eq.toNat g = b.denyFeature eq.toNat :=
      if_pos (by exact Option.isNone_iff_eq_none.mpr hpilot)
    unfold State.denyFeature at hdenied
    rw [hdenied, State.featureAnswered hn rfl (by exact hline) hbup (State.room_mono hbdown (by omega)),
      stationEquip_toNat]
    rfl
  case shown =>
    have hshown : b.groupStatus eq.toNat g = ((b.sendEngage eq.toNat .status).join .down
        (.known ⟨stationEquip eq.toNat, 0#16, b.statusBody g⟩)).sendTone eq.toNat .confirm :=
      if_neg fun h => hpilot (Option.isNone_iff_eq_none.mp h)
    have hbody : b.statusBody g = .display (BitVec.ofNat 8 g) (BitVec.ofNat 8 (s.queue g).length) (BitVec.ofNat 16 wait)
        (BitVec.ofNat 8 ((s.activeGroup g).members.filter s.candidate).length)
        (BitVec.ofNat 8 ((s.activeGroup g).fields.capacity - (s.queue g).length)) := rfl
    have hengaged : b.sendEngage eq.toNat .status = t.queued .up [.known ⟨eq, 0#16, .engage .status⟩] := by
      rw [State.sendEngage_seized hn rfl (by exact hline) hbup, stationEquip_toNat]
      rfl
    have hroom : (t.queued .up [.known ⟨eq, 0#16, .engage .status⟩]).room .down 2 := hbdown
    rw [hshown, hbody, hengaged, stationEquip_toNat, State.join_room _ (State.room_mono hroom (by omega)),
      State.sendTone_room (State.room_queued hroom), State.queued_queued, stationEquip_toNat]
    rfl

end Sys2Proof.Machine
end

section
/-! PROOFS. The Orbit Table (O31; 06, R105 to R114). -/

namespace Sys2Proof.Machine

variable {s t u : State} {eq : Equip} {call c : CallRef} {ds arg : Digits} {e : AccessCode} {n g p : Nat} {st : Station}
  {o : Orbit} {r : HuntRecord}

/-! ### Chimes (06, R108) -/

/-- The zones' fields are as given. -/
def State.fieldsAre (f : Nat → ZoneFields) (s : State) : Prop := ∀ z, (s.zones.get z).fields = f z

theorem FreeClaims.fieldsAre (f : Nat → ZoneFields) : FreeClaims (State.fieldsAre f) where
  assist _ := id
  zone {s z g} h hm := fun y => by
    show ((s.zones.put z (g (s.zones.get z))).get y).fields = f y
    rw [Tab.get_put]
    split
    · rename_i hz
      rw [hm.fields, ← hz.1]
      exact h z
    · exact h y
  lane h _ := h
  flag _ h := h
  source _ h := h
  paging h _ := h
  alarm h _ := h

theorem State.resolveSet_congr (hf : t.fieldsAre fun z => (s.zones.get z).fields)
    (hp : t.paging.zoneSets = s.paging.zoneSets) (x : Nat) : t.resolveSet x = s.resolveSet x := by
  have henabled : t.zoneEnabled = s.zoneEnabled := funext fun z => congrArg ZoneFields.enabled (hf z)
  unfold State.resolveSet State.enabledZones
  rw [henabled, hp]

/-- The content of a chime. -/
def chimeSteps (prompt : Option Nat) (beep : List Step) : List Step :=
  match prompt with
  | some p => Step.prompt p :: beep
  | none => beep

/-- The claim that a chime asks for. -/
def State.chimeClaim (s : State) (n g : Nat) : Claim :=
  { claimant := .orbit n, cls := 4
    content := chimeSteps (s.activeGroup g).fields.announcePrompt [.tone s.paging.params.beepTone (some n)] }

/-- A part in which an orbit has chimed, by the definitions of another. -/
def State.chimed (s : State) (n : Nat) (o : Orbit) (t : State) : State :=
  let f := (s.activeGroup o.group).fields
  ((if s.maint.mode = .engaged then s.resolveSet f.announceSet else []).foldl
    (fun u z => (u.requestClaim z (s.chimeClaim n o.group)).1) t).setOrbit n
      (some { o with nextChime := s.clock + 1000 * f.announceRepeat })

theorem chimeContent_eq (f : GroupFields) (beep n : Nat) :
    chimeContent f beep n = chimeSteps f.announcePrompt [.tone beep (some n)] := by
  unfold chimeContent chimeSteps
  cases f.announcePrompt <;> rfl

/-- An orbit chimes by the part's own definitions, which those of another may be. -/
theorem State.chimeOrbit_eq (h : t.orbits.get n = some o) (hf : t.fieldsAre fun z => (s.zones.get z).fields)
    (hmaint : t.maint = s.maint) (hpaging : t.paging = s.paging) (hactive : t.hunt.active = s.hunt.active)
    (hclock : t.clock = s.clock) : t.chimeOrbit n = s.chimed n o t := by
  have hgroup (g : Nat) : t.activeGroup g = s.activeGroup g := by
    unfold State.activeGroup
    rw [hactive]
  unfold State.chimeOrbit State.chimed
  rw [h]
  dsimp only
  rw [hgroup, hmaint, hpaging, hclock, chimeContent_eq, State.resolveSet_congr hf (congrArg _ hpaging)]
  rfl

/-- An orbit as a record is given it. -/
def State.orbitFor (s : State) (r : HuntRecord) : Orbit :=
  { call := r.call, group := r.group, assigned := s.clock, nextChime := s.clock }

/-- A part whose record has an orbit. -/
def State.orbitGiven (s : State) (n : Nat) (r : HuntRecord) (t : State) : State :=
  { t with
    orbits := t.orbits.put n (some (s.orbitFor r))
    hunt := { t.hunt with records := t.hunt.records.map fun q => if q.call = r.call then q.withOrbit n else q } }

theorem State.assignOrbit_eq (hn : 1 ≤ n ∧ n ≤ 9) (hf : t.fieldsAre fun z => (s.zones.get z).fields)
    (hmaint : t.maint = s.maint) (hpaging : t.paging = s.paging) (hactive : t.hunt.active = s.hunt.active)
    (hclock : t.clock = s.clock) (r : HuntRecord) :
    t.assignOrbit n r = s.chimed n (s.orbitFor r) (s.orbitGiven n r t) := by
  have horbit : t.orbitFor r = s.orbitFor r := by
    unfold State.orbitFor
    rw [hclock]
  have hgiven : (t.setOrbit n (some (t.orbitFor r))).modRecord r.call (HuntRecord.withOrbit n) = s.orbitGiven n r t := by
    rw [horbit]
    rfl
  have hget : (s.orbitGiven n r t).orbits.get n = some (s.orbitFor r) := Tab.get_put_same _ _ (by omega)
  rw [← State.chimeOrbit_eq hget hf hmaint hpaging hactive hclock, ← hgiven]
  rfl

/-! ### The awaiting order (06, R107) -/

/-- The better of two records that await an orbit. -/
def HuntRecord.sooner (best : Option HuntRecord) (r : HuntRecord) : Option HuntRecord :=
  match best with
  | none => some r
  | some b => if awaitsBefore r b then some r else some b

theorem State.firstAwaiting_eq (s : State) :
    s.firstAwaiting = (s.hunt.records.filter (·.awaiting)).foldl HuntRecord.sooner none := rfl

/-- A record stays first where none behind it stands before it. -/
theorem HuntRecord.foldl_sooner_stays {l : List HuntRecord} (h : ∀ q ∈ l, awaitsBefore q r = false) :
    l.foldl HuntRecord.sooner (some r) = some r := by
  induction l with
  | nil => rfl
  | cons q rest ih =>
    have hq : HuntRecord.sooner (some r) q = some r := if_neg (ne_true_of_eq_false (h q (List.mem_cons_self ..)))
    rw [List.foldl_cons, hq]
    exact ih fun x hx => h x (List.mem_cons_of_mem _ hx)

theorem HuntRecord.foldl_sooner_mem (l : List HuntRecord) :
    l.foldl HuntRecord.sooner none = none ∨ ∃ b ∈ l, l.foldl HuntRecord.sooner none = some b := by
  have hkey (l : List HuntRecord) (b : HuntRecord) : ∃ x, (x = b ∨ x ∈ l) ∧ l.foldl HuntRecord.sooner (some b) = some x := by
    induction l generalizing b with
    | nil => exact ⟨b, .inl rfl, rfl⟩
    | cons q rest ih =>
      rw [List.foldl_cons]
      unfold HuntRecord.sooner
      dsimp only
      split
      · obtain ⟨x, hx, hfold⟩ := ih q
        refine ⟨x, .inr ?_, hfold⟩
        rcases hx with rfl | hx
        · exact List.mem_cons_self ..
        · exact List.mem_cons_of_mem _ hx
      · obtain ⟨x, hx, hfold⟩ := ih b
        exact ⟨x, hx.imp_right (List.mem_cons_of_mem _), hfold⟩
  cases l with
  | nil => exact .inl rfl
  | cons q rest =>
    obtain ⟨x, hx, hfold⟩ := hkey rest q
    exact .inr ⟨x, List.mem_cons.mpr hx, hfold⟩

theorem awaitsBefore_iff (a b : HuntRecord) :
    awaitsBefore a b = true ↔ a.arrival < b.arrival ∨ a.arrival = b.arrival ∧ a.group < b.group := by
  simp [awaitsBefore]

theorem State.firstAwaiting_none (h : ∀ r ∈ s.hunt.records, r.awaiting = false) : s.firstAwaiting = none := by
  rw [State.firstAwaiting_eq, List.filter_eq_nil_iff.mpr fun r hr => by simp [h r hr]]
  rfl

theorem State.firstAwaiting_split {ahead behind : List HuntRecord} (hsplit : s.hunt.records = ahead ++ r :: behind)
    (hr : r.awaiting = true) (hahead : ∀ q ∈ ahead, q.awaiting = true → awaitsBefore r q = true)
    (hbehind : ∀ q ∈ behind, q.awaiting = true → awaitsBefore q r = false) : s.firstAwaiting = some r := by
  rw [State.firstAwaiting_eq, hsplit, List.filter_append, List.filter_cons_of_pos hr, List.foldl_append, List.foldl_cons]
  have hbest : HuntRecord.sooner ((ahead.filter (·.awaiting)).foldl HuntRecord.sooner none) r = some r := by
    rcases HuntRecord.foldl_sooner_mem (ahead.filter (·.awaiting)) with h | ⟨b, hb, h⟩
    · rw [h]
      rfl
    · rw [h]
      exact if_pos (hahead b (List.mem_filter.mp hb).1 (List.mem_filter.mp hb).2)
  rw [hbest]
  exact HuntRecord.foldl_sooner_stays fun q hq => hbehind q (List.mem_filter.mp hq).1 (List.mem_filter.mp hq).2

/-! ### Release and hand-on (06, R110) -/

theorem State.orbitCleared_fields (n : Nat) (s : State) : (s.orbitCleared n).fieldsAre fun z => (s.zones.get z).fields := by
  have kept := (FreeClaims.fieldsAre fun z => (s.zones.get z).fields).kept
  have hwithdrawn : (zoneNumbers.foldl (fun t z => t.withdrawClaim z (.orbit n)) s).fieldsAre
      fun z => (s.zones.get z).fields := foldl_kept (P := State.fieldsAre fun z => (s.zones.get z).fields)
    (fun _ z ht => kept.withdrawClaim ht z id) _ fun _ => rfl
  unfold State.orbitCleared
  generalize zoneNumbers.foldl (fun t z => t.withdrawClaim z (.orbit n)) s = u at hwithdrawn
  exact hwithdrawn

/-- A released orbit is handed on to the first record that awaits one, and chimes. -/
theorem State.releaseOrbit_handsOn (hn : 1 ≤ n ∧ n ≤ 9) (h : s.firstAwaiting = some r) :
    s.releaseOrbit n true = s.chimed n (s.orbitFor r) (s.orbitGiven n r (s.orbitCleared n)) := by
  have hfields := s.orbitCleared_fields n
  obtain ⟨zs, hzones⟩ := s.orbitCleared_zones n
  rw [State.releaseOrbit_eq, h]
  exact State.assignOrbit_eq hn hfields (by rw [hzones]) (by rw [hzones]) (by rw [hzones]) (by rw [hzones]) r

/-! ### Announce points (06, R106) -/

theorem exec_chime (hp : s.lane.phase = .inService) (hc : s.Calm) (n : Nat) :
    exec (.chime n) s = .next (s.chimeExpiry n) :=
  congrArg Host.Outcome.next (State.afterRaised_of_calm (fun t => t.chimeExpiry n) hp hc)

theorem exec_announcePointExpiry (hp : s.lane.phase = .inService) (hc : s.Calm) (call : CallRef) :
    exec (.announcePointExpiry call) s = .next (s.announcePointExpiry call) :=
  congrArg Host.Outcome.next (State.afterRaised_of_calm (fun t => t.announcePointExpiry call) hp hc)

/-- The lowest of a range that has a property. -/
theorem find_lowest {may : Nat → Bool} {lo len : Nat} (h1 : lo ≤ n) (h2 : n < lo + len) (hn : may n = true)
    (hlow : ∀ m, lo ≤ m → m < n → may m = false) : (List.range' lo len).find? may = some n := by
  induction len generalizing lo with
  | zero => omega
  | succ len ih =>
    rw [List.range'_succ]
    by_cases h : lo = n
    · subst h
      exact List.find?_cons_of_pos hn
    · rw [List.find?_cons_of_neg (by rw [hlow lo (Nat.le_refl _) (by omega)]; nofun)]
      exact ih (by omega) (by omega) fun m hm => hlow m (by omega)

theorem State.freeOrbit_some (h1 : 1 ≤ n) (h2 : n ≤ 9) (hfree : s.orbits.get n = none)
    (hlow : ∀ m, 1 ≤ m → m < n → s.orbits.get m ≠ none) : s.freeOrbit = some n :=
  find_lowest h1 (by omega) (by rw [hfree]; rfl) fun m hm hmn =>
    Option.isNone_eq_false_iff.mpr (Option.isSome_iff_ne_none.mpr (hlow m hm hmn))

theorem State.freeOrbit_none (h : ∀ n, 1 ≤ n → n ≤ 9 → s.orbits.get n ≠ none) : s.freeOrbit = none := by
  refine List.find?_eq_none.mpr fun n hn => ?_
  obtain ⟨h1, h2⟩ := List.mem_range'_1.mp hn
  simpa using h n h1 (by omega)

/-- A due announce point of a record with no orbit asks for one. -/
theorem State.announcePointExpiry_due {w p : Nat} (hr : s.record c = some r) (hs : r.status = .queued w (some p) none false)
    (hdue : p ≤ s.clock) : s.announcePointExpiry c =
      match s.freeOrbit with
      | some n => s.assignOrbit n r
      | none => (s.modRecord c HuntRecord.markAwaiting).setFlag .orbitFull := by
  have hpoint : r.announceDue s.clock = true := by
    simp [HuntRecord.announceDue, HuntRecord.announcePoint, HuntRecord.awaiting, HuntRecord.orbit, hs, duePast, hdue]
  have hasks : (!r.isQueued || r.orbit.isSome) = false := by simp [HuntRecord.isQueued, HuntRecord.orbit, hs]
  have hawaits : r.awaiting = false := by simp [HuntRecord.awaiting, hs]
  unfold State.announcePointExpiry State.requestOrbit
  rw [hr]
  dsimp only
  rw [if_pos hpoint, if_neg (ne_true_of_eq_false hasks), if_neg (ne_true_of_eq_false hawaits)] <;> rfl

/-! ### A call taken for a station (05, R99; 06, R113, R114) -/

theorem State.recordGone_active (r : HuntRecord) (count : GroupCounters → GroupCounters) (s : State) :
    (s.recordGone r count).hunt.active = s.hunt.active := by
  cases ho : r.orbit with
  | none =>
    rw [State.recordGone_orbitless ho]
  | some o =>
    let without : State := { s with hunt := { s.hunt with records := s.hunt.records.filter fun q => q.call ≠ r.call } }
    obtain ⟨f, -, hfreed⟩ := without.releaseOrbit_hunt o
    rw [State.recordGone_orbit ho (freed := without.releaseOrbit o true) rfl]
    generalize without.releaseOrbit o true = freed at hfreed
    have hactive := congrArg Hunt.active hfreed
    exact hactive

/-- A station credited with a call of a group where it is an active member. -/
def State.deliveredFor (s : State) (p g : Nat) : Option Nat := if p ∈ (s.activeGroup g).members then some g else none

theorem State.activeMember_congr (h : t.hunt.active = s.hunt.active) (g p : Nat) : t.activeMember g p = s.activeMember g p := by
  unfold State.activeMember State.activeGroup
  rw [h]

/-- A cell that joins a queue and the credit of a station stand in either order. -/
theorem State.creditMember_join (d : Dir) (x : LaneCell) (p : Nat) (g : Option Nat) (s : State) :
    (s.join d x).creditMember p g = (s.creditMember p g).join d x := by
  cases g with
  | none => rfl
  | some g =>
    have hsame : (s.modStation p fun st => { st with deliveredBy := some g }).SameLanes s := ⟨rfl, rfl⟩
    unfold State.creditMember
    dsimp only
    rw [State.activeMember_congr (congrArg Hunt.active (s.join_hunt d x))]
    split
    · rw [hsame.join, s.join_rest d x]
      rfl
    · rfl

/-- A station that answers for a call of a group: TALKING, and delivered by the group where it is an active member. -/
theorem State.spoken_creditMember (hp : p < 384) (c : CallRef) (g : Nat) (s : State) :
    (s.spoken p c).creditMember p (some g) = s.withStation p { s.stations.get p with
      line := .talking, call := some c, deliveredBy := s.deliveredFor p g } := by
  unfold State.creditMember State.deliveredFor
  dsimp only
  have hmember : (s.spoken p c).activeMember g p = true ↔ p ∈ (s.activeGroup g).members := List.contains_iff_mem
  by_cases h : p ∈ (s.activeGroup g).members
  · rw [if_pos h, if_pos (hmember.mpr h)]
    unfold State.modStation
    rw [State.spoken_get hp]
    exact congrArg (fun stations => { s with stations := stations }) (Tab.put_put ..)
  · rw [if_neg h, if_neg fun hm => h (hmember.mp hm)]
    rfl

/-- A call taken from a SEIZED station, for a group: the cell of its answer comes last. -/
theorem State.answeredFor (hp : p < 384) (hl : (s.stations.get p).line = .seized) (c : CallRef) (via : Via) (g : Nat) :
    (s.sendAnswered p c via).creditMember p (some g) =
      State.join .up (.known ⟨stationEquip p, c, .answered via⟩) (s.withStation p { s.stations.get p with
        line := .talking, call := some c, deliveredBy := s.deliveredFor p g }) := by
  have happlied : s.applyAnswered p c = s.spoken p c := by
    rw [State.applyAnswered_plain hp rfl rfl (.inr (.inl hl)), hl]
    exact if_neg nofun
  unfold State.sendAnswered
  rw [happlied, State.creditMember_join, State.spoken_creditMember hp]

/-- A retrieval that may be (06, R113, R114). -/
theorem State.retrieve_taken (hp : p < 384) (hl : (s.stations.get p).line = .seized) (ho : s.orbits.get n = some o)
    (hmay : s.mayRetrieve o.group p = true) (hr : s.record o.call = some r)
    (hgone : s.recordGone r (fun k => { k with retrieved := satInc k.retrieved }) = t) :
    s.retrieve p n = State.join .up (.known ⟨stationEquip p, o.call, .answered .orbit⟩)
      (t.withStation p { t.stations.get p with
        line := .talking, call := some o.call, deliveredBy := s.deliveredFor p o.group }) := by
  have hstays : t.stations.get p = { s.stations.get p with source := (t.stations.get p).source } :=
    hgone ▸ s.recordGone_stays r _ p
  have hactive : t.hunt.active = s.hunt.active := hgone ▸ s.recordGone_active r _
  have hdelivered : t.deliveredFor p o.group = s.deliveredFor p o.group := by
    unfold State.deliveredFor State.activeGroup
    rw [hactive]
  have htaken : s.retrieveRecord o.call = t := by
    unfold State.retrieveRecord
    rw [hr]
    exact (State.removeRecord_counted hr _).trans hgone
  have htl : (t.stations.get p).line = .seized := by rw [hstays]; exact hl
  unfold State.retrieve
  rw [ho]
  dsimp only
  rw [if_pos hmay, htaken, State.answeredFor hp htl, hdelivered]

/-- A retrieval that is denied (06, R112). -/
theorem State.retrieve_denied (h : s.orbits.get n = none ∨ ∃ o, s.orbits.get n = some o ∧ s.mayRetrieve o.group p = false) :
    s.retrieve p n = s.denyRetrieve p := by
  unfold State.retrieve
  rcases h with h | ⟨o, h, hmay⟩
  · rw [h]
  · rw [h]
    exact if_neg (ne_true_of_eq_false hmay)

/-- Settles O31: the chime, the announce point, the release and the retrieval. -/
theorem orbitsAnnounce : Obligations.OrbitsAnnounce := by
  intro s hp hc chimed
  refine ⟨fun n o ho hdue => ?chime, fun call r w p hr hs hdue => ⟨fun n h1 h2 hfree hlow => ?assigned, fun hfull => ?waits⟩,
    fun n h1 h2 => ?released, ?retrieved⟩
  case chime =>
    have hchimed : s.chimeExpiry n = s.chimeOrbit n := by
      unfold State.chimeExpiry
      rw [ho]
      exact if_pos hdue
    rw [exec_chime hp hc, hchimed, State.chimeOrbit_eq (s := s) ho (fun _ => rfl) rfl rfl rfl rfl]
    rfl
  case assigned =>
    obtain ⟨rfl, -⟩ := record_call hr
    rw [exec_announcePointExpiry hp hc, State.announcePointExpiry_due hr hs hdue, State.freeOrbit_some h1 h2 hfree hlow]
    dsimp only
    rw [State.assignOrbit_eq (s := s) ⟨h1, h2⟩ (fun _ => rfl) rfl rfl rfl rfl]
    rfl
  case waits =>
    rw [exec_announcePointExpiry hp hc, State.announcePointExpiry_due hr hs hdue, State.freeOrbit_none hfull]
    rfl
  case released =>
    intro freed before
    refine ⟨fun hnone => ?_, fun ahead r behind hsplit hr hahead hbehind => ?_⟩
    · rw [State.releaseOrbit_eq, State.firstAwaiting_none hnone]
      rfl
    · have hfirst : s.firstAwaiting = some r := State.firstAwaiting_split hsplit hr
        (fun q hq hqa => (awaitsBefore_iff r q).mpr (hahead q hq hqa))
        fun q hq hqa => Bool.eq_false_iff.mpr fun h => hbehind q hq hqa ((awaitsBefore_iff q r).mp h)
      have hhunt : (s.orbitCleared n).hunt = s.hunt := s.orbitCleared_hunt n
      rw [State.releaseOrbit_handsOn ⟨h1, h2⟩ hfirst]
      have hfreed : s.orbitCleared n = freed := rfl
      unfold State.orbitGiven
      rw [hhunt, hfreed]
      rfl
  case retrieved =>
    intro eq call ds e arg hw ht hmode hline hm hfeature harg p n b member
    have hp384 : p < 384 := tracked_lt ht
    have hexec : exec (.dialled eq call ds) s = .next (b.retrieve p n) := by
      rw [exec_matched hw hp hc ht hmode hline hm, hfeature, if_pos harg]
      unfold State.dispatchFeature
      rw [hfeature]
    have hmay (g : Nat) : b.mayRetrieve g p = true ↔ (s.activeGroup g).fields.membersOnly = false ∨ member g := by
      show (!(s.activeGroup g).fields.membersOnly || (s.activeGroup g).members.contains p) = true ↔ _
      simp [member]
    rw [hexec]
    refine ⟨fun hup hdown h => ?denied, fun o r w x a ho hmember hr hg hs => ?taken⟩
    case denied =>
      have hdenied : b.retrieve p n = b.denyRetrieve p := by
        refine State.retrieve_denied (h.imp_right fun ⟨o, ho, honly, hno⟩ => ⟨o, ho, ?_⟩)
        exact Bool.eq_false_iff.mpr fun h => ((hmay o.group).mp h).elim (fun h => nomatch honly.symm.trans h) hno
      have hbup : b.room .up 1 := (State.endBridge_room ..).mpr hup
      have hbdown : b.room .down 1 := (State.endBridge_room ..).mpr hdown
      unfold State.denyRetrieve at hdenied
      rw [hdenied, State.featureToned (s := b) (st := s.stations.get p) hp384 rfl hline hbup hbdown, stationEquip_toNat]
      rfl
    case taken =>
      intro freed live
      have horbit : r.orbit = some n := by simp only [HuntRecord.orbit, hs]
      have hb : b.record o.call = some r := hr
      obtain ⟨hcall, -⟩ := record_call hr
      have hfreed : State.releaseOrbit n true
          { b with hunt := { b.hunt with records := b.hunt.records.filter fun q => q.call ≠ r.call } } = freed := by
        rw [hcall]
        rfl
      have hgone := State.recordGone_orbit horbit hfreed fun k => { k with retrieved := satInc k.retrieved }
      rw [State.retrieve_taken (s := b) hp384 hline ho ((hmay o.group).mpr hmember) hb hgone, stationEquip_toNat, hg, hcall]
      clear_value freed
      rfl

end Sys2Proof.Machine
end

section
/-! PROOFS. The pickups (O23; 05, R95 to R99). -/

namespace Sys2Proof.Machine

variable {s t u : State} {eq : Equip} {call c : CallRef} {ds arg : Digits} {e : AccessCode} {n g p m : Nat} {st : Station}
  {r : HuntRecord} {x : Ringing}

/-! ### The entry that a pickup takes (05, R96, R97) -/

theorem State.groupTarget_some (h : s.groupTarget p g = some x) : ∃ before k after older newer,
    g :: s.pickup.partners.get g = before ++ k :: after ∧ s.pickup.ringing = older ++ x :: newer ∧
      (x.station ≠ p ∧ (s.stations.get x.station).pickupGroup = some k) ∧
      (∀ e ∈ older, ¬ (e.station ≠ p ∧ (s.stations.get e.station).pickupGroup = some k)) ∧
      ∀ j ∈ before, ∀ e ∈ s.pickup.ringing, ¬ (e.station ≠ p ∧ (s.stations.get e.station).pickupGroup = some j) := by
  obtain ⟨before, k, after, hsplit, hfind, hbefore⟩ := List.findSome?_eq_some_iff.mp h
  obtain ⟨hx, older, newer, hringing, holder⟩ := List.find?_eq_some_iff_append.mp hfind
  refine ⟨before, k, after, older, newer, hsplit, hringing, by simpa using hx, fun e he h => ?_,
    fun j hj e he => ?_⟩
  · have hno := holder e he
    simp [h.1, h.2] at hno
  · simpa using List.find?_eq_none.mp (hbefore j hj) e he

theorem State.groupTarget_none (h : s.groupTarget p g = none) : ∀ k ∈ g :: s.pickup.partners.get g,
    ∀ e ∈ s.pickup.ringing, ¬ (e.station ≠ p ∧ (s.stations.get e.station).pickupGroup = some k) := by
  intro k hk e he
  have hnone := List.find?_eq_none.mp (List.findSome?_eq_none_iff.mp h k hk) e he
  simpa using hnone

theorem State.stationOfDn_some {d : Digits} : s.stationOfDn d = some n ↔
    n < 384 ∧ (s.stations.get n).dn = some d ∧ ∀ m, m < n → (s.stations.get m).dn ≠ some d := by
  unfold State.stationOfDn stationNumbers
  rw [List.find?_range_eq_some, List.mem_range]
  simp only [beq_iff_eq, Bool.not_eq_true', beq_eq_false_iff_ne]
  tauto

theorem State.directedTarget_some {d : Digits} : s.directedTarget g d = some x ↔
    ∃ n older newer, n < 384 ∧ (s.stations.get n).dn = some d ∧ (∀ m, m < n → (s.stations.get m).dn ≠ some d) ∧
      (s.stations.get n).line = .ringing ∧
      (∃ h, (s.stations.get n).pickupGroup = some h ∧ (h = g ∨ h ∈ s.pickup.partners.get g)) ∧
      s.pickup.ringing = older ++ x :: newer ∧ x.station = n ∧ ∀ e ∈ older, e.station ≠ n := by
  constructor
  · intro h
    unfold State.directedTarget at h
    split at h
    · exact nomatch h
    · rename_i n hn
      dsimp only at h
      split at h
      · exact nomatch h
      · rename_i k hk
        split at h
        · rename_i hmay
          obtain ⟨hlt, hdn, hlow⟩ := State.stationOfDn_some.mp hn
          obtain ⟨hx, older, newer, hringing, holder⟩ := List.find?_eq_some_iff_append.mp h
          simp only [Bool.and_eq_true, Bool.or_eq_true, decide_eq_true_eq, List.contains_iff_mem] at hmay
          exact ⟨n, older, newer, hlt, hdn, hlow, hmay.1, ⟨k, hk, hmay.2⟩, hringing, by simpa using hx,
            fun e he => by simpa using holder e he⟩
        · exact nomatch h
  · rintro ⟨n, older, newer, hlt, hdn, hlow, hline, ⟨k, hk, hmay⟩, hringing, hx, holder⟩
    have hn := State.stationOfDn_some.mpr ⟨hlt, hdn, hlow⟩
    unfold State.directedTarget
    rw [hn]
    dsimp only
    rw [hk]
    dsimp only
    rw [if_pos (by simpa [hline] using hmay)]
    refine List.find?_eq_some_iff_append.mpr ⟨by simpa using hx, older, newer, hringing, fun e he => ?_⟩
    simpa using holder e he

/-! ### A pickup that succeeds (05, R98, R99) -/

/-- A part whose picker has this record, the call closed and the pickup counted. -/
def State.pickedUp (p : Nat) (st : Station) (c : CallRef) (s : State) : State :=
  { s with
    stations := s.stations.put p st
    hunt := { s.hunt with closed := Machine.closeCall c s.hunt.closed }
    pickup := { s.pickup with successes := satInc s.pickup.successes } }

theorem State.pickedUp_join (p : Nat) (st : Station) (c : CallRef) (d : Dir) (y : LaneCell) (s : State) :
    (s.join d y).pickedUp p st c = (s.pickedUp p st c).join d y := by
  have hsame : (s.pickedUp p st c).SameLanes s := ⟨rfl, rfl⟩
  rw [hsame.join, s.join_rest d y]
  rfl

theorem State.pickedUp_ringingRemove (ha : st.ringAssist = (s.stations.get p).ringAssist)
    (hh : st.homeZone = (s.stations.get p).homeZone) (n : Nat) (c : CallRef) :
    (s.ringingRemove n).pickedUp p st c = (s.pickedUp p st c).ringingRemove n := by
  have hget (j : Nat) : (s.stations.put p st).get j = st ∧ p = j ∨ (s.stations.put p st).get j = s.stations.get j := by
    rw [Tab.get_put]
    split
    · rename_i h
      exact .inl ⟨rfl, h.1⟩
    · exact .inr rfl
  have hsame : s.SameAssist (s.pickedUp p st c) := by
    refine ⟨rfl, rfl, fun j => ?_, fun j => ?_, rfl, rfl, rfl, rfl⟩
    · rcases hget j with ⟨h, rfl⟩ | h
      · exact (ha.symm).trans (congrArg Station.ringAssist h).symm
      · exact (congrArg Station.ringAssist h).symm
    · rcases hget j with ⟨h, rfl⟩ | h
      · exact (hh.symm).trans (congrArg Station.homeZone h).symm
      · exact (congrArg Station.homeZone h).symm
  rw [hsame.ringingRemove_eq, State.ringingRemove_zonesOnly n s]
  rfl

/-- The group that a pickup credits its picker with. -/
def State.creditFor (s : State) (p : Nat) (g : Option Nat) : Option Nat := g.bind (s.deliveredFor p)

/-- A picker that answers: TALKING on the call. -/
theorem State.answeredAs (hp : p < 384) (hl : (s.stations.get p).line = .seized) (c : CallRef) (via : Via)
    (g : Option Nat) :
    (s.sendAnswered p c via).creditMember p g =
      State.join .up (.known ⟨stationEquip p, c, .answered via⟩) (s.withStation p { s.stations.get p with
        line := .talking, call := some c, deliveredBy := s.creditFor p g }) := by
  cases g with
  | some g => exact State.answeredFor hp hl c via g
  | none =>
    have happlied : s.applyAnswered p c = s.spoken p c := by
      rw [State.applyAnswered_plain hp rfl rfl (.inr (.inl hl)), hl]
      exact if_neg nofun
    unfold State.sendAnswered
    rw [happlied]
    rfl

theorem State.answeredAs_closed (st : Station) (c : CallRef) (y : LaneCell) (p : Nat) (s : State) :
    ((State.join .up y (s.withStation p st)).closeCall c).modPickup (fun u => { u with successes := satInc u.successes }) =
      State.join .up y (s.pickedUp p st c) := by
  have hsame : (s.withStation p st).SameLanes s := ⟨rfl, rfl⟩
  rw [← State.pickedUp_join, hsame.join, s.join_rest .up y]
  rfl

/-- What a pickup does once the record has gone: the target is withdrawn, the picker answers. -/
theorem State.takePickup_eq {via : Via} (hpick : s.pickRecord x.call x.station = (u, gone)) (hx : x.station < 384)
    (hp : p < 384) (hne : x.station ≠ p) (hon : (u.stations.get x.station).onOffer x.call = true)
    (hl : (u.stations.get p).line = .seized) :
    s.takePickup p x via = State.join .up (.known ⟨stationEquip p, x.call, .answered via⟩)
      (State.join .down (.known ⟨BitVec.ofNat 10 x.station, x.call, .withdraw .taken⟩)
        (((u.idled x.station).pickedUp p { u.stations.get p with
          line := .talking, call := some x.call, deliveredBy := u.creditFor p gone } x.call).ringingRemove x.station)) := by
  let w := State.join .down (.known ⟨BitVec.ofNat 10 x.station, x.call, .withdraw .taken⟩)
    ((u.idled x.station).ringingRemove x.station)
  have hidled : (u.idled x.station).stations.get p = u.stations.get p := Tab.get_put_ne _ _ hne
  have hstations : w.stations.get p = u.stations.get p := by
    have hjoin : w.stations = ((u.idled x.station).ringingRemove x.station).stations := by
      show (State.join _ _ _).stations = _
      rw [State.join_rest]
      rfl
    rw [hjoin, State.ringingRemove_stations, hidled]
  have hactive : w.hunt.active = u.hunt.active := by
    have hhunt : w.hunt = (u.idled x.station).hunt := (State.join_hunt ..).trans (State.ringingRemove_hunt ..)
    rw [hhunt]
    exact Hunt.raiseIf_active ..
  have hcredit : w.creditFor p gone = u.creditFor p gone := by
    unfold State.creditFor State.deliveredFor State.activeGroup
    rw [hactive]
  have hsent : u.sendWithdraw x.station x.call .taken = w := by
    unfold State.sendWithdraw
    rw [State.trackOfferGone_on hx hon]
    rfl
  have hanswered := State.answeredAs (s := w) hp (by rw [hstations]; exact hl) x.call via gone
  have htaken : s.takePickup p x via = State.modPickup (fun u => { u with successes := satInc u.successes })
      (((w.sendAnswered p x.call via).creditMember p gone).closeCall x.call) := by
    unfold State.takePickup
    rw [hpick, ← hsent]
  rw [htaken, hanswered, State.answeredAs_closed, hstations, hcredit]
  refine congrArg (State.join .up _) ?_
  show State.pickedUp p _ x.call (State.join _ _ _) = _
  rw [State.pickedUp_join, State.pickedUp_ringingRemove]
  · rw [hidled]
  · rw [hidled]

/-! ### The record that a pickup removes (05, R98) -/

/-- The counter of a call that is picked up. -/
def GroupCounters.pickedOnce (k : GroupCounters) : GroupCounters := { k with picked := satInc k.picked }

theorem State.pickRecord_none (h : s.record c = none) (n : Nat) : s.pickRecord c n = (s, none) := by
  unfold State.pickRecord
  rw [h]

theorem HuntRecord.member_of_queued (h : r.isQueued = true) : r.member = none := by
  unfold HuntRecord.member
  unfold HuntRecord.isQueued at h
  split <;> simp_all

/-- A queued call, or the target's own, goes as it is. -/
theorem State.pickRecord_gone (h : s.record c = some r) (hm : r.member = none ∨ r.member = some n) :
    s.pickRecord c n = (s.recordGone r GroupCounters.pickedOnce, some r.group) := by
  unfold State.pickRecord
  rw [h]
  dsimp only
  rcases hm with hm | hm
  · rw [hm]
    exact congrArg (·, some r.group) (State.removeRecord_counted h _)
  · have hdetached : (s.modRecord c HuntRecord.detached).record c = some r.detached := by
      rw [State.record_modRecord HuntRecord.detached_call, h]
      rfl
    have hgone := State.removeRecord_counted hdetached GroupCounters.pickedOnce
    rw [State.recordGone_detached h, r.detached_same.1] at hgone
    rw [hm]
    dsimp only
    rw [if_pos rfl]
    exact congrArg (·, some r.group) hgone

/-- The part once a member is withdrawn with TAKEN. -/
def State.takenFrom (m : Nat) (c : CallRef) (s : State) : State :=
  State.join .down (.known ⟨BitVec.ofNat 10 m, c, .withdraw .taken⟩) ((s.idled m).ringingRemove m)

theorem State.join_modHunt (d : Dir) (y : LaneCell) (f : Hunt → Hunt) (s : State) :
    (s.modHunt f).join d y = (s.join d y).modHunt f := by
  have hsame : (s.modHunt f).SameLanes s := ⟨rfl, rfl⟩
  rw [hsame.join, s.join_rest d y]
  rfl

theorem Hunt.raiseIf_mapRecords (h : Hunt) (b : Bool) (m : Nat) (f : HuntRecord → HuntRecord) :
    ({ h with records := h.records.map f } : Hunt).raiseIf b m =
      { h.raiseIf b m with records := (h.raiseIf b m).records.map f } := by
  cases b <;> rfl

theorem State.idled_modRecord (m : Nat) (c : CallRef) (f : HuntRecord → HuntRecord) (s : State) :
    (s.modRecord c f).idled m = (s.idled m).modRecord c f :=
  congrArg (fun h => { s.idled m with hunt := h }) (Hunt.raiseIf_mapRecords ..)

/-- A call offered to another member goes once that member is withdrawn. -/
theorem State.pickRecord_member (h : s.record c = some r) (hm : r.member = some m) (hne : m ≠ n) (hlt : m < 384)
    (hon : (s.stations.get m).onOffer c = true) :
    s.pickRecord c n = ((s.takenFrom m c).recordGone r GroupCounters.pickedOnce, some r.group) := by
  have hsent : s.withdrawMember c m = (s.takenFrom m c).modRecord c HuntRecord.detached := by
    unfold State.withdrawMember State.sendWithdraw
    rw [State.trackOfferGone_on (s := s.modRecord c HuntRecord.detached) hlt hon, State.idled_modRecord]
    unfold State.modRecord
    rw [State.ringingRemove_modHunt, State.join_modHunt]
    rfl
  have hrec : (s.takenFrom m c).record c = some r := by
    refine (State.record_congr ?_ c).trans h
    exact (congrArg Hunt.records (State.join_hunt ..)).trans (State.idled_records ..)
  have hdetached : ((s.takenFrom m c).modRecord c HuntRecord.detached).record c = some r.detached := by
    rw [State.record_modRecord HuntRecord.detached_call, hrec]
    rfl
  have hgone := State.removeRecord_counted hdetached GroupCounters.pickedOnce
  rw [State.recordGone_detached hrec, r.detached_same.1] at hgone
  unfold State.pickRecord
  rw [h]
  dsimp only
  rw [hm]
  dsimp only
  rw [if_neg hne, hsent]
  exact congrArg (·, some r.group) hgone

theorem State.takenFrom_get (hne : m ≠ n) (c : CallRef) (s : State) :
    (s.takenFrom m c).stations.get n = s.stations.get n := by
  have hstations : (s.takenFrom m c).stations = (s.idled m).stations := by
    unfold State.takenFrom
    rw [State.join_rest]
    exact State.ringingRemove_stations ..
  rw [hstations]
  exact Tab.get_put_ne _ _ hne

theorem State.takenFrom_active (m : Nat) (c : CallRef) (s : State) :
    (s.takenFrom m c).hunt.active = s.hunt.active := by
  have hhunt : (s.takenFrom m c).hunt = (s.idled m).hunt := (State.join_hunt ..).trans (State.ringingRemove_hunt ..)
  rw [hhunt]
  exact Hunt.raiseIf_active ..

/-- A call that stands at the tail of the closed-call list stays there. -/
theorem closeCall_closeCall (c : CallRef) {l : List CallRef} (hl : l.length ≤ Config.closedCalls) :
    closeCall c (closeCall c l) = closeCall c l := by
  have hkey (k : List CallRef) (hk : c ∉ k) (hlen : (k ++ [c]).length ≤ Config.closedCalls) :
      closeCall c (k ++ [c]) = k ++ [c] := by
    have hfilter : (k ++ [c]).filter (· ≠ c) = k := by
      have hkeep : k.filter (· ≠ c) = k := List.filter_eq_self.mpr fun y hy => by
        simpa using fun h : y = c => hk (h ▸ hy)
      rw [List.filter_append, hkeep]
      simp
    unfold closeCall
    dsimp only
    rw [hfilter, if_neg (Nat.not_lt_of_le hlen)]
  have hout : c ∉ l.filter (· ≠ c) := fun h => of_decide_eq_true (List.mem_filter.mp h).2 rfl
  have hlen := List.length_filter_le (fun y => decide (y ≠ c)) l
  by_cases hfull : (l.filter (· ≠ c) ++ [c]).length > Config.closedCalls
  · have hclosed : closeCall c l = (l.filter (· ≠ c)).drop 1 ++ [c] := by
      unfold closeCall
      dsimp only
      rw [if_pos hfull, List.drop_append_of_le_length]
      rw [List.length_append] at hfull
      unfold Config.closedCalls at hfull
      simp only [List.length_singleton] at hfull
      omega
    rw [hclosed]
    refine hkey _ (fun h => hout (List.mem_of_mem_drop h)) ?_
    rw [List.length_append, List.length_drop, List.length_singleton]
    unfold Config.closedCalls at hl ⊢
    omega
  · have hclosed : closeCall c l = l.filter (· ≠ c) ++ [c] := if_neg hfull
    rw [hclosed]
    exact hkey _ hout (Nat.le_of_not_lt hfull)

/-! ### The requests (05, R95) -/

/-- The entry that a request names, where its picker has a group. -/
def State.pickupTarget (s : State) (p : Nat) (via : Via) (ds : Digits) : Option Ringing :=
  match (s.stations.get p).pickupGroup with
  | some g => if via = .pickup then s.groupTarget p g else s.directedTarget g ds
  | none => none

theorem State.dispatch_pickup {via : Via}
    (h : e.feature = .groupPickup ∧ via = .pickup ∨ e.feature = .directedPickup ∧ via = .directed) :
    s.dispatchFeature p e arg =
      match s.pickupTarget p via arg with
      | none => s.denyPickup p
      | some x => s.takePickup p x via := by
  unfold State.dispatchFeature State.pickupTarget
  rcases h with ⟨hf, rfl⟩ | ⟨hf, rfl⟩
  · rw [hf]
    dsimp only
    unfold State.groupPickup
    cases (s.stations.get p).pickupGroup <;> rfl
  · rw [hf]
    dsimp only
    unfold State.directedPickup
    cases (s.stations.get p).pickupGroup <;> rfl

/-- A cell down and a cell up from a station that left the ringing set, where both queues have room. -/
theorem State.ringingRemove_cells (hup : s.room .up 1) (hdown : s.room .down 1) (n : Nat) (a b : LaneCell) :
    State.join .up a ((s.ringingRemove n).join .down b) = ((s.ringingRemove n).queued .up [a]).queued .down [b] := by
  have hroom (d : Dir) : (s.ringingRemove n).room d 1 ↔ s.room d 1 := State.room_congr (State.ringingRemove_lane ..) d 1
  rw [State.join_room _ ((hroom .down).mpr hdown), State.join_room]
  · rfl
  · exact (hroom .up).mpr hup

theorem Hunt.raiseIf_reclosed (h : Hunt) (closed after : List CallRef) (b : Bool) (n : Nat) :
    ({ ({ h with closed := closed } : Hunt).raiseIf b n with closed := after } : Hunt) =
      { h.raiseIf b n with closed := after } := by
  cases b <;> rfl

/-- The Hunt Controller once a target has gone IDLE and its call is closed. -/
def Hunt.pickedFrom (h : Hunt) (sr : Station) (n : Nat) (closed : List CallRef) : Hunt :=
  { h.raiseIf (sr.available && sr.wrapUp.isNone) n with closed := closed }

/-- A part whose target has gone IDLE and whose picker answers. -/
theorem State.idled_pickedUp (h : Hunt) (closed : List CallRef) (n p : Nat) (st : Station) (c : CallRef) (s : State) :
    (State.idled n { s with hunt := { h with closed := closed } }).pickedUp p st c = { s with
      stations := (s.stations.put n { s.stations.get n with line := .idle, call := none }).put p st
      pickup := { s.pickup with successes := satInc s.pickup.successes }
      hunt := h.pickedFrom (s.stations.get n) n (Machine.closeCall c closed) } := by
  let sr := s.stations.get n
  have hclosed : (({ h with closed := closed } : Hunt).raiseIf (sr.available && sr.wrapUp.isNone) n).closed = closed :=
    Hunt.raiseIf_closed ..
  unfold State.pickedUp State.idled
  dsimp only
  rw [hclosed]
  exact congrArg (fun h => { s with
    stations := (s.stations.put n { s.stations.get n with line := .idle, call := none }).put p st
    pickup := { s.pickup with successes := satInc s.pickup.successes }
    hunt := h }) (Hunt.raiseIf_reclosed ..)

/-- The Hunt Controller once a record that held no orbit has been picked up. -/
def Hunt.pickedRecord (h : Hunt) (s : State) (r : HuntRecord) : Hunt :=
  { h with
    records := h.records.filter fun q => q.call ≠ r.call
    headChecks := if s.headCall r.group = some r.call then insertSorted r.group h.headChecks else h.headChecks
    live := h.live.put r.group { h.live.get r.group with counters := (h.live.get r.group).counters.pickedOnce } }

/-- Settles O23: the entry that a request takes, its denial, and the pickup by what the call's record is. -/
theorem groupPickupDecided : Obligations.GroupPickupDecided := by
  refine ⟨fun s p g => ⟨fun x => State.groupTarget_some, State.groupTarget_none⟩, fun s g dn x => State.directedTarget_some,
    ?_⟩
  intro eq call ds e arg via s hw hp hc ht hup hdown hmode hline hm harg hfeature p st b target
  have hp384 : p < 384 := tracked_lt ht
  have hbup : b.room .up 1 := (State.endBridge_room ..).mpr hup
  have hbdown : b.room .down 1 := (State.endBridge_room ..).mpr hdown
  have htarget : b.pickupTarget p via arg = target := rfl
  have hexec := exec_matched hw hp hc ht hmode hline hm
  rw [if_pos harg, State.dispatch_pickup hfeature] at hexec
  have htakes {x : Ringing} (hx : target = some x) : exec (.dialled eq call ds) s = .next (b.takePickup p x via) := by
    rw [hexec, htarget.trans hx]
  refine ⟨fun hnone => ?denied, ?exact, ?general⟩
  case denied =>
    let counted : State := b.modPickup fun u => { u with denials := satInc u.denials }
    have hdenied : b.denyPickup p = (counted.sendTone p .denied).sendEngage p .denied := by
      unfold State.denyPickup
      rw [State.sendTone_room hbdown, State.sendTone_room (s := counted) hbdown]
      rfl
    rw [hexec, htarget.trans hnone]
    dsimp only
    rw [hdenied, State.featureToned (s := counted) (st := st) hp384 rfl hline hbup hbdown, stationEquip_toNat]
    rfl
  case exact =>
    intro x hx hx384 hne hringing hcall sr taken
    have hon : (s.stations.get x.station).onOffer x.call = true := Station.onOffer_iff.mpr ⟨.inr hringing, hcall⟩
    have hroomy {h : Hunt} {closed : List CallRef} {gone : Option Nat}
        (hpick : b.pickRecord x.call x.station = ({ b with hunt := { h with closed := closed } }, gone))
        (hclosed : closeCall x.call closed = closeCall x.call s.hunt.closed) (hactive : h.active = s.hunt.active) :
        exec (.dialled eq call ds) s = .next (taken (s.creditFor p gone) h) := by
      let u : State := { b with hunt := { h with closed := closed } }
      have hcredit : u.creditFor p gone = s.creditFor p gone := by
        unfold State.creditFor State.deliveredFor State.activeGroup
        show Option.bind gone (fun g => if p ∈ (h.active.get g).members then some g else none) = _
        rw [hactive]
      rw [htakes hx, State.takePickup_eq (u := u) hpick hx384 hp384 hne hon hline, hcredit, State.idled_pickedUp,
        stationEquip_toNat, hclosed, State.ringingRemove_cells]
      · rfl
      · exact hbup
      · exact hbdown
    refine ⟨fun hnone => ?_, fun r hr hm hfits => ?_⟩
    · rw [hroomy (h := s.hunt) (closed := s.hunt.closed) (State.pickRecord_none (s := b) hnone _) rfl rfl]
      rfl
    · intro live
      have horbit : r.orbit = none := hm.elim HuntRecord.orbit_of_member And.right
      have hmember : r.member = none ∨ r.member = some x.station :=
        hm.symm.imp_left fun h => HuntRecord.member_of_queued h.1
      obtain ⟨hrc, -⟩ := record_call hr
      have hgone : b.recordGone r GroupCounters.pickedOnce =
          { b with hunt := { s.hunt.pickedRecord s r with closed := closeCall x.call s.hunt.closed } } := by
        rw [State.recordGone_orbitless horbit, ← hrc]
        rfl
      have hpick := State.pickRecord_gone (s := b) hr hmember
      rw [hgone] at hpick
      refine (hroomy hpick (closeCall_closeCall x.call hfits.closed) rfl).trans ?_
      rw [← hrc]
      rfl
  case general =>
    intro x r u hx hx384 hne hringing hcall hr hu sr delivered
    have hon : (s.stations.get x.station).onOffer x.call = true := Station.onOffer_iff.mpr ⟨.inr hringing, hcall⟩
    have hpick : b.pickRecord x.call x.station = (u, some r.group) := by
      rcases hu with ⟨hq, rfl⟩ | ⟨m, hm, hne, hlt, hon, rfl⟩
      · exact State.pickRecord_gone hr (.inl (HuntRecord.member_of_queued hq))
      · exact State.pickRecord_member hr hm hne hlt hon
    have hkept (n : Nat) (hn : n = x.station ∨ n = p) : u.stations.get n =
        { s.stations.get n with source := (u.stations.get n).source } := by
      rcases hu with ⟨hq, rfl⟩ | ⟨m, hm, hmx, hlt, hmon, rfl⟩
      · exact State.recordGone_stays r _ n b
      · have hmn : m ≠ n := by
          rcases hn with rfl | rfl
          · exact hmx
          · rintro rfl
            rcases (Station.onOffer_iff.mp hmon).1 with h | h <;> exact nomatch h.symm.trans hline
        have hstays := State.recordGone_stays r GroupCounters.pickedOnce n (b.takenFrom m x.call)
        rw [State.takenFrom_get hmn] at hstays
        exact hstays
    have hactive : u.hunt.active = s.hunt.active := by
      rcases hu with ⟨hq, rfl⟩ | ⟨m, hm, hmx, hlt, hmon, rfl⟩
      · exact State.recordGone_active r _ b
      · exact (State.recordGone_active r _ (b.takenFrom m x.call)).trans (State.takenFrom_active m x.call b)
    have hxu : (u.stations.get x.station).onOffer x.call = true := by
      rw [hkept x.station (.inl rfl)]
      exact hon
    have hpu : (u.stations.get p).line = .seized := by
      rw [hkept p (.inr rfl)]
      exact hline
    have hcredit : u.creditFor p (some r.group) = delivered := by
      show (if p ∈ (u.hunt.active.get r.group).members then some r.group else none) = _
      rw [hactive]
      rfl
    rw [htakes hx, State.takePickup_eq hpick hx384 hp384 hne hxu hpu, hcredit, stationEquip_toNat]
    exact congrArg (fun t => Host.Outcome.next (State.join .up _ (State.join .down _ (State.ringingRemove x.station t))))
      (State.idled_pickedUp u.hunt u.hunt.closed x.station p _ x.call u)

end Sys2Proof.Machine
end

section
/-! PROOFS. What every step does: it answers, keeps the waiting commands, and takes what was raised first (O2; 02, R37;
04, R83). -/

namespace Sys2Proof.Machine

variable {s t : State} {c : Instr} {g n : Nat} {rest : List Nat}

/-! ### Every command answers and keeps the waiting commands -/

theorem exec_next (c : Instr) (s : State) : ∃ t, exec c s = .next t := by
  cases c <;> exact ⟨_, rfl⟩

/-- The waiting commands, which every small update keeps. -/
theorem FreeAll.pending (q : List Instr) : FreeAll fun s => s.pending = q where
  assist _ := id
  zone h _ := h
  lane h _ := h
  flag _ h := h
  source _ h := h
  paging h _ := h
  alarm h _ := h
  station h _ := h
  hunt h _ := h
  orbit h := h
  pickup h _ := h
  lines h _ := h
  audio h _ _ := h
  highway h := h
  alarmLine _ h := h
  countdownOff h := h
  maint h _ _ := h
  stationAny h _ := h
  code h := h
  zoneAny h _ := h
  huntAny h _ _ := h
  pickupAny h _ := h
  pagingAny h _ := h
  prompts h _ := h
  restart h := h

theorem KeptCommands.pending (q : List Instr) : KeptCommands fun s => s.pending = q where
  all := (FreeAll.pending q).kept
  commit h := h
  clear _ h _ := h
  slot d h := (FreeAll.pending q).kept.outgoingSlot (fun h _ => h) d h

theorem State.endReset_pending (cause : ResetCause) (straps : BitVec 4) (prompts : Prompts) (s : State) :
    (s.endReset cause straps prompts).pending = s.pending :=
  (KeptCommands.pending s.pending).all.readAlarmLine ((KeptCommands.pending s.pending).all.setResetFlag rfl)

theorem exec_pending (he : exec c s = .next t) : t.pending = s.pending := by
  let P (t : State) : Prop := t.pending = s.pending
  have ended (cause : ResetCause) (straps : BitVec 4) (prompts : Prompts) : P (s.endReset cause straps prompts) :=
    State.endReset_pending ..
  cases hc : Instr.isReset c with
  | false => exact (KeptCommands.pending s.pending).exec rfl hc he
  | true =>
    cases c with
    | powerOn => exact next_kept (P := P) he rfl
    | powerOnResetEnd straps => exact next_kept (P := P) he (ite_kept (ended ..) rfl)
    | resetNAssert => exact next_kept (P := P) he (ite_kept (P := P) rfl rfl)
    | resetNRelease straps => exact next_kept (P := P) he (ite_kept (ended ..) rfl)
    | _ => exact Bool.noConfusion (show false = true from hc)

/-! ### What was raised is taken in order (02, R37; 04, R83) -/

/-- The lowest of an ascending list is spent. -/
theorem filter_ne_head (h : (g :: rest).Pairwise (· < ·)) : (g :: rest).filter (· ≠ g) = rest := by
  rw [List.filter_cons_of_neg (by simp)]
  refine List.filter_eq_self.mpr fun x hx => decide_eq_true ?_
  exact Nat.ne_of_gt ((List.pairwise_cons.mp h).1 x hx)

theorem State.headCheck_raised (hfits : s.hunt.Fits) (hraised : s.hunt.headChecks = g :: rest) :
    (s.headCheck g).hunt.Fits ∧ (s.headCheck g).hunt.headChecks = rest ∧
      (s.headCheck g).hunt.available = s.hunt.available := by
  obtain ⟨-, hchecks, havailable⟩ := State.headCheck_ends hfits.calls g
  refine ⟨HuntFits.kept.kept.headCheck hfits g, ?_, havailable⟩
  rw [hchecks, hraised, filter_ne_head (hraised ▸ hfits.raised.1)]

theorem State.memberAvailable_raised (hfits : s.hunt.Fits) (hraised : s.hunt.available = n :: rest) :
    (s.memberAvailable n).hunt.Fits ∧ (s.memberAvailable n).hunt.available = rest := by
  refine ⟨HuntFits.kept.kept.memberAvailable hfits n, ?_⟩
  let u := s.modHunt fun h => { h with available := h.available.filter (· ≠ n) }
  have hu : u.hunt.available = rest := by
    show s.hunt.available.filter (· ≠ n) = rest
    rw [hraised, filter_ne_head (hraised ▸ hfits.raised.2)]
  show (if u.candidate n then
      match (u.groupsWaiting n).findSome? fun g => u.headTakes g n with
      | some (c, clear) => u.offerTo c n clear
      | none => u
    else u).hunt.available = rest
  split
  · rename_i hcandidate
    split
    · rename_i c clear hfind
      obtain ⟨g, -, htakes⟩ := List.exists_of_findSome?_eq_some hfind
      obtain ⟨r, hr, rfl, -⟩ := State.headTakes_some.mp htakes
      obtain ⟨hn, hi⟩ := State.candidate_idle hcandidate
      exact (State.offerTo_raised (s := u) hfits.calls hr hn hi).2.trans hu
    · exact hu
  · exact hu

theorem State.takeChecks_nil (h : s.hunt.headChecks = []) : s.takeChecks = s := by
  unfold State.takeChecks
  rw [h, List.foldl_nil]

theorem State.takeChecks_cons (hfits : s.hunt.Fits) (hraised : s.hunt.headChecks = g :: rest) :
    s.takeChecks = (s.headCheck g).takeChecks := by
  unfold State.takeChecks
  rw [(State.headCheck_raised hfits hraised).2.1, hraised, List.foldl_cons]

/-- The head checks are taken until none is raised. -/
theorem State.takeChecks_raised (hfits : s.hunt.Fits) :
    s.takeChecks.hunt.Fits ∧ s.takeChecks.hunt.headChecks = [] ∧ s.takeChecks.hunt.available = s.hunt.available := by
  generalize hraised : s.hunt.headChecks = checks
  induction checks generalizing s with
  | nil => rw [State.takeChecks_nil hraised]; exact ⟨hfits, hraised, rfl⟩
  | cons g rest ih =>
    obtain ⟨hfits', hchecks, havailable⟩ := State.headCheck_raised hfits hraised
    rw [State.takeChecks_cons hfits hraised, ← havailable]
    exact ih hfits' hchecks

theorem State.settle_checks (hfits : s.hunt.Fits) : s.settle = s.takeChecks.settle := by
  have hnil := State.takeChecks_nil (State.takeChecks_raised hfits).2.1
  conv_rhs => unfold State.settle
  rw [hnil]
  rfl

theorem State.settle_headCheck (hfits : s.hunt.Fits) (hraised : s.hunt.headChecks = g :: rest) :
    s.settle = (s.headCheck g).settle := by
  unfold State.settle
  rw [State.takeChecks_cons hfits hraised]

theorem State.settle_memberAvailable (hfits : s.hunt.Fits) (hchecks : s.hunt.headChecks = [])
    (hraised : s.hunt.available = n :: rest) : s.settle = (s.memberAvailable n).settle := by
  obtain ⟨hfits', havailable⟩ := State.memberAvailable_raised hfits hraised
  unfold State.settle
  rw [State.takeChecks_nil hchecks, (State.takeChecks_raised hfits').2.2, havailable, hraised, List.foldl_cons]

/-- Settling ends with nothing raised. -/
theorem State.settle_calm (hfits : s.hunt.Fits) : s.settle.Calm := by
  suffices h : ∀ {s : State}, s.hunt.Fits → s.hunt.headChecks = [] → s.settle.Calm by
    obtain ⟨hfits', hchecks, -⟩ := State.takeChecks_raised hfits
    exact State.settle_checks hfits ▸ h hfits' hchecks
  intro s hfits hchecks
  generalize hraised : s.hunt.available = stations
  induction stations generalizing s with
  | nil =>
    have hcalm : s.Calm := ⟨hchecks, hraised⟩
    rw [State.settle_of_calm hcalm]
    exact hcalm
  | cons n rest ih =>
    obtain ⟨hfits', havailable⟩ := State.memberAvailable_raised hfits hraised
    obtain ⟨hfits'', hchecks'', havailable''⟩ := State.takeChecks_raised hfits'
    rw [State.settle_memberAvailable hfits hchecks hraised, State.settle_checks hfits']
    exact ih hfits'' hchecks'' (havailable''.trans havailable)

/-- The reset phase and the part's own number, which no call touches. -/
theorem Free.phaseOwn (p : Phase) (own : Equip) : Free fun s => s.lane.phase = p ∧ s.lane.own = own where
  assist _ := id
  zone h _ := h
  lane h hm := ⟨(congrArg Lane.phase hm.rest).trans h.1, (congrArg Lane.own hm.rest).trans h.2⟩
  flag _ h := h
  source _ h := h
  paging h _ := h
  alarm h _ := h
  station h _ := h
  hunt h _ := h
  orbit h := h
  pickup h _ := h

theorem State.settle_lane (s : State) : s.settle.lane.phase = s.lane.phase ∧ s.settle.lane.own = s.lane.own :=
  (Free.phaseOwn s.lane.phase s.lane.own).kept.settle ⟨rfl, rfl⟩

theorem State.settle_settle (hfits : s.hunt.Fits) : s.settle.settle = s.settle :=
  State.settle_of_calm (State.settle_calm hfits)

theorem State.arrive_settle (hp : s.lane.phase = .inService) (hfits : s.hunt.Fits) (d : Dir) (x : Cell) :
    s.arrive d x = s.settle.arrive d x := by
  unfold State.arrive
  rw [if_pos hp, if_pos ((State.settle_lane s).1.trans hp), State.settle_settle hfits]

theorem State.arriveRequest_settle (hp : s.lane.phase = .inService) (hfits : s.hunt.Fits) (tag kind : Byte)
    (args : List Byte) : s.arriveRequest tag kind args = s.settle.arriveRequest tag kind args := by
  unfold State.arriveRequest
  rw [State.arrive_settle hp hfits, (State.settle_lane s).2]

theorem State.afterRaised_settle (hp : s.lane.phase = .inService) (hfits : s.hunt.Fits) (f : State → State) :
    s.afterRaised f = s.settle.afterRaised f := by
  unfold State.afterRaised State.inService
  rw [if_pos hp, if_pos ((State.settle_lane s).1.trans hp)]
  exact congrArg f (State.settle_settle hfits).symm

theorem State.inService_settle_settle (hp : s.lane.phase = .inService) (hfits : s.hunt.Fits) :
    s.inService State.settle = s.settle.inService State.settle :=
  State.afterRaised_settle hp hfits id

theorem State.arriveBytes_settle (hp : s.lane.phase = .inService) (hfits : s.hunt.Fits) (d : Dir) (bytes : List Byte) :
    s.arriveBytes d bytes = s.settle.arriveBytes d bytes := by
  unfold State.arriveBytes
  rw [if_pos hp, if_pos ((State.settle_lane s).1.trans hp), State.settle_settle hfits]

theorem State.arriveDamaged_settle (hp : s.lane.phase = .inService) (hfits : s.hunt.Fits) (d : Dir) (bytes : List Byte)
    (violation : Nat) : s.arriveDamaged d bytes violation = s.settle.arriveDamaged d bytes violation := by
  unfold State.arriveDamaged
  rw [if_pos hp, if_pos ((State.settle_lane s).1.trans hp), State.settle_settle hfits]

/-- A command that begins a piece of work acts as on the part settled. -/
theorem exec_settle (hc : startsWork c = true) (hp : s.lane.phase = .inService) (hfits : s.hunt.Fits) :
    exec c s = exec c s.settle := by
  have cell (d : Dir) (x : Cell) : (.next (s.arrive d x) : Result) = .next (s.settle.arrive d x) :=
    congrArg Host.Outcome.next (State.arrive_settle hp hfits d x)
  have ownCell (call : CallRef) (body : Body) : (.next (s.arrive .down ⟨s.lane.own, call, body⟩) : Result) =
      .next (s.settle.arrive .down ⟨s.settle.lane.own, call, body⟩) :=
    (cell ..).trans (by rw [(State.settle_lane s).2])
  have request (tag kind : Byte) (args : List Byte) :
      (.next (s.arriveRequest tag kind args) : Result) = .next (s.settle.arriveRequest tag kind args) := ownCell ..
  have raised (f : State → State) : (.next (s.afterRaised f) : Result) = .next (s.settle.afterRaised f) :=
    congrArg Host.Outcome.next (State.afterRaised_settle hp hfits f)
  cases c with
  | powerOn | powerOnResetEnd | resetNAssert | resetNRelease | outgoingSlot | resetBridgeSlot | frameFormation
  | noiseBlockEnd | toneCycleEnd | promptStepEnd | memberAvailable | headCheck => exact nomatch (show false = true from hc)
  | damagedCell d x => exact congrArg Host.Outcome.next (State.arriveDamaged_settle hp hfits ..)
  | malformedCell d bytes | unknownKindCell d bytes =>
    exact congrArg Host.Outcome.next (State.arriveBytes_settle hp hfits ..)
  | pilotArrival | abandonment => exact ownCell ..
  | offer | withdraw | callEnd | tone | display | maintPass | offHook | onHook | ringStarted | dialled | answered | refused
  | engage | divert | maintReply | attention => exact cell ..
  | readEntry | writeEntry | clearEntry | commit | cancelCommit | setModeTransparent | setModeEngaged | restart
  | stationAvailability | stationServiceOut | stationServiceIn | alarmStart | alarmClear | promptAddress | promptWrite
  | promptRead | readStatus | writeResetCause | readLive | readCounters | clearCounters | attentionRead | attentionClear
  | attentionMaskSet | attentionMaskClear | unknownRequest => exact request ..
  | alarmInActive =>
    exact congrArg (fun t : State => Host.Outcome.next t.alarmInActive) (State.inService_settle_settle hp hfits)
  | alarmInInactive =>
    exact congrArg (fun t : State => Host.Outcome.next t.alarmInInactive) (State.inService_settle_settle hp hfits)
  | wrapUpExpiry | noAnswerExpiry | maximumWaitExpiry | announcePointExpiry | chime | sessionDeadline | commitExpiry
  | contentCompletion | loudChange | frameFormed | preannounceEnd | beaconPhaseChange => exact raised _

theorem step_idle (hp : s.pending = []) : (∀ c, s.nextInternal = some c → step s = exec c s) ∧
    (s.nextInternal = none → step s = .next s.tick) := by
  unfold step
  rw [hp]
  refine ⟨fun c hc => ?_, fun hc => ?_⟩
  · rw [hc]
  · rw [hc]

/-- Settles O2: by what every command keeps, and by the order in which settling spends what was raised. -/
theorem everyStepAnswers : Obligations.EveryStepAnswers := by
  refine ⟨fun c s => ?_, fun s hp => step_idle hp, fun c s hc hp hfits => exec_settle hc hp hfits,
    fun s hp hfits => ⟨State.settle_calm hfits, State.settle_of_calm, fun g rest hraised => ?_,
      fun n rest hchecks hraised => ?_⟩⟩
  · obtain ⟨t, ht⟩ := exec_next c s
    exact ⟨t, ht, exec_pending ht⟩
  · refine ⟨s.headCheck g, ?_, (State.headCheck_raised hfits hraised).2.1, State.settle_headCheck hfits hraised⟩
    rw [exec_headCheck hp, hraised, if_pos List.head?_cons]
  · refine ⟨s.memberAvailable n, ?_, (State.memberAvailable_raised hfits hraised).2,
      State.settle_memberAvailable hfits hchecks hraised⟩
    rw [exec_memberAvailable hp, if_pos ⟨hchecks, by rw [hraised, List.head?_cons]⟩]

end Sys2Proof.Machine
end

section
/-! PROOFS. The checks of a PAGE request, its refusal and its start (07, R131 to R133). -/

namespace Sys2Proof.Machine

variable {s t : State} {c : Claim} {eq : Equip} {call : CallRef} {ds arg : Digits} {e : AccessCode} {n set i z slot : Nat}
  {cls : PageClass} {k : ToneKind}

/-! ### The checks (07, R131) -/

/-- Whether an authority reaches a class. -/
def mayPage (cls : PageClass) (a : Authority) : Prop :=
  match cls, a with
  | _, .none => False
  | .normal, _ => True
  | .urgent, a => a = .urgent ∨ a = .emergency
  | .emergency, a => a = .emergency

theorem authorityRank_lt (cls : PageClass) (a : Authority) :
    authorityRank a < pageClassRank cls ↔ ¬ mayPage cls a := by
  cases cls <;> cases a <;> simp [authorityRank, pageClassRank, mayPage]

/-- The zones that a set lists. -/
def State.listed (s : State) (set : Nat) : List Nat :=
  if set = 0 then List.range' 1 24 else (s.paging.zoneSets.get set).getD []

theorem State.resolveSet_eq (s : State) (set : Nat) :
    s.resolveSet set = (s.listed set).filter fun z => (s.zones.get z).fields.enabled := by
  unfold State.resolveSet State.listed
  by_cases h : set = 0
  · rw [if_pos h, if_pos h]
    rfl
  · rw [if_neg h, if_neg h]
    cases s.paging.zoneSets.get set with
    | none => rfl
    | some l => rfl

theorem State.mem_resolveSet (h : z ∈ s.resolveSet set) : (s.zones.get z).fields.enabled = true := by
  rw [State.resolveSet_eq] at h
  exact (List.mem_filter.mp h).2

theorem State.resolveSet_isEmpty :
    (s.resolveSet set).isEmpty = true ↔ ∀ z ∈ s.listed set, (s.zones.get z).fields.enabled = false := by
  rw [State.resolveSet_eq, List.isEmpty_iff, List.filter_eq_nil_iff]
  simp only [Bool.not_eq_true]

theorem State.setLoaded_iff :
    s.setLoaded set = true ↔ set = 0 ∨ set ≤ 63 ∧ s.paging.zoneSets.get set ≠ none := by
  simp [State.setLoaded, Option.isSome_iff_ne_none]

theorem State.freeSession_iff :
    s.freeSessionNumber.isNone = true ↔ ∀ i, 1 ≤ i → i ≤ 8 → s.paging.sessions.get i ≠ none := by
  rw [Option.isNone_iff_eq_none, State.freeSessionNumber, List.find?_eq_none]
  constructor
  · intro h i h1 h2
    simpa using h i (List.mem_range'_1.mpr ⟨h1, by omega⟩)
  · intro h i hi
    obtain ⟨h1, h2⟩ := List.mem_range'_1.mp hi
    simpa using h i h1 (by omega)

theorem State.freeSessionNumber_some (h1 : 1 ≤ i) (h2 : i ≤ 8) (hfree : s.paging.sessions.get i = none)
    (hlow : ∀ j, 1 ≤ j → j < i → s.paging.sessions.get j ≠ none) : s.freeSessionNumber = some i :=
  find_lowest h1 (by omega) (by rw [hfree]; rfl) fun j hj hji =>
    Option.isNone_eq_false_iff.mpr (Option.isSome_iff_ne_none.mpr (hlow j hj hji))

/-- The checks of a PAGE in their order. -/
theorem State.pageRefusal_checks (s : State) (n set : Nat) (cls : PageClass) :
    let st := s.stations.get n
    let refusedBy (k : Option ToneKind) : Prop := s.pageRefusal n set cls = k
    (¬ mayPage cls st.authority → refusedBy (some .denied)) ∧
    (mayPage cls st.authority → st.talkSlot = none → refusedBy (some .denied)) ∧
    (mayPage cls st.authority → st.talkSlot ≠ none → 63 < set ∨ set ≠ 0 ∧ s.paging.zoneSets.get set = none →
      refusedBy (some .denied)) ∧
    (mayPage cls st.authority → st.talkSlot ≠ none → set = 0 ∨ set ≤ 63 ∧ s.paging.zoneSets.get set ≠ none →
      ((∀ z ∈ s.listed set, (s.zones.get z).fields.enabled = false) → refusedBy (some .denied)) ∧
      ((∃ z ∈ s.listed set, (s.zones.get z).fields.enabled = true) →
        ((∀ i, 1 ≤ i → i ≤ 8 → s.paging.sessions.get i ≠ none) → refusedBy (some .noResource)) ∧
        ((∃ i, 1 ≤ i ∧ i ≤ 8 ∧ s.paging.sessions.get i = none) → refusedBy none))) := by
  intro st refusedBy
  have hchecks : s.pageRefusal n set cls =
      if authorityRank st.authority < pageClassRank cls then some ToneKind.denied
      else if st.talkSlot.isNone = true then some .denied
      else if (!s.setLoaded set) = true then some .denied
      else if (s.resolveSet set).isEmpty = true then some .denied
      else if s.freeSessionNumber.isNone = true then some .noResource else none := rfl
  have hmay (h : mayPage cls st.authority) : ¬ authorityRank st.authority < pageClassRank cls :=
    fun hlt => (authorityRank_lt ..).mp hlt h
  have hspeaks (hslot : st.talkSlot ≠ none) : ¬ st.talkSlot.isNone = true :=
    fun h => hslot (Option.isNone_iff_eq_none.mp h)
  show (_ → s.pageRefusal n set cls = _) ∧ (_ → _ → s.pageRefusal n set cls = _) ∧
    (_ → _ → _ → s.pageRefusal n set cls = _) ∧ (_ → _ → _ → (_ → s.pageRefusal n set cls = _) ∧
      (_ → (_ → s.pageRefusal n set cls = _) ∧ (_ → s.pageRefusal n set cls = _)))
  rw [hchecks]
  refine ⟨fun h => if_pos ((authorityRank_lt ..).mpr h), fun h hslot => ?_, fun h hslot hset => ?_,
    fun h hslot hset => ?_⟩
  · rw [if_neg (hmay h), if_pos (Option.isNone_iff_eq_none.mpr hslot)]
  · rw [if_neg (hmay h), if_neg (hspeaks hslot), if_pos]
    rw [Bool.not_eq_true', ← Bool.not_eq_true, State.setLoaded_iff]
    rintro (hzero | ⟨hle, hsome⟩)
    · omega
    · exact hset.elim (by omega) fun hno => hsome hno.2
  · have hloaded : ¬ (!s.setLoaded set) = true := by
      rw [State.setLoaded_iff.mpr hset]
      nofun
    rw [if_neg (hmay h), if_neg (hspeaks hslot), if_neg hloaded]
    refine ⟨fun hz => if_pos (State.resolveSet_isEmpty.mpr hz), fun ⟨z, hz, hen⟩ => ?_⟩
    have hsome : ¬ (s.resolveSet set).isEmpty = true := fun he => by
      rw [State.resolveSet_isEmpty.mp he z hz] at hen
      exact nomatch hen
    rw [if_neg hsome]
    refine ⟨fun hfull => if_pos (State.freeSession_iff.mpr hfull), fun ⟨i, h1, h2, hi⟩ => if_neg fun hfull => ?_⟩
    exact State.freeSession_iff.mp hfull i h1 h2 hi

/-! ### A refused page (07, R131) -/

theorem State.refusePage_seized (hn : n < 384) (hl : (s.stations.get n).line = .seized) (hup : s.room .up 2)
    (hdown : s.room .down 1) (k : ToneKind) :
    let t : State := { s with stations := s.stations.put n { s.stations.get n with line := .feature }
                              paging := { s.paging with refused := satInc s.paging.refused } }
    let t1 := (t.queued .up [.known ⟨stationEquip n, 0#16, .engage .denied⟩]).queued .down
      [.known ⟨stationEquip n, 0#16, .tone (BitVec.ofNat 8 (toneKindCode k))⟩]
    s.refusePage n k = if k = .noResource then (t1.flagged .sessionRefused).queued .up (s.raised .sessionRefused) else t1 := by
  intro t t1
  have hanswered : ((s.sendEngage n .denied).sendTone n k).modPaging (fun p => { p with refused := satInc p.refused }) =
      t1 := by
    rw [State.featureAnswered hn rfl hl (State.room_mono hup (by omega)) hdown]
    rfl
  have hroom : t1.room .up 1 :=
    State.room_queued (s := t) (k := 1) (cs := [.known ⟨stationEquip n, 0#16, .engage .denied⟩]) hup
  unfold State.refusePage
  rw [hanswered]
  refine if_congr Iff.rfl ?_ rfl
  rw [State.setFlag_room hroom]
  rfl

/-! ### The claims asked for, zone by zone (07, R132) -/

/-- A claim asked for on one zone more. -/
def State.ask (c : Claim) (a : State × List Nat) (z : Nat) : State × List Nat :=
  ((a.1.requestClaim z c).1, if (a.1.requestClaim z c).2 = true then a.2 ++ [z] else a.2)

theorem State.foldl_ask (c : Claim) (l : List Nat) (s : State) (held : List Nat) :
    l.foldl (State.ask c) (s, held) = ((s.requestZones c l).1, held ++ (s.requestZones c l).2) := by
  induction l generalizing s held with
  | nil => rw [List.foldl_nil, State.requestZones, List.append_nil]
  | cons z rest ih =>
    rw [List.foldl_cons, State.ask, ih]
    conv_rhs => unfold State.requestZones
    dsimp only
    split
    · rw [List.append_assoc, List.singleton_append]
    · rfl

theorem State.requestZones_eq (c : Claim) (l : List Nat) (s : State) :
    s.requestZones c l = l.foldl (State.ask c) (s, []) := by
  rw [State.foldl_ask, List.nil_append]

/-- Where no zone yields, nothing is granted and nothing changes. -/
theorem State.requestZones_refused {l : List Nat} (h : ∀ z ∈ l, s.requestClaim z c = (s, false)) :
    s.requestZones c l = (s, []) := by
  induction l with
  | nil => rfl
  | cons z rest ih =>
    unfold State.requestZones
    rw [h z List.mem_cons_self]
    dsimp only
    rw [ih fun y hy => h y (List.mem_cons_of_mem _ hy)]
    rfl

end Sys2Proof.Machine
end

section
/-! PROOFS. What the zones granted to a page change: the zones themselves, and the sessions that head them (07, R126 to
R129, R132, R134). -/

namespace Sys2Proof.Machine

variable {s t u : State} {c d : Claim} {g : Grant} {i j z y : Nat} {x : Session} {l l1 l2 : List Nat}

/-! ### What a request leaves (07, R126) -/

/-- A part whose zones, cells, flags, sessions and source sessions alone may differ. -/
structure State.Paged (s t : State) : Prop where
  hunt : t.hunt = s.hunt
  orbits : t.orbits = s.orbits
  pickup : t.pickup = s.pickup
  prompts : t.prompts = s.prompts
  codes : t.codes = s.codes
  clock : t.clock = s.clock
  mode : t.maint.mode = s.maint.mode
  zoneSets : t.paging.zoneSets = s.paging.zoneSets
  params : t.paging.params = s.paging.params
  stations : ∀ m, t.stations.get m = { s.stations.get m with source := (t.stations.get m).source }

theorem FreeClaims.paged (s : State) : FreeClaims s.Paged where
  assist _ := id
  zone h _ := ⟨h.hunt, h.orbits, h.pickup, h.prompts, h.codes, h.clock, h.mode, h.zoneSets, h.params, h.stations⟩
  lane h _ := ⟨h.hunt, h.orbits, h.pickup, h.prompts, h.codes, h.clock, h.mode, h.zoneSets, h.params, h.stations⟩
  flag _ h := ⟨h.hunt, h.orbits, h.pickup, h.prompts, h.codes, h.clock, h.mode, h.zoneSets, h.params, h.stations⟩
  source {t} n h := by
    refine ⟨h.hunt, h.orbits, h.pickup, h.prompts, h.codes, h.clock, h.mode, h.zoneSets, h.params, fun m => ?_⟩
    unfold State.modStation
    dsimp only
    rw [Tab.get_put]
    split
    · rename_i hm
      rw [← hm.1, h.stations n]
    · exact h.stations m
  paging h hf :=
    ⟨h.hunt, h.orbits, h.pickup, h.prompts, h.codes, h.clock, h.mode, hf.zoneSets.trans h.zoneSets,
      hf.params.trans h.params, h.stations⟩
  alarm h _ := ⟨h.hunt, h.orbits, h.pickup, h.prompts, h.codes, h.clock, h.mode, h.zoneSets, h.params, h.stations⟩

theorem State.Paged.refl (s : State) : s.Paged s := ⟨rfl, rfl, rfl, rfl, rfl, rfl, rfl, rfl, rfl, fun _ => rfl⟩

/-- What becomes of a zone's record reads nothing that a page changes elsewhere. -/
theorem State.Paged.headed (h : s.Paged t) (ha : t.alarm = s.alarm) (z : Nat) (x : Zone) :
    t.headed z x = s.headed z x := by
  unfold State.headed State.shows
  rw [ha, h.clock]

theorem State.Paged.assisted (h : s.Paged t) (ha : t.alarm = s.alarm) (z : Nat) (x : Zone) :
    t.assisted z x = s.assisted z x := by
  have hrings (e : Ringing) : (t.stations.get e.station).ringAssist = (s.stations.get e.station).ringAssist ∧
      (t.stations.get e.station).homeZone = (s.stations.get e.station).homeZone := by
    rw [h.stations]
    exact ⟨rfl, rfl⟩
  unfold State.assisted
  simp only [h.headed ha, h.pickup, h.params, h.mode, (hrings _).1, (hrings _).2]

theorem State.Paged.granted (h : s.Paged t) (ha : t.alarm = s.alarm) (hz : t.zones.get z = s.zones.get z) (g : Grant) :
    t.granted z g = s.granted z g := by
  unfold State.granted
  rw [hz]
  simp only [h.headed ha]

/-! ### A session that loses zones (07, R134) -/

/-- What is left of a session that loses zones: nothing where it holds none any more. -/
def Session.losing (l : List Nat) (x : Session) : Option Session :=
  let left := x.zones.map fun a => if a.1 ∈ l then (a.1, HoldStatus.lost) else a
  if l = [] then some x
  else if (left.any fun a => a.2 = HoldStatus.held) = true then some { x with zones := left } else none

theorem Session.losing_nil (x : Session) : x.losing [] = some x := by
  unfold Session.losing
  exact if_pos rfl

theorem Session.losing_one (z : Nat) (x : Session) :
    x.losing [z] = if ∃ e ∈ lostAt z x.zones, e.2 = HoldStatus.held then some { x with zones := lostAt z x.zones }
      else none := by
  have hleft : (x.zones.map fun a => if a.1 ∈ [z] then (a.1, HoldStatus.lost) else a) = lostAt z x.zones := by
    refine List.map_congr_left fun a _ => ?_
    by_cases ha : a.1 = z
    · rw [if_pos (List.mem_singleton.mpr ha), if_pos ha, ha]
    · rw [if_neg (mt List.mem_singleton.mp ha), if_neg ha]
  unfold Session.losing
  simp only [hleft, List.cons_ne_self, if_false]
  refine if_congr ?_ rfl rfl
  simp only [List.any_eq_true, decide_eq_true_eq]

/-- A session that loses one zone more. -/
theorem Session.losing_concat (l : List Nat) (z : Nat) (x : Session) :
    x.losing (l ++ [z]) = (x.losing l).bind (Session.losing [z]) := by
  let left (l : List Nat) := x.zones.map fun a => if a.1 ∈ l then (a.1, HoldStatus.lost) else a
  have hleft : lostAt z (left l) = left (l ++ [z]) := by
    refine List.map_map.trans (List.map_congr_left fun a _ => ?_)
    rw [Function.comp_apply]
    by_cases hl : a.1 ∈ l
    · rw [if_pos hl, if_pos (List.mem_append_left _ hl)]
      by_cases ha : a.1 = z
      · rw [if_pos ha, ha]
      · rw [if_neg ha]
    · rw [if_neg hl]
      by_cases ha : a.1 = z
      · rw [if_pos ha, if_pos (by simp [ha]), ha]
      · rw [if_neg ha, if_neg (by simp [hl, ha])]
  have hheld (l : List Nat) : ((left l).any fun a => a.2 = HoldStatus.held) = true ↔
      ∃ e ∈ left l, e.2 = HoldStatus.held := by
    simp only [List.any_eq_true, decide_eq_true_eq]
  have hconcat : x.losing (l ++ [z]) =
      if ∃ e ∈ left (l ++ [z]), e.2 = HoldStatus.held then some { x with zones := left (l ++ [z]) } else none := by
    unfold Session.losing
    rw [if_neg (by simp)]
    exact if_congr (hheld _) rfl rfl
  by_cases hnil : l = []
  · subst hnil
    rw [Session.losing_nil, List.nil_append]
    rfl
  · have hl : x.losing l = if ∃ e ∈ left l, e.2 = HoldStatus.held then some { x with zones := left l } else none := by
      unfold Session.losing
      rw [if_neg hnil]
      exact if_congr (hheld _) rfl rfl
    rw [hl, hconcat]
    by_cases hstays : ∃ e ∈ left l, e.2 = HoldStatus.held
    · rw [if_pos hstays, Option.bind_some, Session.losing_one, hleft]
    · rw [if_neg hstays, if_neg]
      · rfl
      · rintro ⟨e, he, hh⟩
        rw [← hleft] at he
        obtain ⟨a, ha, rfl⟩ := List.mem_map.mp he
        by_cases haz : a.1 = z
        · rw [if_pos haz] at hh
          exact nomatch hh
        · rw [if_neg haz] at hh
          exact hstays ⟨a, ha, hh⟩

theorem State.session_range (hx : s.paging.sessions.get i = some x) : 1 ≤ i ∧ i < 1 + 8 := by
  by_contra hi
  rw [Tab.get_of_not_mem _ hi] at hx
  exact nomatch hx

/-- The sessions once a zone is lost to one of them. -/
theorem State.sessionLost_sessions (i z : Nat) (s : State) (j : Nat) :
    (s.sessionLost i z).paging.sessions.get j =
      if j = i then (s.paging.sessions.get j).bind (Session.losing [z]) else s.paging.sessions.get j := by
  cases hx : s.paging.sessions.get i with
  | none =>
    have hnone : s.sessionLost i z = s := by
      unfold State.sessionLost
      rw [hx]
    rw [hnone]
    split
    · rename_i hj
      rw [hj, hx]
      rfl
    · rfl
  | some x =>
    have hi := State.session_range hx
    have hput (y : Option Session) : (s.paging.sessions.put i y).get j =
        if j = i then y else s.paging.sessions.get j := by
      rw [Tab.get_put]
      exact if_congr ⟨fun h => h.1.symm, fun h => ⟨h.symm, hi⟩⟩ rfl rfl
    have hlosing (hj : j = i) : (s.paging.sessions.get j).bind (Session.losing [z]) = x.losing [z] := by
      rw [hj, hx, Option.bind_some]
    by_cases hheld : ∃ e ∈ lostAt z x.zones, e.2 = HoldStatus.held
    · rw [State.sessionLost_holds hx hheld]
      refine (hput _).trans ?_
      by_cases hj : j = i
      · rw [if_pos hj, if_pos hj, hlosing hj, Session.losing_one, if_pos hheld]
      · rw [if_neg hj, if_neg hj]
    · have hlost : ∀ e ∈ lostAt z x.zones, e.2 = HoldStatus.lost := by
        intro e he
        cases hs : e.2 with
        | held => exact absurd ⟨e, he, hs⟩ hheld
        | lost => rfl
      rw [State.sessionLost_ends hx hlost, State.sendTone, State.join_rest]
      refine (hput _).trans ?_
      by_cases hj : j = i
      · rw [if_pos hj, if_pos hj, hlosing hj, Session.losing_one, if_neg hheld]
      · rw [if_neg hj, if_neg hj]

/-! ### A zone granted to a page (07, R126, R128, R129) -/

/-- The session that heads a zone's list. -/
def State.headedBy (s : State) (j z : Nat) : Bool :=
  (s.zones.get z).claims.head?.map Claim.claimant == some (.session j)

/-- A re-evaluation keeps a head that is not the assist claim. -/
theorem State.assisted_head {zn : Zone} {rest : List Claim} (hc : zn.claims = c :: rest) (ha : c.claimant ≠ .assist)
    (z : Nat) : (s.assisted z zn).claims.head? = some c := by
  have hothers : (zn.claims.filter fun d => d.claimant ≠ .assist) = c :: rest.filter fun d => d.claimant ≠ .assist := by
    rw [hc, List.filter_cons_of_pos (by simpa using ha)]
  unfold State.assisted
  dsimp only
  rw [hothers]
  split_ifs with _ _ hall _ hnone
  · rw [hc, List.head?_cons]
  · exact nomatch hall
  · rfl
  · rw [hc] at hnone
    exact nomatch hnone
  · rw [hc]
    rfl
  · rw [hc, List.head?_cons]

theorem State.granted_claims (s : State) (z : Nat) (g : Grant) : (s.granted z g).claims = g.claims := by
  unfold State.granted
  dsimp only
  split
  · exact s.headed_claims ..
  · rfl

/-- What a re-evaluation behind a grant does. -/
theorem State.Paged.reassisted (h : s.Paged t) (ha : t.alarm = s.alarm) (hz : 1 ≤ z ∧ z < 1 + 24)
    (hl : ClaimsFit (t.zones.get z).claims) :
    (t.reevaluateAssist z).zones.get z = s.assisted z (t.zones.get z) ∧
      (∀ y, y ≠ z → (t.reevaluateAssist z).zones.get y = t.zones.get y) ∧
      (t.reevaluateAssist z).alarm = s.alarm ∧ (t.reevaluateAssist z).paging = t.paging := by
  rw [State.reevaluateAssist_put z hl]
  refine ⟨?_, fun y hy => (t.modZone_onlyZone z _).get_ne (Ne.symm hy), ha, rfl⟩
  rw [State.modZone_get hz, h.assisted ha]

theorem State.headedBy_iff : s.headedBy j z = true ↔ ∃ d, (s.zones.get z).claims.head? = some d ∧ d.claimant = .session j := by
  simp [State.headedBy]

/-- A zone granted to a voice claim: its list is in force, the session that headed it loses it, and nothing else of what
the alarm and the other zones have changes. -/
theorem State.requestClaim_voice (hen : (s.zones.get z).fields.enabled = true) (hl : ClaimsFit (s.zones.get z).claims)
    (hn : holdsClaim (s.zones.get z).claims c.claimant = false) (hc : c.classFits) (hv : c.isVoice = true)
    (hg : placeVoice c (s.zones.get z).claims = some g) :
    ∃ t, s.requestClaim z c = (t, true) ∧
      t.zones.get z = (if g.lost = none ∧ g.evicted = none then s.granted z g else s.assisted z (s.granted z g)) ∧
      (∀ y, y ≠ z → t.zones.get y = s.zones.get y) ∧ t.alarm = s.alarm ∧
      ∀ j, t.paging.sessions.get j =
        if s.headedBy j z then (s.paging.sessions.get j).bind (Session.losing [z]) else s.paging.sessions.get j := by
  have hz := State.zone_range hen
  have hg' : (if c.isVoice = true then placeVoice c (s.zones.get z).claims
      else placeResumable c (s.zones.get z).claims) = some g := by rw [if_pos hv, hg]
  obtain ⟨p, hp⟩ := hl.granted hn hc hg'
  let v := s.modZone z fun _ => s.granted z g
  have hvz : v.zones.get z = s.granted z g := State.modZone_get hz _
  have hvy (y : Nat) (hy : y ≠ z) : v.zones.get y = s.zones.get y := (s.modZone_onlyZone z _).get_ne (Ne.symm hy)
  have hrequest : s.requestClaim z c = (State.settleGrant z g v, true) := State.requestClaim_granted hen hn hg'
  have hfit : ClaimsFit (s.granted z g).claims := by
    have hfit := hp.five.evict
    rwa [evictFifth_eq hp.five.short, ← hp.claims, ← s.granted_claims z g] at hfit
  have hfifth := fun d hd => hp.five.fifth (d := d) (hp.evicted ▸ hd)
  have hlost : g.lost = (s.zones.get z).claims.head?.filter Claim.isVoice :=
    (congrArg Grant.lost (placeVoice_eq hg)).trans overHead_lost
  have hpaged : s.Paged v := ⟨rfl, rfl, rfl, rfl, rfl, rfl, rfl, rfl, rfl, fun _ => rfl⟩
  refine ⟨State.settleGrant z g v, hrequest, ?_⟩
  cases hd : g.lost with
  | none =>
    have hnot (j : Nat) : ¬ s.headedBy j z = true := by
      intro hj
      obtain ⟨d, hhead, hd'⟩ := State.headedBy_iff.mp hj
      have hvoice : d.isVoice = true := by
        have hfits := hl.classes d (List.mem_of_mem_head? hhead)
        unfold Claim.classFits at hfits
        rwa [hd'] at hfits
      rw [hd, hhead, Option.filter_some_pos hvoice] at hlost
      exact nomatch hlost
    rw [State.settleGrant_kept hd hfifth]
    by_cases he : g.evicted = none
    · rw [if_pos he, if_pos ⟨rfl, he⟩]
      exact ⟨hvz, hvy, rfl, fun j => (if_neg (hnot j)).symm⟩
    · obtain ⟨hzone, hother, halarm, hpaging⟩ := hpaged.reassisted rfl hz (by rw [hvz]; exact hfit)
      rw [if_neg he, if_neg (fun h => he h.2), hzone, hvz, hpaging]
      exact ⟨rfl, fun y hy => (hother y hy).trans (hvy y hy), halarm, fun j => (if_neg (hnot j)).symm⟩
  | some d =>
    obtain ⟨hhead, i, hi⟩ := hp.lost_session hl hd
    have hreport : v.reportLoss z d = v.sessionLost i z := by
      unfold State.reportLoss
      rw [hi]
    obtain ⟨hzones, halarm', -⟩ := v.sessionLost_counts i z
    have hpaged' : s.Paged (v.sessionLost i z) := (FreeClaims.paged s).sessionLost hpaged i z
    have hwz : (v.sessionLost i z).zones.get z = s.granted z g := by rw [hzones, hvz]
    obtain ⟨hzone, hother, halarm, hpaging⟩ := hpaged'.reassisted halarm' hz (by rw [hwz]; exact hfit)
    rw [State.settleGrant_lost hd hfifth, hreport, if_neg (fun h => nomatch h.1), hzone, hwz, hpaging]
    refine ⟨rfl, fun y hy => ?_, halarm, fun j => ?_⟩
    · rw [hother y hy, hzones, hvy y hy]
    · rw [State.sessionLost_sessions]
      refine if_congr ?_ rfl rfl
      rw [State.headedBy_iff]
      constructor
      · rintro rfl
        exact ⟨d, hhead, hi⟩
      · rintro ⟨d', hhead', hj⟩
        obtain rfl := Option.some_inj.mp (hhead.symm.trans hhead')
        exact (Claimant.session.inj (hj.symm.trans hi))

/-! ### The zones granted to a page (07, R132) -/

/-- Whether a zone yields to a voice claim. -/
def State.yields (s : State) (c : Claim) (z : Nat) : Bool := (placeVoice c (s.zones.get z).claims).isSome

theorem State.yields_iff :
    s.yields c z = true ↔ ∀ d rest, (s.zones.get z).claims = d :: rest → c.cls < d.cls := by
  rw [State.yields, Option.isSome_iff_ne_none, ne_eq, placeVoice_none]
  push Not
  rfl

/-- What asking for a voice claim on each zone of a list has come to. -/
structure State.Asked (s : State) (c : Claim) (l : List Nat) (a : State × List Nat) : Prop where
  held : a.2 = l.filter (s.yields c)
  kept : ∀ z, z ∉ a.2 → a.1.zones.get z = s.zones.get z
  taken : ∀ z g, z ∈ a.2 → placeVoice c (s.zones.get z).claims = some g →
    a.1.zones.get z = if g.lost = none ∧ g.evicted = none then s.granted z g else s.assisted z (s.granted z g)
  sessions : ∀ j, a.1.paging.sessions.get j =
    (s.paging.sessions.get j).bind (Session.losing (a.2.filter (s.headedBy j)))
  alarm : a.1.alarm = s.alarm
  paged : s.Paged a.1

theorem bind_losing_nil (o : Option Session) : o.bind (Session.losing []) = o := by
  cases o with
  | none => rfl
  | some x => exact x.losing_nil

/-- One zone more is asked for. -/
theorem State.Asked.concat {a : State × List Nat} (h : s.Asked c l a) (hz : z ∉ l)
    (hen : (s.zones.get z).fields.enabled = true) (hl : ClaimsFit (s.zones.get z).claims)
    (hn : holdsClaim (s.zones.get z).claims c.claimant = false) (hc : c.classFits) (hv : c.isVoice = true) :
    s.Asked c (l ++ [z]) (State.ask c a z) := by
  obtain ⟨t, held⟩ := a
  have hheld : held = l.filter (s.yields c) := h.held
  have hnot : z ∉ held := fun hin => hz (List.mem_filter.mp (hheld ▸ hin)).1
  have hzone : t.zones.get z = s.zones.get z := h.kept z hnot
  cases hg : placeVoice c (s.zones.get z).claims with
  | none =>
    have hrefused : t.requestClaim z c = (t, false) :=
      State.requestClaim_refused (.inr (.inr (by rw [hzone, if_pos hv, hg])))
    have hask : State.ask c (t, held) z = (t, held) := by
      unfold State.ask
      rw [hrefused]
      rfl
    rw [hask]
    refine ⟨?_, h.kept, h.taken, h.sessions, h.alarm, h.paged⟩
    rw [List.filter_append, List.filter_cons_of_neg, List.filter_nil, List.append_nil]
    · exact h.held
    · rw [State.yields, hg]
      nofun
  | some g =>
    obtain ⟨u, hrequest, huz, huy, halarm, hsessions⟩ := State.requestClaim_voice (s := t) (z := z) (g := g)
      (by rw [hzone, hen]) (by rw [hzone]; exact hl) (by rw [hzone, hn]) hc hv (by rw [hzone, hg])
    have hask : State.ask c (t, held) z = (u, held ++ [z]) := by
      unfold State.ask
      rw [hrequest]
      rfl
    have hpaged : s.Paged u := by
      have := (FreeClaims.paged s).requestClaim h.paged z hc
      rwa [hrequest] at this
    have hheaded (j : Nat) : t.headedBy j z = s.headedBy j z := by
      unfold State.headedBy
      rw [hzone]
    rw [hask]
    refine ⟨?_, fun y hy => ?_, fun y g' hy hg' => ?_, fun j => ?_, halarm.trans h.alarm, hpaged⟩
    · rw [List.filter_append, List.filter_cons_of_pos, List.filter_nil]
      · exact congrArg (· ++ [z]) h.held
      · rw [State.yields, hg]
        rfl
    · have hyz : y ≠ z := fun e => hy (List.mem_append_right _ (List.mem_singleton.mpr e))
      exact (huy y hyz).trans (h.kept y fun hin => hy (List.mem_append_left _ hin))
    · by_cases hyz : y = z
      · subst hyz
        obtain rfl := Option.some_inj.mp (hg.symm.trans hg')
        rw [huz, h.paged.granted h.alarm hzone, h.paged.assisted h.alarm]
      · have hin : y ∈ held := (List.mem_append.mp hy).resolve_right fun hin => hyz (List.mem_singleton.mp hin)
        exact (huy y hyz).trans (h.taken y g' hin hg')
    · rw [hsessions, h.sessions, hheaded, List.filter_append]
      by_cases hj : s.headedBy j z = true
      · rw [if_pos hj, List.filter_cons_of_pos hj, List.filter_nil, Option.bind_assoc]
        exact congrArg _ (funext fun x => (x.losing_concat _ z).symm)
      · rw [if_neg hj, List.filter_cons_of_neg hj, List.filter_nil, List.append_nil]

theorem State.asked (hc : c.classFits) (hv : c.isVoice = true) (hnodup : l.Nodup)
    (hen : ∀ z ∈ l, (s.zones.get z).fields.enabled = true)
    (hl : ∀ z ∈ l, ClaimsFit (s.zones.get z).claims ∧ holdsClaim (s.zones.get z).claims c.claimant = false) :
    s.Asked c l (l.foldl (State.ask c) (s, [])) := by
  induction l using List.reverseRecOn with
  | nil =>
    refine ⟨rfl, fun _ _ => rfl, fun _ _ hin => absurd hin List.not_mem_nil, fun j => ?_, rfl, .refl s⟩
    rw [List.foldl_nil, List.filter_nil, bind_losing_nil]
  | append_singleton l z ih =>
    have hin (y : Nat) (hy : y ∈ l) : y ∈ l ++ [z] := List.mem_append_left _ hy
    have hlast : z ∈ l ++ [z] := List.mem_append_right _ List.mem_cons_self
    obtain ⟨hnodup, -, hout⟩ := List.nodup_append.mp hnodup
    rw [List.foldl_append, List.foldl_cons, List.foldl_nil]
    exact (ih hnodup (fun y hy => hen y (hin y hy)) fun y hy => hl y (hin y hy)).concat
      (fun hz => hout z hz z List.mem_cons_self rfl) (hen z hlast) (hl z hlast).1 (hl z hlast).2 hc hv

end Sys2Proof.Machine
end

section
/-! PROOFS. A PAGE request decided (O24; 07, R126, R128, R131 to R134). -/

namespace Sys2Proof.Machine

variable {s t u : State} {eq : Equip} {call : CallRef} {ds arg : Digits} {e : AccessCode} {n set i z : Nat}
  {cls : PageClass} {k : ToneKind}

/-! ### A page taken (07, R132, R133) -/

/-- The claim that a page asks for. -/
def State.pageClaim (s : State) (i : Nat) (cls : PageClass) : Claim :=
  { claimant := .session i, cls := pageClaimClass cls,
    content := match s.preannounce with | some (p, _) => [Step.prompt p] | none => [] }

theorem State.pageClaim_voice (s : State) (i : Nat) (cls : PageClass) : (s.pageClaim i cls).isVoice = true := by
  cases cls <;> rfl

theorem State.preannounce_eq (s : State) : s.preannounce = s.paging.params.preannounce.bind fun p =>
    (s.prompts.directory.get p).bind fun x => if x.length = 0 then none else some (p, x.length) := by
  unfold State.preannounce
  cases s.paging.params.preannounce with
  | none => rfl
  | some p =>
    dsimp only [Option.bind_some]
    cases s.prompts.directory.get p <;> rfl

theorem State.page_refused (h : s.pageRefusal n set cls = some k) : s.page n set cls = s.refusePage n k := by
  unfold State.page
  rw [h]

theorem State.page_asked (h : s.pageRefusal n set cls = none) (hi : s.freeSessionNumber = some i) :
    s.page n set cls =
      if (s.requestZones (s.pageClaim i cls) (s.resolveSet set)).2.isEmpty then s.refusePage n .noResource
      else (s.requestZones (s.pageClaim i cls) (s.resolveSet set)).1.startSession i n cls
        (s.requestZones (s.pageClaim i cls) (s.resolveSet set)).2 := by
  unfold State.page
  rw [h, hi]
  rfl

/-- A session as it starts on the zones it was granted, with the pre-announce prompt that is named and has samples. -/
def State.pageSession (s : State) (prompt : Option (Nat × Nat)) (n : Nat) (cls : PageClass) (slot : Nat)
    (held : List Nat) : Session :=
  { source := n, cls := cls, talkSlot := slot, zones := held.map fun z => (z, HoldStatus.held),
    phase := if prompt.isSome then .preannounce else .live,
    frames := match prompt with | some (_, l) => l | none => 0,
    start := s.clock, deadline := s.clock + 1000 * s.paging.params.maxVoice }

/-- A part whose session has started at its source. -/
def State.sessionStarted (i n : Nat) (x : Session) (s : State) : State :=
  { s with
    stations := s.stations.put n { s.stations.get n with line := .feature, source := some i }
    paging := { s.paging with sessions := s.paging.sessions.put i (some x) } }

theorem State.join_modStation (d : Dir) (c : LaneCell) (n : Nat) (f : Station → Station) (s : State) :
    (s.join d c).modStation n f = (s.modStation n f).join d c := by
  have hsame : (s.modStation n f).SameLanes s := ⟨rfl, rfl⟩
  rw [hsame.join]
  exact congrArg (State.modStation n f) (s.join_rest d c)

theorem State.startSession_seized (hn : n < 384) (hl : (s.stations.get n).line = .seized) (i : Nat) (cls : PageClass)
    (held : List Nat) : s.startSession i n cls held =
      (((s.sessionStarted i n (s.pageSession s.preannounce n cls ((s.stations.get n).talkSlot.getD 0) held)).join .up
        (.known ⟨stationEquip n, 0#16, .engage .page⟩)).sendTone n .confirm) := by
  let x := s.pageSession s.preannounce n cls ((s.stations.get n).talkSlot.getD 0) held
  let v := (s.setSession i (some x)).modStation n fun st => { st with line := .feature }
  have hstart : s.startSession i n cls held =
      (((s.setSession i (some x)).sendEngage n .page).modStation n fun st => { st with source := some i }).sendTone n
        .confirm := rfl
  have hengaged : (s.setSession i (some x)).sendEngage n .page =
      v.join .up (.known ⟨stationEquip n, 0#16, .engage .page⟩) := by
    unfold State.sendEngage
    rw [if_pos (by exact hl), State.changeStation_quiet hn _ (Station.not_candidate (by nofun))]
    rfl
  have hsource : (v.modStation n fun st => { st with source := some i }) = s.sessionStarted i n x := by
    unfold State.sessionStarted v State.modStation State.setSession State.modPaging
    dsimp only
    rw [State.get_put_station hn, Tab.put_put]
  rw [hstart, hengaged, State.join_modStation, hsource]

theorem State.pageClaim_fits (s : State) (i : Nat) (cls : PageClass) : (s.pageClaim i cls).classFits :=
  s.pageClaim_voice i cls

/-- A page reads the same of a part that the asking for its claims has changed. -/
theorem State.Paged.preannounce (h : s.Paged t) : t.preannounce = s.preannounce := by
  rw [t.preannounce_eq, s.preannounce_eq, h.params, h.prompts]

theorem State.Paged.requestZones (c : Claim) (hc : c.classFits) (l : List Nat) (s : State) :
    s.Paged (s.requestZones c l).1 :=
  (FreeClaims.paged s).requestZones hc l (.refl s)

/-- A voice claim that is granted is the head. -/
theorem placeVoice_head {c : Claim} {l : List Claim} {g : Grant} (hl : ClaimsFit l)
    (hn : holdsClaim l c.claimant = false) (hc : c.classFits) (hg : placeVoice c l = some g) :
    ∃ rest, g.claims = c :: rest := by
  have hclaims := (hl.granted_voice hn hc hg).claims
  rw [overHead_list] at hclaims
  exact ⟨_, hclaims⟩

section Matched

variable (hw : (Instr.dialled eq call ds).wf = true) (hp : s.lane.phase = .inService) (hc : s.Calm)
  (ht : tracked eq = true) (hmode : s.maint.mode = .engaged) (hline : (s.stations.get eq.toNat).line = .seized)
  (hm : s.matchCode ds = some (e, arg)) (hfeature : e.feature = .page) (harg : argumentOk .page arg = true)
include hw hp hc ht hmode hline hm hfeature harg

theorem exec_page : exec (.dialled eq call ds) s =
    .next ((s.endBridge .up).page eq.toNat (digitsNat arg) e.cls) := by
  rw [exec_matched hw hp hc ht hmode hline hm, hfeature, if_pos harg]
  unfold State.dispatchFeature
  rw [hfeature]

theorem exec_page_refused (hup : s.room .up 2) (hdown : s.room .down 1)
    (hrefuses : (s.endBridge .up).page eq.toNat (digitsNat arg) e.cls = (s.endBridge .up).refusePage eq.toNat k) :
    let t : State :=
      { s.endBridge .up with stations := s.stations.put eq.toNat { s.stations.get eq.toNat with line := .feature }
                             paging := { s.paging with refused := satInc s.paging.refused } }
    let t1 := (t.queued .up [.known ⟨eq, 0#16, .engage .denied⟩]).queued .down
      [.known ⟨eq, 0#16, .tone (BitVec.ofNat 8 (toneKindCode k))⟩]
    exec (.dialled eq call ds) s = .next
      (if k = .noResource then (t1.flagged .sessionRefused).queued .up (s.raised .sessionRefused) else t1) := by
  intro t t1
  rw [exec_page hw hp hc ht hmode hline hm hfeature harg, hrefuses,
    State.refusePage_seized (tracked_lt ht) (by exact hline) (by exact hup) (by exact hdown), stationEquip_toNat]
  rfl

end Matched

/-- Settles O24: the checks; then a page refused, one on a free zone, and one on the zones that yield. -/
theorem pageDecided : Obligations.PageDecided := by
  refine ⟨fun s n set cls => State.pageRefusal_checks s n set cls, ?_⟩
  intro eq call ds e arg s hw hp hc ht hup hdown hmode hline hm hfeature harg n st b set tone
  have hn : n < 384 := tracked_lt ht
  have hbup : b.room .up 1 := State.room_mono (State.endBridge_room .. |>.mpr hup) (by omega)
  have hbdown : b.room .down 1 := (State.endBridge_room ..).mpr hdown
  have hpage : exec (.dialled eq call ds) s = .next (b.page n set e.cls) :=
    exec_page hw hp hc ht hmode hline hm hfeature harg
  have hrefused (k : ToneKind) (hrefuses : b.page n set e.cls = b.refusePage n k) :=
    exec_page_refused hw hp hc ht hmode hline hm hfeature harg hup hdown hrefuses
  refine ⟨fun k hk => hrefused k (State.page_refused hk), ?free, ?asked⟩
  case free =>
    intro i z slot hk hi hzones hclaims hpre hslot
    let c := b.pageClaim i e.cls
    let g : Grant := { claims := [c], first := true, lost := none, evicted := none }
    have hen : (s.zones.get z).fields.enabled = true :=
      State.mem_resolveSet (set := set) (by rw [hzones]; exact List.mem_cons_self)
    have hgranted : b.requestClaim z c = (b.modZone z fun _ => b.granted z g, true) := by
      have hempty : (b.zones.get z).claims = [] := hclaims
      rw [State.requestClaim_granted (g := g) (by exact hen) (by rw [hempty]; rfl)
        (by rw [hempty, if_pos (b.pageClaim_voice i e.cls)]; rfl)]
      rfl
    have hrequest : b.requestZones c [z] = (b.modZone z fun _ => b.granted z g, [z]) := by
      unfold State.requestZones
      rw [hgranted]
      rfl
    have hc : c = { claimant := .session i, cls := pageClaimClass e.cls, content := [] } := by
      unfold c State.pageClaim
      rw [show b.preannounce = none from hpre]
    refine ⟨b.zones.put z (b.granted z g), ?_, ?_, fun y hy => Tab.get_put_ne _ _ (Ne.symm hy)⟩
    · let u := b.modZone z fun _ => b.granted z g
      have hstart : b.page n set e.cls = u.startSession i n e.cls [z] := by
        rw [State.page_asked (s := b) hk hi, show b.resolveSet set = [z] from hzones, hrequest]
        rfl
      have hslot : (u.stations.get n).talkSlot.getD 0 = slot := congrArg (Option.getD · 0) hslot
      have hprompt : u.preannounce = none := hpre
      rw [hpage, hstart, State.startSession_seized hn (by exact hline), hslot, hprompt,
        State.join_room _ (by exact hbup), State.sendTone_room (by exact hbdown), stationEquip_toNat]
      rfl
    · rw [Tab.get_put_same _ _ (State.zone_range hen), State.granted_claims, ← hc]
  case asked =>
    intro i slot hk h1 h2 hfree hlow hslot zones prompt rank claim ask asked u yields
    have hi : b.freeSessionNumber = some i := State.freeSessionNumber_some h1 h2 hfree hlow
    have hzones : b.resolveSet set = zones := b.resolveSet_eq set
    have hprompt : b.preannounce = prompt := b.preannounce_eq
    have hrank : rank = pageClaimClass e.cls := by
      unfold rank
      cases e.cls <;> rfl
    have hclaim : claim = b.pageClaim i e.cls := by
      unfold claim State.pageClaim
      rw [hrank, hprompt] <;> rfl
    have hvoice : claim.isVoice = true := hclaim ▸ b.pageClaim_voice i e.cls
    have hfits : claim.classFits := hvoice
    have hasked : b.requestZones (b.pageClaim i e.cls) (b.resolveSet set) = asked := by
      rw [hzones, State.requestZones_eq, ← hclaim]
      rfl
    have htaken := State.page_asked (s := b) hk hi
    rw [hasked] at htaken
    refine ⟨fun hnone => ?none, fun hsome => ?some, fun hnodup hin => ?granted⟩
    case none =>
      have hrefuse (z : Nat) (hz : z ∈ zones) : b.requestClaim z claim = (b, false) := by
        refine State.requestClaim_refused (.inr (.inr ?_))
        rw [if_pos hvoice]
        have hno := hnone z hz
        have hyields : s.yields claim z = true ↔ yields z := State.yields_iff
        rw [← hyields] at hno
        exact Option.not_isSome_iff_eq_none.mp hno
      have hnothing : asked = (b, []) := by
        rw [← hasked, ← hclaim, hzones]
        exact State.requestZones_refused hrefuse
      have hnoResource := hrefused .noResource (by rw [htaken, hnothing]; rfl)
      exact hnoResource
    case some =>
      have hnonempty : ¬ asked.2.isEmpty = true := fun h => hsome (List.isEmpty_iff.mp h)
      have hpaged : b.Paged u := by
        have hpaged := State.Paged.requestZones claim hfits zones b
        rw [hclaim, ← hzones, hasked] at hpaged
        exact hpaged
      have hstation : u.stations.get n = { st with source := (u.stations.get n).source } := hpaged.stations n
      have hslot : (u.stations.get n).talkSlot.getD 0 = slot :=
        congrArg (Option.getD · 0) ((congrArg Station.talkSlot hstation).trans hslot)
      have hsession : u.pageSession u.preannounce n e.cls ((u.stations.get n).talkSlot.getD 0) asked.2 =
          b.pageSession prompt n e.cls slot asked.2 := by
        unfold State.pageSession
        rw [hslot, hpaged.preannounce.trans hprompt, hpaged.clock, hpaged.params]
      rw [hpage, htaken, if_neg hnonempty,
        State.startSession_seized hn ((congrArg Station.line hstation).trans hline), stationEquip_toNat, hsession,
        State.sendTone, stationEquip_toNat]
      rfl
    case granted =>
      have hen (z : Nat) (hz : z ∈ zones) : (b.zones.get z).fields.enabled = true := (List.mem_filter.mp hz).2
      have hfree (z : Nat) (hz : z ∈ zones) : holdsClaim (b.zones.get z).claims claim.claimant = false := by
        rw [← Bool.not_eq_true, holdsClaim_iff]
        rintro ⟨d, hd, hsame⟩
        exact (hin z hz).2 d hd hsame
      have ha : b.Asked claim zones asked := State.asked hfits hvoice hnodup hen fun z hz => ⟨(hin z hz).1, hfree z hz⟩
      have hyields (z : Nat) : b.yields claim z = true ↔ yields z := State.yields_iff
      have hmem (z : Nat) : z ∈ asked.2 ↔ z ∈ zones ∧ yields z := by rw [ha.held, List.mem_filter, hyields]
      refine ⟨hmem, ha.held ▸ List.filter_sublist, ha.kept, ha.taken, fun z hz => ?heads, fun j x hj => ?sessions,
        fun j hj => ?absent, ha.paged.hunt, ha.paged.orbits, ha.paged.pickup, ha.alarm, ha.paged.prompts, ha.paged.codes,
        ha.paged.zoneSets, ha.paged.params, ha.paged.stations⟩
      case heads =>
        have hyield := (hyields z).mpr ((hmem z).mp hz).2
        obtain ⟨g, hg⟩ := Option.isSome_iff_exists.mp hyield
        have hzin := ((hmem z).mp hz).1
        obtain ⟨rest, hclaims⟩ := placeVoice_head (hin z hzin).1 (hfree z hzin) hfits hg
        have hgranted : (b.granted z g).claims = claim :: rest := (b.granted_claims z g).trans hclaims
        rw [ha.taken z g hz hg]
        split
        · rw [hgranted, List.head?_cons]
        · exact State.assisted_head hgranted (by nofun) z
      case sessions =>
        intro loses left
        have hj : b.paging.sessions.get j = some x := hj
        let lost := asked.2.filter (b.headedBy j)
        have hloses (z : Nat) : z ∈ lost ↔ loses z = true := by
          rw [List.mem_filter, Bool.and_eq_true, decide_eq_true_eq]
          rfl
        have hleft : (x.zones.map fun a => if a.1 ∈ lost then (a.1, HoldStatus.lost) else a) = left :=
          List.map_congr_left fun a _ => if_congr (hloses a.1) rfl rfl
        have hsome : lost = [] ↔ ¬ ∃ z ∈ asked.2, loses z = true := by
          rw [List.eq_nil_iff_forall_not_mem]
          exact ⟨fun h ⟨z, _, hz⟩ => h z ((hloses z).mpr hz), fun h z hz => h ⟨z, (List.mem_filter.mp hz).1, (hloses z).mp hz⟩⟩
        rw [ha.sessions, hj, Option.bind_some]
        show x.losing lost = _
        unfold Session.losing
        dsimp only
        rw [hleft]
        by_cases hl : lost = []
        · rw [if_pos hl, if_neg (hsome.mp hl)]
        · rw [if_neg hl, if_pos (not_not.mp (mt hsome.mpr hl))]
      case absent =>
        have hj : b.paging.sessions.get j = none := hj
        rw [ha.sessions, hj]
        rfl

end Sys2Proof.Machine
end

section
/-! PROOFS. The commit of a shift bank, group by group (O34; 03, R55 to R63). -/

namespace Sys2Proof.Machine

variable {s t u : State} {c : CallRef} {r : HuntRecord} {g n now cap : Nat} {bank : Tab 1 32 Group}

/-! ### Calls that are sent away (04, R69, R81) -/

/-- What sending a call away changes of the Hunt Controller: never the raised member-available events or a bank. -/
theorem State.sendAway_hunt (c : CallRef) (g : Nat) (body : Body) (s : State) :
    ∃ f checks closed live, KeepsQueues f ∧ (s.sendAway c g body).hunt =
      { s.hunt with
        records := (s.hunt.records.filter fun q => q.call ≠ c).map f
        headChecks := checks
        closed := closed
        live := live } := by
  let sent := s.sendOwn c body
  have hsent : sent.hunt = s.hunt := State.join_hunt ..
  have hcounted (v : State) : ∃ live, ((v.setFlag .queueOverflow).modGroupCounters g fun k =>
      { k with diverted := satInc k.diverted }).hunt = { v.hunt with live := live } := by
    rw [State.setFlag_rest]
    exact ⟨_, rfl⟩
  obtain ⟨live, hlive⟩ := hcounted (sent.removeRecord c false)
  have haway : (s.sendAway c g body).hunt = { (sent.removeRecord c false).hunt with live := live } := hlive
  rw [haway]
  cases hr : sent.record c with
  | none =>
    have hfilter : (s.hunt.records.filter fun q => q.call ≠ c) = s.hunt.records := by
      refine List.filter_eq_self.mpr fun q hq => decide_eq_true fun hqc => ?_
      exact record_none hr (hqc ▸ List.mem_map_of_mem (hsent.symm ▸ hq))
    refine ⟨id, s.hunt.headChecks, s.hunt.closed, live, fun _ => ⟨rfl, rfl, rfl⟩, ?_⟩
    rw [State.removeRecord_none hr, hsent, hfilter, List.map_id]
  | some r =>
    obtain ⟨f, hf, hfreed⟩ := State.orbitFreed_keeps r (sent.withoutRecord c)
    have hgone : (sent.removeRecord c false).hunt =
        { ((sent.withoutRecord c).orbitFreed r true).hunt with
          closed := Machine.closeCall c ((sent.withoutRecord c).orbitFreed r true).hunt.closed
          headChecks := if sent.headCall r.group == some c
            then insertSorted r.group ((sent.withoutRecord c).orbitFreed r true).hunt.headChecks
            else ((sent.withoutRecord c).orbitFreed r true).hunt.headChecks } := by
      rw [State.removeRecord_parts hr, State.headLeft_eq]
      rfl
    have hwithout : (sent.withoutRecord c).hunt =
        { s.hunt with records := s.hunt.records.filter fun q => q.call ≠ c } := by rw [← hsent]; rfl
    rw [hgone, hfreed, hwithout]
    exact ⟨f, _, _, _, hf, rfl⟩

theorem State.sendAway_available (c : CallRef) (g : Nat) (body : Body) (s : State) :
    (s.sendAway c g body).hunt.available = s.hunt.available := by
  obtain ⟨_, _, _, _, -, hhunt⟩ := s.sendAway_hunt c g body
  rw [hhunt]

theorem State.sendAway_active (c : CallRef) (g : Nat) (body : Body) (s : State) :
    (s.sendAway c g body).hunt.active = s.hunt.active := by
  obtain ⟨_, _, _, _, -, hhunt⟩ := s.sendAway_hunt c g body
  rw [hhunt]

/-- The calls of a queue, in its order. -/
def State.queueCalls (s : State) (g : Nat) : List CallRef := (s.queue g).map HuntRecord.call

theorem queueOf_filter_call (g : Nat) (l : List HuntRecord) :
    queueOf g (l.filter fun q => q.call ≠ c) = (queueOf g l).filter fun q => q.call ≠ c := by
  unfold queueOf
  rw [List.filter_comm]

/-- A call that is sent away leaves its queue, and the others keep their places. -/
theorem State.sendAway_queueCalls (c : CallRef) (g : Nat) (body : Body) (s : State) (h : Nat) :
    (s.sendAway c g body).queueCalls h = (s.queueCalls h).filter (· ≠ c) := by
  obtain ⟨f, _, _, _, hf, hhunt⟩ := s.sendAway_hunt c g body
  have hqueue : (s.sendAway c g body).queue h = queueOf h ((s.hunt.records.filter fun q => q.call ≠ c).map f) :=
    congrArg (fun x : Hunt => queueOf h x.records) hhunt
  unfold State.queueCalls
  rw [hqueue, queueOf_map hf, map_call_keeps hf, queueOf_filter_call, List.filter_map]
  rfl

theorem State.sendAway_calls (c : CallRef) (g : Nat) (body : Body) (s : State) :
    (s.sendAway c g body).hunt.records.map HuntRecord.call = (s.hunt.records.map HuntRecord.call).filter (· ≠ c) := by
  obtain ⟨f, _, _, _, hf, hhunt⟩ := s.sendAway_hunt c g body
  rw [hhunt]
  refine (map_call_keeps hf _).trans ?_
  rw [List.filter_map]
  rfl

/-! ### A queue trimmed to its capacity (03, R61) -/

theorem State.trimQueue_eq (fuel : Nat) (hcalls : (s.hunt.records.map HuntRecord.call).Nodup)
    (hactive : s.hunt.active = bank) (hfuel : (s.queueCalls g).length ≤ fuel) :
    State.trimQueue g fuel s = ((s.queueCalls g).drop (bank.get g).fields.capacity).reverse.foldl
      (fun v c => v.overflow c g) s := by
  induction fuel generalizing s with
  | zero =>
    rw [List.length_eq_zero_iff.mp (Nat.le_zero.mp hfuel), List.drop_nil]
    rfl
  | succ fuel ih =>
    have hcap : (s.activeGroup g).fields.capacity = (bank.get g).fields.capacity := by rw [← hactive]; rfl
    have hlen : (s.queue g).length = (s.queueCalls g).length := (List.length_map _).symm
    unfold State.trimQueue
    dsimp only
    rw [hcap, hlen]
    by_cases hover : (s.queueCalls g).length > (bank.get g).fields.capacity
    · rw [if_pos hover]
      obtain ⟨l, r, hl⟩ : ∃ l r, s.queue g = l ++ [r] := by
        rcases List.eq_nil_or_concat (s.queue g) with hnil | ⟨l, r, hl⟩
        · rw [← hlen, hnil] at hover
          exact absurd hover (Nat.not_lt_zero _)
        · exact ⟨l, r, hl.trans List.concat_eq_append⟩
      have hsplit : s.queueCalls g = l.map HuntRecord.call ++ [r.call] := by
        unfold State.queueCalls
        rw [hl, List.map_append]
        rfl
      have hnodup : (l.map HuntRecord.call ++ [r.call]).Nodup := hsplit ▸ State.queue_nodup hcalls g
      have hrest : (s.overflow r.call g).queueCalls g = l.map HuntRecord.call := by
        unfold State.overflow
        rw [State.sendAway_queueCalls, hsplit, List.filter_append, List.filter_cons_of_neg (by simp), List.filter_nil,
          List.append_nil]
        refine List.filter_eq_self.mpr fun x hx => decide_eq_true fun he => ?_
        exact (List.nodup_append.mp hnodup).2.2 x hx r.call List.mem_cons_self he
      rw [hl, List.getLast?_concat]
      dsimp only
      rw [ih (s := s.overflow r.call g)]
      · rw [hrest, hsplit, List.drop_append_of_le_length, List.reverse_append]
        · rfl
        · rw [hsplit, List.length_append, List.length_singleton] at hover
          omega
      · unfold State.overflow
        rw [State.sendAway_calls]
        exact hcalls.filter _
      · exact (State.sendAway_active ..).trans hactive
      · rw [hsplit, List.length_append, List.length_singleton] at hfuel
        rw [hrest]
        omega
    · rw [if_neg hover, List.drop_eq_nil_of_le (Nat.not_lt.mp hover)]
      rfl

/-! ### Announce points that ask for an orbit (03, R62) -/

theorem State.askIfDue_available (c : CallRef) (s : State) : (s.askIfDue c).hunt.available = s.hunt.available := by
  unfold State.askIfDue State.requestOrbit
  split
  · split
    · split
      · rfl
      · split
        · rfl
        · split
          · rw [State.assignOrbit_hunt]
          · split
            · rfl
            · rw [State.setFlag_hunt]
              rfl
    · rfl
  · rfl

/-- A record asks for an orbit where its announce point is past by this clock. -/
def State.askBy (now : Nat) (c : CallRef) (s : State) : State :=
  match (s.record c).bind HuntRecord.announcePoint with
  | some point => if point ≤ now then s.requestOrbit c else s
  | none => s

theorem State.askIfDue_eq (h : s.clock = now) (c : CallRef) : s.askIfDue c = s.askBy now c := by
  subst h
  unfold State.askIfDue State.askBy duePast
  cases s.record c with
  | none => rfl
  | some r =>
    dsimp only [Option.bind_some]
    cases r.announcePoint with
    | none => rfl
    | some p => simp only [decide_eq_true_eq]

/-- Two foldings agree where their steps do on all that the steps keep. -/
theorem foldl_eq_of_kept {α : Type} {P : State → Prop} {f h : State → α → State} (hP : ∀ t a, P t → P (h t a))
    (heq : ∀ t a, P t → f t a = h t a) (l : List α) (hs : P s) : l.foldl f s = l.foldl h s := by
  induction l generalizing s with
  | nil => rfl
  | cons a rest ih => rw [List.foldl_cons, List.foldl_cons, heq s a hs, ih (hP s a hs)]

/-! ### A group's treatment (03, R57 to R62) -/

/-- A change of the records of one group. -/
def State.mapGroup (g : Nat) (f : HuntRecord → HuntRecord) (s : State) : State :=
  { s with hunt := { s.hunt with records := s.hunt.records.map fun r => if r.group = g then f r else r } }

/-- A queued record with no orbit, its announce point formed anew. -/
def HuntRecord.pointFormed (now threshold : Nat) (r : HuntRecord) : HuntRecord :=
  match r.status with
  | .queued w _ none a =>
    let point := r.arrival + 1000 * threshold
    { r with status :=
        if threshold = 0 then .queued w none none false
        else .queued w (some point) none (a && decide (point ≤ now)) }
  | _ => r

theorem HuntRecord.recompute_eq : HuntRecord.recompute = pointFormed := by
  funext now threshold r
  obtain ⟨call, group, arrival, called, caller, cls, tried, status⟩ := r
  unfold HuntRecord.recompute HuntRecord.pointFormed
  cases status with
  | offered => rfl
  | queued w p orbit a =>
    cases orbit with
    | some o => rfl
    | none =>
      dsimp only
      split <;> rfl

/-- A group that goes on: its tried lists pruned, its queue trimmed, its announce points formed anew (03, R60 to R62). -/
def State.keepGroup (now : Nat) (new : Group) (g : Nat) (s : State) : State :=
  let pruned := s.mapGroup g fun r => { r with tried := r.tried.filter (· ∈ new.members) }
  let trimmed := ((pruned.queue g).drop new.fields.capacity).reverse.foldl (fun v r => v.overflow r.call g) pruned
  let formed := trimmed.mapGroup g (HuntRecord.pointFormed now new.fields.threshold)
  (formed.queue g).foldl (fun v r => v.askBy now r.call) formed

/-- What a commit keeps group by group: the banks, the clock, the call table in form. -/
structure State.Committing (bank : Tab 1 32 Group) (now : Nat) (s : State) : Prop where
  active : s.hunt.active = bank
  clock : s.clock = now
  fits : s.hunt.Fits

theorem Free.committing (bank : Tab 1 32 Group) (now : Nat) : Free (State.Committing bank now) where
  assist _ := id
  zone h _ := ⟨h.active, h.clock, h.fits⟩
  lane h _ := ⟨h.active, h.clock, h.fits⟩
  flag _ h := ⟨h.active, h.clock, h.fits⟩
  source _ h := ⟨h.active, h.clock, h.fits⟩
  paging h _ := ⟨h.active, h.clock, h.fits⟩
  alarm h _ := ⟨h.active, h.clock, h.fits⟩
  station h _ := ⟨h.active, h.clock, h.fits⟩
  hunt h hf := ⟨hf.active.trans h.active, h.clock, hf.fits h.fits⟩
  orbit h := ⟨h.active, h.clock, h.fits⟩
  pickup h _ := ⟨h.active, h.clock, h.fits⟩

/-- A continuing group is treated as stated. -/
theorem State.keepGroup_eq (h : s.Committing bank now) (g : Nat) :
    (State.trimQueue g ((s.pruneTried g).queue g).length (s.pruneTried g)).recomputePoints g =
      s.keepGroup now (bank.get g) g := by
  have hk := (Free.committing bank now).kept
  have hgroup : ∀ {t : State}, t.Committing bank now → t.activeGroup g = bank.get g := fun ht => by
    rw [← ht.active]
    rfl
  have hpruned : s.pruneTried g = s.mapGroup g fun r => { r with tried := r.tried.filter (· ∈ (bank.get g).members) } := by
    have hmember : s.activeMember g = fun n => Decidable.decide (n ∈ (bank.get g).members) := by
      funext n
      unfold State.activeMember
      rw [hgroup h, List.contains_eq_mem]
    unfold State.pruneTried
    rw [hmember]
    rfl
  have hprunedFits := hk.pruneTried h g
  let trimmed := State.trimQueue g ((s.pruneTried g).queue g).length (s.pruneTried g)
  have htrimmedFits : trimmed.Committing bank now := hk.trimQueue g _ hprunedFits
  have htrimmed : trimmed = (((s.pruneTried g).queue g).drop (bank.get g).fields.capacity).reverse.foldl
      (fun v r => v.overflow r.call g) (s.pruneTried g) := by
    have htrim := State.trimQueue_eq (g := g) _ hprunedFits.fits.calls hprunedFits.active
      (Nat.le_of_eq (List.length_map HuntRecord.call))
    rwa [State.queueCalls, ← List.map_drop, ← List.map_reverse, List.foldl_map] at htrim
  have hformed : trimmed.recomputePoints g =
      ((trimmed.mapGroup g (HuntRecord.pointFormed now (bank.get g).fields.threshold)).queue g).foldl
        (fun v r => v.askIfDue r.call) (trimmed.mapGroup g (HuntRecord.pointFormed now (bank.get g).fields.threshold)) := by
    unfold State.recomputePoints
    rw [hgroup htrimmedFits, htrimmedFits.clock, HuntRecord.recompute_eq]
    rfl
  have hclock : (trimmed.mapGroup g (HuntRecord.pointFormed now (bank.get g).fields.threshold)).clock = now :=
    htrimmedFits.clock
  show trimmed.recomputePoints g = _
  rw [hformed]
  unfold State.keepGroup
  rw [← hpruned]
  dsimp only
  rw [← htrimmed]
  refine foldl_eq_of_kept (P := fun t => t.clock = now) (fun t r ht => ?_) (fun t r ht => State.askIfDue_eq ht _) _ hclock
  rw [← State.askIfDue_eq ht]
  exact (KeptOrbits.clock now).askIfDue ht r.call

theorem State.retireGroup_available (g : Nat) (old : Group) (s : State) :
    (s.retireGroup g old).hunt.available = s.hunt.available :=
  foldl_kept (P := fun t => t.hunt.available = s.hunt.available)
    (fun t r ht => (t.sendAway_available r.call g _).trans ht) (s.queue g) rfl

theorem State.trimQueue_available (g fuel : Nat) (s : State) :
    (State.trimQueue g fuel s).hunt.available = s.hunt.available := by
  induction fuel generalizing s with
  | zero => rfl
  | succ fuel ih =>
    unfold State.trimQueue
    dsimp only
    split
    · split
      · rw [ih]
        exact State.sendAway_available ..
      · rfl
    · rfl

theorem State.recomputePoints_available (g : Nat) (s : State) :
    (s.recomputePoints g).hunt.available = s.hunt.available := by
  unfold State.recomputePoints
  exact foldl_kept (P := fun t => t.hunt.available = s.hunt.available)
    (fun t r ht => (t.askIfDue_available r.call).trans ht) _ rfl

/-- A group that was not in use is left alone. -/
theorem State.commitGroup_unused (h : (bank.get g).fields.pilot = none) : s.commitGroup bank g = s := by
  unfold State.commitGroup
  rw [h]

theorem State.commitGroup_retires (hold : (bank.get g).fields.pilot ≠ none)
    (hnew : (s.activeGroup g).fields.pilot = none) : s.commitGroup bank g = s.retireGroup g (bank.get g) := by
  obtain ⟨dn, hdn⟩ := Option.ne_none_iff_exists'.mp hold
  unfold State.commitGroup
  rw [hdn, hnew]

theorem State.commitGroup_keeps (hold : (bank.get g).fields.pilot ≠ none)
    (hnew : (s.activeGroup g).fields.pilot ≠ none) : s.commitGroup bank g =
      (State.trimQueue g ((s.pruneTried g).queue g).length (s.pruneTried g)).recomputePoints g := by
  obtain ⟨dn, hdn⟩ := Option.ne_none_iff_exists'.mp hold
  obtain ⟨dn', hdn'⟩ := Option.ne_none_iff_exists'.mp hnew
  unfold State.commitGroup
  rw [hdn, hdn']

theorem State.commitGroup_available (bank : Tab 1 32 Group) (g : Nat) (s : State) :
    (s.commitGroup bank g).hunt.available = s.hunt.available := by
  by_cases hold : (bank.get g).fields.pilot = none
  · rw [State.commitGroup_unused hold]
  · by_cases hnew : (s.activeGroup g).fields.pilot = none
    · rw [State.commitGroup_retires hold hnew, State.retireGroup_available]
    · rw [State.commitGroup_keeps hold hnew, State.recomputePoints_available, State.trimQueue_available]
      rfl

/-- With no hunt record a group's treatment changes nothing. -/
theorem State.commitGroup_empty (h : s.hunt.records = []) (bank : Tab 1 32 Group) (g : Nat) : s.commitGroup bank g = s := by
  have hmap (f : HuntRecord → HuntRecord) : (s.modHunt fun h => { h with records := h.records.map f }) = s :=
    congrArg (fun l => { s with hunt := { s.hunt with records := l } }) (by rw [h]; rfl : s.hunt.records.map f = s.hunt.records)
  have hqueue : s.queue g = [] := by
    unfold State.queue
    rw [h]
    rfl
  by_cases hold : (bank.get g).fields.pilot = none
  · exact State.commitGroup_unused hold
  · by_cases hnew : (s.activeGroup g).fields.pilot = none
    · rw [State.commitGroup_retires hold hnew, State.retireGroup, hqueue]
      exact hmap _
    · rw [State.commitGroup_keeps hold hnew, State.pruneTried, hmap, hqueue]
      show s.recomputePoints g = s
      unfold State.recomputePoints
      dsimp only
      rw [hmap, hqueue]
      rfl

/-! ### The events raised at the end (03, R63) -/

theorem insertSorted_last {l : List Nat} (h : ∀ m ∈ l, m < n) : insertSorted n l = l ++ [n] := by
  induction l with
  | nil => rfl
  | cons m rest ih =>
    have hm := h m List.mem_cons_self
    unfold insertSorted
    rw [if_neg (by omega), if_neg (by omega), ih fun x hx => h x (List.mem_cons_of_mem _ hx)]
    rfl

/-- The entries of an ascending list join in turn. -/
theorem foldl_insertSorted (l acc : List Nat) (h : (acc ++ l).Pairwise (· < ·)) :
    l.foldl (fun a n => insertSorted n a) acc = acc ++ l := by
  induction l generalizing acc with
  | nil => rw [List.append_nil]; rfl
  | cons n rest ih =>
    have hlast : insertSorted n acc = acc ++ [n] :=
      insertSorted_last fun m hm => (List.pairwise_append.mp h).2.2 m hm n List.mem_cons_self
    rw [List.append_cons] at h ⊢
    rw [List.foldl_cons, hlast, ih _ h]

theorem State.foldl_raiseAvailable (l : List Nat) (s : State) : l.foldl (fun t n => t.raiseAvailable n) s =
    { s with hunt := { s.hunt with available := l.foldl (fun a n => insertSorted n a) s.hunt.available } } := by
  induction l generalizing s with
  | nil => rfl
  | cons n rest ih => rw [List.foldl_cons, ih]; rfl

/-- The events of a commit, raised where none stood. -/
theorem State.raiseAll (h : s.hunt.available = []) : s.commitAvailable.foldl (fun t n => t.raiseAvailable n) s =
    { s with hunt := { s.hunt with available := s.commitAvailable } } := by
  rw [State.foldl_raiseAvailable, h, foldl_insertSorted]
  · rfl
  · exact List.pairwise_lt_range.filter _

theorem State.commitAvailable_eq (h : s.hunt.active = bank) : s.commitAvailable =
    (List.range 384).filter fun n => s.candidate n && (List.range' 1 32).any fun g =>
      !(s.queue g).isEmpty && (bank.get g).members.contains n := by
  subst h
  unfold State.commitAvailable
  dsimp only
  refine List.filter_congr fun n _ => ?_
  rw [List.any_filter]
  rfl

/-! ### The expiry of the countdown (03, R55) -/

/-- A part whose staged bank has become the active one. -/
def State.committed (s : State) : State := { s with hunt := { s.hunt with active := s.hunt.staged, countdown := none } }

theorem State.commitExpiry_due {d : Nat} (hd : s.hunt.countdown = some d) (hdue : d ≤ s.clock) :
    s.commitExpiry = if validate s.hunt.staged = none then (s.modHunt fun h => { h with countdown := none }).commit
      else (s.modHunt fun h => { h with countdown := none }).setFlag .commitFailed := by
  have hpast : duePast s.clock s.hunt.countdown = true := by
    rw [hd]
    exact decide_eq_true hdue
  unfold State.commitExpiry
  rw [if_pos hpast]
  dsimp only
  cases hv : validate s.hunt.staged with
  | none => rw [show validate (s.modHunt fun h => { h with countdown := none }).hunt.staged = none from hv, if_pos rfl]
  | some f =>
    rw [show validate (s.modHunt fun h => { h with countdown := none }).hunt.staged = some f from hv, if_neg (by nofun)]

/-- A commit as the treatment of the groups, and the events raised at its end. -/
theorem State.commit_eq (s : State) : (s.modHunt fun h => { h with countdown := none }).commit =
    let t := (groupNumbers.foldl (fun u g => u.commitGroup s.hunt.active g) s.committed).setFlag .commitDone
    t.commitAvailable.foldl (fun t n => t.raiseAvailable n) t := rfl

end Sys2Proof.Machine
end

section
/-! PROOFS. The countdown's expiry (O34; 03, R55 to R63). -/

namespace Sys2Proof.Machine

variable {s t u : State} {g n now : Nat} {bank : Tab 1 32 Group}

/-- A property of the banks and the countdown, which no call changes. -/
theorem Free.banks (active staged : Tab 1 32 Group) : Free fun s =>
    s.hunt.active = active ∧ s.hunt.staged = staged ∧ s.hunt.countdown = none where
  assist _ := id
  zone h _ := h
  lane h _ := h
  flag _ h := h
  source _ h := h
  paging h _ := h
  alarm h _ := h
  station h _ := h
  hunt h hf := ⟨hf.active.trans h.1, hf.staged.trans h.2.1, hf.countdown.trans h.2.2⟩
  orbit h := h
  pickup h _ := h

/-- The part once every group is treated, and COMMIT_DONE set. -/
def State.treated (s : State) : State :=
  (groupNumbers.foldl (fun u g => u.commitGroup s.hunt.active g) s.committed).setFlag .commitDone

theorem State.treated_banks (s : State) : s.treated.hunt.active = s.hunt.staged ∧
    s.treated.hunt.staged = s.hunt.staged ∧ s.treated.hunt.countdown = none := by
  have hk := (Free.banks s.hunt.staged s.hunt.staged).kept
  have hgroups := foldl_kept
    (P := fun u => u.hunt.active = s.hunt.staged ∧ u.hunt.staged = s.hunt.staged ∧ u.hunt.countdown = none)
    (fun u g hu => hk.commitGroup hu s.hunt.active g) groupNumbers (s := s.committed) ⟨rfl, rfl, rfl⟩
  exact hk.setFlag hgroups .commitDone

theorem State.treated_available (hc : s.Calm) : s.treated.hunt.available = [] := by
  unfold State.treated
  rw [State.setFlag_hunt]
  exact foldl_kept (P := fun t => t.hunt.available = []) (fun u g hu => (u.commitGroup_available _ g).trans hu)
    groupNumbers hc.2

/-- A valid commit. -/
theorem State.commit_treated (hc : s.Calm) : (s.modHunt fun h => { h with countdown := none }).commit =
    { s.treated with hunt := { s.treated.hunt with available := s.treated.commitAvailable } } :=
  s.commit_eq.trans (State.raiseAll (State.treated_available hc))

/-- With no hunt record, a commit replaces the bank and sets its flag. -/
theorem State.treated_empty (h : s.hunt.records = []) : s.treated = s.committed.setFlag .commitDone := by
  have hgroups : groupNumbers.foldl (fun u g => u.commitGroup s.hunt.active g) s.committed = s.committed := by
    refine (foldl_eq_of_kept (P := fun t => t = s.committed) (h := fun t _ => t) (fun t _ ht => ht) (fun t g ht => ?_)
      groupNumbers rfl).trans (List.foldl_fixed ..)
    exact State.commitGroup_empty (by rw [ht]; exact h) ..
  unfold State.treated
  rw [hgroups]

theorem State.commitAvailable_empty (h : s.hunt.records = []) : s.commitAvailable = [] := by
  rw [State.commitAvailable_eq rfl, List.filter_eq_nil_iff]
  intro n _ hn
  obtain ⟨g, -, hg⟩ := List.any_eq_true.mp (Bool.and_eq_true _ _ ▸ hn).2
  have hqueue : s.queue g = [] := by
    unfold State.queue
    rw [h]
    rfl
  rw [hqueue] at hg
  exact nomatch hg

/-- Settles O34: an expiry that comes to an invalid bank, to a valid one, or too early. -/
theorem commitExpiryReplacesBank : Obligations.CommitExpiryReplacesBank := by
  intro s hp hc begun mapGroup retire keep treat
  refine ⟨fun d hd hdue => ⟨fun f hf => ?failed, fun hvalid => ?valid⟩, fun hearly => ?early⟩
  case failed =>
    rw [exec_commitExpiry hp hc, State.commitExpiry_due hd hdue, if_neg (by rw [hf]; nofun)]
    rfl
  case early => rw [exec_commitExpiry hp hc, State.commitExpiry_early hearly]
  case valid =>
    have hexec : exec .commitExpiry s = .next
        { s.treated with hunt := { s.treated.hunt with available := s.treated.commitAvailable } } := by
      rw [exec_commitExpiry hp hc, State.commitExpiry_due hd hdue, if_pos hvalid, State.commit_treated hc]
    obtain ⟨hactive, hstaged, hcountdown⟩ := s.treated_banks
    refine ⟨⟨_, hexec, hactive, hstaged, hcountdown, State.setFlag_hasFlag ..⟩, fun hempty => ?empty, fun hfits => ?groups⟩
    case empty =>
      have hnone : s.treated.hunt.records = [] := by
        rw [State.treated_empty hempty, State.setFlag_hunt]
        exact hempty
      have hsame : ({ s.treated with hunt := { s.treated.hunt with available := [] } } : State) = s.treated :=
        congrArg (fun l => { s.treated with hunt := { s.treated.hunt with available := l } })
          (State.treated_available hc).symm
      rw [hexec, State.commitAvailable_empty hnone, hsame, State.treated_empty hempty]
      rfl
    case groups =>
      intro t raises
      have hk := (Free.committing s.hunt.staged s.clock).kept
      have htreat {u : State} (g : Nat) (hu : u.Committing s.hunt.staged s.clock) :
          u.commitGroup s.hunt.active g = treat u g := by
        have hgroup : u.activeGroup g = s.hunt.staged.get g := by
          rw [← hu.active]
          rfl
        by_cases hold : (s.hunt.active.get g).fields.pilot = none
        · exact (State.commitGroup_unused hold).trans (if_pos hold).symm
        · refine Eq.trans ?_ (if_neg hold).symm
          by_cases hnew : (s.hunt.staged.get g).fields.pilot = none
          · rw [if_pos hnew, State.commitGroup_retires hold (by rw [hgroup, hnew])]
            rfl
          · rw [if_neg hnew, State.commitGroup_keeps hold (by rw [hgroup]; exact hnew), State.keepGroup_eq hu]
            rfl
      have htreated : s.treated = t := by
        refine congrArg (State.setFlag .commitDone) (foldl_eq_of_kept (P := State.Committing s.hunt.staged s.clock)
          (fun u g hu => ?_) (fun u g hu => htreat g hu) groupNumbers ⟨rfl, rfl, ?_⟩)
        · rw [← htreat g hu]
          exact hk.commitGroup hu _ g
        · exact ⟨hfits.records, hfits.calls, hfits.awaiting, hfits.closed, hfits.closedOnce, hfits.counters, hfits.raised⟩
      rw [hexec, htreated, State.commitAvailable_eq (htreated ▸ hactive)]

end Sys2Proof.Machine
end

section
/-! PROOFS. Cells that find their queue full (O11; 01, R18, R19; 11, R192). -/

namespace Sys2Proof.Machine

variable {s t : State} {d e : Dir} {eq : Equip} {call : CallRef} {i : Instr} {n : Nat}

/-! ### A full queue -/

theorem State.endBridge_full (h : ¬ s.room e 1) (d : Dir) : ¬ (s.endBridge d).room e 1 := fun hroom =>
  h ((State.endBridge_room ..).mp hroom)

/-- A full queue stays full while cells join and flags are set. -/
theorem KeptLanes.full (d : Dir) : KeptLanes fun s => ¬ s.room d 1 where
  lane {s f} h hm := by
    have hlen : (s.lane.queue d).length ≤ ((f s.lane).queue d).length := by
      cases d
      · exact hm.down.length_le
      · exact hm.up.length_le
    exact fun hroom => h (Nat.le_trans (Nat.add_le_add_right hlen 1) hroom)
  flag _ h := h

theorem State.raised_cases (f : Flag) (s : State) :
    (hasFlag s.maint.flags f = true ∨ hasFlag s.maint.mask f = true) ∧ s.raised f = [] ∨
      (hasFlag s.maint.flags f = false ∧ hasFlag s.maint.mask f = false) ∧
        s.raised f = [.known (attentionCell (s.flagged f))] := by
  unfold State.raised
  by_cases h : (hasFlag s.maint.flags f || hasFlag s.maint.mask f) = true
  · exact .inl ⟨Bool.or_eq_true_iff.mp h, if_pos h⟩
  · exact .inr ⟨Bool.or_eq_false_iff.mp (Bool.eq_false_of_not_eq_true h), if_neg h⟩

/-- A flag set, its cell discarded where the up queue is full (11, R192; 01, R18). -/
theorem State.setFlag_told (f : Flag) (s : State) : s.setFlag f =
    if s.raised f = [] then s.flagged f
    else if s.lane.upQueue.length < 64 then (s.flagged f).queued .up (s.raised f) else (s.flagged f).discarded .up := by
  rcases s.raised_cases f with ⟨hquiet, hraised⟩ | ⟨⟨hset, hmask⟩, hraised⟩
  · rw [if_pos hraised]
    unfold State.setFlag
    by_cases hset : hasFlag s.maint.flags f = true
    · rw [if_pos hset, State.flagged, State.modMaint, or_flagMask hset]
    · rw [if_neg hset]
      exact if_pos (hquiet.resolve_left hset)
  · have hsets : s.setFlag f = (s.flagged f).join .up (.known (attentionCell (s.flagged f))) := by
      unfold State.setFlag
      rw [if_neg (ne_true_of_eq_false hset)]
      exact if_neg (ne_true_of_eq_false hmask)
    rw [hraised, if_neg (List.cons_ne_nil _ _), hsets]
    by_cases hroom : (s.flagged f).room .up 1
    · rw [State.join_room _ hroom]
      exact (if_pos (by exact hroom)).symm
    · rw [State.join_full _ hroom]
      exact (if_neg (by exact hroom)).symm

theorem State.forwardBad_full (h : ¬ s.room d 1) (c : LaneCell) : s.forwardBad d c =
    ((s.modLaneCounters fun k => { k with malformed := satInc k.malformed }).setFlag .malformedCell).discarded d := by
  refine State.join_full c ((KeptLanes.full d).setFlag ?_ _)
  exact h

/-! ### Cells of tracked stations, replies and pilot arrivals -/

/-- The answer to a request, in one cell. -/
theorem State.reply_single {tag : Byte} {a : Answer} (h : a.data.length ≤ Config.replyBytes) :
    State.reply tag a = a.state.join .up (replyCell a.state.lane.own tag a.outcome a.data) := by
  have hparts : replyParts a.data = [a.data] := by
    unfold replyParts
    cases a.data.length with
    | zero => rfl
    | succ k =>
      unfold replyPartsAux
      rw [if_pos h]
  unfold State.reply
  rw [hparts]
  rfl

/-- Settles O11: by the kind of the cell that finds its queue full. -/
theorem fullQueueDiscards : Obligations.FullQueueDiscards := by
  refine ⟨fun d c s => ⟨State.join_room c, State.join_full c⟩, fun i d c s hp hc hcell hok hfull =>
    ⟨fun hu => ?untouched, fun hown => ?report⟩, ?bad, ?up, ?down, ?refused, ?pilot⟩
  case untouched =>
    rw [exec_cell hcell hp hc hok, State.classify_untouched (by rw [State.endBridge_own]; exact hu), ← cellOf_dir hcell,
      State.join_full _ (State.endBridge_full hfull d)]
  case report =>
    obtain ⟨hclass, hdir⟩ := (s.endBridge d).classify_ownReport (c := c) (by rw [State.endBridge_own]; exact hown)
    have hcounted : ¬ (s.endBridge d).unexpected.room d 1 := State.endBridge_full hfull d
    rw [exec_cell hcell hp hc hok, hclass, ← hdir, ← cellOf_dir hcell, State.join_full _ hcounted]
    rfl
  case bad =>
    intro c d bytes s h hp hc hfull t told
    let counted := (s.endBridge d).modLaneCounters fun k => { k with malformed := satInc k.malformed }
    have hraised : counted.raised .malformedCell = s.raised .malformedCell := by cases d <;> rfl
    have hqueue : counted.lane.upQueue = s.lane.upQueue := by cases d <;> rfl
    have htold : counted.setFlag .malformedCell = told := by
      rw [State.setFlag_told, hraised, hqueue]
    have hforwards (w : LaneCell) : (s.endBridge d).forwardBad d w = told.discarded d := by
      rw [State.forwardBad_full (State.endBridge_full hfull d), ← htold]
    rcases h with ⟨cell, rfl⟩ | ⟨rfl, hw⟩
    · rw [exec_badCell (bytes := []) (.inl ⟨cell, rfl, rfl⟩) hp hc, hforwards]
    · rw [exec_badCell (.inr ⟨rfl, hw, rfl⟩) hp hc, hforwards]
  case up =>
    intro eq call s hp hc ht hcall hfull n st b
    have hn : n < 384 := tracked_lt ht
    have hbfull : ¬ b.room .up 1 := State.endBridge_full hfull .up
    refine ⟨fun hl => ?offHook, fun hl => ?ring, fun hl hnone hopen via => ?answered, fun hl hby havail => ?onHook,
      fun hoff hnone hopen cause => ?refuses⟩
    case offHook =>
      rw [exec_offHook hp hc ht, State.offHook, State.trackOffHook_idle (s := b) hn hl]
      exact congrArg _ (State.join_full _ (by exact hbfull))
    case ring =>
      have hrung : ¬ (b.rung n call).reevaluateAll.room .up 1 := fun h =>
        hbfull ((State.reevaluateAll_room (b.rung n call) ..).mp h)
      rw [exec_ringStarted hp hc ht hcall, State.ringStarted, State.trackRingStarted_rings (s := b) hn hl]
      exact congrArg _ (State.join_full _ hrung)
    case answered =>
      have hsilent : (b.spoken n call).unrung n st.line = b.spoken n call :=
        if_neg (by rcases hl with h | h <;> rw [h] <;> nofun)
      have happlied : b.applyAnswered n call = b.spoken n call := by
        rw [State.applyAnswered_plain (s := b) (st := st) hn rfl rfl (hl.imp_right .inl), hsilent]
      have hanswered : b.answered n call = (b.spoken n call, .pass) := by
        rw [State.answered_none (s := b) hnone, if_neg (by simp [hopen, b]), happlied]
      rw [exec_answered hp hc ht hcall via, show (s.endBridge .up).answered eq.toNat call = _ from hanswered]
      exact congrArg _ (State.join_full _ (by exact hbfull))
    case onHook =>
      have hends : st.endsCall = false := by simp [Station.endsCall, hl, hby]
      have hwrap : b.wrapUpAfter st = st.wrapUp := by
        rw [State.wrapUpAfter_call (.inl hl), hby]
      have htracked := State.trackOnHook_call (s := b) (st := st) hn rfl (.inl hl)
      dsimp only at htracked
      rw [if_neg (by rw [hl]; nofun), hwrap, hends] at htracked
      have hleft : b.hungUp n st.wrapUp st.lastIdle =
          { b with stations := s.stations.put n { st with line := .idle, call := none } } := by
        have hrecord : { st with line := .idle, call := none, deliveredBy := none } =
            { st with line := .idle, call := none } :=
          congrArg (fun x => { st with line := .idle, call := none, deliveredBy := x }) hby.symm
        have hraise : s.hunt.raiseIf (st.available && st.wrapUp.isNone) n = s.hunt := by
          rw [havail]
          rfl
        show { b with stations := s.stations.put n { st with line := .idle, call := none, deliveredBy := none },
                      hunt := s.hunt.raiseIf (st.available && st.wrapUp.isNone) n } = _
        rw [hrecord, hraise]
        rfl
      rw [exec_onHook hp hc ht, State.onHook, show (s.endBridge .up).trackOnHook eq.toNat = _ from htracked]
      show Host.Outcome.next ((b.hungUp n st.wrapUp st.lastIdle).join .up _) = _
      rw [hleft]
      exact congrArg _ (State.join_full _ (by exact hbfull))
    case refuses =>
      have hm : b.isMember n call = false := by
        unfold State.isMember
        rw [show b.record call = none from hnone]
      have hclosed : ((b.record call).isSome || b.hunt.closed.contains call) = false := by
        rw [show b.record call = none from hnone]
        simpa [b] using hopen
      have hrefused : b.refused n call = (b, .pass) := by
        rw [State.refused_eq (s := b) hn, hm, hclosed, State.trackOfferGone_off (s := b) hoff]
        rfl
      rw [exec_refused hp hc ht hcall cause, show (s.endBridge .up).refused eq.toNat call = _ from hrefused]
      exact congrArg _ (State.join_full _ hbfull)
  case down =>
    intro eq call s hp hc ht hown hcall hfull n st b
    have hn : n < 384 := tracked_lt ht
    have hbfull : ¬ b.room .down 1 := State.endBridge_full hfull .down
    refine ⟨fun called caller cls group hw hl => ?offer, fun cause hon hm => ?withdraw, fun hno hnone => ?callEnd⟩
    case offer =>
      rw [exec_offer hp hc ht hown hw, State.trackOffer_eq hn, if_pos (by exact hl)]
      exact congrArg _ (State.join_full _ (by exact hbfull))
    case withdraw =>
      have hmember : ((b.idled n).ringingRemove n).isMember n call = false :=
        (State.isMember_congr (State.idled_records n b) n call).trans hm
      have hfullLeft : ¬ ((b.idled n).ringingRemove n).room .down 1 := fun h => hbfull ((State.idled_room ..).mp h)
      have hgone : (b.trackOfferGone n call).1 = (b.idled n).ringingRemove n := by
        rw [State.trackOfferGone_on (s := b) hn hon]
      rw [exec_withdraw hp hc ht hown hcall]
      unfold State.withdrawn
      rw [show ((s.endBridge .down).trackOfferGone eq.toNat call).1 = _ from hgone, State.offerLost_not hmember,
        State.join_full _ hfullLeft]
      rfl
    case callEnd =>
      have hstations : b.stationsOn call = [] := by
        refine List.eq_nil_iff_forall_not_mem.mpr fun m hmem => ?_
        obtain ⟨hm, hon⟩ := State.mem_stationsOn.mp hmem
        exact hno m hm hon
      have hreleased : b.releasedFrom call = b := by
        unfold State.releasedFrom
        rw [hstations]
        rfl
      rw [exec_callEnd hp hc hcall, show (s.endBridge .down).releasedFrom call = b from hreleased,
        State.abandon_none (by exact hnone), State.join_full _ hbfull]
  case refused =>
    intro i tag kind args s hreq hp hc hfull hrefused
    let b := s.endBridge .down
    obtain ⟨hstate, hlen, -⟩ := State.request_refused hrefused
    have hsingle := State.reply_single (tag := tag) (a := b.request kind.toNat args) (hlen.trans (by decide))
    rw [hstate, State.join_full _ (State.endBridge_full hfull .down)] at hsingle
    rw [exec_maintain hreq hp hc, State.maintain]
    show Host.Outcome.next ((State.reply tag (b.request kind.toNat args)).commitNow kind _) = _
    rw [State.commitNow, if_neg fun h => hrefused h.2, hsingle]
  case pilot =>
    intro call called caller cls group g n clear s hw hp hc b f live
    have hb : (s.endBridge .down).reopened call = b := rfl
    have hbfull {d : Dir} (h : ¬ s.room d 1) : ¬ b.room d 1 := State.endBridge_full h .down
    rw [exec_pilotArrival hw hp hc]
    refine ⟨fun hfull hrefuses => ?_, fun hfull hmode hgroup hnone halarm hlen hempty hselect => ?_⟩
    · rw [State.pilotArrival_refused hb hrefuses, State.sendOwn, State.join_full _ (hbfull hfull)]
    · have hsel : b.select g [] = some (n, clear) :=
        (State.select_congr (t := b) (s := s) rfl rfl rfl g []).trans hselect
      rw [State.pilotArrival_takeIn hb hmode hgroup hnone halarm, State.takeIn_offers (s := b) hnone hlen hempty hsel,
        State.join_full]
      · rfl
      · exact hbfull hfull

end Sys2Proof.Machine
end
